-- ==== Sys2Proof/Word.lean ====
section
/-! DEFINITION. The word types of Skaent-1: 64-bit scalars, 32-bit lanes, bytes, and the 32 lanes of a wave (R4, R127). -/

namespace Sys2Proof

/-- A 64-bit scalar register, address or system register (R127). -/
abbrev Word := BitVec 64

/-- One 32-bit lane value (R127). -/
abbrev W32 := BitVec 32

/-- One byte of memory: a location holds one (R36). -/
abbrev Byte := BitVec 8

/-- The execution mask and every other mask with one bit per lane (R137). -/
abbrev Mask := BitVec 32

/-- Thirty-two lane values: every Ziolmea vector register has 32 lanes (R4). -/
abbrev Lanes := Vector W32 32

/-- A scalar register number, s0 to s63. -/
abbrev SReg := Fin 64

/-- A vector register number, v0 to v255. -/
abbrev VNum := Fin 256

/-- A small-matrix register number, q0 to q7. -/
abbrev QNum := Fin 8

end Sys2Proof
end

