-- ==== Sys2Proof/Syntax.lean ====
section
/-! DEFINITION. The abstract syntax: operand forms of the five instruction formats (R69 to R83), the identifiers
events name, and Instr, with one constructor for each row of spec/opcode_table.json: 193 instructions that a wave
issues and 91 steps of the ordering machine, the engines, the host and the module. -/

namespace Sys2Proof

/-! ## The head (R69, R70) -/

/-- The guard field of the head: GC with GS and GB (R69, R70). -/
inductive Guard where
  | always
  | ifSet (gs : SReg) (gb : Fin 64)
  | ifClear (gs : SReg) (gb : Fin 64)
  deriving DecidableEq, Repr, Inhabited

/-- What every instruction carries beside its own fields: the guard and the switch marker Y (R69, R71). -/
structure Head where
  guard : Guard := .always
  y : Bool := false
  deriving DecidableEq, Repr, Inhabited

/-! ## Operands of the V-form (R76 to R79) -/

/-- The permutation a vector source takes through the crossbar (R76, R77). -/
inductive Perm where
  | ident
  | rot (n : Fin 32)
  | bc (n : Fin 32)
  | bfly (n : Fin 32)
  | mir
  | sup (n : Fin 32)
  | sdn (n : Fin 32)
  deriving DecidableEq, Repr, Inhabited

/-- A source operand field: a vector register with its permutation and last-use bit, or a scalar (R76, R78). -/
inductive VSrc where
  | vec (reg : VNum) (perm : Perm) (last : Bool)
  | sca (reg : SReg)
  deriving DecidableEq, Repr, Inhabited

/-- A group operand: the first register of the group and its last-use bit; PAT and AMT are zero (R79). -/
structure VGrp where
  reg : VNum
  last : Bool := false
  deriving DecidableEq, Repr, Inhabited

/-- A q source operand (R216). -/
structure QSrc where
  reg : QNum
  last : Bool := false
  deriving DecidableEq, Repr, Inhabited

/-- The ORD field (R44). -/
inductive MOrd where
  | plain | acq | rel | sc
  deriving DecidableEq, Repr, Inhabited

/-- The size and type codes of R81. -/
inductive Szt where
  | w | i8 | z8 | i16 | z16 | dw | qw
  deriving DecidableEq, Repr, Inhabited

/-- The ordering, scope and eviction fields of the memory MOD38 (R44 to R46, R80). -/
structure MMod where
  ord : MOrd := .plain
  scope : Fin 6 := 5
  evp : Fin 8 := 0
  deriving DecidableEq, Repr, Inhabited

/-- A memory operand: base, index and the 26-bit signed byte offset (R80, R97, R182). -/
structure MemOp where
  base : SReg
  index : VSrc := .sca 0
  ofs : BitVec 26 := 0
  deriving DecidableEq, Repr, Inhabited

/-- A memory operand with the 20-bit offset of ATOM and RED (R82). -/
structure MemOp20 where
  base : SReg
  index : VSrc := .sca 0
  ofs : BitVec 20 := 0
  deriving DecidableEq, Repr, Inhabited

/-- The atomic operations of R82. -/
inductive Aop where
  | add | mins | maxs | minu | maxu | band | bor | bxor | swap | cas | fadd | fmin | fmax
  deriving DecidableEq, Repr, Inhabited

/-- The compare codes of R152. -/
inductive Cc where
  | eq | ne | lt | le | gt | ge | ltu | leu | gtu | geu | un
  deriving DecidableEq, Repr, Inhabited

/-- The element format codes: ELEM of R119 and the FMT of R163. -/
inductive Fmt where
  | fp32 | bf16 | fp16 | e4m3 | e5m2 | e3m2 | e2m1 | i8 | i4 | i32
  deriving DecidableEq, Repr, Inhabited

/-- The element operations of NEST (R199). -/
inductive Eop where
  | copy | add | sub | mul | mac | min | max | relu
  deriving DecidableEq, Repr, Inhabited

/-- The fields of a NEST word (R83, R199): slot, extents 0 (innermost) to 4, strides STR0 to STR14, bases. -/
structure NestArgs where
  eop : Eop
  red : Bool
  fs : Fin 8
  ext : Vector (BitVec 12) 5
  str : Vector (BitVec 9) 15
  bs0 : SReg
  bs1 : SReg
  bs2 : SReg
  deriving DecidableEq, Repr

/-- The memory operand of TLD and TST (R294): base, scalar index, record, CNT and the 20-bit offset. -/
structure TileOp where
  base : SReg
  index : SReg := 0
  lr : Fin 8
  cnt : Fin 6
  ofs : BitVec 20 := 0
  evp : Fin 8 := 0
  scope : Fin 6 := 5
  deriving DecidableEq, Repr, Inhabited

/-! ## Identifiers that events name -/

/-- A core: die, cluster, core (R1). -/
structure CoreId where
  die : Fin 8
  clu : Fin 12
  core : Fin 4
  deriving DecidableEq, Repr, Inhabited

/-- A node of the ordering machine's tree (R33). -/
inductive NodeId where
  | core (c : CoreId)
  | cluster (d : Fin 8) (k : Fin 12)
  | die (d : Fin 8)
  | package
  | root
  deriving DecidableEq, Repr, Inhabited

/-- An access that may perform: one in an issue queue, or byte `k` of a started copy (R39, R53). -/
inductive Sel where
  | acc (id : Nat)
  | copy (pkt k : Nat)
  deriving DecidableEq, Repr, Inhabited

/-- A requester outside the package: the host or the peer module of a number (R34, R363). -/
inductive Party where
  | host
  | peer (m : Fin 64)
  deriving DecidableEq, Repr, Inhabited

/-- Where a host access lands: a BAR4 offset (R358) or a physical address of the domain (R363). -/
inductive HostAddr where
  | bar4 (off : Nat)
  | phys (pa : Nat)
  deriving DecidableEq, Repr, Inhabited

/-- What a host read names: memory, a BAR2 register of a space (R359), or a BAR0 register (R361). -/
inductive HostSrc where
  | mem (a : HostAddr) (n : Nat)
  | bar2 (asid : Nat) (off : Nat)
  | bar0 (off : Nat)
  deriving DecidableEq, Repr, Inhabited

/-- A channel of a Teasel engine (R236, R359). -/
structure ChanId where
  die : Fin 8
  clu : Fin 12
  chan : Fin 4
  deriving DecidableEq, Repr, Inhabited

/-- The registers that REGISTER_WRITE names: those with no row of their own (R308, R359, R361);
chqNone: a write of CHQ.ATT with OP 10 or 11, which does nothing and reads back as a failure (R237). -/
inductive HostReg where
  | asPtb (asid : Nat)
  | fltVec (asid : Nat)
  | trapBase (asid : Nat)
  | fltSvc (asid : Nat)
  | mftN (asid : Nat)
  | tlbLease (asid : Nat)
  | tlbiVa (asid : Nat)
  | eyebright (asid : Nat) (index : Nat)
  | chqNone (asid : Nat) (ch : ChanId)
  | yarFp (d : Fin 8)
  | yarClim (d : Fin 8) (k : Fin 12)
  deriving DecidableEq, Repr, Inhabited

/-- A unit that an error poisons (R333, R334); a stack entry is named by its index from the bottom of its stack. -/
inductive PoisonUnit where
  | mem (block : Nat)
  | spad (cohort word : Nat)
  | vreg (wave : Nat) (reg : VNum) (lane : Fin 32)
  | qelem (wave : Nat) (reg : QNum) (lane : Fin 32) (elem : Nat)
  | stack (wave : Nat) (lane : Fin 32) (idx : Nat)
  | sreg (wave : Nat) (reg : SReg)
  | control (wave : Nat)
  deriving DecidableEq, Repr, Inhabited

/-- Where a placement or a migration puts the cohorts of an entry: one core and first free slots for each cohort;
which core is chosen is not fixed (R273, R274). -/
structure Seat where
  core : CoreId
  slots : List (Fin 32)
  deriving DecidableEq, Repr, Inhabited

/-- The four engine-class rails (R277). -/
inductive Rail where
  | matrix | vector | sram | fabric
  deriving DecidableEq, Repr, Inhabited

/-- The signed configuration record (R369), with what firmware signs beside it: each die's current budget (R276), and the
CXL ports whose expanders the bulk tier interleaves (R362), among which software cannot tell its addresses apart. -/
structure CfgRecord where
  modno : Fin 64
  version : BitVec 16
  dies : BitVec 8
  members : BitVec 64
  bulkBytes : Nat
  swapPool : Nat
  routes : List (List (Fin 12))
  currents : Vector Nat 8 := Vector.replicate 8 0
  interleave : List (Fin 10) := []
  deriving DecidableEq, Repr

/-! ## Instructions and events -/

/-- What a Lanby request says of its sender: the module, and the key id it carries (HDR [47:40], R364). -/
structure LanbySrc where
  mod : Fin 64
  key : BitVec 8
  deriving DecidableEq, Repr

/-- One constructor for each row of spec/opcode_table.json. The first 193 carry a Head; the rest are events. -/
inductive Instr where
  -- group 0: scalar (R154)
  | smov (h : Head) (d a : SReg)
  | smovi (h : Head) (d : SReg) (imm : BitVec 24)
  | slui (h : Head) (d a : SReg) (imm : BitVec 24)
  | sadd (h : Head) (d a b : SReg)
  | saddImm (h : Head) (d a : SReg) (imm : BitVec 24)
  | ssub (h : Head) (d a b : SReg)
  | smul (h : Head) (d a b : SReg)
  | smulh (h : Head) (d a b : SReg)
  | sdiv (h : Head) (d a b : SReg)
  | srem (h : Head) (d a b : SReg)
  | sand (h : Head) (d a b : SReg)
  | sandImm (h : Head) (d a : SReg) (imm : BitVec 24)
  | sor (h : Head) (d a b : SReg)
  | sorImm (h : Head) (d a : SReg) (imm : BitVec 24)
  | sxor (h : Head) (d a b : SReg)
  | sxorImm (h : Head) (d a : SReg) (imm : BitVec 24)
  | sshl (h : Head) (d a b : SReg)
  | sshlImm (h : Head) (d a : SReg) (imm : BitVec 24)
  | sshr (h : Head) (d a b : SReg)
  | sshrImm (h : Head) (d a : SReg) (imm : BitVec 24)
  | ssar (h : Head) (d a b : SReg)
  | ssarImm (h : Head) (d a : SReg) (imm : BitVec 24)
  | smin (h : Head) (d a b : SReg)
  | smax (h : Head) (d a b : SReg)
  | scmp (h : Head) (d a b : SReg) (cc : Cc)
  | ssel (h : Head) (d a b : SReg) (sc : SReg)
  | sbfx (h : Head) (d a : SReg) (pos : Fin 64) (wid : Fin 65)
  | sbfi (h : Head) (d a : SReg) (pos : Fin 64) (wid : Fin 65)
  | spopc (h : Head) (d a : SReg)
  | sclz (h : Head) (d a : SReg)
  | sctz (h : Head) (d a : SReg)
  -- control flow (R155 to R158)
  | br (h : Head) (ofs : BitVec 24)
  | brz (h : Head) (a : SReg) (ofs : BitVec 24)
  | brnz (h : Head) (a : SReg) (ofs : BitVec 24)
  | brb (h : Head) (a : SReg) (n : Fin 64) (ofs : BitVec 24)
  | brm (h : Head) (n : Fin 4) (ofs : BitVec 24)
  | call (h : Head) (ofs : BitVec 24)
  | ret (h : Head)
  | jmpr (h : Head) (a : SReg)
  | sloop (h : Head) (d : SReg) (ofs : BitVec 24)
  | exit (h : Head)
  | wsleep (h : Head) (a : SReg)
  | nopw (h : Head)
  -- group 1: vector integer and logic (R159, R160)
  | vmov (h : Head) (d : VNum) (a : VSrc)
  | vmovi (h : Head) (d : VNum) (imm : BitVec 32)
  | vadd (h : Head) (d : VNum) (a b : VSrc)
  | vadds (h : Head) (d : VNum) (a b : VSrc)
  | vsub (h : Head) (d : VNum) (a b : VSrc)
  | vmul (h : Head) (d : VNum) (a b : VSrc)
  | vmulh (h : Head) (d : VNum) (a b : VSrc)
  | vmad (h : Head) (d : VNum) (a b c : VSrc)
  | vdiv (h : Head) (d : VNum) (a b : VSrc)
  | vrem (h : Head) (d : VNum) (a b : VSrc)
  | vand (h : Head) (d : VNum) (a b : VSrc)
  | vor (h : Head) (d : VNum) (a b : VSrc)
  | vxor (h : Head) (d : VNum) (a b : VSrc)
  | vnot (h : Head) (d : VNum) (a : VSrc)
  | vshl (h : Head) (d : VNum) (a b : VSrc)
  | vshr (h : Head) (d : VNum) (a b : VSrc)
  | vsar (h : Head) (d : VNum) (a b : VSrc)
  | vmin (h : Head) (d : VNum) (a b : VSrc)
  | vmax (h : Head) (d : VNum) (a b : VSrc)
  | vabs (h : Head) (d : VNum) (a : VSrc)
  | vneg (h : Head) (d : VNum) (a : VSrc)
  | vcmp (h : Head) (d : SReg) (a b : VSrc) (cc : Cc)
  | vsel (h : Head) (d : VNum) (a b c : VSrc)
  | vbfx (h : Head) (d : VNum) (a : VSrc) (pos : Fin 32) (wid : Fin 33)
  | vbfi (h : Head) (d : VNum) (a : VSrc) (pos : Fin 32) (wid : Fin 33)
  | vpopc (h : Head) (d : VNum) (a : VSrc)
  | vclz (h : Head) (d : VNum) (a : VSrc)
  | vlane (h : Head) (d : VNum)
  | vdot4 (h : Head) (d : VNum) (a b c : VSrc)
  | vdot8 (h : Head) (d : VNum) (a b c : VSrc)
  -- group 2: float and special functions (R161, R162)
  | fadd (h : Head) (d : VNum) (a b : VSrc)
  | fsub (h : Head) (d : VNum) (a b : VSrc)
  | fmul (h : Head) (d : VNum) (a b : VSrc)
  | ffma (h : Head) (d : VNum) (a b c : VSrc)
  | fdiv (h : Head) (d : VNum) (a b : VSrc)
  | fsqrt (h : Head) (d : VNum) (a : VSrc)
  | fmin (h : Head) (d : VNum) (a b : VSrc)
  | fmax (h : Head) (d : VNum) (a b : VSrc)
  | fabs (h : Head) (d : VNum) (a : VSrc)
  | fneg (h : Head) (d : VNum) (a : VSrc)
  | fcmp (h : Head) (d : SReg) (a b : VSrc) (cc : Cc)
  | fclass (h : Head) (d : VNum) (a : VSrc)
  | ftrunc (h : Head) (d : VNum) (a : VSrc)
  | ffloor (h : Head) (d : VNum) (a : VSrc)
  | fceil (h : Head) (d : VNum) (a : VSrc)
  | fdot2 (h : Head) (d : VNum) (a b c : VSrc)
  | fdot4 (h : Head) (d : VNum) (a b c : VSrc)
  | fexp2 (h : Head) (d : VNum) (a : VSrc)
  | flog2 (h : Head) (d : VNum) (a : VSrc)
  | frcp (h : Head) (d : VNum) (a : VSrc)
  | frsq (h : Head) (d : VNum) (a : VSrc)
  | fsin (h : Head) (d : VNum) (a : VSrc)
  | fcos (h : Head) (d : VNum) (a : VSrc)
  | ftanh (h : Head) (d : VNum) (a : VSrc)
  | fsigm (h : Head) (d : VNum) (a : VSrc)
  | ferf (h : Head) (d : VNum) (a : VSrc)
  -- group 3: conversion, shape, cross-lane, masks, execute-vector (R163 to R181)
  | cvt (h : Head) (d : VNum) (a : VSrc) (f : Fmt)
  | pack (h : Head) (d : VNum) (a : VGrp) (f : Fmt)
  | unpk (h : Head) (d : VNum) (a : VSrc) (f : Fmt) (k : Fin 8)
  | qnt (h : Head) (d : VNum) (a : VSrc) (fs : Fin 8)
  | vtag (h : Head) (d : SReg) (a : VGrp)
  | vsqz (h : Head) (d : VNum) (a : VSrc)
  | vperm (h : Head) (d : VNum) (a b : VSrc)
  | redu (h : Head) (d : VNum) (a : VSrc) (op : Aop)
  | scan (h : Head) (d : VNum) (a : VSrc) (op : Aop)
  | mset (h : Head) (a : SReg)
  | mget (h : Head) (d : SReg)
  | mand (h : Head) (a : SReg)
  | mandn (h : Head) (a : SReg)
  | mor (h : Head) (a : SReg)
  | mnot (h : Head)
  | xev (h : Head) (op : VSrc) (w : VGrp) (t : Bool)
  | xpush (h : Head) (a : VSrc)
  | xpop (h : Head) (d : VNum)
  | xtop (h : Head) (d : VNum)
  | xclr (h : Head)
  | xdepth (h : Head) (d : VNum)
  -- group 4: memory, atomics, monitors, barriers, nest (R182 to R210)
  | ld (h : Head) (d : VNum) (m : MemOp) (sz : Szt) (o : MMod)
  | st (h : Head) (m : MemOp) (c : VSrc) (sz : Szt) (o : MMod)
  | lds (h : Head) (d : VNum) (m : MemOp) (sz : Szt) (o : MMod)
  | sts (h : Head) (m : MemOp) (c : VSrc) (sz : Szt) (o : MMod)
  | ldb (h : Head) (d : VNum) (m : MemOp) (sz : Szt) (o : MMod)
  | stb (h : Head) (m : MemOp) (c : VSrc) (sz : Szt) (o : MMod)
  | atom (h : Head) (d : VNum) (m : MemOp20) (c : VSrc) (op : Aop) (o : MMod)
  | red (h : Head) (m : MemOp20) (c : VSrc) (op : Aop) (o : MMod)
  | fence (h : Head) (ord : MOrd) (scope : Fin 6)
  | pref (h : Head) (m : MemOp) (scope : Fin 6) (evp : Fin 8)
  | tres (h : Head) (base : SReg) (ofs : BitVec 26) (c : VSrc) (evp : Fin 8) (scope : Fin 6)
  | mon (h : Head) (m : MemOp) (scope : Fin 6) (evp : Fin 8)
  | mwait (h : Head) (d a : SReg)
  | bar (h : Head) (b : Fin 16)
  | bara (h : Head) (b : Fin 16)
  | barw (h : Head) (b : Fin 16)
  | ebar (h : Head) (e : Fin 4)
  | nest (h : Head) (n : NestArgs)
  -- group 5: Vetch (R215 to R230)
  | qdim (h : Head) (d : QNum) (rows cols : Fin 8)
  | qld (h : Head) (d : QNum) (m : MemOp) (o : MMod)
  | qst (h : Head) (m : MemOp) (c : QSrc) (o : MMod)
  | qzero (h : Head) (d : QNum)
  | qid (h : Head) (d : QNum)
  | qmov (h : Head) (d : QNum) (a : QSrc)
  | qtrn (h : Head) (d : QNum) (a : QSrc)
  | qadd (h : Head) (d : QNum) (a b : QSrc)
  | qsub (h : Head) (d : QNum) (a b : QSrc)
  | qmul (h : Head) (d : QNum) (a b : QSrc)
  | qmad (h : Head) (d : QNum) (a b c : QSrc)
  | qscl (h : Head) (d : QNum) (a : QSrc) (b : VSrc)
  | qchol (h : Head) (d : QNum) (a : QSrc)
  | qlu (h : Head) (d : QNum) (p : VNum) (a : QSrc)
  | qsolvCholesky (h : Head) (d : QNum) (f b : QSrc)
  | qsolvLu (h : Head) (d : QNum) (f b : QSrc) (p : VSrc)
  | qget (h : Head) (d : VNum) (a : QSrc) (i j : Fin 8)
  | qput (h : Head) (d : QNum) (a : VSrc) (i j : Fin 8)
  | qstatVst (h : Head) (d : SReg)
  | qstatNpd (h : Head) (d : SReg) (a : QSrc)
  | qstatSing (h : Head) (d : SReg) (a : QSrc)
  | qstatClear (h : Head) (d : SReg)
  | qstatShape (h : Head) (d : SReg) (a : QSrc)
  -- group 6: Sorrel, Teasel, Yarrow (R285 to R297, R241 to R247, R265 to R268)
  | mma (h : Head) (d : VNum) (a b : VGrp) (c : VGrp) (fs : Fin 8) (ra : Bool)
  | tld (h : Head) (d : VNum) (m : TileOp)
  | tst (h : Head) (m : TileOp) (c : VGrp)
  | lrec (h : Head) (d : Fin 8) (a b : SReg)
  | cpyq (h : Head) (d : SReg) (q : VSrc) (b : VSrc)
  | cpyp (h : Head) (d a : SReg)
  | cpyxSt (h : Head) (d : SReg) (q : VSrc)
  | cpyxStop (h : Head) (d : SReg) (q : VSrc)
  | cpyxSkip (h : Head) (d : SReg) (q : VSrc)
  | cpyxRetry (h : Head) (d : SReg) (q : VSrc)
  | tskl (h : Head) (d a : SReg)
  | tsks (h : Head) (a b : VSrc) (scope : Fin 6)
  | tskq (h : Head) (d : SReg) (a : VSrc)
  -- group 7: system, trap, debug, counters (R315, R344, R346, R348)
  | trapi (h : Head) (code : BitVec 24)
  | eret (h : Head)
  | srd (h : Head) (d : SReg) (reg : BitVec 12)
  | swr (h : Head) (reg : BitVec 12) (a : SReg)
  | wsave (h : Head) (d a b : SReg)
  | wrest (h : Head) (d a : SReg)
  | tlbi (h : Head) (d a b : SReg)
  | clkrCr (h : Head) (d : SReg)
  | clkrCore (h : Head) (d : SReg)
  | brk (h : Head) (code : BitVec 16)
  | dbgmRead (h : Head) (d : SReg) (reg : BitVec 10)
  | dbgmWrite (h : Head) (d : SReg) (reg : BitVec 10) (a : SReg)
  | haltHalt (h : Head) (d a b : SReg)
  | haltGo (h : Head) (d a b : SReg)
  | haltStep (h : Head) (d a b : SReg)
  | haltQuery (h : Head) (d a b : SReg)
  | perfsRead (h : Head) (d : SReg) (sel : Fin 14)
  | perfsSnapshot (h : Head) (d : SReg)
  | perfsShadowRead (h : Head) (d : SReg) (sel : Fin 14)
  -- events: the ordering machine (R38 to R48, R56 to R58)
  | performLoad (x : Sel)
  | performStore (x : Sel)
  | drain (entry : Nat)
  | evict (n : NodeId) (pa : Nat)
  | rmwPerform (id : Nat)
  | fencePerform (id : Nat)
  | barrierArrival (id : Nat)
  | barrierResume (wave : Nat)
  -- events: results of a wave (R140, R144, R178, R200, R229, R289)
  | deferredReturn (wave id : Nat)
  | scoreboardComplete (wave id : Nat)
  | xevComplete (wave id : Nat)
  | vetchComplete (wave id : Nat)
  | mmaComplete (wave id : Nat)
  | nestIteration (wave id : Nat)
  | sideLogReplay (id : Nat)
  | coreCycle (c : CoreId)
  | issueLimitOverride (c : CoreId) (port : Fin 4)
  | mwaitWake (wave : Nat)
  | mwaitTimeout (wave : Nat)
  | wsleepWake (wave : Nat)
  -- events: Teasel (R237, R241, R248, R249)
  | cpyqSlotWrite (wave : Nat)
  | channelFetch (queue : Nat)
  | copyStart (pkt : Nat)
  | copyCompletion (pkt : Nat)
  | queueAttach (asid : Nat) (ch : ChanId) (hdr : Nat)
  | queueDetach (asid : Nat) (ch : ChanId) (hdr : Nat)
  -- events: Yarrow (R269 to R275, R252, R318)
  | submit (asid : Nat) (agent : Fin 9) (addr : Nat)
  | taskStart (agent : Fin 9) (entry : Nat)
  | copyBatchAppend (agent : Fin 9) (entry : Nat)
  | taskCompletion (agent : Fin 9) (entry : Nat)
  | cohortPlace (d : Fin 8) (seats : List Seat)
  | migration (cohort : Nat) (seat : Seat)
  | forwardProgressSwap (c : CoreId)
  | reservationRelease (cohort : Nat)
  | rampComplete (r : Rail)
  -- events: faults, leases, interrupts (R310, R316, R320 to R322, R331)
  | faultPost (id : Nat)
  | fltResRetry (asid : Nat) (rid : W32)
  | fltResUnmappable (asid : Nat) (rid : W32)
  | leaseExpiry (id : Nat)
  | intSend (asid : Nat) (loc : BitVec 14)
  | waveStWrite (wave : Nat) (v : Word)
  | fltCfgWrite (asid : Nat) (v : Word)
  | mftBaseWrite (asid : Nat) (v : Word)
  -- events: Eyebright (R342 to R350)
  | dbgMbxWrite (asid : Nat) (v : Word)
  | mailboxEventPost (asid : Nat)
  | stepEnd (wave : Nat)
  | sample (c : CoreId)
  -- events: the host (R55, R359 to R361)
  | hostWrite (p : Party) (a : HostAddr) (bytes : List Byte) (relaxed : Bool)
  | hostRead (p : Party) (src : HostSrc)
  | registerWrite (r : HostReg) (v : Word)
  | haltCmdHalt (asid : Nat) (loc : BitVec 14) (pass mbx : Bool)
  | haltCmdGo (asid : Nat) (loc : BitVec 14) (pass mbx : Bool)
  | haltCmdStep (asid : Nat) (loc : BitVec 14) (pass mbx : Bool)
  | haltCmdQuery (asid : Nat) (loc : BitVec 14) (pass mbx : Bool)
  | saveCmd (asid : Nat) (loc : BitVec 14) (addr : Nat)
  | restCmd (asid : Nat) (addr : Nat)
  | tlbiN (asid : Nat) (n : Word)
  | asCreate (asid : Nat)
  | asDestroy (asid : Nat)
  | mgmtReq (v : Word)
  -- events: Lanby links (R364, R365)
  | lanbyRead (link : Fin 12) (src : LanbySrc) (pa n : Nat)
  | lanbyWrite (link : Fin 12) (src : LanbySrc) (pa : Nat) (bytes : List (Option Byte)) (relaxed : Bool)
  | lanbyRmw (link : Fin 12) (src : LanbySrc) (pa : Nat) (op : Aop) (x y : W32)
  | lanbyResponse (link : Fin 12) (ack : BitVec 16)
  | lanbyPoisonResponse (link : Fin 12) (id : Nat)
  | lanbyCredit (link : Fin 12)
  | lanbyBadType (link : Fin 12) (ty : Fin 16)
  | flitReplay (link : Fin 12)
  | linkFailover (link : Fin 12)
  -- events: errors, keys, attestation, bring-up, temperature (R333, R367 to R371)
  | uncorrectableError (d : Fin 8) (u : PoisonUnit)
  | correctedError (d : Fin 8)
  | keySlotLoad (slot : BitVec 8)
  | spdmGetVersion
  | spdmGetCapabilities
  | spdmNegotiateAlgorithms
  | spdmGetDigests
  | spdmGetCertificate
  | spdmChallenge
  | spdmGetMeasurements
  | spdmKeyExchange
  | spdmFinish
  | spdmEndSession
  | bringUp
  | dieOver105c (d : Fin 8)
  | dieOver110c (d : Fin 8)
  | dieOver120c (d : Fin 8)
  | illegalEncoding
  | fetchFault
  | dieBelow105c (d : Fin 8)
  | dieBelow110c (d : Fin 8)
  | signedImageAccept (r : CfgRecord)
  deriving DecidableEq, Repr

end Sys2Proof
end

