-- ==== Sys2Proof/Machine/State.lean ====
section
/-! DEFINITION. The machine's state as plain data: every piece of state the spec gives the module (INVENTORY.md,
State, lists each with its rule and reset value), the reasons a step can stop, and the state after module reset.
Agents, tables and buffers that may be sparse are lists of records; a key that a list does not hold has the value
its accessor in Machine/Ops.lean names. -/

namespace Sys2Proof.Machine

/-! ## Why a step can stop -/

/-- Reasons a step stops the machine. -/
inductive Fault where
  /-- Raised by every step after DIE_OVER_120C has powered the module down (R370): nothing runs until the next
  reset. Safe: the hardware does nothing either. -/
  | poweredDown
  /-- Raised by a wave instruction's meaning when State.cur names no resident wave. No step reaches it: step sets
  cur to a resident wave before it calls exec. Safe. -/
  | noCurrentWave
  deriving DecidableEq, Repr

/-- Reasons an instruction or event has no meaning here. -/
inductive Refusal where
  /-- An instruction not modelled yet, by its mnemonic. Safe. -/
  | notModelled (mnemonic : String)
  deriving DecidableEq, Repr

/-! ## Memory -/

/-- Bytes by address in one canonical form: addresses strictly rising and no entry equal to what an unlisted address
reads as (Machine/Ops.lean: Memory.wf, unlistedByte; log 6). -/
abbrev Memory := List Host.Cell

/-! ## Registers of a wave -/

/-- A vector register: unwritten or freed, uniform, affine (base, stride), or general (R23, R129, R132). -/
inductive VReg where
  | none
  | uni (u : W32)
  | aff (base stride : W32)
  | gen (l : Lanes)
  deriving DecidableEq, Repr

/-- The status a lane of a q register carries (R215, R219). -/
inductive QStat where
  | none | npd | sing
  deriving DecidableEq, Repr, Inhabited

/-- A q register (R215). rows = 0 means unwritten. Elements stand row-major, each expanded over the 32 lanes; of a
uniform register every lane of an element is the one stored value. -/
structure QReg where
  rows : Nat := 0
  cols : Nat := 0
  general : Bool := false
  elems : List Lanes := []
  status : Vector QStat 32 := Vector.replicate 32 .none
  deriving DecidableEq, Repr

/-- The operand stacks: per lane the visible entries, top first, at most 8 (R149). -/
abbrev Stacks := Vector (List W32) 32

/-- What a pending deferred result writes at its commit (R139, R192, R194, R222, R295). -/
inductive DefDest where
  | vload (d : VNum) (sz : Szt) (uniform : Bool)
  | vatom (d : VNum)
  | qload (d : QNum) (rows cols : Nat) (uniform : Bool)
  | tile (d : VNum) (n : Nat)
  deriving DecidableEq, Repr

/-- One returned piece of a deferred result: the word index (lane, part) it belongs to, its bytes, and whether they
were poisoned (R334). -/
structure Got where
  lane : Nat
  part : Nat
  bytes : List Byte
  poison : Bool
  deriving DecidableEq, Repr

/-- A pending deferred instruction (R139, R141): destination, captured mask, data returned so far, the bytes of memory
already returned to its lanes (R37), destination registers overwritten since by a non-deferred write (R141), lanes
whose fault resolved as unmappable (R189), and whether the data stands in the return buffer (R140). -/
structure Def where
  id : Nat
  seq : BitVec 32
  pc : Word
  dest : DefDest
  mask : Mask
  got : List Got := []
  seen : List (Nat × Byte × Bool) := []
  deadV : List VNum := []
  deadQ : Bool := false
  lost : Mask := 0
  lostAddr : Word := 0
  lostLane : Nat := 32
  lostAux : Nat := 1
  returned : Bool := false
  deriving DecidableEq, Repr

/-- The four kinds of scoreboarded result (R144). -/
inductive SbKind where
  | long | xev | vetch | mma
  deriving DecidableEq, Repr

/-- An outstanding scoreboarded instruction: the writes it makes when it completes (R144, R178, R229, R289), the first
core cycle at which it may complete, for an MMA the source registers that its array has not read until a cycle, the mask it
issued under, and for an XEV how many bottom entries of each lane's stack it leaves alone. -/
structure Sb where
  id : Nat
  kind : SbKind
  vw : List (VNum × VReg) := []
  qw : List (QNum × QReg) := []
  stk : Option Stacks := none
  xst : Mask := 0
  vst : Mask := 0
  due : Nat := 0
  src : List VNum := []
  srcUntil : Nat := 0
  em : Mask := 0xFFFFFFFF
  kept : Vector Nat 32 := Vector.replicate 32 0
  deriving DecidableEq, Repr

/-! ## Places of the ordering machine -/

/-- A location's home: a byte of M, of a cohort's scratchpad, or of a wave's register window (R36, R183). -/
inductive Place where
  | mem (pa : Nat)
  | spad (cohort off : Nat)
  | win (wave off : Nat)
  deriving DecidableEq, Repr

/-- The kinds of access an issue queue holds (R37 to R40, R56, R59, R197). -/
inductive AccKind where
  | load | store | rmw | fence | arriveB | arriveE | mon | pref
  deriving DecidableEq, Repr

/-- The agents whose accesses stand in issue queues and write buffers (R34, R38); of Yarrow's the completion words. -/
inductive Agent where
  | wave (uid : Nat)
  | channel (c : ChanId)
  | yarrow (a : Fin 9)
  deriving DecidableEq, Repr

/-- The translation an access was made under, for the waits of TLBI, and the tick at which its lease ends where it came
through a TLB (R322). -/
structure Trans where
  asid : Nat
  vpage : Nat
  granted : Nat
  ends : Option Nat := none
  deriving DecidableEq, Repr

/-- An access that has issued and not yet performed (R38). `instr` is its position in the agent's program order, which
all lanes of one instruction share (R37); `priv`: it was issued in privileged state (R319); `gen`: an address generator
makes it (R298, R300). `sub` orders the accesses of one NEST, and `nest` names its iteration and part (R200). -/
structure Access where
  id : Nat
  agent : Agent
  core : CoreId
  instr : Nat
  kind : AccKind
  place : Place
  size : Nat := 0
  lane : Nat := 0
  part : Nat := 0
  data : List Byte := []
  aop : Aop := .add
  opA : W32 := 0
  opB : W32 := 0
  ord : MOrd := .plain
  level : Nat := 5
  fill : Bool := true
  evp : Nat := 0
  device : Option Nat := none
  wcomb : Bool := false
  isSo : Bool := false
  key : BitVec 8 := 0
  priv : Bool := false
  defId : Option Nat := none
  va : Nat := 0
  asid : Nat := 0
  trans : Option Trans := none
  held : Option Nat := none
  pc : Word := 0
  seq : BitVec 32 := 0
  slot : Nat := 0
  gen : Bool := false
  sub : Nat := 0
  nest : Option (Nat × Nat) := none
  deriving DecidableEq, Repr

/-- An entry of a write buffer: bytes by address, their writer, whether they fill caches, and whether a copy wrote them
poisoned (R38, R39, R334). The list
State.wb holds the entries of every node, oldest first. -/
structure WbEntry where
  id : Nat
  node : NodeId
  agent : Agent
  bytes : List (Nat × Byte)
  fill : Bool := true
  poison : Bool := false
  sync : Bool := false
  wcomb : Bool := false
  key : BitVec 8 := 0
  trans : Option Trans := none
  instr : Nat := 0
  deriving DecidableEq, Repr

/-- An entry of a node's cache: the bytes of one access or one write from an address up, the key slot and the end of the
lease it was filled through (R38, R322, R367). -/
structure CacheEntry where
  node : NodeId
  pa : Nat
  bytes : List Byte
  key : BitVec 8 := 0
  ends : Option Nat := none
  deriving DecidableEq, Repr

/-- One lane of a side-log entry: its address and the bytes, or the operand of a RED (R62). -/
structure SideLane where
  lane : Nat
  va : Nat
  bytes : List Byte
  deriving DecidableEq, Repr

/-- A side-log entry: one page of one faulting store, RED or QST, under the name it issued with (R27, R62, R63). -/
structure SideEntry where
  id : Nat
  wave : Nat
  core : CoreId
  loc : BitVec 14
  grid : Nat
  pc : Word
  seq : BitVec 32
  instr : Nat
  asid : Nat
  page : Nat
  user : Bool
  ord : MOrd
  level : Nat
  evp : Nat
  rmw : Option Aop
  lanes : List SideLane
  fault : Nat
  ready : Bool := false
  deriving DecidableEq, Repr

/-! ## Monitors, promises, nests, parks -/

/-- An armed monitor line: the 128-byte line, the level, and the order of its arm point (R59, R202). -/
structure MonSlot where
  line : Place
  level : Nat
  order : Nat
  deriving DecidableEq, Repr

/-- A cause that makes a wake pending: WHY and the slot (R203, R204). -/
structure Wake where
  why : Nat
  slot : Nat
  deriving DecidableEq, Repr

/-- An entry of the promise table (R244); `order`: when its copy was admitted (R246). -/
structure Promise where
  promise : Word
  pkt : Nat
  queue : Nat
  slot : Nat
  scope : Nat
  pc : Word
  seq : BitVec 32
  order : Nat := 0
  complete : Bool := false
  deriving DecidableEq, Repr

/-- How a NEST stands: running, held on a fault, or stopped (R201). -/
inductive NestState where
  | running
  | held (fault : Nat)
  | stopped
  deriving DecidableEq, Repr

/-- A word that a NEST's load has returned: iteration, part of it, bytes, and whether poison touched them (R200, R334). -/
structure NestGot where
  pos : Nat
  part : Nat
  bytes : List Byte
  poison : Bool
  deriving DecidableEq, Repr

/-- An outstanding or stopped NEST: its word's fields, the bases read at issue, the next iteration to place, what its loads
have returned, its name and its position in program order (R27, R200, R201). Watchpoints pass its next iteration over where
`exempt` holds, and all of them where `stepped` does (R341). -/
structure Nest where
  id : Nat
  head : Head := {}
  args : NestArgs
  base0 : Word
  base1 : Word
  base2 : Word
  scale1 : Word
  scale2 : Word
  fmt : Fmt
  scaled : Bool
  pos : Nat := 0
  got : List NestGot := []
  state : NestState := .running
  loc : BitVec 14
  pc : Word
  seq : BitVec 32
  instr : Nat
  priv : Bool := false
  exempt : Bool := false
  stepped : Bool := false
  deriving DecidableEq, Repr

/-- Where a wave's next fetch stands: free to go, held on a fault record, or its page resolved as unmappable (R67, R321). -/
inductive FetchSt where
  | free
  | held (fault : Nat)
  | lost
  deriving DecidableEq, Repr

/-- Where a wave is parked (R140, R203, R205, R326): at a barrier, counted or, having arrived in the current generation
already, uncounted (R206). CPYQ parks until its slot is written (R241). -/
inductive Park where
  | none
  | bar (b : Fin 16)
  | barNext (b : Fin 16)
  | baraNext (b : Fin 16)
  | ebarNext (e : Fin 4)
  | barw (b : Fin 16)
  | ebar (e : Fin 4)
  | mwait (d : SReg) (start ticks : Nat)
  | wsleep (wake : Nat)
  | cpyq
  deriving DecidableEq, Repr

/-- What a wave that did not issue is waiting for, which gives its leaf (R347). -/
inductive Hold where
  | none | returns | sideLog | dependence | resource | order | barrier | engine
  deriving DecidableEq, Repr

/-- An instruction that has begun and waits at its own address for its end (R237, R247, R322, R327, R344). A CPYX waits for
the channel's write of STAT, and `.stop` for the fetched packets also; `hdr` is where the header stands and `key` its leaf's. -/
inductive InProg where
  | none
  | tlbi (t1 asid lo hi : Nat)
  | cpyx (queue hdr acc : Nat) (key : BitVec 8) (drain : Bool)
  | chq (chan : ChanId)
  | wsave (cohort : Nat)
  | haltWait (wave : Nat)
  | haltDone (v : Nat)
  deriving DecidableEq, Repr

/-- A CPYQ that has claimed its slot and waits for room (R241). -/
structure CpyqPend where
  queue : Nat
  slot : Nat
  words : List W32
  dest : SReg
  pkt : Nat
  deriving DecidableEq, Repr

/-- What a discarded side-log entry held back: its position in program order, each lane's address and length, and whether
it was a RED's and whether it was SC (R40, R190). -/
structure Discarded where
  instr : Nat
  spans : List (Nat × Nat)
  rmw : Bool := false
  sc : Bool := false
  deriving DecidableEq, Repr

/-- A pending fault of an earlier command (R189, R190, R201); `now`: taken at the next instruction boundary (R201); `entry`:
the side-log entry it stands for (R190); `loc`: where the wave stood when it issued the command (R27). -/
structure PendFault where
  seq : BitVec 32
  cls : Nat := 4
  detail : Nat
  aux : Nat
  mask : Mask
  addr : Word
  now : Bool := false
  mbx : Bool := false
  entry : Option Discarded := none
  loc : Option (BitVec 14) := none
  deriving DecidableEq, Repr

/-- A single step in progress (R344, R345). -/
structure StepSt where
  mbx : Bool
  issued : Bool := false
  stepped : Word := 0
  deriving DecidableEq, Repr

/-! ## Waves -/

/-- A wave (R127 and the rules INVENTORY.md lists for each field). `offer` is the model's own: what the wave would issue in
this core cycle, by its charge and whether it takes the Vetch unit (R146, R147). -/
structure Wave where
  uid : Nat
  cohort : Nat
  widx : Nat
  core : CoreId
  slot : Fin 32 := 0
  port : Fin 4 := 0
  pc : Word := 0
  s : Vector Word 64 := Vector.replicate 64 0
  v : Vector VReg 256 := Vector.replicate 256 .none
  em : Mask := 0xFFFFFFFF
  q : Vector QReg 8 := Vector.replicate 8 {}
  stk : Option Stacks := none
  xst : Mask := 0
  vst : Mask := 0
  seq : BitVec 32 := 0
  budget : Nat := 16384
  spilled : List VNum := []
  lru : List VNum := []
  spillPa : Option Nat := none
  defs : List Def := []
  sb : List Sb := []
  nests : List Nest := []
  mons : Vector (Option MonSlot) 4 := Vector.replicate 4 none
  wakes : List Wake := []
  /-- The highest level of the lines that an eviction or a context switch has disarmed since the last MWAIT (R61, R203). -/
  wakeLevel : Nat := 0
  bconf : Word := 0
  lmiss : Word := 0
  cause : Word := 0
  tpc : Word := 0
  tseq : Word := 0
  tmask : Word := 0
  taddr : Word := 0
  tem : Word := 0
  sv : Vector Word 4 := Vector.replicate 4 0
  priv : Bool := false
  intp : Bool := false
  haltReq : Bool := false
  halted : Bool := false
  fatal : Option Nat := none
  step : Option StepSt := none
  exempt : Bool := false
  park : Park := .none
  hold : Hold := .none
  inProg : InProg := .none
  fetch : FetchSt := .free
  cpyq : Option CpyqPend := none
  promises : List Promise := []
  arrB : Vector Nat 16 := Vector.replicate 16 0
  arrE : Vector Nat 4 := Vector.replicate 4 0
  clsB : Vector Nat 16 := Vector.replicate 16 0
  clsE : Vector Nat 4 := Vector.replicate 4 0
  pends : List PendFault := []
  weights : List (Nat × Nat) := []
  ready : Nat := 0
  offer : Option (Nat × Bool) := none
  parkOrder : Nat := 0
  barwAt : Nat := 0
  /-- The core cycle of the return from which a waiter of an older completion counts (R209). -/
  backAt : Option Nat := none
  exited : Bool := false
  deriving DecidableEq, Repr

/-! ## Cohorts, ensembles, grids -/

/-- A barrier: arrived count and generation; the expected count is that of R206. -/
structure Bar where
  arrived : Nat := 0
  gen : Nat := 1
  deriving DecidableEq, Repr, Inhabited

/-- A completed generation of a barrier: its number, t0 in core cycles of the cohort's core, the configuration that held
before t0, and whether the cohort was away, so that its return is t0 (R56, R57, R207, R209). -/
structure BDone where
  gen : Nat
  t0 : Nat
  cfg : Word
  away : Bool := false
  deriving DecidableEq, Repr

/-- Where a cohort is (R20, R273, R275, R327). -/
inductive CPlace where
  | queued
  | resident
  | away
  | saved (token : Word)
  | gone
  deriving DecidableEq, Repr

/-- A cohort (R19, R183, R206, R207, R282). -/
structure Cohort where
  uid : Nat
  grid : Nat
  cid : Nat
  ens : Nat
  ensIdx : Nat := 0
  core : CoreId
  place : CPlace := .queued
  nwaves : Nat
  spadBytes : Nat
  spad : Memory := []
  lr : Vector (BitVec 128) 8 := Vector.replicate 8 0
  bcfg : Vector Word 16 := Vector.replicate 16 0
  bars : Vector Bar 16 := Vector.replicate 16 {}
  /-- Completed generations of b0 to b15 that are the last arrival of some wave, newest first. -/
  bdone : Vector (List BDone) 16 := Vector.replicate 16 []
  /-- The same of e0 to e3. -/
  edone : Vector (List BDone) 4 := Vector.replicate 4 []
  granules : Nat := 0
  lastMove : Option Nat := none
  started : Bool := false
  deriving DecidableEq, Repr

/-- An ensemble and its barriers e0 to e3; a cohort outside an ensemble has one of its own (R206, R207). -/
structure Ensemble where
  uid : Nat
  cohorts : List Nat
  fused : Bool := false
  ecfg : Vector Word 4 := Vector.replicate 4 0
  bars : Vector Bar 4 := Vector.replicate 4 {}
  deriving DecidableEq, Repr

/-- A launch record (R260). -/
structure LaunchRec where
  entry : Word := 0
  waves : Nat := 0
  ens : Nat := 0
  fuse : Bool := false
  regs : Nat := 0
  dies : BitVec 8 := 0
  geomLow : BitVec 16 := 0
  scratch : Nat := 0
  ncoh : Nat := 0
  spill : Nat := 0
  spad : Nat := 0
  rwin : Nat := 0
  fs : Vector (BitVec 16) 8 := Vector.replicate 8 0
  args : Vector Word 8 := Vector.replicate 8 0
  reservedBad : Bool := false
  deriving DecidableEq, Repr

/-- A code page as a grid loaded and hashed it: the virtual 64 KiB page and its bytes by offset (R68, R331). -/
structure CodePage where
  vpage : Nat
  bytes : Memory
  deriving DecidableEq, Repr

/-- The grid of a started task (R19, R260 to R263). `spill`, `spad` and `rwin` of its launch record hold the bases in use;
`finished`: its task has completed and copies into it keep its cohorts' reservations (R252). -/
structure Grid where
  uid : Nat
  asid : Nat
  agent : Fin 9
  entry : Nat
  launch : LaunchRec
  code : List CodePage := []
  degraded : Bool := false
  civ : Bool := false
  storeFault : Bool := false
  undelivered : Option Nat := none
  spillFail : Bool := false
  finished : Bool := false
  tokens : List (Word × Nat) := []
  deriving DecidableEq, Repr

/-! ## Yarrow -/

/-- A footprint region (R258). -/
structure Region where
  base : Nat
  len : Nat
  write : Bool
  deriving DecidableEq, Repr

/-- A task record (R257). -/
structure TaskRec where
  depc : Nat := 0
  nx0v : Bool := false
  nx1v : Bool := false
  fence : Bool := false
  cscope : Nat := 0
  nreg : Nat := 0
  kind : Nat := 0
  stream : Nat := 0
  work : Nat := 0
  cmpa : Nat := 0
  seqv : W32 := 0
  npkt : Nat := 0
  next0 : W32 := 0
  next1 : W32 := 0
  qhdr : Nat := 0
  est : Nat := 0
  deadline : Nat := 0
  regions : List Region := []
  reservedBad : Bool := false
  deriving DecidableEq, Repr

/-- Whether a task has started (R256); Machine/Yarrow.lean tells its states apart, and a free entry is not listed. -/
inductive TaskState where
  | waiting | running
  deriving DecidableEq, Repr

/-- An entry of a task table that a task holds (R255, R256, R270, R271); `claim`: the queue and slot a copy batch has
claimed and not yet written (R238, R272). -/
structure Task where
  agent : Fin 9
  entry : Nat
  gen : Nat
  asid : Nat
  trec : TaskRec
  state : TaskState := .waiting
  counter : Nat
  edges : List (Nat × Nat) := []
  order : Nat
  acquire : Nat
  grid : Option Nat := none
  appended : Nat := 0
  claim : Option (Nat × Nat) := none
  refused : Option Nat := none
  deriving DecidableEq, Repr

/-! ## Teasel -/

/-- An attached queue (R236, R237, R248): the channel's own copies of its header words, the translations it leases with the
keys of their leaves, and the highest scope at which a packet of it has completed (R51); `acc`: the write of STAT by its
attachment or detachment; `left`: the header address that the detachment named. -/
structure TQueue where
  id : Nat
  asid : Nat
  chan : ChanId
  hdr : Nat
  hdrPa : Nat
  hdrKey : BitVec 8 := 0
  ring : Nat
  ringPa : List Nat
  ringKeys : List (BitVec 8) := []
  logcap : Nat
  ridx : Nat := 0
  state : Nat := 1
  cause : Nat := 0
  fidx : Nat := 0
  doneScope : Nat := 0
  detaching : Bool := false
  left : Nat := 0
  acc : Nat := 0
  deriving DecidableEq, Repr

/-- The last result of chq.att for a channel and address space (R237). -/
structure ChqRes where
  asid : Nat
  chan : ChanId
  value : Word
  deriving DecidableEq, Repr

/-- Where a packet stands (R241, R243, R248, R249): its slot claimed and not yet written, admitted, fetched, stopped by a
failed probe, started, skipped by CPYX and yet to complete (R247), completed, or left in a slot that a detached queue never
fetched (R237). -/
inductive PktState where
  | claimed | admitted | fetched | faulted | started | skipped | done | dead
  deriving DecidableEq, Repr

/-- A translation a probe leased for a packet (R251). -/
structure PageMap where
  vpage : Nat
  pa : Nat
  key : BitVec 8
  deriving DecidableEq, Repr

/-- A packet admitted by CPYQ or fetched from a ring (R239, R244, R249). `loaded` and `stored` hold the bytes its
accesses have read and written so far; `cause` and `cmp` are those of a skipped packet's completion word (R247, R249). -/
structure Packet where
  id : Nat
  queue : Nat
  chan : ChanId
  asid : Nat
  slot : Nat
  words : List W32
  wave : Option Nat := none
  scope : Nat
  promise : Option Nat := none
  order : Nat
  state : PktState
  maps : List PageMap := []
  loaded : List (Nat × Byte × Bool) := []
  stored : List Nat := []
  poisoned : Bool := false
  withdrawn : Bool := false
  cause : Nat := 0
  cmp : Option (Place × BitVec 8) := none
  deriving DecidableEq, Repr

/-! ## Translation, faults, address spaces -/

/-- A leaf as a walk found it (R319). -/
structure Leaf where
  pa : Nat
  big : Bool
  key : BitVec 8
  evp : Nat
  mt : Nat
  user : Bool
  x : Bool
  w : Bool
  r : Bool
  deriving DecidableEq, Repr

/-- A TLB entry and its lease: the core it serves, the page, the leaf, and the ticks of grant and end (R185, R322). -/
structure TlbEntry where
  id : Nat
  core : CoreId
  asid : Nat
  vpage : Nat
  leaf : Leaf
  granted : Nat
  expiry : Nat
  deriving DecidableEq, Repr

/-- Who holds a lease that does not end by the clock alone (R131, R237, R251, R320, R342). -/
inductive LeaseHolder where
  | cohort (uid : Nat)
  | queue (id : Nat)
  | packet (id : Nat)
  | faultRing
  | mailbox
  | samples
  deriving DecidableEq, Repr

/-- A held lease on a page (R131, R237, R251, R320, R342). -/
structure Lease where
  asid : Nat
  vpage : Nat
  holder : LeaseHolder
  granted : Nat
  deriving DecidableEq, Repr

/-- A translation fault: posted when it has a RID, unposted while it waits for room (R320). -/
structure FaultRec where
  id : Nat
  asid : Nat
  page : Nat
  kind : Nat
  why : Nat
  loc : BitVec 14
  seq : BitVec 32
  pc : Word
  rid : Option W32 := none
  deriving DecidableEq, Repr

/-- A debug event waiting for the mailbox (R342, R343): `loc` is the wave's location, `name` that of the name in it (R27). -/
structure MbxEvent where
  evt : Nat
  loc : BitVec 14
  name : BitVec 14
  cause : Word := 0
  pc : Word
  seq : BitVec 32
  mask : Mask
  em : Mask
  addr : Word
  task : W32
  coh : W32
  deriving DecidableEq, Repr

/-- A host invalidation in progress (R322, R359). -/
structure HostTlbi where
  t1 : Nat
  lo : Nat
  hi : Nat
  deriving DecidableEq, Repr

/-- An address space that exists (R309, R335, R359, R360). `eb` holds the Eyebright registers by index; `cmds` the posted
writes of its BAR2 page, by offset, that wait behind an unfinished command (R237, R359). With the frames of the leased pages
stand the keys of their leaves (R367). -/
structure Space where
  asid : Nat
  ptb : Word := 0
  trapBase : Word := 0
  tlbLease : Nat := 50000
  fltCfg : Word := 0
  fltSvc : Word := 0
  mftBase : Word := 0
  mftN : Word := 0
  eb : Vector Word 52 := Vector.replicate 52 0
  fltVec : Word := 0
  haltRes : Word := 0
  haltWait : Option Nat := none
  preRes : Word := 0
  saveWait : Option (Nat × Nat) := none
  tlbiVa : Word := 0
  tlbiRes : Word := 0
  tlbiWait : Option HostTlbi := none
  ringPa : List Nat := []
  ringKeys : List (BitVec 8) := []
  posted : Nat := 0
  mbxPa : Nat := 0
  mbxKey : BitVec 8 := 0
  mbxCount : Nat := 0
  mbxQueue : List MbxEvent := []
  smpPa : List Nat := []
  smpKeys : List (BitVec 8) := []
  smpCount : Nat := 0
  barObj : List Nat := []
  barPage : List Nat := []
  cmds : List (Nat × Word) := []
  deriving DecidableEq, Repr

/-! ## Cores, dies, module -/

/-- An issue port: the leaf of the instruction issued in this cycle, its wave and address, cycles without issue while a wave was
ready, a granted override, the first core cycle in which its vector pipe and its special-function unit take another instruction,
the same as this core cycle began, and the A latch (R14, R145 to R147, R288, R347). -/
structure PortSt where
  issued : Option Nat := none
  issuedWave : Option Nat := none
  issuedPc : Word := 0
  stall : Nat := 0
  grant : Bool := false
  pipeFree : Nat := 0
  sfuFree : Nat := 0
  pipeWas : Nat := 0
  sfuWas : Nat := 0
  latch : Option (Nat × VNum) := none
  deriving DecidableEq, Repr

/-- A granule of the banked store reserved for a cohort (R16). -/
structure Granule where
  bank : Fin 32
  index : Fin 32
  cohort : Nat
  deriving DecidableEq, Repr

/-- A core's sampling of one address space: the LFSR, and the core cycle of the next sample (R349). -/
structure Sampler where
  asid : Nat
  lfsr : W32
  next : Nat
  deriving DecidableEq, Repr

/-- A core (R13, R16, R147, R347 to R349); vetchFree and arrayFree: the first core cycle in which its Vetch unit (R229)
and each Sorrel array (R289) take another instruction; arrayWas: the same of the arrays as this core cycle began; sampled: a
sample of this core cycle has been taken (R349). -/
structure CoreSt where
  id : CoreId
  portPtr : Fin 4 := 0
  clk : Nat := 0
  ports : Vector PortSt 4 := Vector.replicate 4 {}
  window : List Nat := []
  leaves : Vector Word 14 := Vector.replicate 14 0
  shadow : Vector Word 14 := Vector.replicate 14 0
  samplers : List Sampler := []
  vetchPri : Fin 4 := 0
  vetchFree : Nat := 0
  arrayFree : Vector Nat 2 := Vector.replicate 2 0
  arrayWas : Vector Nat 2 := Vector.replicate 2 0
  granules : List Granule := []
  idle : Nat := 0
  sampled : Bool := false
  deriving DecidableEq, Repr

/-- A cluster: the value last written to yar.clim (R276). -/
structure ClusterSt where
  die : Fin 8
  clu : Fin 12
  clim : BitVec 22 := 0x3FFFFF
  deriving DecidableEq, Repr

/-- An entry of a die's placement queue: the cohorts placed together (R273). -/
structure PlaceEntry where
  cohorts : List Nat
  deriving DecidableEq, Repr

/-- A tensor handle of a die (R198). -/
structure Tensor where
  handle : Nat
  asid : Nat
  base : Nat
  pages : Nat
  evp : Nat
  deriving DecidableEq, Repr

/-- A die (R198, R273, R275, R333, R334, R370). -/
structure DieSt where
  die : Fin 8
  fp : W32 := 0x00040000
  ce : Word := 0
  ue : Word := 0
  pois : Word := 0
  queue : List PlaceEntry := []
  tensors : List Tensor := []
  over105 : Bool := false
  over110 : Bool := false
  deriving DecidableEq, Repr

/-- A rail's operating point and a ramp in progress with its end (R277, R318). -/
structure RailSt where
  point : Fin 4 := 0
  ramp : Option (Fin 4 × Nat) := none
  deriving DecidableEq, Repr, Inhabited

/-- A Lanby link (R364, R365). -/
structure LinkSt where
  up : Bool := true
  replays : Nat := 0
  received : Nat := 0
  acked : BitVec 16 := 0
  credits : Nat := 0
  dropped : Nat := 0
  deriving DecidableEq, Repr, Inhabited

/-- The algorithms that SPDM may name (R368). -/
inductive SpdmAlg where
  | ed448 | sha3_512
  deriving DecidableEq, Repr

/-- What the SPDM responder last answered (R368): its algorithms, the digests of its measurement blocks in the rule's order, a
certificate chain, or a message whose content the spec does not give. -/
inductive SpdmAnswer where
  | message (l : List Byte)
  | algorithms (signature transcript : SpdmAlg)
  | measurements (blocks : List (List Byte))
  | certificates (slot : Nat) (chain : List (List Byte))
  deriving DecidableEq, Repr

/-- The SPDM responder (R368): the requests it has taken in order, and whether a secure session stands. -/
structure SpdmSt where
  version : Bool := false
  caps : Bool := false
  algs : Bool := false
  handshake : Bool := false
  session : Bool := false
  response : SpdmAnswer := .message []
  deriving DecidableEq, Repr

/-- A lifetime record store (R351); times in clk.cr ticks. -/
structure Lifetime where
  ce : Vector Word 8 := Vector.replicate 8 0
  ue : Vector Word 8 := Vector.replicate 8 0
  pois : Vector Word 8 := Vector.replicate 8 0
  hbm : Vector Word 8 := Vector.replicate 8 0
  opTicks : Vector (Vector Nat 4) 4 := Vector.replicate 4 (Vector.replicate 4 0)
  ramps : Word := 0
  degraded : Word := 0
  civ : Word := 0
  undelivered : Word := 0
  temp : Vector (Vector Nat 16) 8 := Vector.replicate 8 (Vector.replicate 16 0)
  power : Vector Nat 16 := Vector.replicate 16 0
  deriving DecidableEq, Repr

/-- Module-wide state (R309, R351, R358 to R371). -/
structure ModSt where
  powered : Bool := true
  ready : Bool := false
  recovery : Bool := false
  failedOver : Bool := false
  bar4Bad : Nat := 0
  cfg : CfgRecord := { modno := 0, version := 0, dies := 0xFF, members := 1, bulkBytes := 2 ^ 41, swapPool := 20 * 2 ^ 20,
                       routes := [] }
  cfgApplied : Bool := false
  pendingCfg : Option CfgRecord := none
  imageVersion : Nat := 0
  keyGen : List (BitVec 8 × Nat) := []
  keyTags : List (Nat × BitVec 8 × Nat) := []
  rails : Vector RailSt 4 := Vector.replicate 4 {}
  links : Vector LinkSt 12 := Vector.replicate 12 {}
  spdm : SpdmSt := {}
  life : Lifetime := {}
  mgmtRes : Word := 0
  mgmtBuf : List Word := []
  agErr : Vector Nat 9 := Vector.replicate 9 0
  msix : List Nat := []
  deriving DecidableEq, Repr

/-! ## Turns -/

/-- What moves next: a wave's port issues for it, or an event of the table takes place. -/
inductive Act where
  | issue (wave : Nat)
  | event (e : Instr)
  deriving DecidableEq, Repr, Inhabited

/-- A turn: the clk.cr ticks that pass before it, and what moves (R38; log 2). -/
structure Turn where
  ticks : Nat := 0
  act : Act
  deriving DecidableEq, Repr, Inhabited

/-- The whole machine. -/
structure State where
  /-- The turns to come, as the environment and the hardware's own choices will have it (the model's own; log 2). -/
  sched : List Turn := []
  /-- How many turns the free value has given (the model's own; log 2). -/
  turnNo : Nat := 0
  /-- How many free values have been drawn (the model's own; log 3). -/
  drawn : Nat := 0
  /-- The wave whose turn it is (the model's own; log 2). -/
  cur : Nat := 0
  /-- The next identity (the model's own; log 4). -/
  nextUid : Nat := 1
  /-- clk.cr (R7, R309). -/
  clk : Nat := 0
  waves : List Wave := []
  cohorts : List Cohort := []
  ensembles : List Ensemble := []
  grids : List Grid := []
  tasks : List Task := []
  /-- Generations of task-table entries that differ from 1, by agent and entry (R256). -/
  gens : List ((Nat × Nat) × Nat) := []
  queues : List TQueue := []
  /-- The queue that each channel fetched from last (R248). -/
  served : List (ChanId × Nat) := []
  chqRes : List ChqRes := []
  packets : List Packet := []
  /-- The issue queues of every agent, in program order of each (R38). -/
  accs : List Access := []
  wb : List WbEntry := []
  caches : List CacheEntry := []
  /-- M, by physical byte address (R33, R363). -/
  mem : Memory := []
  side : List SideEntry := []
  poison : List PoisonUnit := []
  /-- Bytes of a poisoned unit that an instruction's stores have written so far: unit, instruction, byte (R334). -/
  poisonSeen : List (PoisonUnit × Nat × Nat) := []
  /-- Positions in program order of the REDs and NESTs that have consumed poison: each counts once (R334). -/
  consumed : List Nat := []
  tlb : List TlbEntry := []
  leases : List Lease := []
  faults : List FaultRec := []
  spaces : List Space := []
  cores : List CoreSt := []
  clusters : List ClusterSt := []
  dies : List DieSt := []
  mod : ModSt := {}
  /-- The bytes the last completed host or peer read returned (log 12). -/
  hostRead : List Byte := []
  deriving DecidableEq, Repr

/-- The machine right after module reset (R8, R309, R360, R371): nothing runs, no address space exists, memory lists
nothing. Every field stands at its default above, which INVENTORY.md gives with its rule or log entry. -/
def State.reset : State := {}

end Sys2Proof.Machine
end

