-- ==== Sys2Proof/Config.lean ====
section
/-! DEFINITION. What the spec leaves free, each an opaque constant without a value (log 14): no proof can lean on a
choice of it. -/

namespace Sys2Proof.Config

/-- The n-th free value drawn (log 3): bits within a spec's allowance, orders the spec does not fix, timings. -/
opaque freeNat : Nat → Nat

/-- The turn taken when State.sched lists none: R38 takes any one enabled step (log 2). -/
opaque nextTurn : Nat → Machine.Turn

/-- Whether the samplers' Galois LFSR shifts right; the polynomial of R349 fits both directions. -/
opaque lfsrRight : Bool

/-- The nine special functions as fixed maps (R126): by function, stretch of inputs and result, where the map passes to the
result; Machine/Special.lean keeps the map to the exact results and limits of R125 (log 13). -/
opaque specialFn : Nat → Int → Int → Nat

/-- The L2 slice and set of a monitored 128-byte line (R204): the spec gives 128 sets of 8 in each slice and not the
map. -/
opaque monSet : Nat → Nat × Nat

/-- Yarrow's own limit of a cluster's issued weight, by the die's current budget and by time and cluster (R276). -/
opaque yarLimit : Nat → Nat → Nat

/-- How much further Yarrow lowers that limit while the die is above 105 °C (R276, R370). -/
opaque yarCut : Nat → Nat

/-- Whether firmware accepts a signature over a record or image (R369, R371). -/
opaque signatureOk : Nat → Bool

/-- The SPDM responder's message contents, by request kind and a fresh count (R368). -/
opaque spdmBytes : Nat → Nat → List Byte

/-- The code of the boot ROM, the firmware image of a version, the signed bytes of a configuration record, and the key-slot
policy, whose digests SPDM measures (R368). -/
opaque bootRom : List Byte
opaque firmwareImage : Nat → List Byte
opaque recordBytes : CfgRecord → List Byte
opaque keyPolicy : List Byte

/-- The certificates of slot 0: Adeava's root, those between, and the module's identity key (R368). -/
opaque rootCertificate : List Byte
opaque middleCertificates : List (List Byte)
opaque identityCertificate : List Byte

/-- The bin of a die's temperature and of the module's power at a time, as firmware measures them (R351). -/
opaque tempBin : Nat → Nat → Nat
opaque powerBin : Nat → Nat

/-- What a device page answers and does is not in the spec: the bytes a device load returns, by address and draw. -/
opaque deviceByte : Nat → Nat → Byte

end Sys2Proof.Config
end

