-- ==== Sys2Proof/Machine/Bits.lean ====
section
/-! DEFINITION. Bit counting, bit fields, saturation, masks as lists of lanes, and small list operations that the
meanings share. Every definition is total and by structural recursion. -/

namespace Sys2Proof.Machine

/-- 0 and 1 as a word. -/
def boolWord (b : Bool) : Word := if b then 1 else 0

/-- The low 32 bits of a scalar (R128). -/
def low32 (x : Word) : W32 := x.setWidth 32

/-- The number of 1 bits among the low `n` bits. -/
def popUpTo {k : Nat} (x : BitVec k) : Nat → Nat
  | 0 => 0
  | n + 1 => popUpTo x n + (x.getLsbD n).toNat

/-- The number of 1 bits. -/
def popCount {k : Nat} (x : BitVec k) : Nat := popUpTo x k

/-- Zero bits from bit `n - 1` down to the highest 1 bit. -/
def leadingZeros {k : Nat} (x : BitVec k) : Nat → Nat
  | 0 => 0
  | n + 1 => if x.getLsbD n then 0 else leadingZeros x n + 1

/-- Zero bits from bit `i` up, of `n` bits to look at. -/
def trailingZeros {k : Nat} (x : BitVec k) : Nat → Nat → Nat
  | _, 0 => 0
  | i, n + 1 => if x.getLsbD i then 0 else trailingZeros x (i + 1) n + 1

/-- A mask with the low `n` bits set. -/
def lowOnes (k n : Nat) : BitVec k := BitVec.ofNat k (2 ^ n - 1)

/-- Bits [pos + wid − 1 : pos], zero-extended (R154, R159). -/
def bitField {k : Nat} (x : BitVec k) (pos wid : Nat) : BitVec k := (x >>> pos) &&& lowOnes k wid

/-- `old` with bits [pos + wid − 1 : pos] taken from the low bits of `x` (R154, R159). -/
def bitInsert {k : Nat} (old x : BitVec k) (pos wid : Nat) : BitVec k :=
  (old &&& ~~~(lowOnes k wid <<< pos)) ||| ((x &&& lowOnes k wid) <<< pos)

/-- An integer held to the range of `n`-bit two's complement (R117). -/
def satInt (n : Nat) (x : Int) : Int := max (-(2 ^ (n - 1) : Int)) (min (2 ^ (n - 1) - 1 : Int) x)

/-- The signed value of element `k` of width `n` in a word (R114). -/
def intElem (n : Nat) (x : W32) (k : Nat) : Int := (x.extractLsb' (n * k) n).toInt

/-- Signed quotient toward zero; 0 by a zero divisor; the most negative value over −1 wraps (R154, R159). -/
def divTrunc {k : Nat} (a b : BitVec k) : BitVec k :=
  if b = 0 then 0 else BitVec.ofInt k (Int.tdiv a.toInt b.toInt)

/-- The remainder that goes with divTrunc: a − quotient × b (R154, R159). -/
def remTrunc {k : Nat} (a b : BitVec k) : BitVec k := a - divTrunc a b * b

/-- The smaller of two signed values. -/
def minS {k : Nat} (a b : BitVec k) : BitVec k := if a.slt b then a else b

/-- The larger of two signed values. -/
def maxS {k : Nat} (a b : BitVec k) : BitVec k := if a.slt b then b else a

/-- The smaller of two unsigned values. -/
def minU {k : Nat} (a b : BitVec k) : BitVec k := if a.ult b then a else b

/-- The larger of two unsigned values. -/
def maxU {k : Nat} (a b : BitVec k) : BitVec k := if a.ult b then b else a

/-- The lanes of a mask, lowest first. -/
def lanesOf (m : Mask) : List (Fin 32) := (List.finRange 32).filter (fun l => m.getLsbD l.val)

/-- The mask of the lanes that satisfy a test. -/
def maskOf (f : Fin 32 → Bool) : Mask :=
  (List.finRange 32).foldl (fun m l => if f l then m ||| (1#32 <<< l.val) else m) 0

/-- One lane's mask bit. -/
def laneBit (l : Nat) : Mask := 1#32 <<< l

/-- The first lane of a mask, as a number; 0 if there is none. -/
def lowestLane (m : Mask) : Nat := match lanesOf m with
  | [] => 0
  | l :: _ => l.val

/-- Replace every member that satisfies `p`. -/
def modWhere {α : Type} (p : α → Bool) (f : α → α) (l : List α) : List α :=
  l.map (fun x => if p x then f x else x)

/-- The numbers 0 to n − 1 times `k`, offset by `b`. -/
def rangeBy (b k n : Nat) : List Nat := (List.range n).map (fun i => b + k * i)

/-- The first value a function gives along a list. -/
def firstOf {α β : Type} (f : α → Option β) : List α → Option β
  | [] => none
  | x :: xs => match f x with
    | some y => some y
    | none => firstOf f xs

/-- Bits [hi : lo] of a word as a number. -/
def field (x : Word) (lo n : Nat) : Nat := (x >>> lo).toNat % 2 ^ n

/-- A number placed at bit `lo` of a word. -/
def place (n lo : Nat) : Word := BitVec.ofNat 64 (n * 2 ^ lo)

end Sys2Proof.Machine
end

