-- ==== Sys2Proof/WellFormed.lean ====
section
/-! DEFINITION. The conditions of R88 on values and register groups that the shape of an instruction does not already
enforce: field ranges of R151, register groups of R79, the ORD, SZT and AOP an opcode allows (R44, R81, R82), and the
assigned register numbers (R87, R309, R335). Events are well formed as they stand. -/

namespace Sys2Proof

/-- A group of `n` registers from `r` ends at v255 or before (R79). -/
def groupFits (r : VNum) (n : Nat) : Bool := decide (r.val + n ≤ 256)

/-- A bit field of `wid` bits at `pos` in a word of `n` (R151). -/
def fieldFits (pos wid n : Nat) : Bool := decide (1 ≤ wid) && decide (pos + wid ≤ n)

/-- The compare codes SCMP and VCMP accept (R152). -/
def Cc.intOk : Cc → Bool
  | .un => false
  | _ => true

/-- The compare codes FCMP accepts (R152). -/
def Cc.floatOk : Cc → Bool
  | .ltu | .leu | .gtu | .geu => false
  | _ => true

/-- n(f): the elements of format f in a 32-bit word (R114, R163). -/
def Fmt.perWord : Fmt → Nat
  | .fp32 | .i32 => 1
  | .bf16 | .fp16 => 2
  | .e4m3 | .e5m2 | .e3m2 | .i8 => 4
  | .e2m1 | .i4 => 8

/-- The formats PACK and UNPK accept (R165, R166). -/
def Fmt.narrow : Fmt → Bool
  | .fp32 | .i32 => false
  | _ => true

/-- The registers a load or store of a size moves for each lane (R81). -/
def Szt.regs : Szt → Nat
  | .dw => 2
  | .qw => 4
  | _ => 1

/-- Store data of several registers is a group: a vector register without a permutation (R79, R81). -/
def dataFits (c : VSrc) (n : Nat) : Bool :=
  match c with
  | .vec r p _ => n == 1 || (p == .ident && groupFits r n)
  | .sca _ => n == 1

/-- The ORD values a load accepts (R44). -/
def MOrd.loadOk : MOrd → Bool
  | .rel => false
  | _ => true

/-- The ORD values a store or RED accepts (R44). -/
def MOrd.storeOk : MOrd → Bool
  | .acq => false
  | _ => true

/-- Atomic operations RED, REDU and SCAN accept (R82, R169). -/
def Aop.redOk : Aop → Bool
  | .swap | .cas => false
  | _ => true

/-- The system registers that have a number (R309). -/
def sysRegAssigned (r : BitVec 12) : Bool :=
  let n := r.toNat
  decide (n ≤ 0x00C) || (decide (0x010 ≤ n) && decide (n ≤ 0x01F)) || (decide (0x020 ≤ n) && decide (n ≤ 0x023)) ||
    (decide (0x030 ≤ n) && decide (n ≤ 0x03F)) || (decide (0x040 ≤ n) && decide (n ≤ 0x047)) ||
    (decide (0x100 ≤ n) && decide (n ≤ 0x10A)) || (decide (0x120 ≤ n) && decide (n ≤ 0x127)) ||
    (decide (0x140 ≤ n) && decide (n ≤ 0x143)) || n == 0x160 || n == 0x161 || n == 0x170 ||
    (decide (0x180 ≤ n) && decide (n ≤ 0x182))

/-- The Eyebright registers that have an index (R335). -/
def dbgRegAssigned (r : BitVec 10) : Bool := decide (r.toNat ≤ 0x033)

/-- The scope field of TRES and TSKS (R198, R265). -/
def scopeHigh (s : Fin 6) : Bool := decide (3 ≤ s.val)

/-- A row and column of a 6×6 matrix (R217). -/
def dimOk (n : Fin 8) : Bool := decide (1 ≤ n.val) && decide (n.val ≤ 6)

/-- An element index of a 6×6 matrix (R217). -/
def idxOk (n : Fin 8) : Bool := decide (n.val ≤ 5)

/-- The conditions of R88 that a constructor's arguments can break. -/
def Instr.wf : Instr → Bool
  | .scmp _ _ _ _ cc => cc.intOk
  | .sbfx _ _ _ pos wid => fieldFits pos.val wid.val 64
  | .sbfi _ _ _ pos wid => fieldFits pos.val wid.val 64
  | .vcmp _ _ _ _ cc => cc.intOk
  | .vbfx _ _ _ pos wid => fieldFits pos.val wid.val 32
  | .vbfi _ _ _ pos wid => fieldFits pos.val wid.val 32
  | .fcmp _ _ _ _ cc => cc.floatOk
  | .pack _ _ a f => f.narrow && groupFits a.reg f.perWord
  | .unpk _ _ _ f k => f.narrow && decide (k.val < f.perWord)
  | .qnt _ d _ _ => groupFits d 2
  | .vsqz _ _ a => match a with
    | .vec _ _ _ => true
    | .sca _ => false
  | .redu _ _ _ op => op.redOk
  | .scan _ _ _ op => op.redOk
  | .xev _ _ w _ => groupFits w.reg 8
  | .ld _ d _ sz o => o.ord.loadOk && groupFits d sz.regs
  | .lds _ d _ sz o => o.ord.loadOk && groupFits d sz.regs
  | .ldb _ d _ sz o => o.ord.loadOk && groupFits d sz.regs
  | .st _ _ c sz o => o.ord.storeOk && dataFits c sz.regs
  | .sts _ _ c sz o => o.ord.storeOk && dataFits c sz.regs
  | .stb _ _ c sz o => o.ord.storeOk && dataFits c sz.regs
  | .atom _ _ _ c op _ => op != .cas || dataFits c 2
  | .red _ _ _ op o => op.redOk && o.ord.storeOk
  | .fence _ ord _ => ord != .plain
  | .tres _ _ _ _ _ scope => scopeHigh scope
  | .qdim _ _ rows cols => dimOk rows && dimOk cols
  | .nest _ n => !(n.eop == .mac && n.red)
  | .qld _ _ _ o => o.ord.loadOk
  | .qst _ _ _ o => o.ord.storeOk
  | .qget _ _ _ i j => idxOk i && idxOk j
  | .qput _ _ _ i j => idxOk i && idxOk j
  | .qsolvLu _ _ _ _ p => match p with
    | .vec _ _ _ => true
    | .sca _ => false
  | .cpyq _ _ _ b => match b with
    | .vec _ _ _ => true
    | .sca _ => false
  | .mma _ d a b c _ _ => groupFits d 32 && groupFits a.reg 16 && groupFits b.reg 16 && groupFits c.reg 2
  | .tld _ d m => groupFits d (2 ^ m.cnt.val)
  | .tst _ m c => groupFits c.reg (2 ^ m.cnt.val)
  | .tsks _ _ _ scope => scopeHigh scope
  | .srd _ _ reg => sysRegAssigned reg
  | .swr _ reg _ => sysRegAssigned reg
  | .dbgmRead _ _ reg => dbgRegAssigned reg
  | .dbgmWrite _ _ reg _ => dbgRegAssigned reg
  | _ => true

end Sys2Proof
end

