-- ==== Sys2Proof/Machine/Float.lean ====
section
/-! DEFINITION. The number formats of chapter 05: exact values as dyadic rationals, round_ne into every format (R110 to
R118), the IEEE operations on FP32, the exact sum of MMA (R124) and the QNT scale search (R123). -/

namespace Sys2Proof.Machine

/-! ## Values -/

/-- What an encoding stands for: NaN, an infinity, or (−1)^neg · m · 2^e exactly; a zero keeps its sign (R110). -/
inductive Num where
  | nan
  | inf (neg : Bool)
  | fin (neg : Bool) (m : Nat) (e : Int)
  deriving DecidableEq, Repr, Inhabited

/-- Bits of an element (R110, R112). -/
def fmtBits : Fmt → Nat
  | .fp32 | .i32 => 32
  | .bf16 | .fp16 => 16
  | .e4m3 | .e5m2 | .i8 => 8
  | .e3m2 => 6
  | .e2m1 | .i4 => 4

/-- Where element `k` of a word begins (R114): an E3M2 element has a byte of its own. -/
def fmtSlot (f : Fmt) : Nat := 32 / f.perWord

/-- Integer formats (R112). -/
def fmtIsInt : Fmt → Bool
  | .i8 | .i4 | .i32 => true
  | _ => false

/-- Mantissa width, bias and the code of the largest finite value of a float format (R110). -/
def fmtParams : Fmt → Nat × Int × Nat
  | .fp32 => (23, 127, 0x7F7FFFFF)
  | .bf16 => (7, 127, 0x7F7F)
  | .fp16 => (10, 15, 0x7BFF)
  | .e4m3 => (3, 7, 0x7E)
  | .e5m2 => (2, 15, 0x7B)
  | .e3m2 => (2, 3, 0x1F)
  | .e2m1 => (1, 1, 0x7)
  | .i8 | .i4 | .i32 => (0, 0, 0)

/-- Formats with infinities; their magnitude codes above the largest finite are infinity, then NaNs (R110). -/
def fmtHasInf : Fmt → Bool
  | .fp32 | .bf16 | .fp16 | .e5m2 => true
  | _ => false

/-- The canonical NaN; 0 for formats that have none (R111, R117). -/
def fmtNan : Fmt → Nat
  | .fp32 => 0x7FC00000
  | .bf16 => 0x7FC0
  | .fp16 => 0x7E00
  | .e4m3 => 0x7F
  | .e5m2 => 0x7E
  | _ => 0

/-- The canonical FP32 NaN (R111). -/
def nan32 : W32 := 0x7FC00000

/-- Decode a float encoding (R110). -/
def decodeFloat (f : Fmt) (x : Nat) : Num :=
  let (mb, bias, top) := fmtParams f
  let n := fmtBits f
  let neg := x.testBit (n - 1)
  let mag := x % 2 ^ (n - 1)
  if top < mag then
    if fmtHasInf f && mag == top + 1 then .inf neg else .nan
  else
    let e := mag / 2 ^ mb
    let m := mag % 2 ^ mb
    if e = 0 then .fin neg m (1 - bias - mb) else .fin neg (2 ^ mb + m) ((e : Int) - bias - mb)

/-- The value of an element of any format (R110, R112). -/
def decodeElem (f : Fmt) (x : Nat) : Num :=
  if fmtIsInt f then
    let n := fmtBits f
    let v := (BitVec.ofNat n x).toInt
    .fin (decide (v < 0)) v.natAbs 0
  else decodeFloat f x

/-- The value of an FP32 word. -/
def num32 (x : W32) : Num := decodeFloat .fp32 x.toNat

/-! ## Rounding -/

/-- The even-tie quotient of m by 2^k; `sticky` says that the exact value is a little above m (R115). -/
def shiftRne (m k : Nat) (sticky : Bool) : Nat :=
  let q := m / 2 ^ k
  let r := 2 * (m % 2 ^ k)
  if 2 ^ k < r || (r == 2 ^ k && (sticky || q % 2 == 1)) then q + 1 else q

/-- The magnitude code nearest to m · 2^e (plus less than a unit of 2^e if sticky), without an upper bound: step 1 of
R115. With `sticky`, m must have at least two bits more than the mantissa. -/
def roundMag (f : Fmt) (m : Nat) (e : Int) (sticky : Bool := false) : Nat :=
  if m = 0 then 0
  else
    let (mb, bias, _) := fmtParams f
    let top : Int := (Nat.log2 m : Int) + e
    let q : Int := max (top - mb) (1 - bias - mb)
    let r := if q ≤ e then m * 2 ^ (e - q).toNat else shiftRne m (q - e).toNat sticky
    (q + mb + bias - 1).toNat * 2 ^ mb + r

/-- The sign bit of a float format as a number. -/
def signCode (f : Fmt) (neg : Bool) : Nat := if neg then 2 ^ (fmtBits f - 1) else 0

/-- The result of overflow or of an infinity: infinity where the format has one, else the largest finite (R117). -/
def overCode (f : Fmt) : Nat :=
  let (_, _, top) := fmtParams f
  if fmtHasInf f then top + 1 else top

/-- round_ne(x, f) with R117, the result's code; `sticky` as in roundMag. -/
def roundNe (f : Fmt) (neg : Bool) (m : Nat) (e : Int) (sticky : Bool := false) : Nat :=
  let (_, _, top) := fmtParams f
  let c := roundMag f m e sticky
  signCode f neg + (if top < c then overCode f else c)

/-- Nearest integer to (−1)^neg · m · 2^e, ties to even (R117). -/
def roundInt (neg : Bool) (m : Nat) (e : Int) : Int :=
  let r : Int := if 0 ≤ e then (m * 2 ^ e.toNat : Nat) else (shiftRne m (-e).toNat false : Nat)
  if neg then -r else r

/-- Narrow a value into any format (R116, R117). -/
def narrow (f : Fmt) (x : Num) : Nat :=
  if fmtIsInt f then
    let n := fmtBits f
    match x with
    | .nan => 0
    | .inf neg => (BitVec.ofInt n (if neg then -(2 ^ (n - 1) : Int) else 2 ^ (n - 1) - 1)).toNat
    | .fin neg m e => (BitVec.ofInt n (satInt n (roundInt neg m e))).toNat
  else
    match x with
    | .nan => fmtNan f
    | .inf neg => signCode f neg + overCode f
    | .fin neg m e => roundNe f neg m e

/-- Narrow into FP32. -/
def to32 (x : Num) : W32 := BitVec.ofNat 32 (narrow .fp32 x)

/-- Element `k` of a lane word (R114). -/
def wordElem (f : Fmt) (x : W32) (k : Nat) : Nat := x.toNat / 2 ^ (fmtSlot f * k) % 2 ^ fmtBits f

/-! ## Exact arithmetic -/

/-- m · 2^e as a signed integer over the exponent `q` (q ≤ e). -/
def alignTo (neg : Bool) (m : Nat) (e q : Int) : Int :=
  let v : Int := (m * 2 ^ (e - q).toNat : Nat)
  if neg then -v else v

/-- The exact product (R118): infinity times zero is NaN. -/
def mulNum : Num → Num → Num
  | .nan, _ => .nan
  | _, .nan => .nan
  | .inf a, .inf b => .inf (a != b)
  | .inf a, .fin b m _ => if m = 0 then .nan else .inf (a != b)
  | .fin a m _, .inf b => if m = 0 then .nan else .inf (a != b)
  | .fin a m e, .fin b n k => .fin (a != b) (m * n) (e + k)

/-- The exact sum; a sum of zeros is −0 only of two −0, and an exact cancellation is +0 (R118). -/
def addNum : Num → Num → Num
  | .nan, _ => .nan
  | _, .nan => .nan
  | .inf a, .inf b => if a = b then .inf a else .nan
  | .inf a, .fin _ _ _ => .inf a
  | .fin _ _ _, .inf b => .inf b
  | .fin a m e, .fin b n k =>
    if m = 0 ∧ n = 0 then .fin (a && b) 0 0
    else
      let q := min e k
      let v := alignTo a m e q + alignTo b n k q
      .fin (decide (v < 0)) v.natAbs q

/-- The value with its sign inverted. -/
def negNum : Num → Num
  | .nan => .nan
  | .inf a => .inf (!a)
  | .fin a m e => .fin (!a) m e

/-- a + b (R118). -/
def fAdd (a b : W32) : W32 := to32 (addNum (num32 a) (num32 b))

/-- a − b (R118). -/
def fSub (a b : W32) : W32 := to32 (addNum (num32 a) (negNum (num32 b)))

/-- a × b (R118). -/
def fMul (a b : W32) : W32 := to32 (mulNum (num32 a) (num32 b))

/-- round_ne(a × b + c), one rounding (R118, R161). -/
def fFma (a b c : W32) : W32 := to32 (addNum (mulNum (num32 a) (num32 b)) (num32 c))

/-- round_ne(m · 2^e / (n · 2^k)) in FP32 (R118): 64 quotient bits below the point, and a sticky remainder. -/
def divFin (neg : Bool) (m : Nat) (e : Int) (n : Nat) (k : Int) : W32 :=
  let q := m * 2 ^ 64 / n
  BitVec.ofNat 32 (roundNe .fp32 neg q (e - k - 64) (m * 2 ^ 64 % n != 0))

/-- round_ne(a / b); x / ±0 is ±infinity, 0 / 0 and infinity / infinity are NaN (R161). -/
def fDiv (a b : W32) : W32 :=
  match num32 a, num32 b with
  | .nan, _ => nan32
  | _, .nan => nan32
  | .inf _, .inf _ => nan32
  | .inf x, .fin y _ _ => to32 (.inf (x != y))
  | .fin x _ _, .inf y => to32 (.fin (x != y) 0 0)
  | .fin x m e, .fin y n k =>
    if n = 0 then (if m = 0 then nan32 else to32 (.inf (x != y)))
    else divFin (x != y) m e n k

/-- The integer square root below 2^k, bit by bit. -/
def isqrt (n : Nat) : Nat → Nat → Nat
  | 0, r => r
  | k + 1, r => isqrt n k (if (r + 2 ^ k) * (r + 2 ^ k) ≤ n then r + 2 ^ k else r)

/-- round_ne(√(m · 2^e)) in FP32 (R118): the radicand has an even exponent and at least 64 bits. -/
def sqrtFin (m : Nat) (e : Int) : W32 :=
  let odd := e % 2 == 1
  let n := if odd then m * 2 ^ 65 else m * 2 ^ 64
  let h : Int := if odd then (e - 65) / 2 else (e - 64) / 2
  let r := isqrt n 46 0
  BitVec.ofNat 32 (roundNe .fp32 false r h (r * r != n))

/-- round_ne(√a); √−0 = −0; a < 0 gives NaN (R161). -/
def fSqrt (a : W32) : W32 :=
  match num32 a with
  | .nan => nan32
  | .inf neg => if neg then nan32 else a
  | .fin neg m e => if m = 0 then a else if neg then nan32 else sqrtFin m e

/-! ## Comparison and selection -/

/-- The sign of a − b for values that are not NaN. -/
def cmpNum : Num → Num → Ordering
  | .inf a, .inf b => if a = b then .eq else if a then .lt else .gt
  | .inf a, _ => if a then .lt else .gt
  | _, .inf b => if b then .gt else .lt
  | .fin a m e, .fin b n k =>
    let q := min e k
    compare (alignTo a m e q) (alignTo b n k q)
  | .nan, _ => .eq
  | _, .nan => .eq

def Num.isNan : Num → Bool
  | .nan => true
  | _ => false

/-- The sign of a − b for two FP32 words; none if either is NaN. Zeros of either sign are equal (R152). -/
def fCompare (a b : W32) : Option Ordering :=
  if (num32 a).isNan || (num32 b).isNan then none else some (cmpNum (num32 a) (num32 b))

/-- The smaller of two; −0 < +0; one NaN gives the other operand; two give NaN (R161). -/
def fMin (a b : W32) : W32 :=
  match fCompare a b with
  | some .lt => a
  | some .gt => b
  | some .eq => if a.getLsbD 31 then a else b
  | none => if (num32 a).isNan then (if (num32 b).isNan then nan32 else b) else a

/-- The larger of two, by the same rules (R161). -/
def fMax (a b : W32) : W32 :=
  match fCompare a b with
  | some .lt => b
  | some .gt => a
  | some .eq => if a.getLsbD 31 then b else a
  | none => if (num32 a).isNan then (if (num32 b).isNan then nan32 else b) else a

/-- A word with a canonical NaN in place of any NaN (R111). -/
def canon (a : W32) : W32 := if (num32 a).isNan then nan32 else a

/-- FABS (R161). -/
def fAbs (a : W32) : W32 := if (num32 a).isNan then nan32 else a &&& 0x7FFFFFFF

/-- FNEG (R161). -/
def fNeg (a : W32) : W32 := if (num32 a).isNan then nan32 else a ^^^ 0x80000000

/-- FCLASS's one bit (R161). -/
def fClass (a : W32) : W32 :=
  let neg := a.getLsbD 31
  match num32 a with
  | .nan => 1#32 <<< 8
  | .inf _ => if neg then 1 else 1#32 <<< 7
  | .fin _ m _ =>
    if m = 0 then (if neg then 1#32 <<< 3 else 1#32 <<< 4)
    else if m < 2 ^ 23 then (if neg then 1#32 <<< 2 else 1#32 <<< 5)
    else (if neg then 1#32 <<< 1 else 1#32 <<< 6)

/-- The directions of R116. -/
inductive Direct where
  | zero | down | up
  deriving DecidableEq, Repr

/-- The integral FP32 value in a direction; a zero result keeps the sign (R161). -/
def fIntegral (d : Direct) (a : W32) : W32 :=
  match num32 a with
  | .nan => nan32
  | .inf _ => a
  | .fin neg m e =>
    if 0 ≤ e ∨ m = 0 then a
    else
      let k := (-e).toNat
      let q := m / 2 ^ k
      let inexact := m % 2 ^ k != 0
      let away := match d with
        | .zero => false
        | .down => neg
        | .up => !neg
      to32 (.fin neg (if inexact && away then q + 1 else q) 0)

/-- CVT.fp32 of a signed integer (R164). -/
def fOfInt (a : W32) : W32 := to32 (.fin (decide (a.toInt < 0)) a.toInt.natAbs 0)

/-- CVT.i32 (R164). -/
def fToInt (a : W32) : W32 := BitVec.ofNat 32 (narrow .i32 (num32 a))

/-! ## Scales (R113, R122) -/

/-- a × 2^(E − 127), NaN for E = 0xFF (R122). -/
def scaleNum (x : Num) (code : Nat) : Num :=
  if code = 255 then .nan
  else match x with
    | .nan => .nan
    | .inf n => .inf n
    | .fin n m e => .fin n m (e + (code : Int) - 127)

/-! ## The exact sum of MMA (R124) -/

/-- The infinities of a list of values: whether a positive and whether a negative one occurs. -/
def infSigns (l : List Num) : Bool × Bool :=
  l.foldl (fun s x => match x with
    | .inf true => (s.1, true)
    | .inf false => (true, s.2)
    | _ => s) (false, false)

/-- mma_elem's tail: the old accumulator c and the exact products p, rounded once (R124). -/
def mmaSum (c : W32) (p : List Num) : W32 :=
  let c' := num32 c
  if c'.isNan || p.any Num.isNan then nan32
  else
    match infSigns (c' :: p) with
    | (true, true) => nan32
    | (true, false) => 0x7F800000
    | (false, true) => 0xFF800000
    | (false, false) =>
      let s := p.foldl addNum (.fin false 0 0)
      match addNum c' s with
      | .fin neg m e =>
        if m = 0 then
          if c == 0x80000000 && p.all (fun x => x == .fin true 0 0 || (match x with
            | .fin n k _ => n && k == 0
            | _ => false)) then 0x80000000 else 0
        else BitVec.ofNat 32 (roundNe .fp32 neg m e)
      | _ => nan32

/-- mma_elem() of R124 over matching elements with their scale codes. -/
def mmaElem (c : W32) (ab : List ((Num × Nat) × (Num × Nat))) : W32 :=
  mmaSum c (ab.map (fun x => mulNum (scaleNum x.1.1 x.1.2) (scaleNum x.2.1 x.2.2)))

/-- FDOT2 and FDOT4: the elements of two words, every scale code 127 (R161). -/
def dotElems (f : Fmt) (a b c : W32) : W32 :=
  mmaElem c ((List.range f.perWord).map (fun k =>
    ((decodeElem f (wordElem f a k), 127), (decodeElem f (wordElem f b k), 127))))

/-! ## The QNT scale search (R123) -/

/-- emax(f) of R123. -/
def qntEmax : Fmt → Int
  | .e4m3 => 8
  | .e5m2 => 15
  | .e3m2 => 4
  | .e2m1 => 2
  | .i8 => 6
  | .i4 => 2
  | _ => 0

/-- round_sat(m · 2^e, f) of R123 as a code; symmetric in the integer formats. -/
def roundSat (f : Fmt) (neg : Bool) (m : Nat) (e : Int) : Nat :=
  if fmtIsInt f then
    let top : Int := 2 ^ (fmtBits f - 1) - 1
    let v := max (-top) (min top (roundInt neg m e))
    (BitVec.ofInt (fmtBits f) v).toNat
  else
    let (_, _, top) := fmtParams f
    signCode f neg + min top (roundMag f m e)

/-- The square of an exact difference: m · 2^e with a non-negative m. -/
def sqDiff (a b : Num) : Nat × Int :=
  match addNum a (negNum b) with
  | .fin _ m e => (m * m, 2 * e)
  | _ => (0, 0)

/-- The exact sum of two non-negative dyadics. -/
def addDy (a b : Nat × Int) : Nat × Int :=
  let q := min a.2 b.2
  (a.1 * 2 ^ (a.2 - q).toNat + b.1 * 2 ^ (b.2 - q).toNat, q)

/-- a ≤ b for non-negative dyadics. -/
def leDy (a b : Nat × Int) : Bool :=
  let q := min a.2 b.2
  decide (a.1 * 2 ^ (a.2 - q).toNat ≤ b.1 * 2 ^ (b.2 - q).toNat)

/-- A candidate exponent's element codes and error over the participating values (R123). -/
def qntTry (f : Fmt) (xs : List W32) (c : Int) : List Nat × (Nat × Int) :=
  let one (x : W32) : Nat × (Nat × Int) :=
    match num32 x with
    | .fin neg m e =>
      let q := roundSat f neg m (e - c)
      let back := match decodeElem f q with
        | .fin n k g => Num.fin n k (g + c)
        | y => y
      (q, sqDiff (.fin neg m e) back)
    | _ => (0, (0, 0))
  ((xs.map (fun x => (one x).1)), xs.foldl (fun s x => addDy s (one x).2) (0, 0))

/-- floor(log2 |x|) of a finite non-zero word. -/
def floorLog2 (x : W32) : Int :=
  match num32 x with
  | .fin _ m e => (Nat.log2 m : Int) + e
  | _ => 0

/-- qnt_block over the values of the participating lanes: the scale code and the element codes (R123). -/
def qntBlock (f : Fmt) (xs : List W32) : Nat × List Nat :=
  let zeros := xs.map (fun _ => 0)
  if xs.any (fun x => match num32 x with
    | .fin _ _ _ => false
    | _ => true) then (255, zeros)
  else if xs.all (fun x => x &&& 0x7FFFFFFF == 0) then (127, zeros)
  else
    let amax := xs.foldl (fun a x => if (a &&& 0x7FFFFFFF).ult (x &&& 0x7FFFFFFF) then x else a) 0
    let e0 := floorLog2 amax - qntEmax f
    let clamp (x : Int) : Int := max (-127) (min 127 x)
    let c1 := clamp (e0 - 1)
    let r1 := qntTry f xs c1
    let step (best : Int × (List Nat × (Nat × Int))) (c : Int) :=
      if c = best.1 then best
      else
        let r := qntTry f xs c
        if leDy r.2 best.2.2 then (c, r) else best
    let best := step (step (c1, r1) (clamp e0)) (clamp (e0 + 1))
    ((best.1 + 127).toNat, best.2.1)

end Sys2Proof.Machine
end

