-- ==== Sys2Proof/Machine/Flags.lean ====
section
/-! DEFINITION. The conditions an instruction tests: compare codes (R152, R153), guards (R70) and BRM's tests of the mask
(R155). The hardware has no arithmetic flags; xst and vst are written by their own families (R177, R219). -/

namespace Sys2Proof.Machine

/-- An integer compare of any width (R152). -/
def intCompare {k : Nat} (cc : Cc) (a b : BitVec k) : Bool :=
  match cc with
  | .eq => a == b
  | .ne => a != b
  | .lt => a.slt b
  | .le => a.sle b
  | .gt => b.slt a
  | .ge => b.sle a
  | .ltu => a.ult b
  | .leu => a.ule b
  | .gtu => b.ult a
  | .geu => b.ule a
  | .un => false

/-- An FP32 compare (R152): false of a NaN, but for ne and un. -/
def floatCompare (cc : Cc) (a b : W32) : Bool :=
  match fCompare a b, cc with
  | none, .ne => true
  | none, .un => true
  | none, _ => false
  | some o, .eq => o == .eq
  | some o, .ne => o != .eq
  | some o, .lt => o == .lt
  | some o, .le => o != .gt
  | some o, .gt => o == .gt
  | some o, .ge => o != .lt
  | some _, _ => false

/-- The value a guard or instruction reads from a scalar register: s0 reads zero (R128). -/
def Wave.sget (w : Wave) (r : SReg) : Word := if r = 0 then 0 else w.s[r.val]

/-- Whether a guard passes (R70). -/
def guardPasses (g : Guard) (w : Wave) : Bool :=
  match g with
  | .always => true
  | .ifSet gs gb => (w.sget gs).getLsbD gb.val
  | .ifClear gs gb => !(w.sget gs).getLsbD gb.val

/-- BRM's test of the execution mask (R155). -/
def maskTest (n : Fin 4) (em : Mask) : Bool :=
  match n.val with
  | 0 => em == 0
  | 1 => em != 0
  | 2 => em == 0xFFFFFFFF
  | _ => em != 0xFFFFFFFF

end Sys2Proof.Machine
end

