-- ==== Sys2Proof/Machine/Operands.lean ====
section
/-! DEFINITION. Every operand form: shapes and the permutation crossbar (R76, R77, R132, R133), the shape of a result
(R134 to R136), reads and writes of a wave's scalar and vector registers, last-use frees (R79, R129), uniform-required
operands (R186) and lane addresses (R182). -/

namespace Sys2Proof.Machine

/-! ## Values by shape -/

/-- Thirty-two copies of a value. -/
def splat (u : W32) : Lanes := Vector.replicate 32 u

/-- Lanes by a function of the lane. -/
def lanesBy (f : Fin 32 → W32) : Lanes := Vector.ofFn f

/-- The value lane `l` of a register reads (R132). -/
def VReg.lane (v : VReg) (l : Fin 32) : W32 :=
  match v with
  | .none => 0
  | .uni u => u
  | .aff b s => b + BitVec.ofNat 32 l.val * s
  | .gen x => x[l.val]

/-- All 32 lane values (R132). -/
def VReg.lanes (v : VReg) : Lanes := lanesBy v.lane

/-- The tag code VTAG reads: an unwritten register reads 0 (R132, R172). -/
def VReg.tag : VReg → Nat
  | .none => 0
  | .uni _ => 0
  | .aff _ _ => 1
  | .gen _ => 2

/-- Slots of the register budget (R23). -/
def VReg.words : VReg → Nat
  | .none => 0
  | .uni _ => 1
  | .aff _ _ => 2
  | .gen _ => 32

/-- Uniform, counting an unwritten register as uniform zero (R23). -/
def VReg.isUni : VReg → Bool
  | .none => true
  | .uni _ => true
  | _ => false

/-- Uniform or affine: what runs once on the scalar path (R147). -/
def VReg.isUA : VReg → Bool
  | .gen _ => false
  | _ => true

/-- An unwritten register as the uniform zero it reads (R23). -/
def VReg.norm : VReg → VReg
  | .none => .uni 0
  | v => v

/-- The lane a permutation makes lane `i` read; none reads 0 (R77). -/
def permSrc (p : Perm) (i : Fin 32) : Option (Fin 32) :=
  match p with
  | .ident => some i
  | .rot n => some (i + n)
  | .bc n => some n
  | .bfly n => some ⟨i.val ^^^ n.val, Nat.xor_lt_two_pow (n := 5) i.isLt n.isLt⟩
  | .mir => some ⟨31 - i.val, by omega⟩
  | .sup n => if h : n ≤ i then some ⟨i.val - n.val, by omega⟩ else none
  | .sdn n => if h : i.val + n.val < 32 then some ⟨i.val + n.val, h⟩ else none

/-- Lane values through the crossbar (R77). -/
def permLanes (p : Perm) (v : VReg) : Lanes :=
  lanesBy (fun i => match permSrc p i with
    | some j => v.lane j
    | none => 0)

/-- An operand's value and shape after the crossbar (R133); AMT = 0 of a rotating or shifting pattern is identity
(R77). -/
def crossbar (p : Perm) (v : VReg) : VReg :=
  match p, v.norm with
  | .ident, x => x
  | .bc n, x => .uni (x.lane n)
  | .mir, .aff b s => .aff (b + 31 * s) (-s)
  | .rot n, x => if n = 0 ∨ x.isUni then x else .gen (permLanes (.rot n) x)
  | .bfly n, x => if n = 0 ∨ x.isUni then x else .gen (permLanes (.bfly n) x)
  | .sup n, x => if n = 0 ∨ x = .uni 0 then x else .gen (permLanes (.sup n) x)
  | .sdn n, x => if n = 0 ∨ x = .uni 0 then x else .gen (permLanes (.sdn n) x)
  | .mir, x => if x.isUni then x else .gen (permLanes .mir x)

/-! ## Registers of a wave -/

/-- Write a scalar register; a write to s0 is discarded (R128). -/
def Wave.sset (w : Wave) (r : SReg) (x : Word) : Wave := if r = 0 then w else { w with s := w.s.set r.val x }

/-- A vector register's content. -/
def Wave.vreg (w : Wave) (r : VNum) : VReg := w.v[r.val]

/-- Replace a vector register's content. -/
def Wave.vput (w : Wave) (r : VNum) (x : VReg) : Wave := { w with v := w.v.set r.val x }

/-- A source operand as lane data (R76, R78). -/
def Wave.src (w : Wave) (x : VSrc) : VReg :=
  match x with
  | .vec r p _ => crossbar p (w.vreg r)
  | .sca s => .uni (low32 (w.sget s))

/-- The register `k` after the first of a group; a group that R79 admits stays within v255. -/
def groupReg (r : VNum) (k : Nat) : VNum := ⟨(r.val + k) % 256, Nat.mod_lt _ (by omega)⟩

/-- The registers of a group of n (R79). -/
def groupRegs (r : VNum) (n : Nat) : List VNum := (List.range n).map (groupReg r)

/-- The shape rule of a partial mask (R135): nothing under em = 0, the result as it is under a full mask, and otherwise
general, inactive lanes keeping the value they read before. -/
def mergeMask (em : Mask) (old new : VReg) : VReg :=
  if em = 0 then old
  else if em = 0xFFFFFFFF then new
  else .gen (lanesBy (fun l => if em.getLsbD l.val then new.lane l else old.lane l))

/-- Write a vector register's result under the mask (R134, R135). -/
def Wave.vwrite (w : Wave) (r : VNum) (x : VReg) : Wave := w.vput r (mergeMask w.em (w.vreg r) x.norm)

/-- A q register's content. -/
def Wave.qreg (w : Wave) (r : QNum) : QReg := w.q[r.val]

/-- Replace a q register. -/
def Wave.qput (w : Wave) (r : QNum) (x : QReg) : Wave := { w with q := w.q.set r.val x }

/-- The vector registers a source frees after its read (R79). -/
def srcFrees : VSrc → List VNum
  | .vec r _ true => [r]
  | _ => []

/-- The vector registers a source reads. -/
def srcRegs : VSrc → List VNum
  | .vec r _ _ => [r]
  | .sca _ => []

/-- The scalar registers a source reads. -/
def srcSregs : VSrc → List SReg
  | .vec _ _ _ => []
  | .sca s => [s]

/-- The registers a group operand frees (R79). -/
def grpFrees (g : VGrp) (n : Nat) : List VNum := if g.last then groupRegs g.reg n else []

/-- Free vector registers: they read as uniform zero from then on (R129). -/
def Wave.freeV (w : Wave) (l : List VNum) : Wave := l.foldl (fun w r => w.vput r .none) w

/-- Free q registers (R217). -/
def Wave.freeQ (w : Wave) (l : List QNum) : Wave := l.foldl (fun w r => w.qput r {}) w

/-! ## Shapes of results (R134) -/

/-- Uniform if the source is, else general (R134). -/
def lift1 (f : W32 → W32) (a : VReg) : VReg :=
  match a with
  | .none => .uni (f 0)
  | .uni x => .uni (f x)
  | a => .gen (lanesBy (fun l => f (a.lane l)))

/-- Two sources (R134). -/
def lift2 (f : W32 → W32 → W32) (a b : VReg) : VReg :=
  if a.isUni && b.isUni then .uni (f (a.lane 0) (b.lane 0))
  else .gen (lanesBy (fun l => f (a.lane l) (b.lane l)))

/-- Three sources (R134). -/
def lift3 (f : W32 → W32 → W32 → W32) (a b c : VReg) : VReg :=
  if a.isUni && b.isUni && c.isUni then .uni (f (a.lane 0) (b.lane 0) (c.lane 0))
  else .gen (lanesBy (fun l => f (a.lane l) (b.lane l) (c.lane l)))

/-- VMOV (R134): an affine source stays affine. -/
def vMov (a : VReg) : VReg := a.norm

/-- VADD with its affine rows (R134). -/
def vAdd (a b : VReg) : VReg :=
  match a, b with
  | .aff x s, .uni u => .aff (x + u) s
  | .uni u, .aff x s => .aff (x + u) s
  | .aff x s, .aff y t => .aff (x + y) (s + t)
  | a, b => lift2 (· + ·) a b

/-- VSUB with its affine rows (R134). -/
def vSub (a b : VReg) : VReg :=
  match a, b with
  | .aff x s, .uni u => .aff (x - u) s
  | .uni u, .aff x s => .aff (u - x) (-s)
  | .aff x s, .aff y t => .aff (x - y) (s - t)
  | a, b => lift2 (· - ·) a b

/-- VNEG with its affine row (R134). -/
def vNeg (a : VReg) : VReg :=
  match a with
  | .aff x s => .aff (-x) (-s)
  | a => lift1 (fun x => -x) a

/-- VMUL with its affine rows (R134). -/
def vMul (a b : VReg) : VReg :=
  match a, b with
  | .aff x s, .uni u => .aff (x * u) (s * u)
  | .uni u, .aff x s => .aff (x * u) (s * u)
  | a, b => lift2 (· * ·) a b

/-- VMAD with its affine rows (R134). -/
def vMad (a b c : VReg) : VReg :=
  match a, b, c with
  | .aff x s, .uni u, .uni w => .aff (x * u + w) (s * u)
  | .uni u, .aff x s, .uni w => .aff (x * u + w) (s * u)
  | a, b, c => lift3 (fun x y z => x * y + z) a b c

/-- VSHL with its affine row (R134): the shift amount is the operand's low five bits (R159). -/
def vShl (a b : VReg) : VReg :=
  match a, b with
  | .aff x s, .uni k => .aff (x <<< (k.toNat % 32)) (s <<< (k.toNat % 32))
  | a, b => lift2 (fun x y => x <<< (y.toNat % 32)) a b

/-- VLANE (R134, R159). -/
def vLane : VReg := .aff 0 1

/-- The most compact tag that gives the same lanes (R136). -/
def squeeze (v : VReg) : VReg :=
  let l := v.lanes
  if l = splat l[0] then .uni l[0]
  else if l = lanesBy (fun i => l[0] + BitVec.ofNat 32 i.val * (l[1] - l[0])) then .aff l[0] (l[1] - l[0])
  else .gen l

/-- A value that is the same in every lane by shape, or general lanes. -/
def ofLanes (l : Lanes) : VReg := .gen l

/-! ## Uniform-required operands (R186) -/

/-- The value of a uniform-required operand, or the lanes that differ. -/
def checkUniform (em : Mask) (x : VReg) : Except Mask W32 :=
  if x.isUni || em = 0 then .ok (x.lane 0)
  else
    match lanesOf em with
    | [] => .ok (x.lane 0)
    | f :: _ =>
      let d := maskOf (fun l => em.getLsbD l.val && x.lane l != x.lane f)
      if d = 0 then .ok (x.lane f) else .error d

/-- A uniform-required operand read as a 64-bit quantity: a scalar supplies all its bits, a lane value is
zero-extended (R78). -/
def Wave.uniform64 (w : Wave) (x : VSrc) : Except Mask Word :=
  match x with
  | .sca s => .ok (w.sget s)
  | .vec _ _ _ =>
    match checkUniform w.em (w.src x) with
    | .ok v => .ok (v.setWidth 64)
    | .error m => .error m

/-! ## Lane-opcode words (R174 to R177) -/

/-- The fetches of the stack that a code makes beside those of its selectors: two operands B and A, one operand A, or none. -/
def lopArity (code : Nat) : Nat :=
  if [0x10, 0x11, 0x12, 0x13, 0x14, 0x15, 0x16, 0x19, 0x1A, 0x1B, 0x1C, 0x1D, 0x1E, 0x20, 0x21, 0x22, 0x23, 0x24, 0x26, 0x27,
      0x33].contains code then 2
  else if [0x01, 0x17, 0x18, 0x25, 0x28, 0x29, 0x2A, 0x2B, 0x2C, 0x2D, 0x2E, 0x2F, 0x30, 0x31, 0x32].contains code then 1
  else 0

/-- The stack entries from the top that a lane-opcode word reads, and how many of them it takes off: SEL 0 pops and SEL 1 looks
(R175, R176). -/
def lopReads (word : W32) : Nat × Nat :=
  let code := (word.extractLsb' 0 8).toNat
  let sela := (word.extractLsb' 8 4).toNat
  let selb := (word.extractLsb' 12 4).toNat
  let pop (sel : Nat) : Nat := if sel = 0 then 1 else 0
  let look (sel at_ : Nat) : Nat := if sel ≤ 1 then at_ + 1 else 0
  if word.extractLsb' 24 8 ≠ 0 then (0, 0)
  else if code = 0x02 then (1, 0)
  else if code = 0x03 then (0, 1)
  else if code = 0x04 then (2, 2)
  else if code = 0x23 then (pop selb + pop sela + 1, pop selb + pop sela + 1)
  else if lopArity code = 2 then (max (look selb 0) (look sela (pop selb)), pop selb + pop sela)
  else if lopArity code = 1 then (look sela 0, pop sela)
  else (0, 0)

/-! ## Lane addresses (R182) -/

/-- Bytes a lane moves (R81, R182). -/
def sztBytes : Szt → Nat
  | .w => 4
  | .i8 | .z8 => 1
  | .i16 | .z16 => 2
  | .dw => 8
  | .qw => 16

/-- The index a lane adds: a scalar index's 64 bits, or its lane value sign-extended (R182). -/
def Wave.indexAt (w : Wave) (x : VSrc) (l : Fin 32) : Word :=
  match x with
  | .sca s => w.sget s
  | .vec _ _ _ => ((w.src x).lane l).signExtend 64

/-- lane_addr() of R182, `scale` being the access size for LDB and STB and 1 otherwise. -/
def Wave.laneAddr (w : Wave) (base : SReg) (index : VSrc) (ofs : Word) (scale : Nat) (l : Fin 32) : Word :=
  w.sget base + w.indexAt index l * BitVec.ofNat 64 scale + ofs

/-- Whether an operand makes every lane's address the same (R134): no vector index, or a uniform one. -/
def Wave.sameAddr (w : Wave) (index : VSrc) : Bool := (w.src index).isUni

/-- Whether every lane's address is the same for the charge of an access: a uniform index, or an affine one of stride 0
(R147). -/
def Wave.oneAddr (w : Wave) (index : VSrc) : Bool :=
  match w.src index with
  | .aff _ st => st == 0
  | x => x.isUni

end Sys2Proof.Machine
end

