-- ==== Sys2Proof/Machine/Ops.lean ====
section
/-! DEFINITION. The named operations on the state: memory as a canonical list, records by identity, free draws, names and
locations (R27, R28), monitors, barriers and exits (R22, R56, R206), commits (R141), traps: delivery, routing and
end_wave (R312 to R314, R340), and the return from one. -/

namespace Sys2Proof.Machine

/-! ## Memory -/

/-- What an address that memory does not list reads as: zero (log 6). -/
def unlistedByte : Byte := 0

/-- Read one byte. -/
def Memory.read : Memory → Nat → Byte
  | [], _ => unlistedByte
  | (k, v) :: m, a => if k = a then v else Memory.read m a

/-- Write one byte, keeping addresses rising and listing no unlisted value. -/
def Memory.write : Memory → Nat → Byte → Memory
  | [], a, b => if b = unlistedByte then [] else [(a, b)]
  | (k, v) :: m, a, b =>
    if a < k then (if b = unlistedByte then (k, v) :: m else (a, b) :: (k, v) :: m)
    else if a = k then (if b = unlistedByte then m else (a, b) :: m)
    else (k, v) :: Memory.write m a b

/-- Addresses rise strictly from above `lo`, and no entry equals the unlisted value. -/
def Memory.wfFrom : Nat → Memory → Bool
  | _, [] => true
  | lo, (k, v) :: m => decide (lo ≤ k) && v != unlistedByte && Memory.wfFrom (k + 1) m

/-- The canonical form. -/
def Memory.wf (m : Memory) : Bool := Memory.wfFrom 0 m

/-- `n` bytes from an address. -/
def Memory.readN (m : Memory) (a n : Nat) : List Byte := (List.range n).map (fun i => Memory.read m (a + i))

/-- Write bytes at their addresses, in order. -/
def Memory.writeAll (m : Memory) (l : List (Nat × Byte)) : Memory := l.foldl (fun m x => Memory.write m x.1 x.2) m

/-- Bytes with their addresses from `a` up. -/
def bytesAt (a : Nat) (l : List Byte) : List (Nat × Byte) :=
  (List.range l.length).zipWith (fun i b => (a + i, b)) l

/-- Little-endian value of bytes (R6). -/
def leVal : List Byte → Nat
  | [] => 0
  | b :: bs => b.toNat + 256 * leVal bs

/-- The `n` little-endian bytes of a number (R6). -/
def leOf : Nat → Nat → List Byte
  | 0, _ => []
  | n + 1, x => BitVec.ofNat 8 x :: leOf n (x / 256)

/-! ## Records by identity -/

def State.wave? (s : State) (u : Nat) : Option Wave := s.waves.find? (fun w => w.uid == u)
def State.putWave (s : State) (w : Wave) : State := { s with waves := modWhere (fun x => x.uid == w.uid) (fun _ => w) s.waves }
def State.cohort? (s : State) (u : Nat) : Option Cohort := s.cohorts.find? (fun c => c.uid == u)
def State.putCohort (s : State) (c : Cohort) : State :=
  { s with cohorts := modWhere (fun x => x.uid == c.uid) (fun _ => c) s.cohorts }
def State.ens? (s : State) (u : Nat) : Option Ensemble := s.ensembles.find? (fun e => e.uid == u)
def State.putEns (s : State) (e : Ensemble) : State :=
  { s with ensembles := modWhere (fun x => x.uid == e.uid) (fun _ => e) s.ensembles }
def State.grid? (s : State) (u : Nat) : Option Grid := s.grids.find? (fun g => g.uid == u)
def State.putGrid (s : State) (g : Grid) : State := { s with grids := modWhere (fun x => x.uid == g.uid) (fun _ => g) s.grids }
def State.queue? (s : State) (u : Nat) : Option TQueue := s.queues.find? (fun q => q.id == u)
def State.putQueue (s : State) (q : TQueue) : State := { s with queues := modWhere (fun x => x.id == q.id) (fun _ => q) s.queues }
def State.pkt? (s : State) (u : Nat) : Option Packet := s.packets.find? (fun p => p.id == u)
def State.putPkt (s : State) (p : Packet) : State := { s with packets := modWhere (fun x => x.id == p.id) (fun _ => p) s.packets }
def State.space? (s : State) (a : Nat) : Option Space := s.spaces.find? (fun x => x.asid == a)
def State.putSpace (s : State) (a : Space) : State := { s with spaces := modWhere (fun x => x.asid == a.asid) (fun _ => a) s.spaces }
def State.task? (s : State) (agent : Fin 9) (entry : Nat) : Option Task :=
  s.tasks.find? (fun t => t.agent == agent && t.entry == entry)
def State.putTask (s : State) (t : Task) : State :=
  { s with tasks := modWhere (fun x => x.agent == t.agent && x.entry == t.entry) (fun _ => t) s.tasks }

/-- A core's record; a core without one stands as at reset. -/
def State.coreOf (s : State) (c : CoreId) : CoreSt :=
  match s.cores.find? (fun x => x.id == c) with
  | some x => x
  | none => { id := c }

/-- Store a core's record. -/
def State.putCore (s : State) (c : CoreSt) : State :=
  if s.cores.any (fun x => x.id == c.id) then { s with cores := modWhere (fun x => x.id == c.id) (fun _ => c) s.cores }
  else { s with cores := s.cores ++ [c] }

/-- A die's record; a die without one stands as at reset. -/
def State.dieOf (s : State) (d : Fin 8) : DieSt :=
  match s.dies.find? (fun x => x.die == d) with
  | some x => x
  | none => { die := d }

/-- Store a die's record. -/
def State.putDie (s : State) (d : DieSt) : State :=
  if s.dies.any (fun x => x.die == d.die) then { s with dies := modWhere (fun x => x.die == d.die) (fun _ => d) s.dies }
  else { s with dies := s.dies ++ [d] }

/-- A cluster's record; a cluster without one stands as at reset. -/
def State.cluOf (s : State) (d : Fin 8) (k : Fin 12) : ClusterSt :=
  match s.clusters.find? (fun x => x.die == d && x.clu == k) with
  | some x => x
  | none => { die := d, clu := k }

/-- Store a cluster's record. -/
def State.putClu (s : State) (c : ClusterSt) : State :=
  if s.clusters.any (fun x => x.die == c.die && x.clu == c.clu) then
    { s with clusters := modWhere (fun x => x.die == c.die && x.clu == c.clu) (fun _ => c) s.clusters }
  else { s with clusters := s.clusters ++ [c] }

/-- The generation of a task-table entry: 1 at reset (R256). -/
def State.genOf (s : State) (agent entry : Nat) : Nat :=
  match s.gens.find? (fun x => x.1 == (agent, entry)) with
  | some x => x.2
  | none => 1

/-! ## Identities and free values -/

/-- Take the next identity (log 4). -/
def State.fresh (s : State) : Nat × State := (s.nextUid, { s with nextUid := s.nextUid + 1 })

/-- Draw the next free value (log 3). -/
def State.draw (s : State) : Nat × State := (Config.freeNat s.drawn, { s with drawn := s.drawn + 1 })

/-- Draw a free bit. -/
def State.drawBit (s : State) : Bool × State := (s.draw.1 % 2 == 1, s.draw.2)

/-! ## Where a wave stands -/

def State.cohortOf (s : State) (w : Wave) : Option Cohort := s.cohort? w.cohort

def State.gridOf (s : State) (w : Wave) : Option Grid :=
  match s.cohortOf w with
  | some c => s.grid? c.grid
  | none => none

def State.ensOf (s : State) (w : Wave) : Option Ensemble :=
  match s.cohortOf w with
  | some c => s.ens? c.ens
  | none => none

/-- The address space a wave runs in; a wave of no grid has number 0 (no step makes one). -/
def State.asidOf (s : State) (w : Wave) : Nat :=
  match s.gridOf w with
  | some g => g.asid
  | none => 0

def State.spaceOf (s : State) (w : Wave) : Option Space := s.space? (s.asidOf w)

/-- A location laid out as wave.id[29:16] (R28). -/
def locOf (c : CoreId) (slot : Nat) : BitVec 14 :=
  BitVec.ofNat 14 (c.die.val * 2048 + c.clu.val * 128 + c.core.val * 32 + slot)

def Wave.loc (w : Wave) : BitVec 14 := locOf w.core w.slot.val

/-- The high word of a name (R27): location and sequence number. -/
def nameHigh (loc : BitVec 14) (seq : BitVec 32) : Word := place loc.toNat 32 ||| seq.setWidth 64

/-- Whether a wave stands on its core: not exited, its cohort resident (R13, R19). -/
def State.resident (s : State) (w : Wave) : Bool :=
  !w.exited && (match s.cohortOf w with
    | some c => c.place == .resident
    | none => false)

/-- The resident wave at a location (R316, R344). -/
def State.waveAt (s : State) (loc : BitVec 14) : Option Wave := s.waves.find? (fun w => s.resident w && w.loc == loc)

/-- The cohort's waves that have not exited. -/
def State.liveWaves (s : State) (cohort : Nat) : List Wave := s.waves.filter (fun w => w.cohort == cohort && !w.exited)

/-- Gang scheduling (R20): every cohort of the wave's ensemble is resident or gone. -/
def State.gangResident (s : State) (w : Wave) : Bool :=
  s.resident w && (match s.ensOf w with
    | some e => e.cohorts.all (fun u => match s.cohort? u with
      | some c => c.place == .resident || c.place == .gone
      | none => true)
    | none => true)

/-- The id of the task whose grid a wave belongs to (R255). -/
def State.taskIdOf (s : State) (w : Wave) : W32 :=
  match s.gridOf w with
  | some g => BitVec.ofNat 32 (s.genOf g.agent.val g.entry * 65536 + g.agent.val * 4096 + g.entry)
  | none => 0

/-- A core's clk.core. -/
def State.clkOf (s : State) (c : CoreId) : Nat := (s.coreOf c).clk

/-! ## Errors consumed (R334) -/

/-- An instruction of a grid consumed poison: err.pois of the die rises by one, over life too, and the grid is degraded
(R334, R351). -/
def State.consumePoison (s : State) (w : Wave) : State :=
  let d := s.dieOf w.core.die
  let s := s.putDie { d with pois := d.pois + 1 }
  let life := s.mod.life
  let pois := life.pois.set w.core.die.val (life.pois[w.core.die.val] + 1)
  let s := { s with mod := { s.mod with life := { life with pois := pois } } }
  match s.gridOf w with
  | some g => s.putGrid { g with degraded := true }
  | none => s

/-- The same of an instruction that works in several steps: it counts once. -/
def State.consumeOnce (s : State) (w : Wave) (instr : Nat) : State :=
  if s.consumed.contains instr then s else { s with consumed := instr :: s.consumed }.consumePoison w

/-! ## Wakes and interrupts (R60, R203, R204, R316) -/

/-- Record a cause of wake-up. -/
def Wave.addWake (w : Wave) (why slot : Nat) : Wave :=
  if w.wakes.contains ⟨why, slot⟩ then w else { w with wakes := w.wakes ++ [⟨why, slot⟩] }

/-- Disarm every line (R204). -/
def Wave.disarm (w : Wave) : Wave := { w with mons := Vector.replicate 4 none }

/-- The highest level among the armed lines, 0 with none (R203). -/
def Wave.monLevel (w : Wave) : Nat :=
  w.mons.toList.foldl (fun n m => match m with
    | some x => max n x.level
    | none => n) 0

/-- A context switch disarms every line with WHY 3; the next return of MWAIT is an acquire at their level still (R61,
R204). -/
def Wave.disarmSwitched (w : Wave) : Wave := { w.disarm.addWake 3 0 with wakeLevel := max w.wakeLevel w.monLevel }

/-- Send an interrupt to the wave at a location of a space; dropped if none stands there (R316). -/
def State.sendInt (s : State) (asid : Nat) (loc : BitVec 14) : State :=
  match s.waveAt loc with
  | some w => if s.asidOf w = asid then s.putWave { w with intp := true } else s
  | none => s

/-! ## Barriers (R56, R206) -/

/-- The waves of an ensemble that have not exited. -/
def State.ensLive (s : State) (e : Ensemble) : List Wave := s.waves.filter (fun w => e.cohorts.contains w.cohort && !w.exited)

/-- The completions a barrier keeps: the new one, and those that are some wave's last arrival (R57, R209). -/
def keepDone (d : BDone) (arrivals : List Nat) (old : List BDone) : List BDone :=
  d :: old.filter (fun x => x.gen != d.gen && arrivals.contains x.gen)

/-- Complete a cohort barrier's generation if its arrivals have reached the expected count (R56, R22). -/
def State.checkBar (s : State) (cohort b : Nat) : State :=
  match s.cohort? cohort with
  | none => s
  | some c =>
    if h : b < 16 then
      let bar := c.bars[b]
      let ws := s.liveWaves cohort
      if ws.length ≠ 0 ∧ bar.arrived = ws.length then
        let d : BDone := ⟨bar.gen, s.clkOf c.core, c.bcfg[b], c.place != .resident⟩
        s.putCohort { c with bars := c.bars.set b ⟨0, bar.gen + 1⟩,
                             bdone := c.bdone.set b (keepDone d (ws.map (fun w => w.arrB[b])) c.bdone[b]) }
      else s
    else s

/-- The same of an ensemble barrier; each cohort keeps the completion in cycles of its own core. -/
def State.checkEBar (s : State) (ens e : Nat) : State :=
  match s.ens? ens with
  | none => s
  | some en =>
    if h : e < 4 then
      let bar := en.bars[e]
      let n := (s.ensLive en).length
      if n ≠ 0 ∧ bar.arrived = n then
        let s := s.putEns { en with bars := en.bars.set e ⟨0, bar.gen + 1⟩ }
        let done (c : Cohort) : Cohort :=
          let d : BDone := ⟨bar.gen, s.clkOf c.core, en.ecfg[e], c.place != .resident⟩
          { c with edone := c.edone.set e (keepDone d ((s.liveWaves c.uid).map (fun w => w.arrE[e])) c.edone[e]) }
        { s with cohorts := modWhere (fun c => en.cohorts.contains c.uid) done s.cohorts }
      else s
    else s

/-- Every barrier a wave's exit may release (R22). -/
def State.checkBars (s : State) (c : Cohort) : State :=
  let s := (List.range 16).foldl (fun s b => s.checkBar c.uid b) s
  (List.range 4).foldl (fun s e => s.checkEBar c.ens e) s

/-! ## The A latches (R288) -/

/-- A wave's write of registers invalidates a latch that holds one of them. -/
def State.unlatch (s : State) (w : Wave) (regs : List VNum) : State :=
  let k := s.coreOf w.core
  let hit (p : PortSt) : Bool := match p.latch with
    | some (u, a) => u == w.uid && regs.any (fun r => decide (a.val ≤ r.val) && decide (r.val < a.val + 16))
    | none => false
  if k.ports.toList.any hit then
    s.putCore { k with ports := k.ports.map (fun p => if hit p then { p with latch := none } else p) }
  else s

/-- A wave leaves its core: every latch tagged with it becomes invalid. -/
def State.unlatchWave (s : State) (w : Wave) : State := s.unlatch w (List.finRange 256)

/-! ## Leaving a core (R16, R22, R252) -/

/-- The value of two packet words, low word first (R239). -/
def pair64 (l : List W32) (k : Nat) : Nat := (l.getD k 0).toNat + 2 ^ 32 * (l.getD (k + 1) 0).toNat

/-- The signed offset of byte (x, y, z) of a box from its start (R239). -/
def boxOfs (sy sz : W32) (x y z : Nat) : Int := (z : Int) * sz.toInt + (y : Int) * sy.toInt + x

/-- The address of byte `k` of a packet's box at its source or destination, rows innermost (R239). -/
def boxAddr (words : List W32) (dst : Bool) (k : Nat) : Nat :=
  let x := (words.getD 5 0).toNat
  let y := (words.getD 6 0).toNat % 65536
  let base := pair64 words (if dst then 3 else 1)
  let sy := words.getD (if dst then 9 else 7) 0
  let sz := words.getD (if dst then 10 else 8) 0
  ((base : Int) + boxOfs sy sz (k % x) (k / x % y) (k / x / y)).toNat

/-- The bytes of a packet's box (R239). -/
def boxBytes (words : List W32) : Nat :=
  (words.getD 5 0).toNat * ((words.getD 6 0).toNat % 65536) * ((words.getD 6 0).toNat / 65536)

/-- Whether a number c + j·d with j below n lies strictly between two bounds. -/
def stepsInto (c d : Int) (n : Nat) (lo hi : Int) : Bool :=
  if n = 0 then false
  else if d = 0 then decide (lo < c) && decide (c < hi)
  else
    let a := if 0 < d then lo - c else c - hi
    let b := if 0 < d then hi - c else c - lo
    let e := if 0 < d then d else -d
    let first := max 0 (a / e + 1)
    decide (first < n) && decide (first * e < b)

/-- Whether a row of a packet's box lies on bytes `lo` to `hi` − 1: a row starts within its length before `hi` (R239). -/
def boxMeets (words : List W32) (dst : Bool) (lo hi : Nat) : Bool :=
  let x := (words.getD 5 0).toNat
  let y := (words.getD 6 0).toNat % 65536
  let z := (words.getD 6 0).toNat / 65536
  let base := pair64 words (if dst then 3 else 1)
  let sy := (words.getD (if dst then 9 else 7) 0).toInt
  let sz := (words.getD (if dst then 10 else 8) 0).toInt
  x != 0 && y != 0 && (List.range z).any (fun k => stepsInto ((base : Int) + (k : Int) * sz) sy y ((lo : Int) - x) hi)

/-- A packet not yet completed whose source or destination box touches a cohort's scratchpad aperture or windows (R16,
R183, R252). -/
def Packet.touches (p : Packet) (dst : Bool) (g : Grid) (cid : Nat) : Bool :=
  let meets (base size : Nat) : Bool := boxMeets p.words dst (base + size * cid) (base + size * (cid + 1))
  p.asid == g.asid && p.state != .done && p.state != .dead && (meets g.launch.spad 4194304 || meets g.launch.rwin 1048576)

/-- Give a cohort's granules back (R16). -/
def State.release (s : State) (c : Cohort) : State :=
  let k := s.coreOf c.core
  s.putCore { k with granules := k.granules.filter (fun g => g.cohort != c.uid) }

/-- After a wave has left: a cohort with no wave left is gone, its spill leases end (R131) and its reservation is
released unless a copy into it is outstanding (R16, R22). -/
def State.cohortLeft (s : State) (cohort : Nat) : State :=
  match s.cohort? cohort with
  | none => s
  | some c =>
    if (s.liveWaves cohort).isEmpty then
      let s := s.putCohort { c with place := .gone }
      let s := { s with leases := s.leases.filter (fun l => l.holder != .cohort cohort) }
      let busy : Bool := match s.grid? c.grid with
        | some g => s.packets.any (fun p => p.touches true g c.cid || p.touches false g c.cid)
        | none => false
      if busy then s else s.release c
    else s

/-- The wave leaves the core as EXIT has it (R22, R156, R204); its deferred results have committed. -/
def State.waveExit (s : State) (w : Wave) : State :=
  let gone := { w.disarm with
    exited := true, park := .none, hold := .none, inProg := .none, halted := false, haltReq := false, step := none,
    fatal := none, defs := [], stk := none }
  let s := (s.unlatchWave w).putWave gone
  match s.cohortOf w with
  | some c => (s.checkBars c).cohortLeft c.uid
  | none => s

/-! ## Commit (R141) -/

/-- The bytes returned to one lane of a deferred result, in part order. -/
def Def.bytesOf (d : Def) (lane : Nat) : List Byte :=
  (List.range 4).flatMap (fun p =>
    (d.got.filter (fun g => g.lane == lane && g.part == p)).flatMap (fun g => g.bytes))

/-- Whether a lane's bytes were poisoned. -/
def Def.poisoned (d : Def) (lane : Nat) : Bool := d.got.any (fun g => g.lane == lane && g.poison)

/-- A loaded lane's value for word `j` of its group (R192), and under poison (R334). -/
def loadValue (sz : Szt) (bytes : List Byte) (poison : Bool) (j : Nat) : W32 :=
  let x := leVal bytes
  if poison then
    (match sz with
      | .w | .dw | .qw => nan32
      | _ => 0)
  else
    match sz with
    | .w => BitVec.ofNat 32 x
    | .i8 => (BitVec.ofNat 8 x).signExtend 32
    | .z8 => (BitVec.ofNat 8 x).setWidth 32
    | .i16 => (BitVec.ofNat 16 x).signExtend 32
    | .z16 => (BitVec.ofNat 16 x).setWidth 32
    | .dw => BitVec.ofNat 32 (x / 2 ^ (32 * j))
    | .qw => BitVec.ofNat 32 (x / 2 ^ (32 * j))

/-- The 4-byte value a part of a lane returned (QLD elements, TLD registers, ATOM). -/
def Def.word (d : Def) (lane part : Nat) : W32 :=
  match d.got.find? (fun g => g.lane == lane && g.part == part) with
  | some g => if g.poison then nan32 else BitVec.ofNat 32 (leVal g.bytes)
  | none => 0

/-- The value an outstanding scoreboarded result will give a vector register (R144). -/
def Wave.pendingV (w : Wave) (r : VNum) : Option VReg :=
  firstOf (fun b : Sb => (b.vw.find? (fun x => x.1 == r)).map (fun x => x.2)) w.sb

/-- The same of a q register. -/
def Wave.pendingQ (w : Wave) (r : QNum) : Option QReg :=
  firstOf (fun b : Sb => (b.qw.find? (fun x => x.1 == r)).map (fun x => x.2)) w.sb

/-- Forget what outstanding results would write to a vector register: a later write stands. -/
def Wave.dropPendingV (w : Wave) (r : VNum) : Wave :=
  { w with sb := w.sb.map (fun b => { b with vw := b.vw.filter (fun x => x.1 != r) }) }

/-- The same of a q register. -/
def Wave.dropPendingQ (w : Wave) (r : QNum) : Wave :=
  { w with sb := w.sb.map (fun b => { b with qw := b.qw.filter (fun x => x.1 != r) }) }

/-- Write a pending result to one register, unless a later write has discarded it (R141). An outstanding scoreboarded
result to the register is older in program order: the commit applies on top of it (R144). -/
def Wave.commitV (w : Wave) (d : Def) (r : VNum) (em : Mask) (x : VReg) : Wave :=
  if d.deadV.contains r || em == 0 then w
  else
    let old := match w.pendingV r with
      | some v => v
      | none => w.vreg r
    (w.dropPendingV r).vput r (mergeMask em old x)

/-- The rule of R217 and R218 for a q destination: nothing under em = 0, the result under a full mask, and otherwise a
general register whose inactive lanes keep their matrix and status, or zeros and none. -/
def mergeQ (em : Mask) (old new : QReg) : QReg :=
  if em = 0 then old
  else if em = 0xFFFFFFFF then new
  else
    { rows := new.rows, cols := new.cols, general := true,
      elems := (List.range new.elems.length).map (fun k =>
        let n := new.elems.getD k (splat 0)
        let o := if old.rows = 0 then splat 0 else old.elems.getD k (splat 0)
        lanesBy (fun l => if em.getLsbD l.val then n[l.val] else o[l.val])),
      status := Vector.ofFn (fun l => if em.getLsbD l.val then new.status[l.val]
        else if old.rows = 0 then .none else old.status[l.val]) }

/-- Apply one pending result under its captured mask, lanes lost to an unmappable page excepted (R141, R189). -/
def Wave.applyDef (w : Wave) (d : Def) : Wave :=
  let em := d.mask &&& ~~~d.lost
  match d.dest with
  | .vload r sz uniform =>
    (List.range sz.regs).foldl (fun w j =>
      let val (l : Fin 32) : W32 := loadValue sz (d.bytesOf l.val) (d.poisoned l.val) j
      let x : VReg := if uniform then .uni (match lanesOf em with
        | l :: _ => val l
        | [] => 0) else .gen (lanesBy val)
      w.commitV d (groupReg r j) em x) w
  | .vatom r => w.commitV d r em (.gen (lanesBy (fun l => d.word l.val 0)))
  | .qload q rows cols uniform =>
    if d.deadQ || em == 0 then w
    else
      let elems := (List.range (rows * cols)).map (fun k =>
        if uniform then splat (match lanesOf em with
          | l :: _ => d.word l.val k
          | [] => 0) else lanesBy (fun l => d.word l.val k))
      let old := match w.pendingQ q with
        | some v => v
        | none => w.qreg q
      (w.dropPendingQ q).qput q (mergeQ em old { rows := rows, cols := cols, general := !uniform, elems := elems })
  | .tile r n =>
    (List.range n).foldl (fun w j => w.commitV d (groupReg r j) em (.gen (lanesBy (fun l =>
      if d.poisoned l.val then nan32 else d.word l.val j)))) w

/-- The pending fault of a deferred result some of whose lanes resolved as unmappable (R189); a wave with a result pending does
not move, so the command issued where the wave stands (R27). -/
def Def.fault (d : Def) (loc : BitVec 14) : List PendFault :=
  if d.lost = 0 then []
  else [{ seq := d.seq, detail := 6, aux := d.lostAux, mask := d.lost, addr := d.lostAddr, loc := some loc }]

/-- Commit every pending result in program order (R141). -/
def Wave.commit (w : Wave) : Wave := { w.defs.foldl Wave.applyDef w with defs := [] }

/-! ## Spill and refill (R24, R130) -/

/-- Words of the budget a vector register takes: those of an outstanding scoreboarded result to it from that result's line on
(R232; log 86), none while it is spilled. -/
def Wave.vregWords (w : Wave) (r : VNum) : Nat :=
  match w.pendingV r with
  | some x => x.words
  | none => if w.spilled.contains r then 0 else (w.vreg r).words

/-- The same of a q register (R24). -/
def Wave.qregWords (w : Wave) (r : QNum) : Nat :=
  let q := match w.pendingQ r with
    | some x => x
    | none => w.qreg r
  q.rows * q.cols * (if q.general then 32 else 1)

/-- Words of the budget a wave uses (R23, R24). -/
def Wave.liveWords (w : Wave) : Nat :=
  ((List.finRange 256).foldl (fun n r => n + w.vregWords r) 0) + ((List.finRange 8).foldl (fun n r => n + w.qregWords r) 0) +
    (if w.stk.isSome then 256 else 0)

/-- Note a use: the register becomes the most recent. -/
def Wave.touch (w : Wave) (l : List VNum) : Wave :=
  { w with lru := l.foldl (fun u r => u.filter (fun x => x != r) ++ [r]) w.lru }

/-- The general register to spill next: least recently used first, registers never used before all others; never one with
an outstanding result, which an MMA's accumulator may not be (R290) and whose slots the result has (log 86). -/
def Wave.victim (w : Wave) : Option VNum :=
  let can (r : VNum) : Bool := (w.vreg r).tag == 2 && !w.spilled.contains r && (w.pendingV r).isNone
  match (List.finRange 256).find? (fun r => can r && !w.lru.contains r) with
  | some r => some r
  | none => w.lru.find? can

/-- The bytes of a register's 32 lanes. -/
def laneBytes (x : VReg) : List Byte := (List.finRange 32).flatMap (fun l => leOf 4 (x.lane l).toNat)

/-- Whether a poisoned unit is a block of a register's spill copy (R130, R333). -/
def Wave.spillBlock (w : Wave) (r : VNum) (u : PoisonUnit) : Bool :=
  match w.spillPa, u with
  | some a, .mem b => decide (a + 128 * r.val ≤ 32 * b) && decide (32 * b + 32 ≤ a + 128 * r.val + 128)
  | _, _ => false

/-- Spill until the live words fit the budget, `n` registers at most; a spill writes the whole of the copy's blocks and so clears
their poison (R334). A wave whose area lies in the die's spill pool (`spillPa` none) keeps its copies apart from M: no agent
reaches the pool (log 22). -/
def spillFit : Nat → State → Wave → State × Wave
  | 0, s, w => (s, w)
  | n + 1, s, w =>
    if w.liveWords ≤ w.budget then (s, w)
    else
      match w.victim with
      | none => (s, w)
      | some r =>
        let m := match w.spillPa with
          | some a => s.mem.writeAll (bytesAt (a + 128 * r.val) (laneBytes (w.vreg r)))
          | none => s.mem
        spillFit n { s with mem := m, poison := s.poison.filter (fun u => !w.spillBlock r u) }
          { w with spilled := w.spilled ++ [r] }

/-- The wave of a state spills until it fits. -/
def State.fitWave (s : State) (u : Nat) : State :=
  match s.wave? u with
  | none => s
  | some w =>
    let (s, w) := spillFit 256 s w
    s.putWave w

/-- Whether a poisoned block lies under lane `l` of a register's spill copy (R334). -/
def State.copyPoisoned (s : State) (w : Wave) (r : VNum) (l : Nat) : Bool :=
  match (if w.spilled.contains r then w.spillPa else none) with
  | some a => s.poison.contains (.mem ((a + 128 * r.val + 4 * l) / 32))
  | none => false

/-- A register as every reader finds it where poison marks stand on its words: 0x7FC0_0000 in each (R334). -/
def poisonedReg (marks : List PoisonUnit) (u : Nat) (r : VNum) (x : VReg) : VReg :=
  let bad (l : Fin 32) : Bool := marks.contains (.vreg u r l)
  if (List.finRange 32).any bad then
    match x with
    | .none => .none
    | .uni _ => .uni nan32
    | .aff _ _ => .aff nan32 0
    | .gen l => .gen (lanesBy (fun k => if bad k then nan32 else l[k.val]))
  else x

/-- A lane's stack, top first, as every reader finds it where marks stand on its entries, which count from the bottom (R334). -/
def poisonedStack (marks : List PoisonUnit) (u : Nat) (l : Fin 32) (st : List W32) : List W32 :=
  (List.range st.length).map (fun j => if marks.contains (.stack u l (st.length - 1 - j)) then nan32 else st.getD j 0)

/-- The same of all of a wave's stacks. -/
def poisonedStacks (marks : List PoisonUnit) (u : Nat) (st : Stacks) : Stacks :=
  Vector.ofFn (fun l => poisonedStack marks u l st[l.val])

/-- Refill one register: a byte of its spill copy that a write has changed since is a free choice between the two
(R131), and a word of a poisoned block comes back poisoned (R333, R334). -/
def refillOne (s : State) (w : Wave) (r : VNum) : State × Wave :=
  let w' := { w with spilled := w.spilled.filter (fun x => x != r) }
  match (if w.spilled.contains r then w.spillPa else none) with
  | none => (s, w')
  | some a =>
    let a := a + 128 * r.val
    let (s, bytes) := (List.range 128).foldl (fun (acc : State × List Byte) i =>
      let old := (laneBytes (w.vreg r)).getD i 0
      let now := acc.1.mem.read (a + i)
      if now = old then (acc.1, acc.2 ++ [old])
      else
        let (b, s) := acc.1.drawBit
        (s, acc.2 ++ [if b then now else old])) (s, [])
    let v : VReg := .gen (lanesBy (fun l => BitVec.ofNat 32 (leVal ((bytes.drop (4 * l.val)).take 4))))
    let marks := ((List.finRange 32).filter (fun l => s.copyPoisoned w r l.val)).map (fun l => PoisonUnit.vreg w.uid r l)
    let s := { s with poison := s.poison ++ marks.filter (fun u => !s.poison.contains u) }
    (s, w'.vput r (poisonedReg s.poison w.uid r v))

/-- Refill every register of a list that is spilled. -/
def refill (s : State) (w : Wave) (l : List VNum) : State × Wave :=
  l.foldl (fun x r => refillOne x.1 x.2 r) (s, w)

/-- Every pending deferred result has returned. -/
def Wave.returned (w : Wave) : Bool := w.defs.all (fun d => d.returned)

/-- What R312 waits for: deferred results returned, scoreboarded results written, nests finished or stopped. -/
def Wave.quiescent (w : Wave) : Bool :=
  w.returned && w.sb.isEmpty && w.nests.all (fun n => n.state == .stopped)

/-- The same with the wave's generator work done (R300). -/
def State.quiet (s : State) (w : Wave) : Bool := w.quiescent && !s.accs.any (fun a => a.agent == .wave w.uid && a.gen)

/-- The vector registers the commit of a deferred result writes. -/
def Def.regs (d : Def) : List VNum :=
  let live (l : List VNum) : List VNum := if d.mask &&& ~~~d.lost = 0 then [] else l.filter (fun r => !d.deadV.contains r)
  match d.dest with
  | .vload r sz _ => live (groupRegs r sz.regs)
  | .vatom r => live [r]
  | .qload _ _ _ _ => []
  | .tile r n => live (groupRegs r n)

/-! ## Mailbox events (R342, R343) -/

/-- A trap at a boundary: what the frame would hold (R311, R312), the resume address, the address of the instruction
it arose at, whether a hit slot routes it to the mailbox (R340), and the location of its name where it is not the wave's own
(R27). -/
structure TrapInfo where
  cls : Nat
  detail : Nat := 0
  aux : Nat := 0
  mask : Mask
  addr : Word := 0
  seq : BitVec 32
  rpc : Word
  mbx : Bool := false
  loc : Option (BitVec 14) := none
  deriving DecidableEq, Repr

/-- trap.cause (R311). -/
def causeWord (t : TrapInfo) : Word := place (t.detail % 65536) 16 ||| place (t.aux % 256) 8 ||| place t.cls 0

/-- Bit EN of dbg.mbx (R342). -/
def State.mbxOn (s : State) (w : Wave) : Bool :=
  match s.spaceOf w with
  | some a => a.eb[0x30].getLsbD 0
  | none => false

/-- Queue a debug event for posting in order (R342); kinds 4 to 8 with EN = 0 are dropped. `at_`: the location of the name in
it, which is the wave's unless the command issued elsewhere (R27). -/
def State.postEvent (s : State) (w : Wave) (evt : Nat) (cause pc : Word) (seq : BitVec 32) (mask : Mask)
    (addr : Word) (at_ : Option (BitVec 14) := none) : State :=
  match s.spaceOf w with
  | none => s
  | some a =>
    if a.eb[0x30].getLsbD 0 then
      let coh := match s.cohortOf w with
        | some c => c.cid % 65536
        | none => 0
      s.putSpace { a with mbxQueue := a.mbxQueue ++ [⟨evt, w.loc, at_.getD w.loc, cause, pc, seq, mask, w.em, addr, s.taskIdOf w,
        BitVec.ofNat 32 (coh * 65536 + w.widx)⟩] }
    else s

/-! ## Traps (R312 to R314, R340) -/

/-- The handler base of a wave's address space (R309). -/
def State.trapBase (s : State) (w : Wave) : Word :=
  match s.spaceOf w with
  | some a => a.trapBase
  | none => 0

/-- Mark the grid as ended by an undelivered trap: STATUS 6 with the class (R263, R314). -/
def State.markUndelivered (s : State) (w : Wave) (cls : Nat) : State :=
  match s.gridOf w with
  | some g => s.putGrid { g with undelivered := some (match g.undelivered with
    | some c => c
    | none => cls) }
  | none => s

/-- The debug event of a routed BKP, STP or WCH (R343). -/
def eventOf (cls : Nat) : Nat := if cls = 7 then 1 else if cls = 8 then 2 else 3

/-- A wave as HALT reports it: 1 + 2 × halted + 4 × parked, 0 where it has gone (R344). A wave that waits at a switch point or
on the side log is parked (R140, R62); one that holds at a CPYQ is not (R241). -/
def haltReport (w : Option Wave) : Nat :=
  match w with
  | some w =>
    let parked : Bool := (w.park != .none && w.park != .cpyq) || w.hold == .returns || w.hold == .sideLog
    if w.exited then 0 else 1 + (if w.halted then 2 else 0) + (if parked then 4 else 0)
  | none => 0

/-- Tell everyone who waits for a wave's halt that it has taken effect (R344). -/
def State.haltTaken (s : State) (u : Nat) : State :=
  let v := haltReport (s.wave? u)
  { s with
    waves := modWhere (fun w => w.inProg == .haltWait u) (fun w => { w with inProg := .haltDone v }) s.waves,
    spaces := modWhere (fun a => a.haltWait == some u) (fun a => { a with haltWait := none, haltRes := BitVec.ofNat 64 v }) s.spaces }

/-- A wave stands halted. A HALT that waited for it has taken effect, and posts event 4 (R344). -/
def State.standHalted (s : State) (w : Wave) : State :=
  let s := s.putWave { w with halted := true, haltReq := false, hold := .none, step := none }
  if w.haltReq then (s.postEvent w 4 0 w.pc w.seq w.em 0).haltTaken w.uid else s

/-- end_wave(6): the deferred results have committed; the wave ends as EXIT does (R314), and a step that ends so posts
event 7 (R345). -/
def State.endWave (s : State) (w : Wave) (cls : Nat) : State :=
  let s := if w.step.isSome then s.postEvent w 7 0 w.pc w.seq w.em 0 else s
  (s.markUndelivered w cls).waveExit w

/-- A step that has just ended at a trap's handler (R345): the wave stands halted there, and with MBX event 2 names the
handler's entry. -/
def State.endStepAtTrap (s : State) (w : Wave) (from_ : Word) : State :=
  match w.step with
  | none => s.putWave w
  | some st => (if st.mbx then s.postEvent w 2 8 w.pc w.seq w.em from_ else s).standHalted w

/-- Delivery of a trap at a boundary where R312's waits are over and the results have committed: to the mailbox where
a slot routes it (R340), to the handler (R312), or, with the wave privileged or no handler, event 8 or end_wave
(R314, R340). -/
def State.deliver (s : State) (w : Wave) (t : TrapInfo) : State :=
  let w := { w with exempt := false, hold := .none, inProg := .none, fetch := .free }
  if t.mbx && s.mbxOn w then
    (s.postEvent w (eventOf t.cls) (causeWord t) t.rpc t.seq t.mask t.addr t.loc).standHalted w
  else if w.priv ∨ s.trapBase w = 0 then
    if s.mbxOn w then
      (s.postEvent w 8 (causeWord t) t.rpc t.seq t.mask t.addr t.loc).standHalted { w with fatal := some t.cls }
    else s.endWave w t.cls
  else
    let base := s.trapBase w
    s.endStepAtTrap { w with cause := causeWord t, tpc := t.rpc, tseq := t.seq.setWidth 64, tmask := t.mask.setWidth 64,
                             taddr := t.addr, tem := w.em.setWidth 64, priv := true,
                             pc := base + BitVec.ofNat 64 (0x40 * t.cls) } w.pc

/-- A pending fault as a trap whose trap.pc is the wave's instruction (R189, R190, R201). -/
def Wave.pendTrap (w : Wave) (p : PendFault) : TrapInfo :=
  { cls := p.cls, detail := p.detail, aux := p.aux, mask := p.mask, addr := p.addr, seq := p.seq, rpc := w.pc,
    mbx := p.mbx, loc := p.loc }

/-- Oldest first, by how far behind wave.seq the command stands (R313). -/
def oldestPend (w : Wave) : Option PendFault :=
  w.pends.foldl (fun o p => match o with
    | none => some p
    | some q => if (w.seq - q.seq).toNat < (w.seq - p.seq).toNat then some p else some q) none

/-- The wave after a commit, with the faults the commit found pending (R189). -/
def Wave.commitFaults (w : Wave) : Wave :=
  let c := w.commit
  { c with pends := c.pends ++ w.defs.flatMap (fun d => d.fault w.loc) }

/-- The registers whose old lanes a commit keeps: those it writes under a mask that is not full. -/
def Def.partialRegs (d : Def) : List VNum := if d.mask &&& ~~~d.lost = 0xFFFFFFFF then [] else d.regs

/-- Whether a write of vector and q registers of a wave, as it stood before, under a mask writes a poisoned word anew (R334): the
lanes of a general register that are written; the one word of a compact register goes with any of them, since the lanes that
stay are written with what it read as (R135). -/
def Wave.rewrites (w : Wave) (em : Mask) (vs : List VNum) (qs : List QNum) (u : PoisonUnit) : Bool :=
  match u with
  | .vreg x v l => x == w.uid && vs.contains v && (em.getLsbD l.val || (em != 0 && (w.vreg v).isUA))
  | .qelem x q l _ => x == w.uid && qs.contains q && (em.getLsbD l.val || (em != 0 && !(w.qreg q).general))
  | _ => false

/-- Poison marks that such a write removes. -/
def State.cleanWords (s : State) (w : Wave) (em : Mask) (vs : List VNum) (qs : List QNum) : State :=
  { s with poison := s.poison.filter (fun p => !w.rewrites em vs qs p) }

/-- The q registers that the commit of a deferred result writes. -/
def Def.qregs (d : Def) : List QNum :=
  match d.dest with
  | .qload q _ _ _ => if d.deadQ then [] else [q]
  | _ => []

/-- Commit at a boundary or switch point: a spilled register that a result writes in part is refilled first, and one
written whole leaves its spill copy; the registers count as used, latches on them and poison in them go, and the wave
spills until it fits its budget (R24, R130, R141, R288, R334). -/
def State.commitAll (s : State) (w : Wave) : State × Wave :=
  let regs := w.defs.flatMap Def.regs
  let s := s.unlatch w regs
  let s := w.defs.foldl (fun s d => s.cleanWords w (d.mask &&& ~~~d.lost) d.regs d.qregs) s
  let (s, w) := refill s w (w.defs.flatMap Def.partialRegs)
  let c := w.commitFaults
  spillFit 256 s ({ c with spilled := c.spilled.filter (fun r => !regs.contains r) }.touch regs)

/-- The same where a result is pending; with none nothing changes. -/
def State.commitNow (s : State) (w : Wave) : State × Wave := if w.defs.isEmpty then (s, w) else s.commitAll w

/-- What R143 and R312 put ahead of anything taken at a wave's boundary: the waits, the commit, and a pending fault of an
earlier command if one stands (R313); `k` goes on where none does. -/
def State.atBoundary (s : State) (w : Wave) (k : State → Wave → State) : State :=
  if s.quiet w then
    let (s, w) := s.commitNow w
    match oldestPend w with
    | some p => s.deliver { w with pends := w.pends.filter (fun q => q != p) } (w.pendTrap p)
    | none => k s w
  else s.putWave { w with hold := .returns }

/-- Take a trap at the wave's boundary. -/
def State.takeTrap (s : State) (w : Wave) (t : TrapInfo) : State := s.atBoundary w (fun s w => s.deliver w t)

/-- Whether a trap's cause exempts the first access, or the next match, after its return: a watchpoint, or a breakpoint
that a slot raised (R341). -/
def exempts (cause : Word) : Bool := field cause 0 8 = 6 || (field cause 0 8 = 7 && field cause 8 8 != 0)

/-- The return from a trap (R315): pc from trap.pc with bits [2:0] cleared, em from trap.em, user state; an ERET that
resumes a watchpoint or breakpoint exempts the next instruction (R341), and a stopped nest continues (R201). -/
def Wave.eret (w : Wave) : Wave :=
  { w with pc := w.tpc &&& ~~~7, em := low32 w.tem, priv := false, exempt := exempts w.cause,
           nests := modWhere (fun n => n.state == .stopped)
             (fun n => { n with state := .running, exempt := exempts w.cause }) w.nests }

end Sys2Proof.Machine
end

