-- ==== Sys2Proof/Machine/Issue.lean ====
section
/-! DEFINITION. The one way an instruction of a wave issues (R70, R71, R88 to R90, R140 to R144): privilege, guard,
switch point and commit, pending faults, breakpoint by name, dependences, poisoned sources, last-use frees, the
instruction's own body, and what every instruction does as it ends: pc, wave.seq, charge, leaf, spill (R24, R26, R130,
R147, R347). -/

namespace Sys2Proof.Machine

/-! ## Properties of an opcode -/

/-- Privileged opcodes, marked (P) in R84. -/
def privOpc (o : Nat) : Bool := [0x381, 0x384, 0x385, 0x386, 0x388, 0x389, 0x38B].contains o

/-- Switch points by opcode (R71, R140). -/
def switchOpc (o : Nat) : Bool := [0x029, 0x02A, 0x20C, 0x210, 0x212, 0x213, 0x380, 0x387].contains o

/-- Named commands (R26, R196, R198, R203, R205). -/
def namedOpc (o : Nat) : Bool :=
  [0x200, 0x201, 0x202, 0x203, 0x204, 0x205, 0x206, 0x207, 0x209, 0x20B, 0x218, 0x281, 0x282, 0x301, 0x302, 0x308,
    0x309, 0x30A, 0x310, 0x311, 0x312].contains o

/-- Deferred instructions (R139). -/
def deferOpc (o : Nat) : Bool := [0x200, 0x202, 0x204, 0x206, 0x281, 0x301].contains o

/-- Scoreboarded instructions (R144): FDIV, FSQRT, VDIV, VREM, XEV, QCHOL, QLU, QSOLV and MMA. -/
def boardOpc (o : Nat) : Bool := [0x088, 0x089, 0x104, 0x105, 0x198, 0x28C, 0x28D, 0x28E, 0x300].contains o

/-- Issue weights (R147, R210, R244, R265, R292). -/
def weightOpc (o : Nat) : Nat :=
  if o < 0x080 then 0
  else if o < 0x100 then (if o = 0x088 ∨ o = 0x089 then 4 else 1)
  else if o < 0x180 then (if o = 0x104 ∨ o = 0x105 ∨ 0x118 ≤ o then 4 else 2)
  else if o < 0x200 then
    (if o ≤ 0x182 then 2 else if o = 0x183 ∨ o = 0x198 then 4 else if 0x190 ≤ o ∧ o ≤ 0x195 then 0 else 1)
  else if o < 0x280 then (if o = 0x208 ∨ o = 0x20C ∨ (0x210 ≤ o ∧ o ≤ 0x213) then 0 else 2)
  else if o < 0x300 then 6
  else if o < 0x380 then (if o = 0x300 then 64 else if o = 0x303 then 0 else 2)
  else 0

/-- Opcodes whose words are vector instructions for the leaves of R347: the V-form (R85). -/
def vectorOpc (o : Nat) : Bool :=
  ((decide (0x080 ≤ o) && decide (o < 0x190)) || (decide (0x196 ≤ o) && decide (o < 0x380))) &&
    !([0x20C, 0x210, 0x211, 0x212, 0x213, 0x218].contains o)

/-! ## Requests -/

/-- The lanes of a vector operand's register that an instruction reads, where they are not each active lane's own: those its
pattern names to the active lanes (R77), to the lanes that an index names (R168), to the active lanes or with none to lane 0
(R186), or to the lanes below `n` whatever em holds (R240). -/
inductive LaneUse where
  | through (x : VSrc)
  | picked (x index : VSrc)
  | one (x : VSrc)
  | low (x : VSrc) (n : Nat)
  deriving DecidableEq, Repr

/-- The elements of its q operands that an instruction reads: all, none, only (i, j), or all but (i, j). -/
inductive QUse where
  | all
  | none
  | only (i j : Nat)
  | but (i j : Nat)
  deriving DecidableEq, Repr

/-- The entries of each active lane's stack that an instruction reads: none, the top one, or those its lane-opcode word reads. -/
inductive StkUse where
  | none
  | top
  | word (op : VSrc)
  deriving DecidableEq, Repr

/-- What an instruction tells the issue logic: head, opcode, length, registers read, written and freed, and which
special state it waits for; of the registers `dv` and `dq` it waits for results alone. `uses`, `qu` and `su`: which lanes,
elements and stack entries it reads of them. `denied`: PRV is raised whatever its opcode (R87). -/
structure Req where
  h : Head
  opc : Nat
  len : Nat
  rs : List SReg := []
  ws : List SReg := []
  rv : List VNum := []
  wv : List VNum := []
  fv : List VNum := []
  dv : List VNum := []
  rq : List QNum := []
  wq : List QNum := []
  dq : List QNum := []
  fq : List QNum := []
  stk : Bool := false
  xst : Bool := false
  vst : Bool := false
  ignoreEm : Bool := false
  sideWait : Bool := false
  drains : Bool := false
  denied : Bool := false
  chain : List VNum := []
  uses : List LaneUse := []
  qu : QUse := .all
  su : StkUse := .none
  deriving DecidableEq, Repr

/-- How a body ends. -/
inductive Res where
  /-- Complete; `sp`: it ran once on the scalar path (R147). -/
  | ok (s : State) (w : Wave) (sp : Bool)
  /-- Complete, with control going to `pc`. -/
  | jump (s : State) (w : Wave) (pc : Word)
  /-- A trap precise at the instruction. -/
  | trap (s : State) (w : Wave) (t : TrapInfo)
  /-- Not issued in this turn: the wave waits at the instruction. -/
  | hold (s : State) (w : Wave) (why : Hold)
  /-- Issued, and parked at the instruction until an event resumes it; `sp` as above. -/
  | parked (s : State) (w : Wave) (sp : Bool)
  /-- Complete; the wave has left or has been written to the state already. -/
  | gone (s : State)
  /-- Not issued: a trap that changes registers of its own has been taken. -/
  | stopped (s : State)

/-- A wave as the state holds it. -/
def State.waveNow (s : State) (w : Wave) : Wave :=
  match s.wave? w.uid with
  | some x => x
  | none => w

/-- Run an operation on the state with the wave in it, and take the wave as it leaves it. -/
def onState (s : State) (v : Wave) (f : State → State) : Res :=
  let s := f (s.putWave v)
  match s.wave? v.uid with
  | some v => .ok s v true
  | none => .gone s

/-- A body: the state, the wave as it reads its sources, and the wave with its last-use frees done. -/
abbrev Body := State → Wave → Wave → Res

/-! ## Accounting (R147, R347) -/

/-- Record an issue on the wave's port in this core cycle: its address, its leaf and its charge; the core's idle time starts anew
(R275). -/
def State.account (s : State) (w : Wave) (pc : Word) (leaf charge : Nat) : State :=
  let k := s.coreOf w.core
  let p := k.ports[w.port.val]
  let win := match k.window with
    | [] => [charge]
    | c :: cs => (c + charge) :: cs
  s.putCore { k with ports := k.ports.set w.port.val { p with issued := some leaf, issuedWave := some w.uid, issuedPc := pc,
                                                                stall := 0, grant := false },
                     window := win, idle := 0 }

/-- Whether an instruction's result is general: that of a vector or q destination as it now stands or is outstanding; none
of a scalar destination; of an instruction without either, such as a store or a deferred one, whether it ran on the vector
pipe (R347). -/
def generalResult (r : Req) (w : Wave) (sp : Bool) : Bool :=
  let v (x : VNum) : VReg := match w.pendingV x with
    | some y => y
    | none => w.vreg x
  let q (x : QNum) : QReg := match w.pendingQ x with
    | some y => y
    | none => w.qreg x
  if r.wv.isEmpty && r.wq.isEmpty then r.ws.isEmpty && !sp
  else r.wv.any (fun x => !(v x).isUA) || r.wq.any (fun x => (q x).general)

/-- The leaf of an issued instruction (R347). -/
def leafOf (o : Nat) (general : Bool) (em : Mask) : Nat :=
  if vectorOpc o && em == 0 then 3
  else if !general || !vectorOpc o then 1
  else if em = 0xFFFFFFFF then 0
  else 2

/-- The charge of an issued instruction: its weight times n (R147); MMA's n is 32, and a TLD or TST charges 2 (R298). -/
def chargeOf (o : Nat) (sp : Bool) (em : Mask) : Nat :=
  weightOpc o * (if o = 0x300 then 32 else if sp || o == 0x301 || o == 0x302 then 1 else popCount em)

/-- A unit of an issue port that is busy for more than the cycle of an issue (R14, R145). -/
inductive PortUnit where
  | pipe | sfu
  deriving DecidableEq, Repr

/-- The unit an instruction occupies: a vector instruction that does not run on the scalar path takes the vector pipe, or, of
a special function, the special-function unit (R145); of the XEV family only XEV itself may run on the scalar path (R178,
R181), and QNT and VSQZ take the pipe whatever their sources (R167, R173). DESIGN CHOICE: a VPERM of a general A by a uniform B,
whose result is uniform, has a general source and takes the pipe (R147, R168; log 93). -/
def unitOf (o : Nat) (sp : Bool) : Option PortUnit :=
  if !vectorOpc o || decide (0x200 ≤ o) || (sp && decide (o < 0x199) && o != 0x183 && o != 0x185) then none
  else if 0x118 ≤ o ∧ o < 0x180 then some .sfu
  else some .pipe

/-- The passes of an instruction: one for each half with an active lane, and one at the least (R145, R148). -/
def passCycles (em : Mask) : Nat := if em.toNat % 65536 = 0 ∨ em.toNat / 65536 = 0 then 1 else 2

/-- The cycles its unit is busy: 4 for QNT (R167), 2 for VSQZ (R173), and else one for each pass. -/
def unitCycles (o : Nat) (em : Mask) : Nat := if o = 0x183 then 4 else if o = 0x185 then 2 else passCycles em

/-- Whether the unit an instruction needs is still busy (R146). -/
def State.unitBusy (s : State) (w : Wave) (o : Nat) (sp : Bool) : Bool :=
  let p := (s.coreOf w.core).ports[w.port.val]
  match unitOf o sp with
  | none => false
  | some .pipe => decide (s.clkOf w.core < p.pipeFree)
  | some .sfu => decide (s.clkOf w.core < p.sfuFree)

/-- An instruction occupies its unit (R145). -/
def State.occupy (s : State) (w : Wave) (o : Nat) (sp : Bool) (em : Mask) : State :=
  let k := s.coreOf w.core
  let p := k.ports[w.port.val]
  let t := k.clk + unitCycles o em
  match unitOf o sp with
  | none => s
  | some .pipe => s.putCore { k with ports := k.ports.set w.port.val { p with pipeFree := t } }
  | some .sfu => s.putCore { k with ports := k.ports.set w.port.val { p with sfuFree := t } }

/-- What every instruction does to its wave as it issues: name, weights, step, exemption (R26, R208, R341, R345). -/
def Wave.issued (w : Wave) (s : State) (o : Nat) : Wave :=
  let now := s.clkOf w.core
  { w with seq := if namedOpc o then w.seq + 1 else w.seq,
           exempt := false, hold := .none, ready := 0,
           weights := (now, weightOpc o) :: w.weights.filter (fun x => now < x.1 + 256),
           step := w.step.map (fun t => if t.issued then t else { t with issued := true, stepped := w.pc }) }

/-- A later write of registers discards what a pending result would write to them (R141). -/
def Def.kill (d : Def) (wv : List VNum) (wq : List QNum) : Def :=
  { d with deadV := d.deadV ++ wv.filter (fun r => !d.deadV.contains r),
           deadQ := d.deadQ || (match d.dest with
             | .qload q _ _ _ => wq.contains q
             | _ => false) }

/-- Registers a non-deferred instruction writes discard the results pending to them (R141): among the first `n`
pending ones. -/
def Wave.killDefs (w : Wave) (n : Nat) (wv : List VNum) (wq : List QNum) : Wave :=
  { w with defs := (w.defs.take n).map (fun d => d.kill wv wq) ++ w.defs.drop n }

/-! ## Conditions before the body -/

/-- A breakpoint slot's match of a wave (R336, R337). -/
def bpMatch (bp bps : Word) (w : Wave) (cid : Nat) : Bool :=
  bp.getLsbD 63 && (bp.extractLsb' 3 49 == w.pc.extractLsb' 3 49) &&
    (!bps.getLsbD 63 || (field bps 48 4 == w.widx && field bps 32 16 == cid % 65536))

/-- The lowest breakpoint slot that hits, by name (`named`) or by PC (R337), and whether some slot that hits routes the trap to
the mailbox (R340). -/
def State.breakpoint (s : State) (w : Wave) (named : Bool) : Option (Nat × Bool) :=
  match s.spaceOf w, s.cohortOf w with
  | some a, some c =>
    if w.exempt then none
    else
      let hits (n : Fin 16) : Bool :=
        let bp := a.eb[n.val]
        let bps := a.eb[16 + n.val]
        bpMatch bp bps w c.cid && bp.getLsbD 62 == named && (!named || low32 bps == w.seq + 1)
      match (List.finRange 16).filter hits with
      | [] => none
      | n :: l => some (n.val, (n :: l).any (fun k => a.eb[k.val].getLsbD 61))
  | _, _ => none

/-- An outstanding scoreboarded result that the request reads or writes (R144), or a source of an outstanding MMA that it
frees before its array has read it (R289; log 92); a chained MMA does not wait for the accumulator it takes over. -/
def Wave.depends (w : Wave) (now : Nat) (r : Req) : Bool :=
  w.sb.any (fun b =>
    (!(b.kind == .mma && b.vw.map (fun x => x.1) == r.chain) &&
      b.vw.any (fun x => r.dv.contains x.1 || r.rv.contains x.1 || r.wv.contains x.1 || r.fv.contains x.1)) ||
      (decide (now < b.srcUntil) && b.src.any (fun x => r.fv.contains x)) ||
      b.qw.any (fun x => r.rq.contains x.1 || r.dq.contains x.1 || r.wq.contains x.1 || r.fq.contains x.1) ||
      ((r.stk || r.xst) && b.kind == .xev) || (r.vst && b.kind == .vetch))

/-- The first scalar register of a list whose word is poisoned (R334). -/
def State.poisonedS (s : State) (w : Wave) (l : List SReg) : Option SReg :=
  l.find? (fun r => s.poison.contains (.sreg w.uid r))

/-- The operand of a use. -/
def LaneUse.src : LaneUse → VSrc
  | .through x => x
  | .picked x _ => x
  | .one x => x
  | .low x _ => x

/-- The lanes of the operand, after its pattern, that a use under mask `em` reads. -/
def LaneUse.lanes (w : Wave) (em : Mask) : LaneUse → List (Fin 32)
  | .through _ => lanesOf em
  | .picked _ b => (lanesOf em).filterMap (fun i =>
      let k := (w.src b).lane i
      if h : k.toNat < 32 then some ⟨k.toNat, h⟩ else none)
  | .one _ => if w.em = 0 then [0] else lanesOf w.em
  | .low _ n => (List.finRange 32).filter (fun i => decide (i.val < n))

/-- Whether it reads lane `l` of the operand's register. -/
def LaneUse.reads (w : Wave) (em : Mask) (l : Fin 32) (u : LaneUse) : Bool :=
  match u.src with
  | .vec _ p _ => (u.lanes w em).any (fun i => permSrc p i == some l)
  | .sca _ => false

/-- The mask an instruction works under: em, or every lane where it ignores em. -/
def Req.mask (r : Req) (w : Wave) : Mask := if r.ignoreEm then 0xFFFFFFFF else w.em

/-- Whether an instruction reads lane `l` of a register it lists: through one of its `uses`, or, where it reads the register
beside those, as an active lane. -/
def Req.readsLane (r : Req) (w : Wave) (v : VNum) (l : Fin 32) : Bool :=
  let uses := r.uses.filter (fun u => (srcRegs u.src).contains v)
  (decide (uses.length < r.rv.count v) && (r.mask w).getLsbD l.val) || uses.any (LaneUse.reads w (r.mask w) l)

/-- Whether a use reads element `k` of a register with `cols` columns. -/
def QUse.reads (cols k : Nat) : QUse → Bool
  | .all => true
  | .none => false
  | .only i j => k == i * cols + j
  | .but i j => k != i * cols + j

/-- How many entries from the top of lane `l`'s stack a use reads. -/
def StkUse.count (w : Wave) (l : Fin 32) : StkUse → Nat
  | .none => 0
  | .top => 1
  | .word op => (lopReads ((w.src op).lane l)).1

/-- Entries a lane's stack holds. -/
def Wave.depth (w : Wave) (l : Fin 32) : Nat :=
  match w.stk with
  | some st => (st[l.val]).length
  | none => 0

/-- Whether a poison mark lies in a word an instruction reads (R334): an active lane's of a general register, and of a compact
one the word that stands for every lane; of a stack an entry as near the top as the instruction reads. -/
def readsPoison (w : Wave) (r : Req) (u : PoisonUnit) : Bool :=
  match u with
  | .vreg x v l => x == w.uid && r.rv.contains v &&
      (if (w.vreg v).isUA then (List.finRange 32).any (r.readsLane w v) else r.readsLane w v l)
  | .qelem x q l k => x == w.uid && r.rq.contains q && r.qu.reads (w.qreg q).cols k &&
      (if (w.qreg q).general then (r.mask w).getLsbD l.val else r.mask w != 0)
  | .stack x l k => x == w.uid && (r.mask w).getLsbD l.val && decide (k < w.depth l) &&
      decide (w.depth l < k + 1 + r.su.count w l)
  | _ => false

/-- Marks a write or a free removes: the words that are written under a mask, or all of a freed register. -/
def clearsPoison (w : Wave) (em : Mask) (ws : List SReg) (wv fv : List VNum) (wq fq : List QNum) (u : PoisonUnit) : Bool :=
  w.rewrites em wv wq u || (match u with
    | .sreg x r => x == w.uid && ws.contains r
    | .vreg x v _ => x == w.uid && fv.contains v
    | .qelem x q _ _ => x == w.uid && fq.contains q
    | _ => false)

/-- The scalar register a guard reads. -/
def guardRegs : Guard → List SReg
  | .always => []
  | .ifSet g _ => [g]
  | .ifClear g _ => [g]

/-- A trap of the instruction at the wave's pc with the frame values most classes have (R311). -/
def Wave.trapInfo (w : Wave) (cls detail : Nat) : TrapInfo := { cls := cls, detail := detail, mask := w.em, seq := w.seq, rpc := w.pc }

/-- The sequence number a trap precise at the instruction holds (R187, R312). -/
def Wave.nameSeq (w : Wave) (o : Nat) : BitVec 32 := if namedOpc o then w.seq + 1 else w.seq

/-- IIL with a detail, precise at an instruction (R88, R220). -/
def Wave.iil (w : Wave) (o detail : Nat) : TrapInfo := { w.trapInfo 1 detail with seq := w.nameSeq o }

/-- UNF with the lanes that differ (R186). -/
def Wave.unf (w : Wave) (o : Nat) (d : Mask) : TrapInfo := { w.trapInfo 3 0 with mask := d, seq := w.nameSeq o }

/-! ## Issue -/

/-- What an instruction does to poison (R334): what it reads is consumed, and what it writes or frees is clean. -/
def State.usePoison (s : State) (w0 : Wave) (r : Req) (ws : List SReg) (wv : List VNum) (wq : List QNum) : State :=
  let s := if s.poison.any (readsPoison w0 r) then s.consumePoison w0 else s
  { s with poison := s.poison.filter (fun u => !clearsPoison w0 (r.mask w0) ws wv r.fv wq r.fq u) }

/-- The wave and state after the body completed, control going to `pc`. -/
def finish (r : Req) (s : State) (w0 w : Wave) (sp : Bool) (pc : Word) : State :=
  let skipW := w0.em == 0 && !r.ignoreEm
  let wv := if skipW then [] else r.wv
  let wq := if skipW then [] else r.wq
  let w := if deferOpc r.opc then w else w.killDefs w0.defs.length wv wq
  let w : Wave := { w.issued s r.opc with pc := pc, inProg := .none }
  let w := { w with spilled := w.spilled.filter (fun x => !(wv.contains x && (w0.em == 0xFFFFFFFF || r.ignoreEm)) &&
                                                            !r.fv.contains x) }
  let s := s.usePoison w0 r r.ws wv wq
  let s := s.unlatch w0 (r.fv ++ (if boardOpc r.opc then [] else wv))
  let (s, w) := spillFit 256 s (w.touch (r.rv ++ wv))
  let s := (s.putWave w).account w w0.pc (leafOf r.opc (generalResult r w sp) w0.em) (chargeOf r.opc sp w0.em)
  s.occupy w r.opc sp (r.mask w0)

/-- A wave whose instruction does not complete spills what its refills have put above the budget (R130). -/
def refit (w0 : Wave) (s : State) (w : Wave) : State × Wave := if w.spilled == w0.spilled then (s, w) else spillFit 256 s w

/-- The instruction's sources, body and end, once nothing before them holds it or traps; it does not issue while its unit is
busy (R146). Under em = 0 its last uses free their registers still (log 78). -/
def runBody (r : Req) (body : Body) (s0 : State) (w0 : Wave) : State :=
  let partialW := w0.em != 0xFFFFFFFF && w0.em != 0 && !r.ignoreEm
  let (s, w) := refill s0 w0 (r.rv ++ (if partialW then r.wv else []))
  let free := (w.freeV r.fv).freeQ r.fq
  match body s w free with
  | .ok t v sp =>
    if s.unitBusy w r.opc sp then s0.putWave { w0 with hold := .resource } else finish r t w v sp (w.pc + BitVec.ofNat 64 r.len)
  | .jump s v pc => finish r s w v true pc
  | .trap s v t =>
    let (s, v) := refit w0 s v
    s.takeTrap v t
  | .hold s v why =>
    let (s, v) := refit w0 s v
    s.putWave { v with hold := why }
  | .parked s v sp =>
    let (s, v) := refit w0 ((s.usePoison w r [] [] []).unlatch w r.fv) v
    let v := { v.issued s r.opc with parkOrder := s.clkOf w.core, spilled := v.spilled.filter (fun x => !r.fv.contains x) }
    (s.putWave v).account v w.pc (leafOf r.opc (generalResult r w sp) w.em) (chargeOf r.opc sp w.em)
  | .gone s => s.account w w.pc 1 0
  | .stopped s => s

/-- A skipped instruction: one issue slot, leaf 3, charge 0 (R70, R147, R347). -/
def skip (r : Req) (s : State) (w : Wave) : State :=
  let v := { w with pc := w.pc + BitVec.ofNat 64 r.len, exempt := false, hold := .none, ready := 0,
                    step := w.step.map (fun t => { t with issued := true, stepped := w.pc }) }
  (s.putWave v).account v w.pc 3 0

/-- A pending fault of an earlier command taken at the wave's instruction (R190, R313). -/
def takePend (s : State) (w : Wave) : State := s.takeTrap w (w.trapInfo 4 6)

/-- A poisoned scalar source: ECC with detail 2, under the name of a named command whose guard has passed; the register
reads 0 from then on (R312, R313, R334). -/
def poisonTrap (r : Req) (s : State) (w : Wave) (p : SReg) : State :=
  let seq := if guardPasses r.h.guard w then w.nameSeq r.opc else w.seq
  s.atBoundary w (fun s w =>
    let s := { s with poison := s.poison.filter (fun u => u != PoisonUnit.sreg w.uid p) }
    (s.consumePoison w).deliver (w.sset p 0) { w.trapInfo 11 2 with aux := p.val, seq := seq })

/-- Whether the wave's own earlier work has all performed: its accesses, its side-log entries, its nests and its
scoreboarded results (R317). -/
def State.drained (s : State) (w : Wave) : Bool :=
  w.sb.isEmpty && w.nests.all (fun n => n.state == .stopped) && !s.accs.any (fun a => a.agent == .wave w.uid) &&
    !s.side.any (fun e => e.wave == w.uid)

/-- Side-log entries of a wave (R40, R64). -/
def State.sideOf (s : State) (u : Nat) : List SideEntry := s.side.filter (fun e => e.wave == u)

/-- Whether a side-log entry of the wave keeps an instruction from issuing (R40, R64): a release of any kind waits for every
entry, and an acquire FENCE for a RED or an SC entry. It waits before it issues, so that an entry discarded meanwhile gives the
fault to be taken at it (R190; log 94). -/
def State.sideHolds (s : State) (w : Wave) (r : Req) : Bool :=
  (s.sideOf w.uid).any (fun e => r.sideWait || (r.opc == 0x208 && (e.rmw.isSome || e.ord == .sc)))

/-- Step 6 of R90 and the body, for an instruction whose guard has passed and whose switch point, if it is one, is
behind it. -/
def issueBody (r : Req) (body : Body) (s : State) (w : Wave) : State :=
  match if namedOpc r.opc && w.inProg == .none then s.breakpoint w true else none with
  | some (n, mbx) =>
    s.takeTrap w { w.trapInfo 7 n with aux := 2, addr := w.pc, seq := w.seq + 1, mbx := mbx }
  | none =>
    if w.depends (s.clkOf w.core) r then s.putWave { w with hold := .dependence }
    else if (r.drains && !s.drained w) || s.sideHolds w r then s.putWave { w with hold := .order }
    else runBody r body s w

/-- Whether the results may commit: all have returned, and none goes to a source of an outstanding MMA that its array has
still to read (R140, R289). -/
def State.mayCommit (s : State) (w : Wave) : Bool :=
  let regs := w.defs.flatMap Def.regs
  w.returned && !w.sb.any (fun b => decide (s.clkOf w.core < b.srcUntil) && b.src.any (fun r => regs.contains r))

/-- A switch point: wait for the results, commit them, and take a pending fault if one stands; `k` goes on (R140). -/
def atSwitch (s : State) (w : Wave) (k : State → Wave → State) : State :=
  if s.mayCommit w then
    let (s, w) := s.commitNow w
    if w.pends.isEmpty then k s w else takePend s w
  else s.putWave { w with hold := .returns }

/-- Whether an instruction that waits for side-log entries would have waited for a discarded one (R64, R190): a release of
any kind, and an acquire FENCE for a RED or an SC entry (R40, R47). -/
def Wave.owesPend (w : Wave) (r : Req) : Bool :=
  w.pends.any (fun p => match p.entry with
    | some d => r.sideWait || (r.opc == 0x208 && (d.rmw || d.sc))
    | none => false)

/-- Steps 4 to 6 of R90 for the wave's instruction. -/
def guarded (r : Req) (body : Body) (s : State) (w : Wave) : State :=
  if (privOpc r.opc && !w.priv) || r.denied then s.takeTrap w (w.trapInfo 2 0)
  else if guardPasses r.h.guard w then
    if r.h.y || switchOpc r.opc || (deferOpc r.opc && decide (64 ≤ w.defs.length)) then atSwitch s w (issueBody r body)
    else if w.owesPend r then takePend s w
    else issueBody r body s w
  else if r.h.y then atSwitch s w (skip r)
  else skip r s w

/-- The wave's instruction, fetched and decoded: poison in a scalar register it reads comes first (R313), then the
breakpoint by PC (R337), unless the instruction has begun already; then steps 4 to 6 of R90. -/
def issueWave (r : Req) (body : Body) (s : State) (w : Wave) : State :=
  let begun := w.inProg != .none || w.cpyq.isSome
  match (if begun then none
    else s.poisonedS w (guardRegs r.h.guard ++ (if guardPasses r.h.guard w then r.rs else []))) with
  | some p => poisonTrap r s w p
  | none =>
    match (if begun then none else s.breakpoint w false) with
    | some (n, mbx) => s.takeTrap w { w.trapInfo 7 n with aux := 1, addr := w.pc, mbx := mbx }
    | none => guarded r body s w

/-- A word that is no instruction (R88, R90, R311): the breakpoint by PC comes first, then IIL with detail 0, precise at the
word. -/
def illegalWord (s : State) : Host.Outcome State Fault Refusal :=
  match s.wave? s.cur with
  | none => .fault .noCurrentWave
  | some w =>
    .next (match s.breakpoint w false with
      | some (n, mbx) => s.takeTrap w { w.trapInfo 7 n with aux := 1, addr := w.pc, mbx := mbx }
      | none => s.takeTrap w (w.trapInfo 1 0))

/-- The meaning of an instruction of the wave whose turn it is. -/
def issue (r : Req) (body : Body) (s : State) : Host.Outcome State Fault Refusal :=
  match s.wave? s.cur with
  | some w => .next (issueWave r body s w)
  | none => .fault .noCurrentWave

end Sys2Proof.Machine
end

