-- ==== Sys2Proof/Machine/VecInt.lean ====
section
/-! DEFINITION. Vector integer and logic (R159, R160), the shared forms of the vector instructions (R150), masks (R171),
shape (R172, R173) and cross-lane work (R168, R169). -/

namespace Sys2Proof.Machine

/-! ## Forms (R150) -/

/-- The request of a V-form instruction with a vector destination and plain sources. -/
def vreq (h : Head) (opc : Nat) (d : VNum) (src : List VSrc) : Req :=
  { h := h, opc := opc, len := 16, rs := src.flatMap srcSregs, rv := src.flatMap srcRegs, wv := [d],
    fv := src.flatMap srcFrees, uses := src.map .through }

/-- vbody() of one source, `f` giving the result's value and shape. -/
def vec1 (h : Head) (opc : Nat) (d : VNum) (a : VSrc) (f : VReg → VReg) (s : State) : Host.Outcome State Fault Refusal :=
  issue (vreq h opc d [a]) (fun s w v =>
    let x := f (w.src a)
    .ok s (v.vwrite d x) ((w.src a).isUA && (mergeMask w.em (v.vreg d) x).isUA)) s

/-- vbody() of two sources. DESIGN CHOICE: under em = 0, which writes nothing, the result that decides whether the instruction has a
general one is the destination as it stands (R147; log 95); so of the other forms. -/
def vec2 (h : Head) (opc : Nat) (d : VNum) (a b : VSrc) (f : VReg → VReg → VReg) (s : State) :
    Host.Outcome State Fault Refusal :=
  issue (vreq h opc d [a, b]) (fun s w v =>
    let x := f (w.src a) (w.src b)
    .ok s (v.vwrite d x) ((w.src a).isUA && (w.src b).isUA && (mergeMask w.em (v.vreg d) x).isUA)) s

/-- vbody() of three sources. -/
def vec3 (h : Head) (opc : Nat) (d : VNum) (a b c : VSrc) (f : VReg → VReg → VReg → VReg) (s : State) :
    Host.Outcome State Fault Refusal :=
  issue (vreq h opc d [a, b, c]) (fun s w v =>
    let x := f (w.src a) (w.src b) (w.src c)
    .ok s (v.vwrite d x)
      ((w.src a).isUA && (w.src b).isUA && (w.src c).isUA && (mergeMask w.em (v.vreg d) x).isUA)) s

/-- An outstanding result for one vector register: the value it will hold, masked as it stands now, ready after 24 core
cycles (R144, R145). -/
def Wave.addSb (w : Wave) (id now : Nat) (vw : List (VNum × VReg)) : Wave :=
  { w with sb := w.sb ++ [{ id := id, kind := .long, vw := vw, due := now + 24, em := w.em }] }

/-- A scoreboarded instruction of two sources (R144, R145): it reads its sources now and its result is written by
SCOREBOARD_COMPLETE. A read that frees its own destination leaves it unwritten until then (R79). -/
def vecLong2 (h : Head) (opc : Nat) (d : VNum) (a b : VSrc) (f : W32 → W32 → W32) (s : State) :
    Host.Outcome State Fault Refusal :=
  issue (vreq h opc d [a, b]) (fun s w v =>
    let x := lift2 f (w.src a) (w.src b)
    let (id, s) := s.fresh
    let u := if w.em = 0 then v else v.addSb id (s.clkOf w.core) [(d, mergeMask w.em (v.vreg d) x)]
    .ok s u ((w.src a).isUA && (w.src b).isUA && (mergeMask w.em (v.vreg d) x).isUA)) s

/-- The same of one source. -/
def vecLong1 (h : Head) (opc : Nat) (d : VNum) (a : VSrc) (f : W32 → W32) (s : State) :
    Host.Outcome State Fault Refusal :=
  issue (vreq h opc d [a]) (fun s w v =>
    let x := lift1 f (w.src a)
    let (id, s) := s.fresh
    let u := if w.em = 0 then v else v.addSb id (s.clkOf w.core) [(d, mergeMask w.em (v.vreg d) x)]
    .ok s u ((w.src a).isUA && (mergeMask w.em (v.vreg d) x).isUA)) s

/-- VCMP and FCMP (R160, R161): one bit for each active lane where the compare is true, written whatever em holds. -/
def vecCompare (h : Head) (opc : Nat) (d : SReg) (a b : VSrc) (f : W32 → W32 → Bool) (s : State) :
    Host.Outcome State Fault Refusal :=
  issue { vreq h opc 0 [a, b] with wv := [], ws := [d] } (fun s w v =>
    let m := maskOf (fun l => w.em.getLsbD l.val && f ((w.src a).lane l) ((w.src b).lane l))
    .ok s (v.sset d (m.setWidth 64)) ((w.src a).isUA && (w.src b).isUA)) s

/-! ## Integer and logic (R159) -/

/-- The high 32 bits of the signed product. -/
def mulHigh32 (x y : W32) : W32 := ((x.signExtend 64 * y.signExtend 64) >>> 32).setWidth 32

/-- The shift amount of a vector shift: the low five bits. -/
def amount5 (x : W32) : Nat := x.toNat % 32

/-- c plus the sum of products of the signed elements of width `n` of two words (R159). -/
def dotInt (n : Nat) (x y c : W32) : W32 :=
  BitVec.ofInt 32 ((List.range (32 / n)).foldl (fun t k => t + intElem n x k * intElem n y k) c.toInt)

/-- VMOV (R159). -/
def execVmov (h : Head) (d : VNum) (a : VSrc) : State → Host.Outcome State Fault Refusal :=
  vec1 h 0x080 d a vMov

/-- VMOVI (R159). -/
def execVmovi (h : Head) (d : VNum) (imm : BitVec 32) : State → Host.Outcome State Fault Refusal :=
  issue (vreq h 0x081 d []) (fun s w v => .ok s (v.vwrite d (.uni imm)) (mergeMask w.em (v.vreg d) (.uni imm)).isUA)

/-- VADD (R134, R159). -/
def execVadd (h : Head) (d : VNum) (a b : VSrc) : State → Host.Outcome State Fault Refusal :=
  vec2 h 0x082 d a b vAdd

/-- VADDS, signed saturation (R159). -/
def execVadds (h : Head) (d : VNum) (a b : VSrc) : State → Host.Outcome State Fault Refusal :=
  vec2 h 0x083 d a b (lift2 (fun x y => BitVec.ofInt 32 (satInt 32 (x.toInt + y.toInt))))

/-- VSUB (R134, R159). -/
def execVsub (h : Head) (d : VNum) (a b : VSrc) : State → Host.Outcome State Fault Refusal :=
  vec2 h 0x084 d a b vSub

/-- VMUL (R134, R159). -/
def execVmul (h : Head) (d : VNum) (a b : VSrc) : State → Host.Outcome State Fault Refusal :=
  vec2 h 0x085 d a b vMul

/-- VMULH (R159). -/
def execVmulh (h : Head) (d : VNum) (a b : VSrc) : State → Host.Outcome State Fault Refusal :=
  vec2 h 0x086 d a b (lift2 mulHigh32)

/-- VMAD (R134, R159). -/
def execVmad (h : Head) (d : VNum) (a b c : VSrc) : State → Host.Outcome State Fault Refusal :=
  vec3 h 0x087 d a b c vMad

/-- VDIV, scoreboarded (R144, R159). -/
def execVdiv (h : Head) (d : VNum) (a b : VSrc) : State → Host.Outcome State Fault Refusal :=
  vecLong2 h 0x088 d a b divTrunc

/-- VREM, scoreboarded (R144, R159). -/
def execVrem (h : Head) (d : VNum) (a b : VSrc) : State → Host.Outcome State Fault Refusal :=
  vecLong2 h 0x089 d a b remTrunc

/-- VAND (R159). -/
def execVand (h : Head) (d : VNum) (a b : VSrc) : State → Host.Outcome State Fault Refusal :=
  vec2 h 0x08A d a b (lift2 (fun x y => x &&& y))

/-- VOR (R159). -/
def execVor (h : Head) (d : VNum) (a b : VSrc) : State → Host.Outcome State Fault Refusal :=
  vec2 h 0x08B d a b (lift2 (fun x y => x ||| y))

/-- VXOR (R159). -/
def execVxor (h : Head) (d : VNum) (a b : VSrc) : State → Host.Outcome State Fault Refusal :=
  vec2 h 0x08C d a b (lift2 (fun x y => x ^^^ y))

/-- VNOT (R159). -/
def execVnot (h : Head) (d : VNum) (a : VSrc) : State → Host.Outcome State Fault Refusal :=
  vec1 h 0x08D d a (lift1 (fun x => ~~~x))

/-- VSHL (R134, R159). -/
def execVshl (h : Head) (d : VNum) (a b : VSrc) : State → Host.Outcome State Fault Refusal :=
  vec2 h 0x08E d a b vShl

/-- VSHR (R159). -/
def execVshr (h : Head) (d : VNum) (a b : VSrc) : State → Host.Outcome State Fault Refusal :=
  vec2 h 0x08F d a b (lift2 (fun x y => x >>> amount5 y))

/-- VSAR (R159). -/
def execVsar (h : Head) (d : VNum) (a b : VSrc) : State → Host.Outcome State Fault Refusal :=
  vec2 h 0x090 d a b (lift2 (fun x y => x.sshiftRight (amount5 y)))

/-- VMIN (R159). -/
def execVmin (h : Head) (d : VNum) (a b : VSrc) : State → Host.Outcome State Fault Refusal :=
  vec2 h 0x091 d a b (lift2 minS)

/-- VMAX (R159). -/
def execVmax (h : Head) (d : VNum) (a b : VSrc) : State → Host.Outcome State Fault Refusal :=
  vec2 h 0x092 d a b (lift2 maxS)

/-- VABS; −2^31 stays (R159). -/
def execVabs (h : Head) (d : VNum) (a : VSrc) : State → Host.Outcome State Fault Refusal :=
  vec1 h 0x093 d a (lift1 (fun x => if x.slt 0 then -x else x))

/-- VNEG (R134, R159). -/
def execVneg (h : Head) (d : VNum) (a : VSrc) : State → Host.Outcome State Fault Refusal :=
  vec1 h 0x094 d a vNeg

/-- VCMP (R160). -/
def execVcmp (h : Head) (d : SReg) (a b : VSrc) (cc : Cc) : State → Host.Outcome State Fault Refusal :=
  vecCompare h 0x095 d a b (intCompare cc)

/-- VSEL (R159). -/
def execVsel (h : Head) (d : VNum) (a b c : VSrc) : State → Host.Outcome State Fault Refusal :=
  vec3 h 0x096 d a b c (lift3 (fun x y z => if z ≠ 0 then x else y))

/-- VBFX (R159). -/
def execVbfx (h : Head) (d : VNum) (a : VSrc) (pos : Fin 32) (wid : Fin 33) : State → Host.Outcome State Fault Refusal :=
  vec1 h 0x097 d a (lift1 (fun x => bitField x pos.val wid.val))

/-- VBFI (R159): the old vD counts as a source, read before any last-use free. -/
def execVbfi (h : Head) (d : VNum) (a : VSrc) (pos : Fin 32) (wid : Fin 33) : State → Host.Outcome State Fault Refusal :=
  issue (let r := vreq h 0x098 d [a]
         { r with rv := r.rv ++ [d] }) (fun s w v =>
    let x := lift2 (fun x old => bitInsert old x pos.val wid.val) (w.src a) (w.vreg d).norm
    .ok s (v.vwrite d x) ((w.src a).isUA && (w.vreg d).isUA && (mergeMask w.em (v.vreg d) x).isUA))

/-- VPOPC (R159). -/
def execVpopc (h : Head) (d : VNum) (a : VSrc) : State → Host.Outcome State Fault Refusal :=
  vec1 h 0x099 d a (lift1 (fun x => BitVec.ofNat 32 (popCount x)))

/-- VCLZ (R159). -/
def execVclz (h : Head) (d : VNum) (a : VSrc) : State → Host.Outcome State Fault Refusal :=
  vec1 h 0x09A d a (lift1 (fun x => BitVec.ofNat 32 (leadingZeros x 32)))

/-- VLANE (R134, R159). -/
def execVlane (h : Head) (d : VNum) : State → Host.Outcome State Fault Refusal :=
  issue (vreq h 0x09B d []) (fun s w v => .ok s (v.vwrite d vLane) (mergeMask w.em (v.vreg d) vLane).isUA)

/-- VDOT4 (R159). -/
def execVdot4 (h : Head) (d : VNum) (a b c : VSrc) : State → Host.Outcome State Fault Refusal :=
  vec3 h 0x09C d a b c (lift3 (dotInt 8))

/-- VDOT8 (R159). -/
def execVdot8 (h : Head) (d : VNum) (a b c : VSrc) : State → Host.Outcome State Fault Refusal :=
  vec3 h 0x09D d a b c (lift3 (dotInt 4))

end Sys2Proof.Machine
end

