-- ==== Sys2Proof/Machine/Control.lean ====
section
/-! DEFINITION. Control flow (R155 to R158), except WSLEEP, which Machine/Teasel.lean gives with the promises it may
wait for. A target outside the virtual address space faults at its fetch (R155). -/

namespace Sys2Proof.Machine

/-- The request of a 64-bit control instruction. -/
def creq (h : Head) (opc : Nat) (rs : List SReg) : Req := { h := h, opc := opc, len := 8, rs := rs }

/-- A taken branch's target (R99, R155). -/
def branchTo (w : Wave) (ofs : BitVec 24) : Word := w.pc + 8 * ofs.signExtend 64

/-- A branch taken if a condition on the wave holds. -/
def branchIf (h : Head) (opc : Nat) (rs : List SReg) (c : Wave → Bool) (ofs : BitVec 24) :
    State → Host.Outcome State Fault Refusal :=
  issue (creq h opc rs) (fun s w v => if c w then .jump s v (branchTo w ofs) else .ok s v true)

/-- BR (R155). -/
def execBr (h : Head) (ofs : BitVec 24) : State → Host.Outcome State Fault Refusal :=
  branchIf h 0x020 [] (fun _ => true) ofs

/-- BRZ (R155). -/
def execBrz (h : Head) (a : SReg) (ofs : BitVec 24) : State → Host.Outcome State Fault Refusal :=
  branchIf h 0x021 [a] (fun w => w.sget a == 0) ofs

/-- BRNZ (R155). -/
def execBrnz (h : Head) (a : SReg) (ofs : BitVec 24) : State → Host.Outcome State Fault Refusal :=
  branchIf h 0x022 [a] (fun w => w.sget a != 0) ofs

/-- BRB (R155). -/
def execBrb (h : Head) (a : SReg) (n : Fin 64) (ofs : BitVec 24) : State → Host.Outcome State Fault Refusal :=
  branchIf h 0x023 [a] (fun w => (w.sget a).getLsbD n.val) ofs

/-- BRM (R155). -/
def execBrm (h : Head) (n : Fin 4) (ofs : BitVec 24) : State → Host.Outcome State Fault Refusal :=
  branchIf h 0x024 [] (fun w => maskTest n w.em) ofs

/-- CALL (R128, R155): s62 takes the address of the next sequential instruction. -/
def execCall (h : Head) (ofs : BitVec 24) : State → Host.Outcome State Fault Refusal :=
  issue { creq h 0x025 [] with ws := [62] } (fun s w v => .jump s (v.sset 62 (w.pc + 8)) (branchTo w ofs))

/-- RET (R66, R155). -/
def execRet (h : Head) : State → Host.Outcome State Fault Refusal :=
  issue (creq h 0x026 [62]) (fun s w v => .jump s v (w.sget 62 &&& ~~~7))

/-- JMPR (R66, R155). -/
def execJmpr (h : Head) (a : SReg) : State → Host.Outcome State Fault Refusal :=
  issue (creq h 0x027 [a]) (fun s w v => .jump s v (w.sget a &&& ~~~7))

/-- SLOOP (R155): with SD = 0 nothing is decremented and the branch is never taken. -/
def execSloop (h : Head) (d : SReg) (ofs : BitVec 24) : State → Host.Outcome State Fault Refusal :=
  issue { creq h 0x028 [d] with ws := [d] } (fun s w v =>
    let n := w.sget d - 1
    let v := v.sset d n
    if d ≠ 0 ∧ n ≠ 0 then .jump s v (branchTo w ofs) else .ok s v true)

/-- EXIT (R22, R156): the commit is behind it; a stepped EXIT posts event 7 (R345). -/
def execExit (h : Head) : State → Host.Outcome State Fault Refusal :=
  issue (creq h 0x029 []) (fun s w v =>
    let s := if w.step.isSome then s.postEvent w 7 0 w.pc w.seq w.em 0 else s
    .gone (s.waveExit v))

/-- NOPW (R158). -/
def execNopw (h : Head) : State → Host.Outcome State Fault Refusal :=
  issue (creq h 0x02B []) (fun s _ v => .ok s v true)

end Sys2Proof.Machine
end

