-- ==== Sys2Proof/Machine/Special.lean ====
section
/-! DEFINITION. The nine special functions (R125, R126): their exact results, and elsewhere a free map within the bounds,
which are told from the functions' values in fixed point. -/

namespace Sys2Proof.Machine

/-! ## Special functions (R125, R126) -/

/-- The nine special functions. -/
inductive Special where
  | exp2 | log2 | rcp | rsq | sin | cos | tanh | sigm | erf
  deriving DecidableEq, Repr

/-- A function's number in Config.specialFn. -/
def Special.code : Special → Nat
  | .exp2 => 0
  | .log2 => 1
  | .rcp => 2
  | .rsq => 3
  | .sin => 4
  | .cos => 5
  | .tanh => 6
  | .sigm => 7
  | .erf => 8

/-- FP32 one. -/
def one32 : W32 := 0x3F800000

/-- The sign bit. -/
def signOf (x : W32) : W32 := x &&& 0x80000000

/-- |x| compared with the FP32 value `y` of positive sign, neither NaN: |x| ≥ y. -/
def absGe (x y : W32) : Bool := decide (y.toNat ≤ (x &&& 0x7FFFFFFF).toNat)

/-- The exponent n of x = ±2^n exactly, if it is one. -/
def powerOf (x : W32) : Option Int :=
  match num32 x with
  | .fin _ m e => if m ≠ 0 ∧ m = 2 ^ Nat.log2 m then some ((Nat.log2 m : Int) + e) else none
  | _ => none

/-- The integer a finite x is, if it is one. -/
def integerOf (x : W32) : Option Int :=
  match num32 x with
  | .fin neg m e =>
    if m = 0 then some 0
    else
      let v : Option Int := if 0 ≤ e then (if e ≤ 8 then some (m * 2 ^ e.toNat : Nat) else none)
        else if m % 2 ^ (-e).toNat = 0 then some (m / 2 ^ (-e).toNat : Nat) else none
      v.map (fun v => if neg then -v else v)
  | _ => none

/-- The results R125 lists as exact; none where it gives a bound only. -/
def specialExact (f : Special) (x : W32) : Option W32 :=
  let neg := x.getLsbD 31
  let isInf := x &&& 0x7FFFFFFF == 0x7F800000
  let zero := x &&& 0x7FFFFFFF == 0
  if (num32 x).isNan then some nan32
  else
    match f with
    | .exp2 =>
      if !neg && absGe x 0x43000000 then some 0x7F800000
      else if neg && absGe x 0x43160001 then some 0
      else match integerOf x with
        | some n => if -149 ≤ n ∧ n ≤ 127 then some (to32 (.fin false 1 n)) else none
        | none => none
    | .log2 =>
      if zero then some 0xFF800000 else if neg then some nan32 else if isInf then some x
      else match powerOf x with
        | some n => some (to32 (.fin (decide (n < 0)) n.natAbs 0))
        | none => none
    | .rcp =>
      if zero then some (0x7F800000 ||| signOf x) else if isInf then some (signOf x)
      else match powerOf x with
        | some n => some (to32 (.fin neg 1 (-n)))
        | none => none
    | .rsq => if zero then some (0x7F800000 ||| signOf x) else if neg then some nan32 else if isInf then some 0 else none
    | .sin => if isInf then some nan32 else if zero then some x else none
    | .cos => if isInf then some nan32 else if zero then some one32 else none
    | .tanh =>
      if absGe x 0x4111999A then some (one32 ||| signOf x) else if !absGe x 0x39800000 then some x else none
    | .sigm =>
      if !neg && absGe x 0x41900000 then some one32 else if neg && absGe x 0x42D20000 then some 0 else none
    | .erf => if absGe x 0x40800000 then some (one32 ||| signOf x) else if zero then some x else none

/-! ## The exact functions, to 256 bits behind the point -/

/-- One. -/
def fxOne : Int := 2 ^ 256

/-- The product of two fixed-point numbers. -/
def fxMul (a b : Int) : Int := a * b / fxOne

/-- The value of a finite word. -/
def fxOf (x : W32) : Int :=
  match num32 x with
  | .fin neg m e => alignTo neg m e (-256)
  | _ => 0

/-- The natural logarithm of 2. -/
def fxLn2 : Int := 0xb17217f7d1cf79abc9e3b39803f2f6af40f343267298b62d8a0d175b8baafa2b

/-- The number pi. -/
def fxPi : Int := 0x3243f6a8885a308d313198a2e03707344a4093822299f31d0082efa98ec4e6c89

/-- Two over the root of pi. -/
def fxErf : Int := 0x120dd750429b6d11ae3a914fed7fd8688281341d7587cea2e7342b06199cc4161

/-- e^t for 0 ≤ t < 1: 70 terms of its series. -/
def fxExpSmall (t : Int) : Int := (List.range 70).foldl (fun acc k => fxOne + fxMul t acc / ((70 - k : Nat) : Int)) fxOne

/-- y · 2^n. -/
def fxShift (y n : Int) : Int := if 0 ≤ n then y * 2 ^ n.toNat else y / 2 ^ (-n).toNat

/-- e^x. -/
def fxExp (x : Int) : Int := fxShift (fxExpSmall (x % fxLn2)) (x / fxLn2)

/-- The sine, or the cosine, of x: 60 terms after a turn has been taken off. -/
def fxTrig (cosine : Bool) (x : Int) : Int :=
  let r := (x + fxPi) % (2 * fxPi) - fxPi
  let q := fxMul r r
  let s := (List.range 60).foldl (fun acc k =>
    let n := 2 * (60 - k)
    fxOne - fxMul q acc / ((if cosine then (n - 1) * n else n * (n + 1) : Nat) : Int)) fxOne
  if cosine then s else fxMul r s

/-- log2 of m · 2^e, m not 0: the exponent, and 90 terms of the area tangent of (f - 1) / (f + 1) for f in [1, 2). -/
def fxLog2 (m : Nat) (e : Int) : Int :=
  let f : Int := (m * 2 ^ 256 / 2 ^ Nat.log2 m : Nat)
  let z := (f - fxOne) * fxOne / (f + fxOne)
  let q := fxMul z z
  let s := (List.range 90).foldl (fun (acc : Int × Int) k => (acc.1 + acc.2 / ((2 * k + 1 : Nat) : Int), fxMul acc.2 q)) (0, z)
  ((Nat.log2 m : Int) + e) * fxOne + 2 * s.1 * fxOne / fxLn2

/-- erf x for x within 4 of zero: 220 terms. -/
def fxErfOf (x : Int) : Int :=
  let q := fxMul x x
  let s := (List.range 220).foldl (fun (acc : Int × Int) k =>
    (acc.1 + acc.2, fxMul acc.2 (2 * q) / ((2 * k + 3 : Nat) : Int))) (0, x)
  fxMul (fxMul s.1 (fxExp (-q))) fxErf

/-- The function's value at x, where specialExact gives none; of the sine and cosine up to 2^15. -/
def specialValue (f : Special) (x : W32) : Int :=
  let v := fxOf x
  match f with
  | .exp2 => fxShift (fxExpSmall (fxMul (v % fxOne) fxLn2)) (v / fxOne)
  | .log2 => (match num32 x with
    | .fin _ m e => fxLog2 m e
    | _ => 0)
  | .rcp => fxOne * fxOne / v
  | .rsq => (isqrt (fxOne * fxOne * fxOne / v).toNat 340 0 : Nat)
  | .sin => fxTrig false v
  | .cos => fxTrig true v
  | .tanh => (fxExp (2 * v) - fxOne) * fxOne / (fxExp (2 * v) + fxOne)
  | .sigm => fxOne * fxOne / (fxOne + fxExp (-v))
  | .erf => fxErfOf v

/-! ## Results in order -/

/-- An FP32 word as its place in the order of values; both zeros stand at 0. -/
def ordOf (r : W32) : Int := if r.getLsbD 31 then -((r &&& 0x7FFFFFFF).toNat : Int) else (r.toNat : Int)

/-- The word at a place, +0 at 0. -/
def ofOrd (o : Int) : W32 := if o < 0 then 0x80000000 ||| BitVec.ofNat 32 o.natAbs else BitVec.ofNat 32 o.toNat

/-- The value at a place of positive sign, in fixed point; infinity counts as 2^128. -/
def ordValue (o : Nat) : Nat := if 0x7F800000 ≤ o then 2 ^ 384 else (fxOf (BitVec.ofNat 32 o)).toNat

/-- How far R125 lets a result stand from the exact value: some ulp, or an absolute error. -/
inductive Bound where
  | ulps (k : Nat)
  | abs (b : Nat)
  deriving DecidableEq, Repr

/-- log2 of ulp(y) of R125, in fixed point. -/
def fxUlpLog (y : Nat) : Nat := max (Nat.log2 y - 23) 107

/-- The least exact value at which the result at a place of positive sign keeps its bound: ulp(y) is halved below the result's
own binade. -/
def lowSide (b : Bound) (o : Nat) : Int :=
  let v : Int := ordValue o
  match b with
  | .abs b => v - b
  | .ulps k =>
    let u := fxUlpLog (ordValue o)
    let bottom : Int := 2 ^ (u + 23)
    let c := v - k * 2 ^ u
    if u = 107 ∨ bottom ≤ c then c else min bottom (v - k * 2 ^ (u - 1))

/-- The greatest exact value up to which it does: ulp(y) is doubled above. -/
def highSide (b : Bound) (o : Nat) : Int :=
  let v : Int := ordValue o
  match b with
  | .abs b => v + b
  | .ulps k =>
    let u := fxUlpLog (ordValue o)
    if 2 ^ (u + 24) ≤ v + k * 2 ^ u then v + k * 2 ^ (u + 1) else v + k * 2 ^ u

/-- The same for either sign. -/
def lowEnd (b : Bound) (o : Int) : Int := if 0 ≤ o then lowSide b o.toNat else -highSide b o.natAbs
def highEnd (b : Bound) (o : Int) : Int := if 0 ≤ o then highSide b o.toNat else -lowSide b o.natAbs

/-! ## The free map (R126) -/

/-- A stretch of inputs on which a function is monotonic (R125): its number, the least and the greatest result that stand
between the exact results beside it and within the function's range, the bound, and whether the results are magnitudes that
take the argument's sign. -/
structure Stretch where
  num : Int
  lo : Int
  hi : Int
  bound : Bound
  mag : Bool := false
  deriving DecidableEq, Repr

/-- The place of 2^n. -/
def ordPow (n : Int) : Int := ordOf (to32 (.fin false 1 n))

/-- The place of the integer n. -/
def ordInt (n : Int) : Int := ordOf (to32 (.fin (decide (n < 0)) n.natAbs 0))

/-- The place of one. -/
def ordOne : Int := 0x3F800000

/-- The stretch an input lies on, where specialExact gives no result (R125). The sine rises or falls between odd multiples of
pi/2, the cosine between multiples of pi. -/
def stretch (f : Special) (x : W32) : Stretch :=
  let neg := x.getLsbD 31
  let side : Int := if neg then 1 else 0
  match f with
  | .exp2 =>
    let n := (fToInt (fIntegral .down x)).toInt
    ⟨n, ordPow n, ordPow (n + 1), .ulps 1, false⟩
  | .log2 =>
    let n := floorLog2 x
    ⟨n, ordInt n, ordInt (n + 1), if n = -1 ∨ n = 0 then .abs (2 ^ 234) else .ulps 1, false⟩
  | .rcp =>
    let n := floorLog2 x
    ⟨2 * n + side, ordPow (-(n + 1)), ordPow (-n), .ulps 1, true⟩
  | .rsq => ⟨0, 0, 0x7F7FFFFF, .ulps 1, false⟩
  | .sin =>
    let n := (2 * fxOf x + fxPi) / (2 * fxPi)
    ⟨n, if n = 0 ∧ !neg then 0 else -ordOne, if n = 0 ∧ neg then 0 else ordOne, .abs (2 ^ 235), false⟩
  | .cos => ⟨fxOf x / fxPi, -ordOne, ordOne, .abs (2 ^ 235), false⟩
  | .tanh => ⟨side, 0x397FFFFF, ordOne, .ulps 2, true⟩
  | .sigm => ⟨0, 0, ordOne, .ulps 2, false⟩
  | .erf => ⟨side, 0, ordOne, .ulps 2, true⟩

/-- Where on a stretch the results pass from below a place to it: a free point among those that keep the bounds of both
sides. -/
def threshold (f : Special) (t : Stretch) (o : Int) : Int :=
  let lo := lowEnd t.bound o
  lo + (Config.specialFn f.code t.num o % ((highEnd t.bound (o - 1) - lo).toNat + 1) : Nat)

/-- The place between two whose threshold an exact value has reached: a search by halves, whose answer rises with y. -/
def placeOf (f : Special) (t : Stretch) (y : Int) : Nat → Int → Int → Int
  | 0, lo, _ => lo
  | n + 1, lo, hi =>
    if hi ≤ lo then lo
    else
      let m := (lo + hi + 1) / 2
      if threshold f t m ≤ y then placeOf f t y n m hi else placeOf f t y n lo (m - 1)

/-- A result of the sine or cosine beyond 2^15: any value in [−1, 1]. -/
def farPlace (f : Special) (x : W32) : Int := (Config.specialFn (f.code + 16) x.toNat 0 % (2 * 0x3F800000 + 1) : Nat) - ordOne

/-- A result word: the sign of a zero that no rule signs is free. -/
def signedZero (f : Special) (x : W32) (o : Int) : W32 :=
  if o = 0 ∧ (f = .sin ∨ f = .cos ∨ f = .log2) then (if Config.specialFn (f.code + 32) x.toNat 0 % 2 = 1 then 0x80000000 else 0)
  else ofOrd o

/-- A special function: its exact results, and otherwise the free map of R126 within every limit of R125: each of the
function's monotonic stretches has its own free thresholds, so that the results are monotonic there. -/
def special (f : Special) (x : W32) : W32 :=
  match specialExact f x with
  | some r => r
  | none =>
    if (f = .sin ∨ f = .cos) ∧ absGe x 0x47000001 then signedZero f x (farPlace f x)
    else
      let t := stretch f x
      let y := specialValue f x
      if t.mag then ofOrd (placeOf f t y.natAbs 34 t.lo t.hi) ||| signOf x
      else signedZero f x (placeOf f t y 34 t.lo t.hi)

end Sys2Proof.Machine
end

