-- ==== Sys2Proof/Machine/VecFloat.lean ====
section
/-! DEFINITION. Float arithmetic, packed dots and special-function instructions (R161, R162), conversion and quantisation
(R163 to R167). -/

namespace Sys2Proof.Machine

/-! ## Float (R161) -/

/-- FADD (R118, R161). -/
def execFadd (h : Head) (d : VNum) (a b : VSrc) : State → Host.Outcome State Fault Refusal :=
  vec2 h 0x100 d a b (lift2 fAdd)

/-- FSUB (R118, R161). -/
def execFsub (h : Head) (d : VNum) (a b : VSrc) : State → Host.Outcome State Fault Refusal :=
  vec2 h 0x101 d a b (lift2 fSub)

/-- FMUL (R118, R161). -/
def execFmul (h : Head) (d : VNum) (a b : VSrc) : State → Host.Outcome State Fault Refusal :=
  vec2 h 0x102 d a b (lift2 fMul)

/-- FFMA, one rounding (R118, R161). -/
def execFfma (h : Head) (d : VNum) (a b c : VSrc) : State → Host.Outcome State Fault Refusal :=
  vec3 h 0x103 d a b c (lift3 fFma)

/-- FDIV, scoreboarded (R144, R161). -/
def execFdiv (h : Head) (d : VNum) (a b : VSrc) : State → Host.Outcome State Fault Refusal :=
  vecLong2 h 0x104 d a b fDiv

/-- FSQRT, scoreboarded (R144, R161). -/
def execFsqrt (h : Head) (d : VNum) (a : VSrc) : State → Host.Outcome State Fault Refusal :=
  vecLong1 h 0x105 d a fSqrt

/-- FMIN (R161). -/
def execFmin (h : Head) (d : VNum) (a b : VSrc) : State → Host.Outcome State Fault Refusal :=
  vec2 h 0x106 d a b (lift2 fMin)

/-- FMAX (R161). -/
def execFmax (h : Head) (d : VNum) (a b : VSrc) : State → Host.Outcome State Fault Refusal :=
  vec2 h 0x107 d a b (lift2 fMax)

/-- FABS (R161). -/
def execFabs (h : Head) (d : VNum) (a : VSrc) : State → Host.Outcome State Fault Refusal :=
  vec1 h 0x108 d a (lift1 fAbs)

/-- FNEG (R161). -/
def execFneg (h : Head) (d : VNum) (a : VSrc) : State → Host.Outcome State Fault Refusal :=
  vec1 h 0x109 d a (lift1 fNeg)

/-- FCMP (R152, R161). -/
def execFcmp (h : Head) (d : SReg) (a b : VSrc) (cc : Cc) : State → Host.Outcome State Fault Refusal :=
  vecCompare h 0x10A d a b (floatCompare cc)

/-- FCLASS (R161). -/
def execFclass (h : Head) (d : VNum) (a : VSrc) : State → Host.Outcome State Fault Refusal :=
  vec1 h 0x10B d a (lift1 fClass)

/-- FTRUNC (R161). -/
def execFtrunc (h : Head) (d : VNum) (a : VSrc) : State → Host.Outcome State Fault Refusal :=
  vec1 h 0x10C d a (lift1 (fIntegral .zero))

/-- FFLOOR (R161). -/
def execFfloor (h : Head) (d : VNum) (a : VSrc) : State → Host.Outcome State Fault Refusal :=
  vec1 h 0x10D d a (lift1 (fIntegral .down))

/-- FCEIL (R161). -/
def execFceil (h : Head) (d : VNum) (a : VSrc) : State → Host.Outcome State Fault Refusal :=
  vec1 h 0x10E d a (lift1 (fIntegral .up))

/-- FDOT2, the exact sum of R124 (R161). -/
def execFdot2 (h : Head) (d : VNum) (a b c : VSrc) : State → Host.Outcome State Fault Refusal :=
  vec3 h 0x10F d a b c (lift3 (dotElems .bf16))

/-- FDOT4, the exact sum of R124 (R161). -/
def execFdot4 (h : Head) (d : VNum) (a b c : VSrc) : State → Host.Outcome State Fault Refusal :=
  vec3 h 0x110 d a b c (lift3 (dotElems .e4m3))

/-- FEXP2 (R125, R162). -/
def execFexp2 (h : Head) (d : VNum) (a : VSrc) : State → Host.Outcome State Fault Refusal :=
  vec1 h 0x118 d a (lift1 (special .exp2))

/-- FLOG2 (R125, R162). -/
def execFlog2 (h : Head) (d : VNum) (a : VSrc) : State → Host.Outcome State Fault Refusal :=
  vec1 h 0x119 d a (lift1 (special .log2))

/-- FRCP (R125, R162). -/
def execFrcp (h : Head) (d : VNum) (a : VSrc) : State → Host.Outcome State Fault Refusal :=
  vec1 h 0x11A d a (lift1 (special .rcp))

/-- FRSQ (R125, R162). -/
def execFrsq (h : Head) (d : VNum) (a : VSrc) : State → Host.Outcome State Fault Refusal :=
  vec1 h 0x11B d a (lift1 (special .rsq))

/-- FSIN (R125, R162). -/
def execFsin (h : Head) (d : VNum) (a : VSrc) : State → Host.Outcome State Fault Refusal :=
  vec1 h 0x11C d a (lift1 (special .sin))

/-- FCOS (R125, R162). -/
def execFcos (h : Head) (d : VNum) (a : VSrc) : State → Host.Outcome State Fault Refusal :=
  vec1 h 0x11D d a (lift1 (special .cos))

/-- FTANH (R125, R162). -/
def execFtanh (h : Head) (d : VNum) (a : VSrc) : State → Host.Outcome State Fault Refusal :=
  vec1 h 0x11E d a (lift1 (special .tanh))

/-- FSIGM (R125, R162). -/
def execFsigm (h : Head) (d : VNum) (a : VSrc) : State → Host.Outcome State Fault Refusal :=
  vec1 h 0x11F d a (lift1 (special .sigm))

/-- FERF (R125, R162). -/
def execFerf (h : Head) (d : VNum) (a : VSrc) : State → Host.Outcome State Fault Refusal :=
  vec1 h 0x120 d a (lift1 (special .erf))

/-! ## Conversion and quantisation (R163 to R167) -/

/-- The narrow encoding of one conversion source: FP32 for a float target, INT32 for an integer one (R164, R165). -/
def narrowElem (f : Fmt) (x : W32) : Nat :=
  if fmtIsInt f then narrow f (.fin (decide (x.toInt < 0)) x.toInt.natAbs 0) else narrow f (num32 x)

/-- CVT's value (R164). -/
def cvtValue (f : Fmt) (x : W32) : W32 :=
  match f with
  | .fp32 => fOfInt x
  | .i32 => fToInt x
  | f => BitVec.ofNat 32 (narrowElem f x)

/-- UNPK's value (R166): exact, sign-extended integers. -/
def unpkValue (f : Fmt) (k : Nat) (x : W32) : W32 :=
  let e := wordElem f x k
  if fmtIsInt f then BitVec.ofInt 32 (BitVec.ofNat (fmtBits f) e).toInt else to32 (decodeFloat f e)

/-- PACK's value from the sources of the group in order (R165). -/
def packValue (f : Fmt) (xs : List W32) : W32 :=
  BitVec.ofNat 32 ((List.range f.perWord).foldl (fun t k => t + narrowElem f (xs.getD k 0) * 2 ^ (fmtSlot f * k)) 0)

/-- CVT (R164). -/
def execCvt (h : Head) (d : VNum) (a : VSrc) (f : Fmt) : State → Host.Outcome State Fault Refusal :=
  vec1 h 0x180 d a (lift1 (cvtValue f))

/-- PACK (R165): uniform if every register of the group is, otherwise general. -/
def execPack (h : Head) (d : VNum) (a : VGrp) (f : Fmt) : State → Host.Outcome State Fault Refusal :=
  let regs := groupRegs a.reg f.perWord
  issue { h := h, opc := 0x181, len := 16, rv := regs, wv := [d], fv := grpFrees a f.perWord } (fun s w v =>
    let one (l : Fin 32) : W32 := packValue f (regs.map (fun r => (w.vreg r).lane l))
    let x : VReg := if regs.all (fun r => (w.vreg r).isUni) then .uni (one 0) else .gen (lanesBy one)
    .ok s (v.vwrite d x) (regs.all (fun r => (w.vreg r).isUA) && (mergeMask w.em (v.vreg d) x).isUA))

/-- UNPK (R166). -/
def execUnpk (h : Head) (d : VNum) (a : VSrc) (f : Fmt) (k : Fin 8) : State → Host.Outcome State Fault Refusal :=
  vec1 h 0x182 d a (lift1 (unpkValue f k.val))

/-- A format slot's fields (R119). -/
def slotBound (x : BitVec 16) : Bool := x.getLsbD 0
def slotScaled (x : BitVec 16) : Bool := (x.extractLsb' 2 2).toNat == 1

/-- A slot's element format (R119). -/
def slotElem (x : BitVec 16) : Fmt :=
  match (x.extractLsb' 4 4).toNat with
  | 0 => .fp32
  | 1 => .bf16
  | 2 => .fp16
  | 3 => .e4m3
  | 4 => .e5m2
  | 5 => .e3m2
  | 6 => .e2m1
  | 7 => .i8
  | _ => .i4

/-- The register fsN of a wave's grid (R119). -/
def State.slotOf (s : State) (w : Wave) (n : Fin 8) : BitVec 16 :=
  match s.gridOf w with
  | some g => g.launch.fs[n.val]
  | none => 0

/-- The slots QNT accepts (R121). -/
def qntAccepts (x : BitVec 16) : Bool :=
  slotBound x && slotScaled x && (match slotElem x with
    | .e4m3 | .e5m2 | .e3m2 | .e2m1 | .i8 | .i4 => true
    | _ => false)

/-- QNT (R123, R167): the participating lanes are the active ones; under a full mask vD is uniform if every element code
is equal. -/
def execQnt (h : Head) (d : VNum) (a : VSrc) (fs : Fin 8) : State → Host.Outcome State Fault Refusal :=
  issue { vreq h 0x183 d [a] with wv := groupRegs d 2 } (fun s w v =>
    let slot := s.slotOf w fs
    if !qntAccepts slot then .trap s w (w.iil 0x183 0)
    else
      let act := lanesOf w.em
      let (e, q) := qntBlock (slotElem slot) (act.map (w.src a).lane)
      let code (l : Fin 32) : W32 := BitVec.ofNat 32 (q.getD (act.idxOf l) 0)
      let el : VReg := if q.all (fun x => x == q.getD 0 0) then .uni (BitVec.ofNat 32 (q.getD 0 0)) else .gen (lanesBy code)
      let sc : VReg := .uni (BitVec.ofNat 32 e)
      let v' := (v.vwrite d el).vwrite (groupReg d 1) sc
      .ok s v' ((w.src a).isUA && (v'.vreg d).isUA && (v'.vreg (groupReg d 1)).isUA))

end Sys2Proof.Machine
end

