-- ==== Sys2Proof/Machine/Cross.lean ====
section
/-! DEFINITION. Cross-lane work and reductions (R168, R169), masks (R171) and shape instructions (R172, R173). -/

namespace Sys2Proof.Machine

/-- VPERM (R168): an index of 32 or more reads 0; a uniform index gives a uniform result. -/
def execVperm (h : Head) (d : VNum) (a b : VSrc) : State → Host.Outcome State Fault Refusal :=
  issue { vreq h 0x188 d [a, b] with uses := [.picked a b, .through b] } (fun s w v =>
    let x := w.src a
    let pick (i : W32) : W32 := if h : i.toNat < 32 then x.lane ⟨i.toNat, h⟩ else 0
    let r : VReg := match w.src b with
      | .uni i => .uni (pick i)
      | y => .gen (lanesBy (fun l => pick (y.lane l)))
    .ok s (v.vwrite d r) (x.isUA && (w.src b).isUA && (mergeMask w.em (v.vreg d) r).isUA))

/-- The operation of an AOP code on two words (R82, R169, R194); .swap and .cas stand apart. -/
def aopValue (op : Aop) (x y : W32) : W32 :=
  match op with
  | .add => x + y
  | .mins => minS x y
  | .maxs => maxS x y
  | .minu => minU x y
  | .maxu => maxU x y
  | .band => x &&& y
  | .bor => x ||| y
  | .bxor => x ^^^ y
  | .swap => y
  | .cas => x
  | .fadd => fAdd x y
  | .fmin => fMin x y
  | .fmax => fMax x y

/-- The codes whose operands are FP32. -/
def aopFloat : Aop → Bool
  | .fadd | .fmin | .fmax => true
  | _ => false

/-- An operation in which ⊥ takes no part (R169). -/
def aopOpt (op : Aop) (x y : Option W32) : Option W32 :=
  match x, y with
  | some a, some b => some (aopValue op a b)
  | some a, none => some a
  | none, y => y

/-- Combine neighbours, halving the list. -/
def pairUp (op : Aop) : List (Option W32) → List (Option W32)
  | x :: y :: l => aopOpt op x y :: pairUp op l
  | l => l

/-- The tree of REDU over 32 lanes: five rounds (R169). -/
def reduTree (op : Aop) (l : List (Option W32)) : Option W32 :=
  match pairUp op (pairUp op (pairUp op (pairUp op (pairUp op l)))) with
  | x :: _ => x
  | [] => none

/-- The identity REDU answers when no lane takes part (R169); nothing is written then (R135). -/
def aopIdentity : Aop → W32
  | .add => 0
  | .mins => 0x7FFFFFFF
  | .maxs => 0x80000000
  | .minu => 0xFFFFFFFF
  | .maxu => 0
  | .band => 0xFFFFFFFF
  | .bor | .bxor => 0
  | .fadd => 0
  | .fmin => 0x7F800000
  | .fmax => 0xFF800000
  | .swap | .cas => 0

/-- A float operation's NaN result is canonical (R111, R169). -/
def aopCanon (op : Aop) (x : W32) : W32 := if aopFloat op then canon x else x

/-- REDU's value (R169). -/
def reduValue (op : Aop) (em : Mask) (x : VReg) : W32 :=
  aopCanon op (match reduTree op ((List.finRange 32).map (fun l => if em.getLsbD l.val then some (x.lane l) else none)) with
    | some v => v
    | none => aopIdentity op)

/-- SCAN's running values, lane by lane (R169). -/
def scanRun (op : Aop) (em : Mask) (x : VReg) : List (Fin 32) → Option W32 → List W32
  | [], _ => []
  | l :: ls, run =>
    let run := if em.getLsbD l.val then aopOpt op run (some (x.lane l)) else run
    aopCanon op (run.getD 0) :: scanRun op em x ls run

/-- SCAN's result under a full mask, with its shape (R169). -/
def scanValue (op : Aop) (em : Mask) (x : VReg) : VReg :=
  let r := scanRun op em x (List.finRange 32) none
  match x, op with
  | .uni u, .add => .aff u u
  | .uni u, .band => .uni u
  | .uni u, .bor => .uni u
  | .uni u, .mins => .uni u
  | .uni u, .maxs => .uni u
  | .uni u, .minu => .uni u
  | .uni u, .maxu => .uni u
  | .uni u, .fmin => .uni (canon u)
  | .uni u, .fmax => .uni (canon u)
  | _, _ => .gen (lanesBy (fun l => r.getD l.val 0))

/-- SCAN's lanes, general: what a partial mask writes (R135, R169). -/
def scanLanes (op : Aop) (em : Mask) (x : VReg) : VReg :=
  let r := scanRun op em x (List.finRange 32) none
  .gen (lanesBy (fun l => r.getD l.val 0))

/-- REDU (R169): uniform under a full mask. -/
def execRedu (h : Head) (d : VNum) (a : VSrc) (op : Aop) : State → Host.Outcome State Fault Refusal :=
  issue (vreq h 0x189 d [a]) (fun s w v =>
    let x : VReg := .uni (reduValue op w.em (w.src a))
    .ok s (v.vwrite d x) ((w.src a).isUA && (mergeMask w.em (v.vreg d) x).isUA))

/-- SCAN (R169). -/
def execScan (h : Head) (d : VNum) (a : VSrc) (op : Aop) : State → Host.Outcome State Fault Refusal :=
  issue (vreq h 0x18A d [a]) (fun s w v =>
    let x := if w.em = 0xFFFFFFFF then scanValue op w.em (w.src a) else scanLanes op w.em (w.src a)
    .ok s (v.vwrite d x) ((w.src a).isUA && (mergeMask w.em (v.vreg d) x).isUA))

/-! ## Masks (R137, R171) -/

/-- A mask instruction of a scalar source. -/
def maskOp (h : Head) (opc : Nat) (a : SReg) (f : Mask → W32 → Mask) : State → Host.Outcome State Fault Refusal :=
  issue { h := h, opc := opc, len := 16, rs := [a] }
    (fun s w v => .ok s { v with em := f w.em (low32 (w.sget a)) } true)

/-- MSET (R171). -/
def execMset (h : Head) (a : SReg) : State → Host.Outcome State Fault Refusal := maskOp h 0x190 a (fun _ x => x)

/-- MGET (R171). -/
def execMget (h : Head) (d : SReg) : State → Host.Outcome State Fault Refusal :=
  issue { h := h, opc := 0x191, len := 16, ws := [d] } (fun s w v => .ok s (v.sset d (w.em.setWidth 64)) true)

/-- MAND (R171). -/
def execMand (h : Head) (a : SReg) : State → Host.Outcome State Fault Refusal := maskOp h 0x192 a (fun e x => e &&& x)

/-- MANDN (R171). -/
def execMandn (h : Head) (a : SReg) : State → Host.Outcome State Fault Refusal := maskOp h 0x193 a (fun e x => e &&& ~~~x)

/-- MOR (R171). -/
def execMor (h : Head) (a : SReg) : State → Host.Outcome State Fault Refusal := maskOp h 0x194 a (fun e x => e ||| x)

/-- MNOT (R171). -/
def execMnot (h : Head) : State → Host.Outcome State Fault Refusal :=
  issue { h := h, opc := 0x195, len := 16 } (fun s w v => .ok s { v with em := ~~~w.em } true)

/-! ## Shape instructions (R172, R173) -/

/-- VTAG (R172): it reads the tag only, neither refilling a spilled register nor waiting for a deferred result. DESIGN CHOICE: a
scalar instruction by R172, it charges its weight once whatever its register's shape (R147; log 96). -/
def execVtag (h : Head) (d : SReg) (a : VGrp) : State → Host.Outcome State Fault Refusal :=
  issue { h := h, opc := 0x184, len := 16, ws := [d], dv := [a.reg], fv := grpFrees a 1 }
    (fun s w v => .ok s (v.sset d (BitVec.ofNat 64 (w.vreg a.reg).tag)) true)

/-- VSQZ (R136, R173): all 32 lanes, whatever em holds. -/
def execVsqz (h : Head) (d : VNum) (a : VSrc) : State → Host.Outcome State Fault Refusal :=
  issue { vreq h 0x185 d [a] with ignoreEm := true } (fun s w v =>
    let x := squeeze (w.src a)
    .ok s (v.vput d x) ((w.src a).isUA && x.isUA))

end Sys2Proof.Machine
end

