-- ==== Sys2Proof/Decode.lean ====
section
/-! DEFINITION. The decoder, total on any bytes, and after it the encoder, both written from R65 to R88 and the fields
each instruction's entry gives. A word that R88 makes illegal decodes to none. -/

namespace Sys2Proof

/-! ## Raw words (R72, R75, R83) -/

/-- The fields of a 64-bit word; IMM24 of the S-I form is MOD18 with SB (R72). -/
structure RawS where
  mod : BitVec 18
  sb : BitVec 6
  sa : BitVec 6
  sd : BitVec 6
  gb : BitVec 6
  gs : BitVec 6
  gc : BitVec 3
  opc : BitVec 10
  y : BitVec 1
  len : BitVec 2
  deriving DecidableEq, Repr

/-- The fields of a 128-bit word (R75). -/
structure RawV where
  mod : BitVec 38
  c : BitVec 18
  b : BitVec 18
  a : BitVec 18
  vd : BitVec 8
  gb : BitVec 6
  gs : BitVec 6
  gc : BitVec 3
  opc : BitVec 10
  y : BitVec 1
  len : BitVec 2
  deriving DecidableEq, Repr

/-- The fields of a 256-bit word (R83). -/
structure RawN where
  spare : BitVec 3
  red : BitVec 1
  fs : BitVec 3
  str : BitVec 135
  ext : BitVec 60
  bs2 : BitVec 6
  bs1 : BitVec 6
  bs0 : BitVec 6
  eop : BitVec 8
  gb : BitVec 6
  gs : BitVec 6
  gc : BitVec 3
  opc : BitVec 10
  y : BitVec 1
  len : BitVec 2
  deriving DecidableEq, Repr

def RawS.ofWord (w : BitVec 64) : RawS :=
  { mod := w.extractLsb' 46 18, sb := w.extractLsb' 40 6, sa := w.extractLsb' 34 6, sd := w.extractLsb' 28 6,
    gb := w.extractLsb' 22 6, gs := w.extractLsb' 16 6, gc := w.extractLsb' 13 3, opc := w.extractLsb' 3 10,
    y := w.extractLsb' 2 1, len := w.extractLsb' 0 2 }

def RawS.toWord (r : RawS) : BitVec 64 :=
  r.mod ++ r.sb ++ r.sa ++ r.sd ++ r.gb ++ r.gs ++ r.gc ++ r.opc ++ r.y ++ r.len

def RawV.ofWord (w : BitVec 128) : RawV :=
  { mod := w.extractLsb' 90 38, c := w.extractLsb' 72 18, b := w.extractLsb' 54 18, a := w.extractLsb' 36 18,
    vd := w.extractLsb' 28 8, gb := w.extractLsb' 22 6, gs := w.extractLsb' 16 6, gc := w.extractLsb' 13 3,
    opc := w.extractLsb' 3 10, y := w.extractLsb' 2 1, len := w.extractLsb' 0 2 }

def RawV.toWord (r : RawV) : BitVec 128 :=
  r.mod ++ r.c ++ r.b ++ r.a ++ r.vd ++ r.gb ++ r.gs ++ r.gc ++ r.opc ++ r.y ++ r.len

def RawN.ofWord (w : BitVec 256) : RawN :=
  { spare := w.extractLsb' 253 3, red := w.extractLsb' 252 1, fs := w.extractLsb' 249 3, str := w.extractLsb' 114 135,
    ext := w.extractLsb' 54 60, bs2 := w.extractLsb' 48 6, bs1 := w.extractLsb' 42 6, bs0 := w.extractLsb' 36 6,
    eop := w.extractLsb' 28 8, gb := w.extractLsb' 22 6, gs := w.extractLsb' 16 6, gc := w.extractLsb' 13 3,
    opc := w.extractLsb' 3 10, y := w.extractLsb' 2 1, len := w.extractLsb' 0 2 }

def RawN.toWord (r : RawN) : BitVec 256 :=
  r.spare ++ r.red ++ r.fs ++ r.str ++ r.ext ++ r.bs2 ++ r.bs1 ++ r.bs0 ++ r.eop ++ r.gb ++ r.gs ++ r.gc ++ r.opc ++
    r.y ++ r.len

/-! ## Fields -/

/-- A field that must be below `n`. -/
def finOf (n : Nat) {k : Nat} (b : BitVec k) : Option (Fin n) :=
  if h : b.toNat < n then some ⟨b.toNat, h⟩ else none

/-- GC with GS and GB (R69, R70). -/
def decGuard (gc : BitVec 3) (gs gb : BitVec 6) : Option Guard :=
  match gc.toNat with
  | 0 => if gs = 0 ∧ gb = 0 then some .always else none
  | 1 => some (.ifSet gs.toFin gb.toFin)
  | 2 => some (.ifClear gs.toFin gb.toFin)
  | _ => none

/-- The fields of an operand (R76). -/
structure RawOp where
  k : BitVec 1
  amt : BitVec 5
  pat : BitVec 3
  l : BitVec 1
  reg : BitVec 8
  deriving DecidableEq, Repr

def RawOp.ofBits (x : BitVec 18) : RawOp :=
  { k := x.extractLsb' 17 1, amt := x.extractLsb' 12 5, pat := x.extractLsb' 9 3, l := x.extractLsb' 8 1,
    reg := x.extractLsb' 0 8 }

def RawOp.toBits (r : RawOp) : BitVec 18 := r.k ++ r.amt ++ r.pat ++ r.l ++ r.reg

/-- PAT and AMT (R77). -/
def decPerm (pat : BitVec 3) (amt : BitVec 5) : Option Perm :=
  match pat.toNat with
  | 0 => if amt = 0 then some .ident else none
  | 1 => some (.rot amt.toFin)
  | 2 => some (.bc amt.toFin)
  | 3 => some (.bfly amt.toFin)
  | 4 => if amt = 0 then some .mir else none
  | 5 => some (.sup amt.toFin)
  | 6 => some (.sdn amt.toFin)
  | _ => none

/-- A source of either kind (R76, R78). -/
def decSrc (x : BitVec 18) : Option VSrc :=
  let r := RawOp.ofBits x
  if r.k = 0 then
    match decPerm r.pat r.amt with
    | some p => some (.vec r.reg.toFin p (r.l == 1))
    | none => none
  else if r.amt = 0 ∧ r.pat = 0 ∧ r.l = 0 then
    match finOf 64 r.reg with
    | some s => some (.sca s)
    | none => none
  else none

/-- A source that must be a vector register (R78). -/
def decVec (x : BitVec 18) : Option VSrc :=
  match decSrc x with
  | some (.vec r p l) => some (.vec r p l)
  | _ => none

/-- A source that must be a scalar register (R78). -/
def decSca (x : BitVec 18) : Option SReg :=
  match decSrc x with
  | some (.sca s) => some s
  | _ => none

/-- A group operand, or VTAG's register: K = 0, PAT and AMT zero (R79, R172). -/
def decGrp (x : BitVec 18) : Option VGrp :=
  match decSrc x with
  | some (.vec r .ident l) => some ⟨r, l⟩
  | _ => none

/-- A q source (R216). -/
def decQ (x : BitVec 18) : Option QSrc :=
  match decSrc x with
  | some (.vec r .ident l) => if h : r.val < 8 then some ⟨⟨r.val, h⟩, l⟩ else none
  | _ => none

/-- A scalar destination in VD[33:28] with VD[35:34] = 0 (R75). -/
def decSd (vd : BitVec 8) : Option SReg := finOf 64 vd

/-- A q destination, or a layout record, in VD[30:28] with VD[35:31] = 0 (R75, R292). -/
def decQd (vd : BitVec 8) : Option (Fin 8) := finOf 8 vd

def decOrd (b : BitVec 2) : MOrd :=
  match b.toNat with
  | 0 => .plain
  | 1 => .acq
  | 2 => .rel
  | _ => .sc

def decSzt (b : BitVec 4) : Option Szt :=
  match b.toNat with
  | 0 => some .w
  | 1 => some .i8
  | 2 => some .z8
  | 3 => some .i16
  | 4 => some .z16
  | 5 => some .dw
  | 6 => some .qw
  | _ => none

/-- AOP and OPR codes (R82, R151). -/
def decAop (b : BitVec 6) : Option Aop :=
  match b.toNat with
  | 0 => some .add
  | 1 => some .mins
  | 2 => some .maxs
  | 3 => some .minu
  | 4 => some .maxu
  | 5 => some .band
  | 6 => some .bor
  | 7 => some .bxor
  | 8 => some .swap
  | 9 => some .cas
  | 10 => some .fadd
  | 11 => some .fmin
  | 12 => some .fmax
  | _ => none

/-- Compare codes (R152). -/
def decCc (b : BitVec 4) : Option Cc :=
  match b.toNat with
  | 0 => some .eq
  | 1 => some .ne
  | 2 => some .lt
  | 3 => some .le
  | 4 => some .gt
  | 5 => some .ge
  | 6 => some .ltu
  | 7 => some .leu
  | 8 => some .gtu
  | 9 => some .geu
  | 10 => some .un
  | _ => none

/-- FMT codes (R163). -/
def decFmt (b : BitVec 4) : Option Fmt :=
  match b.toNat with
  | 0 => some .fp32
  | 1 => some .bf16
  | 2 => some .fp16
  | 3 => some .e4m3
  | 4 => some .e5m2
  | 5 => some .e3m2
  | 6 => some .e2m1
  | 7 => some .i8
  | 8 => some .i4
  | 9 => some .i32
  | _ => none

/-- EOP codes of NEST (R199). -/
def decEop (b : BitVec 8) : Option Eop :=
  match b.toNat with
  | 0 => some .copy
  | 1 => some .add
  | 2 => some .sub
  | 3 => some .mul
  | 4 => some .mac
  | 5 => some .min
  | 6 => some .max
  | 7 => some .relu
  | _ => none

/-- The memory MOD38 (R80). -/
structure RawMem where
  ofs : BitVec 26
  szt : BitVec 4
  evp : BitVec 3
  scope : BitVec 3
  ord : BitVec 2
  deriving DecidableEq, Repr

def RawMem.ofBits (m : BitVec 38) : RawMem :=
  { ofs := m.extractLsb' 12 26, szt := m.extractLsb' 8 4, evp := m.extractLsb' 5 3, scope := m.extractLsb' 2 3,
    ord := m.extractLsb' 0 2 }

def RawMem.toBits (r : RawMem) : BitVec 38 := r.ofs ++ r.szt ++ r.evp ++ r.scope ++ r.ord

/-- ORD, SCOPE and EVP together (R44 to R46); SCOPE 6 and 7 are illegal. -/
def decMMod (r : RawMem) : Option MMod :=
  match finOf 6 r.scope with
  | some s => some ⟨decOrd r.ord, s, r.evp.toFin⟩
  | none => none

/-- Base, index and offset of a memory operand (R80). -/
def decMem (a b : BitVec 18) (ofs : BitVec 26) : Option MemOp :=
  match decSca a, decSrc b with
  | some base, some index => some ⟨base, index, ofs⟩
  | _, _ => none

/-- The same with the 20-bit offset of ATOM and RED (R82). -/
def decMem20 (a b : BitVec 18) (ofs : BitVec 20) : Option MemOp20 :=
  match decSca a, decSrc b with
  | some base, some index => some ⟨base, index, ofs⟩
  | _, _ => none

/-- The memory operand of TLD and TST (R294): OFS holds LR, CNT and OFS20; ORD and SZT are zero. -/
def decTile (a b : BitVec 18) (r : RawMem) : Option TileOp :=
  match decSca a, decSca b, finOf 6 (r.ofs.extractLsb' 20 3), finOf 6 r.scope with
  | some base, some index, some cnt, some scope =>
    if r.szt = 0 ∧ r.ord = 0 then
      some ⟨base, index, (r.ofs.extractLsb' 23 3).toFin, cnt, r.ofs.extractLsb' 0 20, r.evp.toFin, scope⟩
    else none
  | _, _, _, _ => none

/-- An instruction whose remaining conditions must hold. -/
def keepIf (b : Bool) (i : Instr) : Option Instr := if b then some i else none

/-! ## Decoding the three lengths -/

/-- A 64-bit word's instruction after its head (R72, R84 and the entries of chapters 07, 08, 17, 18). -/
def decodeS (r : RawS) (h : Head) : Option Instr :=
  let imm : BitVec 24 := r.mod ++ r.sb
  let d : SReg := r.sd.toFin
  let a : SReg := r.sa.toFin
  let b : SReg := r.sb.toFin
  let m0 : Bool := r.mod == 0
  let b0 : Bool := r.sb == 0
  let a0 : Bool := r.sa == 0
  let d0 : Bool := r.sd == 0
  match r.opc.toNat with
  | 0x000 => keepIf (m0 && b0) (.smov h d a)
  | 0x001 => keepIf a0 (.smovi h d imm)
  | 0x002 => some (.slui h d a imm)
  | 0x003 => keepIf m0 (.sadd h d a b)
  | 0x004 => keepIf m0 (.ssub h d a b)
  | 0x005 => keepIf m0 (.smul h d a b)
  | 0x006 => keepIf m0 (.smulh h d a b)
  | 0x007 => keepIf m0 (.sdiv h d a b)
  | 0x008 => keepIf m0 (.srem h d a b)
  | 0x009 => keepIf m0 (.sand h d a b)
  | 0x00A => keepIf m0 (.sor h d a b)
  | 0x00B => keepIf m0 (.sxor h d a b)
  | 0x00C => keepIf m0 (.sshl h d a b)
  | 0x00D => keepIf m0 (.sshr h d a b)
  | 0x00E => keepIf m0 (.ssar h d a b)
  | 0x00F => keepIf m0 (.smin h d a b)
  | 0x010 => keepIf m0 (.smax h d a b)
  | 0x011 =>
    match decCc (r.mod.extractLsb' 0 4) with
    | some cc => keepIf (r.mod.extractLsb' 4 14 == 0) (.scmp h d a b cc)
    | none => none
  | 0x012 => keepIf (r.mod.extractLsb' 6 12 == 0) (.ssel h d a b (r.mod.extractLsb' 0 6).toFin)
  | 0x013 =>
    match finOf 65 (r.mod.extractLsb' 6 7) with
    | some wid => keepIf (b0 && r.mod.extractLsb' 13 5 == 0) (.sbfx h d a (r.mod.extractLsb' 0 6).toFin wid)
    | none => none
  | 0x014 =>
    match finOf 65 (r.mod.extractLsb' 6 7) with
    | some wid => keepIf (b0 && r.mod.extractLsb' 13 5 == 0) (.sbfi h d a (r.mod.extractLsb' 0 6).toFin wid)
    | none => none
  | 0x015 => keepIf (m0 && b0) (.spopc h d a)
  | 0x016 => keepIf (m0 && b0) (.sclz h d a)
  | 0x017 => keepIf (m0 && b0) (.sctz h d a)
  | 0x018 => some (.saddImm h d a imm)
  | 0x019 => some (.sandImm h d a imm)
  | 0x01A => some (.sorImm h d a imm)
  | 0x01B => some (.sxorImm h d a imm)
  | 0x01C => some (.sshlImm h d a imm)
  | 0x01D => some (.sshrImm h d a imm)
  | 0x01E => some (.ssarImm h d a imm)
  | 0x020 => keepIf (d0 && a0) (.br h imm)
  | 0x021 => keepIf d0 (.brz h a imm)
  | 0x022 => keepIf d0 (.brnz h a imm)
  | 0x023 => some (.brb h a d imm)
  | 0x024 =>
    match finOf 4 r.sd with
    | some n => keepIf a0 (.brm h n imm)
    | none => none
  | 0x025 => keepIf (d0 && a0) (.call h imm)
  | 0x026 => keepIf (m0 && b0 && a0 && d0) (.ret h)
  | 0x027 => keepIf (m0 && b0 && d0) (.jmpr h a)
  | 0x028 => keepIf a0 (.sloop h d imm)
  | 0x029 => keepIf (m0 && b0 && a0 && d0) (.exit h)
  | 0x02A => keepIf (m0 && b0 && d0) (.wsleep h a)
  | 0x02B => keepIf (m0 && b0 && a0 && d0) (.nopw h)
  | 0x20C => keepIf (m0 && b0) (.mwait h d a)
  | 0x210 =>
    match finOf 16 imm with
    | some n => keepIf (d0 && a0) (.bar h n)
    | none => none
  | 0x211 =>
    match finOf 16 imm with
    | some n => keepIf (d0 && a0) (.bara h n)
    | none => none
  | 0x212 =>
    match finOf 16 imm with
    | some n => keepIf (d0 && a0) (.barw h n)
    | none => none
  | 0x213 =>
    match finOf 4 imm with
    | some n => keepIf (d0 && a0) (.ebar h n)
    | none => none
  | 0x380 => keepIf (d0 && a0) (.trapi h imm)
  | 0x381 => keepIf (m0 && b0 && a0 && d0) (.eret h)
  | 0x382 => keepIf (b0 && a0 && r.mod.extractLsb' 12 6 == 0) (.srd h d (r.mod.extractLsb' 0 12))
  | 0x383 => keepIf (b0 && d0 && r.mod.extractLsb' 12 6 == 0) (.swr h (r.mod.extractLsb' 0 12) a)
  | 0x384 => keepIf m0 (.wsave h d a b)
  | 0x385 => keepIf (m0 && b0) (.wrest h d a)
  | 0x386 => keepIf m0 (.tlbi h d a b)
  | 0x387 => keepIf (d0 && a0 && imm.extractLsb' 16 8 == 0) (.brk h (imm.extractLsb' 0 16))
  | 0x388 =>
    if r.mod.extractLsb' 10 1 = 1 then
      keepIf (b0 && r.mod.extractLsb' 11 7 == 0) (.dbgmWrite h d (r.mod.extractLsb' 0 10) a)
    else keepIf (b0 && a0 && r.mod.extractLsb' 11 7 == 0) (.dbgmRead h d (r.mod.extractLsb' 0 10))
  | 0x389 =>
    if r.mod.extractLsb' 2 16 = 0 then
      match (r.mod.extractLsb' 0 2).toNat with
      | 0 => some (.haltHalt h d a b)
      | 1 => some (.haltGo h d a b)
      | 2 => some (.haltStep h d a b)
      | _ => some (.haltQuery h d a b)
    else none
  | 0x38A =>
    if r.mod = 0 then keepIf (b0 && a0) (.clkrCr h d)
    else if r.mod = 1 then keepIf (b0 && a0) (.clkrCore h d)
    else none
  | 0x38B =>
    if b0 && a0 && r.mod.extractLsb' 6 12 == 0 then
      let sel := r.mod.extractLsb' 0 6
      if sel = 16 then some (.perfsSnapshot h d)
      else if sel.extractLsb' 5 1 = 0 then
        match finOf 14 sel with
        | some n => some (.perfsRead h d n)
        | none => none
      else
        match finOf 14 (sel.extractLsb' 0 5) with
        | some n => some (.perfsShadowRead h d n)
        | none => none
    else none
  | _ => none

/-- A 128-bit word's instruction after its head (R75, R84 and the entries of chapters 07, 08, 10, 12, 13, 15). QPUT's vA
may be a scalar, and QSOLV's vP may not (log 84). -/
def decodeV (r : RawV) (h : Head) : Option Instr :=
  let d : VNum := r.vd.toFin
  let m0 : Bool := r.mod == 0
  let c0 : Bool := r.c == 0
  let b0 : Bool := r.b == 0
  let a0 : Bool := r.a == 0
  let d0 : Bool := r.vd == 0
  let mm := RawMem.ofBits r.mod
  let mode := decMMod mm
  let mem := decMem r.a r.b mm.ofs
  let mem20 := decMem20 r.a r.b (mm.ofs.extractLsb' 0 20)
  match r.opc.toNat with
  | 0x080 =>
    match decSrc r.a with
    | some a => keepIf (m0 && b0 && c0) (.vmov h d a)
    | none => none
  | 0x081 => keepIf (a0 && b0 && c0 && r.mod.extractLsb' 32 6 == 0) (.vmovi h d (r.mod.extractLsb' 0 32))
  | 0x082 =>
    match decSrc r.a, decSrc r.b with
    | some a, some b => keepIf (m0 && c0) (.vadd h d a b)
    | _, _ => none
  | 0x083 =>
    match decSrc r.a, decSrc r.b with
    | some a, some b => keepIf (m0 && c0) (.vadds h d a b)
    | _, _ => none
  | 0x084 =>
    match decSrc r.a, decSrc r.b with
    | some a, some b => keepIf (m0 && c0) (.vsub h d a b)
    | _, _ => none
  | 0x085 =>
    match decSrc r.a, decSrc r.b with
    | some a, some b => keepIf (m0 && c0) (.vmul h d a b)
    | _, _ => none
  | 0x086 =>
    match decSrc r.a, decSrc r.b with
    | some a, some b => keepIf (m0 && c0) (.vmulh h d a b)
    | _, _ => none
  | 0x087 =>
    match decSrc r.a, decSrc r.b, decSrc r.c with
    | some a, some b, some c => keepIf m0 (.vmad h d a b c)
    | _, _, _ => none
  | 0x088 =>
    match decSrc r.a, decSrc r.b with
    | some a, some b => keepIf (m0 && c0) (.vdiv h d a b)
    | _, _ => none
  | 0x089 =>
    match decSrc r.a, decSrc r.b with
    | some a, some b => keepIf (m0 && c0) (.vrem h d a b)
    | _, _ => none
  | 0x08A =>
    match decSrc r.a, decSrc r.b with
    | some a, some b => keepIf (m0 && c0) (.vand h d a b)
    | _, _ => none
  | 0x08B =>
    match decSrc r.a, decSrc r.b with
    | some a, some b => keepIf (m0 && c0) (.vor h d a b)
    | _, _ => none
  | 0x08C =>
    match decSrc r.a, decSrc r.b with
    | some a, some b => keepIf (m0 && c0) (.vxor h d a b)
    | _, _ => none
  | 0x08D =>
    match decSrc r.a with
    | some a => keepIf (m0 && b0 && c0) (.vnot h d a)
    | none => none
  | 0x08E =>
    match decSrc r.a, decSrc r.b with
    | some a, some b => keepIf (m0 && c0) (.vshl h d a b)
    | _, _ => none
  | 0x08F =>
    match decSrc r.a, decSrc r.b with
    | some a, some b => keepIf (m0 && c0) (.vshr h d a b)
    | _, _ => none
  | 0x090 =>
    match decSrc r.a, decSrc r.b with
    | some a, some b => keepIf (m0 && c0) (.vsar h d a b)
    | _, _ => none
  | 0x091 =>
    match decSrc r.a, decSrc r.b with
    | some a, some b => keepIf (m0 && c0) (.vmin h d a b)
    | _, _ => none
  | 0x092 =>
    match decSrc r.a, decSrc r.b with
    | some a, some b => keepIf (m0 && c0) (.vmax h d a b)
    | _, _ => none
  | 0x093 =>
    match decSrc r.a with
    | some a => keepIf (m0 && b0 && c0) (.vabs h d a)
    | none => none
  | 0x094 =>
    match decSrc r.a with
    | some a => keepIf (m0 && b0 && c0) (.vneg h d a)
    | none => none
  | 0x095 =>
    match decSd r.vd, decSrc r.a, decSrc r.b, decCc (r.mod.extractLsb' 0 4) with
    | some d, some a, some b, some cc => keepIf (c0 && r.mod.extractLsb' 4 34 == 0) (.vcmp h d a b cc)
    | _, _, _, _ => none
  | 0x096 =>
    match decSrc r.a, decSrc r.b, decSrc r.c with
    | some a, some b, some c => keepIf m0 (.vsel h d a b c)
    | _, _, _ => none
  | 0x097 =>
    match decSrc r.a, finOf 33 (r.mod.extractLsb' 5 6) with
    | some a, some wid =>
      keepIf (b0 && c0 && r.mod.extractLsb' 11 27 == 0) (.vbfx h d a (r.mod.extractLsb' 0 5).toFin wid)
    | _, _ => none
  | 0x098 =>
    match decSrc r.a, finOf 33 (r.mod.extractLsb' 5 6) with
    | some a, some wid =>
      keepIf (b0 && c0 && r.mod.extractLsb' 11 27 == 0) (.vbfi h d a (r.mod.extractLsb' 0 5).toFin wid)
    | _, _ => none
  | 0x099 =>
    match decSrc r.a with
    | some a => keepIf (m0 && b0 && c0) (.vpopc h d a)
    | none => none
  | 0x09A =>
    match decSrc r.a with
    | some a => keepIf (m0 && b0 && c0) (.vclz h d a)
    | none => none
  | 0x09B => keepIf (m0 && a0 && b0 && c0) (.vlane h d)
  | 0x09C =>
    match decSrc r.a, decSrc r.b, decSrc r.c with
    | some a, some b, some c => keepIf m0 (.vdot4 h d a b c)
    | _, _, _ => none
  | 0x09D =>
    match decSrc r.a, decSrc r.b, decSrc r.c with
    | some a, some b, some c => keepIf m0 (.vdot8 h d a b c)
    | _, _, _ => none
  | 0x100 =>
    match decSrc r.a, decSrc r.b with
    | some a, some b => keepIf (m0 && c0) (.fadd h d a b)
    | _, _ => none
  | 0x101 =>
    match decSrc r.a, decSrc r.b with
    | some a, some b => keepIf (m0 && c0) (.fsub h d a b)
    | _, _ => none
  | 0x102 =>
    match decSrc r.a, decSrc r.b with
    | some a, some b => keepIf (m0 && c0) (.fmul h d a b)
    | _, _ => none
  | 0x103 =>
    match decSrc r.a, decSrc r.b, decSrc r.c with
    | some a, some b, some c => keepIf m0 (.ffma h d a b c)
    | _, _, _ => none
  | 0x104 =>
    match decSrc r.a, decSrc r.b with
    | some a, some b => keepIf (m0 && c0) (.fdiv h d a b)
    | _, _ => none
  | 0x105 =>
    match decSrc r.a with
    | some a => keepIf (m0 && b0 && c0) (.fsqrt h d a)
    | none => none
  | 0x106 =>
    match decSrc r.a, decSrc r.b with
    | some a, some b => keepIf (m0 && c0) (.fmin h d a b)
    | _, _ => none
  | 0x107 =>
    match decSrc r.a, decSrc r.b with
    | some a, some b => keepIf (m0 && c0) (.fmax h d a b)
    | _, _ => none
  | 0x108 =>
    match decSrc r.a with
    | some a => keepIf (m0 && b0 && c0) (.fabs h d a)
    | none => none
  | 0x109 =>
    match decSrc r.a with
    | some a => keepIf (m0 && b0 && c0) (.fneg h d a)
    | none => none
  | 0x10A =>
    match decSd r.vd, decSrc r.a, decSrc r.b, decCc (r.mod.extractLsb' 0 4) with
    | some d, some a, some b, some cc => keepIf (c0 && r.mod.extractLsb' 4 34 == 0) (.fcmp h d a b cc)
    | _, _, _, _ => none
  | 0x10B =>
    match decSrc r.a with
    | some a => keepIf (m0 && b0 && c0) (.fclass h d a)
    | none => none
  | 0x10C =>
    match decSrc r.a with
    | some a => keepIf (m0 && b0 && c0) (.ftrunc h d a)
    | none => none
  | 0x10D =>
    match decSrc r.a with
    | some a => keepIf (m0 && b0 && c0) (.ffloor h d a)
    | none => none
  | 0x10E =>
    match decSrc r.a with
    | some a => keepIf (m0 && b0 && c0) (.fceil h d a)
    | none => none
  | 0x10F =>
    match decSrc r.a, decSrc r.b, decSrc r.c with
    | some a, some b, some c => keepIf m0 (.fdot2 h d a b c)
    | _, _, _ => none
  | 0x110 =>
    match decSrc r.a, decSrc r.b, decSrc r.c with
    | some a, some b, some c => keepIf m0 (.fdot4 h d a b c)
    | _, _, _ => none
  | 0x118 =>
    match decSrc r.a with
    | some a => keepIf (m0 && b0 && c0) (.fexp2 h d a)
    | none => none
  | 0x119 =>
    match decSrc r.a with
    | some a => keepIf (m0 && b0 && c0) (.flog2 h d a)
    | none => none
  | 0x11A =>
    match decSrc r.a with
    | some a => keepIf (m0 && b0 && c0) (.frcp h d a)
    | none => none
  | 0x11B =>
    match decSrc r.a with
    | some a => keepIf (m0 && b0 && c0) (.frsq h d a)
    | none => none
  | 0x11C =>
    match decSrc r.a with
    | some a => keepIf (m0 && b0 && c0) (.fsin h d a)
    | none => none
  | 0x11D =>
    match decSrc r.a with
    | some a => keepIf (m0 && b0 && c0) (.fcos h d a)
    | none => none
  | 0x11E =>
    match decSrc r.a with
    | some a => keepIf (m0 && b0 && c0) (.ftanh h d a)
    | none => none
  | 0x11F =>
    match decSrc r.a with
    | some a => keepIf (m0 && b0 && c0) (.fsigm h d a)
    | none => none
  | 0x120 =>
    match decSrc r.a with
    | some a => keepIf (m0 && b0 && c0) (.ferf h d a)
    | none => none
  | 0x180 =>
    match decSrc r.a, decFmt (r.mod.extractLsb' 0 4) with
    | some a, some f => keepIf (b0 && c0 && r.mod.extractLsb' 4 34 == 0) (.cvt h d a f)
    | _, _ => none
  | 0x181 =>
    match decGrp r.a, decFmt (r.mod.extractLsb' 0 4) with
    | some a, some f => keepIf (b0 && c0 && r.mod.extractLsb' 4 34 == 0) (.pack h d a f)
    | _, _ => none
  | 0x182 =>
    match decSrc r.a, decFmt (r.mod.extractLsb' 0 4) with
    | some a, some f =>
      keepIf (b0 && c0 && r.mod.extractLsb' 7 31 == 0) (.unpk h d a f (r.mod.extractLsb' 4 3).toFin)
    | _, _ => none
  | 0x183 =>
    match decSrc r.a with
    | some a => keepIf (b0 && c0 && r.mod.extractLsb' 3 35 == 0) (.qnt h d a (r.mod.extractLsb' 0 3).toFin)
    | none => none
  | 0x184 =>
    match decSd r.vd, decGrp r.a with
    | some d, some a => keepIf (m0 && b0 && c0) (.vtag h d a)
    | _, _ => none
  | 0x185 =>
    match decVec r.a with
    | some a => keepIf (m0 && b0 && c0) (.vsqz h d a)
    | none => none
  | 0x188 =>
    match decSrc r.a, decSrc r.b with
    | some a, some b => keepIf (m0 && c0) (.vperm h d a b)
    | _, _ => none
  | 0x189 =>
    match decSrc r.a, decAop (r.mod.extractLsb' 0 6) with
    | some a, some op => keepIf (b0 && c0 && r.mod.extractLsb' 6 32 == 0) (.redu h d a op)
    | _, _ => none
  | 0x18A =>
    match decSrc r.a, decAop (r.mod.extractLsb' 0 6) with
    | some a, some op => keepIf (b0 && c0 && r.mod.extractLsb' 6 32 == 0) (.scan h d a op)
    | _, _ => none
  | 0x190 =>
    match decSca r.a with
    | some a => keepIf (m0 && b0 && c0 && d0) (.mset h a)
    | none => none
  | 0x192 =>
    match decSca r.a with
    | some a => keepIf (m0 && b0 && c0 && d0) (.mand h a)
    | none => none
  | 0x193 =>
    match decSca r.a with
    | some a => keepIf (m0 && b0 && c0 && d0) (.mandn h a)
    | none => none
  | 0x194 =>
    match decSca r.a with
    | some a => keepIf (m0 && b0 && c0 && d0) (.mor h a)
    | none => none
  | 0x191 =>
    match decSd r.vd with
    | some d => keepIf (m0 && a0 && b0 && c0) (.mget h d)
    | none => none
  | 0x195 => keepIf (m0 && a0 && b0 && c0 && d0) (.mnot h)
  | 0x198 =>
    match decSrc r.a, decGrp r.b with
    | some op, some w => keepIf (c0 && d0 && r.mod.extractLsb' 1 37 == 0) (.xev h op w (r.mod.extractLsb' 0 1 == 1))
    | _, _ => none
  | 0x199 =>
    match decSrc r.a with
    | some a => keepIf (m0 && b0 && c0 && d0) (.xpush h a)
    | none => none
  | 0x19A => keepIf (m0 && a0 && b0 && c0) (.xpop h d)
  | 0x19B => keepIf (m0 && a0 && b0 && c0) (.xtop h d)
  | 0x19C => keepIf (m0 && a0 && b0 && c0 && d0) (.xclr h)
  | 0x19D => keepIf (m0 && a0 && b0 && c0) (.xdepth h d)
  | 0x200 =>
    match mem, decSzt mm.szt, mode with
    | some m, some sz, some md => keepIf c0 (.ld h d m sz md)
    | _, _, _ => none
  | 0x202 =>
    match mem, decSzt mm.szt, mode with
    | some m, some sz, some md => keepIf c0 (.lds h d m sz md)
    | _, _, _ => none
  | 0x204 =>
    match mem, decSzt mm.szt, mode with
    | some m, some sz, some md => keepIf c0 (.ldb h d m sz md)
    | _, _, _ => none
  | 0x201 =>
    match mem, decSrc r.c, decSzt mm.szt, mode with
    | some m, some c, some sz, some md => keepIf d0 (.st h m c sz md)
    | _, _, _, _ => none
  | 0x203 =>
    match mem, decSrc r.c, decSzt mm.szt, mode with
    | some m, some c, some sz, some md => keepIf d0 (.sts h m c sz md)
    | _, _, _, _ => none
  | 0x205 =>
    match mem, decSrc r.c, decSzt mm.szt, mode with
    | some m, some c, some sz, some md => keepIf d0 (.stb h m c sz md)
    | _, _, _, _ => none
  | 0x206 =>
    match mem20, decSrc r.c, decAop (mm.ofs.extractLsb' 20 6), mode with
    | some m, some c, some op, some md => keepIf (mm.szt == 0) (.atom h d m c op md)
    | _, _, _, _ => none
  | 0x207 =>
    match mem20, decSrc r.c, decAop (mm.ofs.extractLsb' 20 6), mode with
    | some m, some c, some op, some md => keepIf (d0 && mm.szt == 0) (.red h m c op md)
    | _, _, _, _ => none
  | 0x208 =>
    match finOf 6 mm.scope with
    | some s =>
      keepIf (a0 && b0 && c0 && d0 && mm.ofs == 0 && mm.szt == 0 && mm.evp == 0) (.fence h (decOrd mm.ord) s)
    | none => none
  | 0x209 =>
    match mem, finOf 6 mm.scope with
    | some m, some s => keepIf (c0 && d0 && mm.szt == 0 && mm.ord == 0) (.pref h m s mm.evp.toFin)
    | _, _ => none
  | 0x20A =>
    match decSca r.a, decSca r.b, decSrc r.c, finOf 6 mm.scope with
    | some a, some b, some c, some s =>
      keepIf (d0 && b == 0 && mm.szt == 0 && mm.ord == 0) (.tres h a mm.ofs c mm.evp.toFin s)
    | _, _, _, _ => none
  | 0x20B =>
    match mem, finOf 6 mm.scope with
    | some m, some s => keepIf (c0 && d0 && mm.szt == 0 && mm.ord == 0) (.mon h m s mm.evp.toFin)
    | _, _ => none
  | 0x280 =>
    match decQd r.vd with
    | some d =>
      keepIf (a0 && b0 && c0 && r.mod.extractLsb' 6 32 == 0)
        (.qdim h d (r.mod.extractLsb' 0 3).toFin (r.mod.extractLsb' 3 3).toFin)
    | none => none
  | 0x281 =>
    match decQd r.vd, mem, mode with
    | some d, some m, some md => keepIf (c0 && mm.szt == 0) (.qld h d m md)
    | _, _, _ => none
  | 0x282 =>
    match mem, decQ r.c, mode with
    | some m, some c, some md => keepIf (d0 && mm.szt == 0) (.qst h m c md)
    | _, _, _ => none
  | 0x283 =>
    match decQd r.vd with
    | some d => keepIf (m0 && a0 && b0 && c0) (.qzero h d)
    | none => none
  | 0x284 =>
    match decQd r.vd with
    | some d => keepIf (m0 && a0 && b0 && c0) (.qid h d)
    | none => none
  | 0x285 =>
    match decQd r.vd, decQ r.a with
    | some d, some a => keepIf (m0 && b0 && c0) (.qmov h d a)
    | _, _ => none
  | 0x286 =>
    match decQd r.vd, decQ r.a with
    | some d, some a => keepIf (m0 && b0 && c0) (.qtrn h d a)
    | _, _ => none
  | 0x287 =>
    match decQd r.vd, decQ r.a, decQ r.b with
    | some d, some a, some b => keepIf (m0 && c0) (.qadd h d a b)
    | _, _, _ => none
  | 0x288 =>
    match decQd r.vd, decQ r.a, decQ r.b with
    | some d, some a, some b => keepIf (m0 && c0) (.qsub h d a b)
    | _, _, _ => none
  | 0x289 =>
    match decQd r.vd, decQ r.a, decQ r.b with
    | some d, some a, some b => keepIf (m0 && c0) (.qmul h d a b)
    | _, _, _ => none
  | 0x28A =>
    match decQd r.vd, decQ r.a, decQ r.b, decQ r.c with
    | some d, some a, some b, some c => keepIf m0 (.qmad h d a b c)
    | _, _, _, _ => none
  | 0x28B =>
    match decQd r.vd, decQ r.a, decSrc r.b with
    | some d, some a, some b => keepIf (m0 && c0) (.qscl h d a b)
    | _, _, _ => none
  | 0x28C =>
    match decQd r.vd, decQ r.a with
    | some d, some a => keepIf (m0 && b0 && c0) (.qchol h d a)
    | _, _ => none
  | 0x28D =>
    match decQd r.vd, decQ r.a with
    | some d, some a => keepIf (b0 && c0 && r.mod.extractLsb' 8 30 == 0) (.qlu h d (r.mod.extractLsb' 0 8).toFin a)
    | _, _ => none
  | 0x28E =>
    match decQd r.vd, decQ r.a, decQ r.b with
    | some d, some f, some b =>
      if r.mod = 0 then keepIf c0 (.qsolvCholesky h d f b)
      else if r.mod = 1 then
        match decVec r.c with
        | some p => some (.qsolvLu h d f b p)
        | none => none
      else none
    | _, _, _ => none
  | 0x28F =>
    match decQ r.a with
    | some a =>
      keepIf (b0 && c0 && r.mod.extractLsb' 6 32 == 0)
        (.qget h d a (r.mod.extractLsb' 0 3).toFin (r.mod.extractLsb' 3 3).toFin)
    | none => none
  | 0x290 =>
    match decQd r.vd, decSrc r.a with
    | some d, some a =>
      keepIf (b0 && c0 && r.mod.extractLsb' 6 32 == 0)
        (.qput h d a (r.mod.extractLsb' 0 3).toFin (r.mod.extractLsb' 3 3).toFin)
    | _, _ => none
  | 0x291 =>
    if b0 && c0 && r.mod.extractLsb' 3 35 == 0 then
      match decSd r.vd, decQ r.a, (r.mod.extractLsb' 0 3).toNat with
      | some d, _, 0 => keepIf a0 (.qstatVst h d)
      | some d, some a, 1 => some (.qstatNpd h d a)
      | some d, some a, 2 => some (.qstatSing h d a)
      | some d, _, 3 => keepIf a0 (.qstatClear h d)
      | some d, some a, 4 => some (.qstatShape h d a)
      | _, _, _ => none
    else none
  | 0x300 =>
    match decGrp r.a, decGrp r.b, decGrp r.c with
    | some a, some b, some c =>
      keepIf (r.mod.extractLsb' 4 34 == 0)
        (.mma h d a b c (r.mod.extractLsb' 0 3).toFin (r.mod.extractLsb' 3 1 == 1))
    | _, _, _ => none
  | 0x301 =>
    match decTile r.a r.b mm with
    | some m => keepIf c0 (.tld h d m)
    | none => none
  | 0x302 =>
    match decTile r.a r.b mm, decGrp r.c with
    | some m, some c => keepIf d0 (.tst h m c)
    | _, _ => none
  | 0x303 =>
    match decQd r.vd, decSca r.a, decSca r.b with
    | some d, some a, some b => keepIf (m0 && c0) (.lrec h d a b)
    | _, _, _ => none
  | 0x308 =>
    match decSd r.vd, decSrc r.a, decVec r.b with
    | some d, some q, some b => keepIf (m0 && c0) (.cpyq h d q b)
    | _, _, _ => none
  | 0x309 =>
    match decSd r.vd, decSca r.a with
    | some d, some a => keepIf (m0 && b0 && c0) (.cpyp h d a)
    | _, _ => none
  | 0x30A =>
    match decSd r.vd, decSrc r.a with
    | some d, some q =>
      if b0 && c0 && r.mod.extractLsb' 2 36 == 0 then
        match (r.mod.extractLsb' 0 2).toNat with
        | 0 => some (.cpyxSt h d q)
        | 1 => some (.cpyxStop h d q)
        | 2 => some (.cpyxSkip h d q)
        | _ => some (.cpyxRetry h d q)
      else none
    | _, _ => none
  | 0x310 =>
    match decSd r.vd, decSca r.a with
    | some d, some a => keepIf (m0 && b0 && c0) (.tskl h d a)
    | _, _ => none
  | 0x311 =>
    match decSrc r.a, decSrc r.b, finOf 6 mm.scope with
    | some a, some b, some s =>
      keepIf (d0 && c0 && mm.ofs == 0 && mm.szt == 0 && mm.evp == 0 && mm.ord == 0) (.tsks h a b s)
    | _, _, _ => none
  | 0x312 =>
    match decSd r.vd, decSrc r.a with
    | some d, some a => keepIf (m0 && b0 && c0) (.tskq h d a)
    | _, _ => none
  | _ => none

/-- The five extents, innermost first (R83). -/
def decExt (b : BitVec 60) : Vector (BitVec 12) 5 :=
  #v[b.extractLsb' 0 12, b.extractLsb' 12 12, b.extractLsb' 24 12, b.extractLsb' 36 12, b.extractLsb' 48 12]

/-- The fifteen strides STR0 to STR14 (R83). -/
def decStr (b : BitVec 135) : Vector (BitVec 9) 15 :=
  #v[b.extractLsb' 0 9, b.extractLsb' 9 9, b.extractLsb' 18 9, b.extractLsb' 27 9, b.extractLsb' 36 9,
    b.extractLsb' 45 9, b.extractLsb' 54 9, b.extractLsb' 63 9, b.extractLsb' 72 9, b.extractLsb' 81 9,
    b.extractLsb' 90 9, b.extractLsb' 99 9, b.extractLsb' 108 9, b.extractLsb' 117 9, b.extractLsb' 126 9]

/-- A 256-bit word's instruction after its head (R83, R199). -/
def decodeN (r : RawN) (h : Head) : Option Instr :=
  match r.opc.toNat with
  | 0x218 =>
    match decEop r.eop with
    | some eop =>
      keepIf (r.spare == 0)
        (.nest h ⟨eop, r.red == 1, r.fs.toFin, decExt r.ext, decStr r.str, r.bs0.toFin, r.bs1.toFin, r.bs2.toFin⟩)
    | none => none
  | _ => none

/-- A decoded instruction that also meets the conditions of R88 on values and registers (WellFormed.lean). -/
def checkWf (i : Option Instr) : Option Instr :=
  match i with
  | some i => if i.wf then some i else none
  | none => none

def decode64 (w : BitVec 64) : Option Instr :=
  let r := RawS.ofWord w
  match decGuard r.gc r.gs r.gb with
  | some g => checkWf (decodeS r ⟨g, r.y == 1⟩)
  | none => none

def decode128 (w : BitVec 128) : Option Instr :=
  let r := RawV.ofWord w
  match decGuard r.gc r.gs r.gb with
  | some g => checkWf (decodeV r ⟨g, r.y == 1⟩)
  | none => none

def decode256 (w : BitVec 256) : Option Instr :=
  let r := RawN.ofWord w
  match decGuard r.gc r.gs r.gb with
  | some g => checkWf (decodeN r ⟨g, r.y == 1⟩)
  | none => none

/-- Little-endian value of bytes (R6, R65). -/
def leNat : List Byte → Nat
  | [] => 0
  | b :: bs => b.toNat + 256 * leNat bs

/-- The `n` little-endian bytes of a number (R6). -/
def leBytes : Nat → Nat → List Byte
  | 0, _ => []
  | n + 1, x => BitVec.ofNat 8 x :: leBytes n (x / 256)

/-- The length in bytes that LEN states; LEN = 11 has none (R65, R69). -/
def lenOf (b : Byte) : Option Nat :=
  match (b.extractLsb' 0 2).toNat with
  | 0 => some 8
  | 1 => some 16
  | 2 => some 32
  | _ => none

/-- The instruction at the head of some bytes and the bytes after it; none where the word is illegal (R88) or the
bytes end before it does. -/
def decode (bs : List Byte) : Option (Instr × List Byte) :=
  match bs with
  | [] => none
  | b :: _ =>
    match lenOf b with
    | none => none
    | some n =>
      if bs.length < n then none
      else
        let w := leNat (bs.take n)
        let i := if n = 8 then decode64 (BitVec.ofNat 64 w)
          else if n = 16 then decode128 (BitVec.ofNat 128 w)
          else decode256 (BitVec.ofNat 256 w)
        match i with
        | some i => some (i, bs.drop n)
        | none => none

/-- The instruction of a word whose bits are `w`, bit 0 the least significant bit of its first byte, the bits above
`nbits` zero: the longest instruction has 256 bits (R65). -/
def decodeTableWord (nbits w : Nat) : Option Instr :=
  match decode (leBytes 32 (w % 2 ^ nbits)) with
  | some (i, _) => some i
  | none => none

/-! ## Encoding -/

/-- The words of the three lengths. -/
inductive Raw where
  | s (r : RawS)
  | v (r : RawV)
  | n (r : RawN)
  deriving DecidableEq, Repr

def sbits (r : SReg) : BitVec 6 := BitVec.ofFin r

def vbits (r : VNum) : BitVec 8 := BitVec.ofFin r

def boolBit (b : Bool) : BitVec 1 := if b then 1 else 0

def encGc : Guard → BitVec 3
  | .always => 0
  | .ifSet _ _ => 1
  | .ifClear _ _ => 2

def encGs : Guard → BitVec 6
  | .always => 0
  | .ifSet gs _ => sbits gs
  | .ifClear gs _ => sbits gs

def encGb : Guard → BitVec 6
  | .always => 0
  | .ifSet _ gb => sbits gb
  | .ifClear _ gb => sbits gb

def encPat : Perm → BitVec 3
  | .ident => 0
  | .rot _ => 1
  | .bc _ => 2
  | .bfly _ => 3
  | .mir => 4
  | .sup _ => 5
  | .sdn _ => 6

def encAmt : Perm → BitVec 5
  | .ident => 0
  | .rot n => BitVec.ofFin n
  | .bc n => BitVec.ofFin n
  | .bfly n => BitVec.ofFin n
  | .mir => 0
  | .sup n => BitVec.ofFin n
  | .sdn n => BitVec.ofFin n

def encSrc : VSrc → BitVec 18
  | .vec r p l => RawOp.toBits ⟨0, encAmt p, encPat p, boolBit l, vbits r⟩
  | .sca s => RawOp.toBits ⟨1, 0, 0, 0, BitVec.ofNat 8 s.val⟩

def encSca (s : SReg) : BitVec 18 := encSrc (.sca s)

def encGrp (g : VGrp) : BitVec 18 := encSrc (.vec g.reg .ident g.last)

def encQ (q : QSrc) : BitVec 18 := encSrc (.vec ⟨q.reg.val, by omega⟩ .ident q.last)

def encSd (s : SReg) : BitVec 8 := BitVec.ofNat 8 s.val

def encQd (q : Fin 8) : BitVec 8 := BitVec.ofNat 8 q.val

def encOrd : MOrd → BitVec 2
  | .plain => 0
  | .acq => 1
  | .rel => 2
  | .sc => 3

def encSzt : Szt → BitVec 4
  | .w => 0
  | .i8 => 1
  | .z8 => 2
  | .i16 => 3
  | .z16 => 4
  | .dw => 5
  | .qw => 6

def encAop : Aop → BitVec 6
  | .add => 0
  | .mins => 1
  | .maxs => 2
  | .minu => 3
  | .maxu => 4
  | .band => 5
  | .bor => 6
  | .bxor => 7
  | .swap => 8
  | .cas => 9
  | .fadd => 10
  | .fmin => 11
  | .fmax => 12

def encCc : Cc → BitVec 4
  | .eq => 0
  | .ne => 1
  | .lt => 2
  | .le => 3
  | .gt => 4
  | .ge => 5
  | .ltu => 6
  | .leu => 7
  | .gtu => 8
  | .geu => 9
  | .un => 10

def encFmt : Fmt → BitVec 4
  | .fp32 => 0
  | .bf16 => 1
  | .fp16 => 2
  | .e4m3 => 3
  | .e5m2 => 4
  | .e3m2 => 5
  | .e2m1 => 6
  | .i8 => 7
  | .i4 => 8
  | .i32 => 9

def encEop : Eop → BitVec 8
  | .copy => 0
  | .add => 1
  | .sub => 2
  | .mul => 3
  | .mac => 4
  | .min => 5
  | .max => 6
  | .relu => 7

def encScope (s : Fin 6) : BitVec 3 := BitVec.ofNat 3 s.val

def encEvp (e : Fin 8) : BitVec 3 := BitVec.ofFin e

/-- The memory MOD38 of a load, store, QLD or QST (R80). -/
def encMem (ofs : BitVec 26) (sz : Szt) (o : MMod) : BitVec 38 :=
  RawMem.toBits ⟨ofs, encSzt sz, encEvp o.evp, encScope o.scope, encOrd o.ord⟩

/-- A 64-bit word with head `h` and opcode `opc`. -/
def mkS (h : Head) (opc : BitVec 10) (mod : BitVec 18 := 0) (sb sa sd : BitVec 6 := 0) : Raw :=
  .s ⟨mod, sb, sa, sd, encGb h.guard, encGs h.guard, encGc h.guard, opc, boolBit h.y, 0⟩

/-- A 64-bit word with a 24-bit immediate. -/
def mkI (h : Head) (opc : BitVec 10) (imm : BitVec 24) (sa sd : BitVec 6 := 0) : Raw :=
  mkS h opc (imm.extractLsb' 6 18) (imm.extractLsb' 0 6) sa sd

/-- A 128-bit word. -/
def mkV (h : Head) (opc : BitVec 10) (vd : BitVec 8) (a b c : BitVec 18 := 0) (mod : BitVec 38 := 0) : Raw :=
  .v ⟨mod, c, b, a, vd, encGb h.guard, encGs h.guard, encGc h.guard, opc, boolBit h.y, 1⟩

/-- The tile memory operand's MOD38 (R294). -/
def encTile (m : TileOp) : BitVec 38 :=
  RawMem.toBits ⟨BitVec.ofFin m.lr ++ BitVec.ofNat 3 m.cnt.val ++ m.ofs, 0, encEvp m.evp, encScope m.scope, 0⟩

def encExt (e : Vector (BitVec 12) 5) : BitVec 60 := e[4] ++ e[3] ++ e[2] ++ e[1] ++ e[0]

def encStr (s : Vector (BitVec 9) 15) : BitVec 135 :=
  s[14] ++ s[13] ++ s[12] ++ s[11] ++ s[10] ++ s[9] ++ s[8] ++ s[7] ++ s[6] ++ s[5] ++ s[4] ++ s[3] ++ s[2] ++ s[1] ++
    s[0]

/-- The word of an instruction; an event has none. -/
def Instr.raw : Instr → Option Raw
  | .smov h d a => some (mkS h 0x000 0 0 (sbits a) (sbits d))
  | .smovi h d imm => some (mkI h 0x001 imm 0 (sbits d))
  | .slui h d a imm => some (mkI h 0x002 imm (sbits a) (sbits d))
  | .sadd h d a b => some (mkS h 0x003 0 (sbits b) (sbits a) (sbits d))
  | .ssub h d a b => some (mkS h 0x004 0 (sbits b) (sbits a) (sbits d))
  | .smul h d a b => some (mkS h 0x005 0 (sbits b) (sbits a) (sbits d))
  | .smulh h d a b => some (mkS h 0x006 0 (sbits b) (sbits a) (sbits d))
  | .sdiv h d a b => some (mkS h 0x007 0 (sbits b) (sbits a) (sbits d))
  | .srem h d a b => some (mkS h 0x008 0 (sbits b) (sbits a) (sbits d))
  | .sand h d a b => some (mkS h 0x009 0 (sbits b) (sbits a) (sbits d))
  | .sor h d a b => some (mkS h 0x00A 0 (sbits b) (sbits a) (sbits d))
  | .sxor h d a b => some (mkS h 0x00B 0 (sbits b) (sbits a) (sbits d))
  | .sshl h d a b => some (mkS h 0x00C 0 (sbits b) (sbits a) (sbits d))
  | .sshr h d a b => some (mkS h 0x00D 0 (sbits b) (sbits a) (sbits d))
  | .ssar h d a b => some (mkS h 0x00E 0 (sbits b) (sbits a) (sbits d))
  | .smin h d a b => some (mkS h 0x00F 0 (sbits b) (sbits a) (sbits d))
  | .smax h d a b => some (mkS h 0x010 0 (sbits b) (sbits a) (sbits d))
  | .scmp h d a b cc => some (mkS h 0x011 ((0 : BitVec 14) ++ encCc cc) (sbits b) (sbits a) (sbits d))
  | .ssel h d a b sc => some (mkS h 0x012 ((0 : BitVec 12) ++ sbits sc) (sbits b) (sbits a) (sbits d))
  | .sbfx h d a pos wid => some (mkS h 0x013 ((0 : BitVec 5) ++ BitVec.ofNat 7 wid.val ++ sbits pos) 0 (sbits a) (sbits d))
  | .sbfi h d a pos wid => some (mkS h 0x014 ((0 : BitVec 5) ++ BitVec.ofNat 7 wid.val ++ sbits pos) 0 (sbits a) (sbits d))
  | .spopc h d a => some (mkS h 0x015 0 0 (sbits a) (sbits d))
  | .sclz h d a => some (mkS h 0x016 0 0 (sbits a) (sbits d))
  | .sctz h d a => some (mkS h 0x017 0 0 (sbits a) (sbits d))
  | .saddImm h d a imm => some (mkI h 0x018 imm (sbits a) (sbits d))
  | .sandImm h d a imm => some (mkI h 0x019 imm (sbits a) (sbits d))
  | .sorImm h d a imm => some (mkI h 0x01A imm (sbits a) (sbits d))
  | .sxorImm h d a imm => some (mkI h 0x01B imm (sbits a) (sbits d))
  | .sshlImm h d a imm => some (mkI h 0x01C imm (sbits a) (sbits d))
  | .sshrImm h d a imm => some (mkI h 0x01D imm (sbits a) (sbits d))
  | .ssarImm h d a imm => some (mkI h 0x01E imm (sbits a) (sbits d))
  | .br h ofs => some (mkI h 0x020 ofs)
  | .brz h a ofs => some (mkI h 0x021 ofs (sbits a))
  | .brnz h a ofs => some (mkI h 0x022 ofs (sbits a))
  | .brb h a n ofs => some (mkI h 0x023 ofs (sbits a) (sbits n))
  | .brm h n ofs => some (mkI h 0x024 ofs 0 (BitVec.ofNat 6 n.val))
  | .call h ofs => some (mkI h 0x025 ofs)
  | .ret h => some (mkS h 0x026)
  | .jmpr h a => some (mkS h 0x027 0 0 (sbits a))
  | .sloop h d ofs => some (mkI h 0x028 ofs 0 (sbits d))
  | .exit h => some (mkS h 0x029)
  | .wsleep h a => some (mkS h 0x02A 0 0 (sbits a))
  | .nopw h => some (mkS h 0x02B)
  | .vmov h d a => some (mkV h 0x080 (vbits d) (encSrc a))
  | .vmovi h d imm => some (mkV h 0x081 (vbits d) 0 0 0 ((0 : BitVec 6) ++ imm))
  | .vadd h d a b => some (mkV h 0x082 (vbits d) (encSrc a) (encSrc b))
  | .vadds h d a b => some (mkV h 0x083 (vbits d) (encSrc a) (encSrc b))
  | .vsub h d a b => some (mkV h 0x084 (vbits d) (encSrc a) (encSrc b))
  | .vmul h d a b => some (mkV h 0x085 (vbits d) (encSrc a) (encSrc b))
  | .vmulh h d a b => some (mkV h 0x086 (vbits d) (encSrc a) (encSrc b))
  | .vmad h d a b c => some (mkV h 0x087 (vbits d) (encSrc a) (encSrc b) (encSrc c))
  | .vdiv h d a b => some (mkV h 0x088 (vbits d) (encSrc a) (encSrc b))
  | .vrem h d a b => some (mkV h 0x089 (vbits d) (encSrc a) (encSrc b))
  | .vand h d a b => some (mkV h 0x08A (vbits d) (encSrc a) (encSrc b))
  | .vor h d a b => some (mkV h 0x08B (vbits d) (encSrc a) (encSrc b))
  | .vxor h d a b => some (mkV h 0x08C (vbits d) (encSrc a) (encSrc b))
  | .vnot h d a => some (mkV h 0x08D (vbits d) (encSrc a))
  | .vshl h d a b => some (mkV h 0x08E (vbits d) (encSrc a) (encSrc b))
  | .vshr h d a b => some (mkV h 0x08F (vbits d) (encSrc a) (encSrc b))
  | .vsar h d a b => some (mkV h 0x090 (vbits d) (encSrc a) (encSrc b))
  | .vmin h d a b => some (mkV h 0x091 (vbits d) (encSrc a) (encSrc b))
  | .vmax h d a b => some (mkV h 0x092 (vbits d) (encSrc a) (encSrc b))
  | .vabs h d a => some (mkV h 0x093 (vbits d) (encSrc a))
  | .vneg h d a => some (mkV h 0x094 (vbits d) (encSrc a))
  | .vcmp h d a b cc => some (mkV h 0x095 (encSd d) (encSrc a) (encSrc b) 0 ((0 : BitVec 34) ++ encCc cc))
  | .vsel h d a b c => some (mkV h 0x096 (vbits d) (encSrc a) (encSrc b) (encSrc c))
  | .vbfx h d a pos wid => some (mkV h 0x097 (vbits d) (encSrc a) 0 0 ((0 : BitVec 27) ++ BitVec.ofNat 6 wid.val ++ (BitVec.ofFin pos : BitVec 5)))
  | .vbfi h d a pos wid => some (mkV h 0x098 (vbits d) (encSrc a) 0 0 ((0 : BitVec 27) ++ BitVec.ofNat 6 wid.val ++ (BitVec.ofFin pos : BitVec 5)))
  | .vpopc h d a => some (mkV h 0x099 (vbits d) (encSrc a))
  | .vclz h d a => some (mkV h 0x09A (vbits d) (encSrc a))
  | .vlane h d => some (mkV h 0x09B (vbits d))
  | .vdot4 h d a b c => some (mkV h 0x09C (vbits d) (encSrc a) (encSrc b) (encSrc c))
  | .vdot8 h d a b c => some (mkV h 0x09D (vbits d) (encSrc a) (encSrc b) (encSrc c))
  | .fadd h d a b => some (mkV h 0x100 (vbits d) (encSrc a) (encSrc b))
  | .fsub h d a b => some (mkV h 0x101 (vbits d) (encSrc a) (encSrc b))
  | .fmul h d a b => some (mkV h 0x102 (vbits d) (encSrc a) (encSrc b))
  | .ffma h d a b c => some (mkV h 0x103 (vbits d) (encSrc a) (encSrc b) (encSrc c))
  | .fdiv h d a b => some (mkV h 0x104 (vbits d) (encSrc a) (encSrc b))
  | .fsqrt h d a => some (mkV h 0x105 (vbits d) (encSrc a))
  | .fmin h d a b => some (mkV h 0x106 (vbits d) (encSrc a) (encSrc b))
  | .fmax h d a b => some (mkV h 0x107 (vbits d) (encSrc a) (encSrc b))
  | .fabs h d a => some (mkV h 0x108 (vbits d) (encSrc a))
  | .fneg h d a => some (mkV h 0x109 (vbits d) (encSrc a))
  | .fcmp h d a b cc => some (mkV h 0x10A (encSd d) (encSrc a) (encSrc b) 0 ((0 : BitVec 34) ++ encCc cc))
  | .fclass h d a => some (mkV h 0x10B (vbits d) (encSrc a))
  | .ftrunc h d a => some (mkV h 0x10C (vbits d) (encSrc a))
  | .ffloor h d a => some (mkV h 0x10D (vbits d) (encSrc a))
  | .fceil h d a => some (mkV h 0x10E (vbits d) (encSrc a))
  | .fdot2 h d a b c => some (mkV h 0x10F (vbits d) (encSrc a) (encSrc b) (encSrc c))
  | .fdot4 h d a b c => some (mkV h 0x110 (vbits d) (encSrc a) (encSrc b) (encSrc c))
  | .fexp2 h d a => some (mkV h 0x118 (vbits d) (encSrc a))
  | .flog2 h d a => some (mkV h 0x119 (vbits d) (encSrc a))
  | .frcp h d a => some (mkV h 0x11A (vbits d) (encSrc a))
  | .frsq h d a => some (mkV h 0x11B (vbits d) (encSrc a))
  | .fsin h d a => some (mkV h 0x11C (vbits d) (encSrc a))
  | .fcos h d a => some (mkV h 0x11D (vbits d) (encSrc a))
  | .ftanh h d a => some (mkV h 0x11E (vbits d) (encSrc a))
  | .fsigm h d a => some (mkV h 0x11F (vbits d) (encSrc a))
  | .ferf h d a => some (mkV h 0x120 (vbits d) (encSrc a))
  | .cvt h d a f => some (mkV h 0x180 (vbits d) (encSrc a) 0 0 ((0 : BitVec 34) ++ encFmt f))
  | .pack h d a f => some (mkV h 0x181 (vbits d) (encGrp a) 0 0 ((0 : BitVec 34) ++ encFmt f))
  | .unpk h d a f k => some (mkV h 0x182 (vbits d) (encSrc a) 0 0 ((0 : BitVec 31) ++ (BitVec.ofFin k : BitVec 3) ++ encFmt f))
  | .qnt h d a fs => some (mkV h 0x183 (vbits d) (encSrc a) 0 0 ((0 : BitVec 35) ++ (BitVec.ofFin fs : BitVec 3)))
  | .vtag h d a => some (mkV h 0x184 (encSd d) (encGrp a))
  | .vsqz h d a => some (mkV h 0x185 (vbits d) (encSrc a))
  | .vperm h d a b => some (mkV h 0x188 (vbits d) (encSrc a) (encSrc b))
  | .redu h d a op => some (mkV h 0x189 (vbits d) (encSrc a) 0 0 ((0 : BitVec 32) ++ encAop op))
  | .scan h d a op => some (mkV h 0x18A (vbits d) (encSrc a) 0 0 ((0 : BitVec 32) ++ encAop op))
  | .mset h a => some (mkV h 0x190 0 (encSca a))
  | .mget h d => some (mkV h 0x191 (encSd d))
  | .mand h a => some (mkV h 0x192 0 (encSca a))
  | .mandn h a => some (mkV h 0x193 0 (encSca a))
  | .mor h a => some (mkV h 0x194 0 (encSca a))
  | .mnot h => some (mkV h 0x195 0)
  | .xev h op w t => some (mkV h 0x198 0 (encSrc op) (encGrp w) 0 ((0 : BitVec 37) ++ boolBit t))
  | .xpush h a => some (mkV h 0x199 0 (encSrc a))
  | .xpop h d => some (mkV h 0x19A (vbits d))
  | .xtop h d => some (mkV h 0x19B (vbits d))
  | .xclr h => some (mkV h 0x19C 0)
  | .xdepth h d => some (mkV h 0x19D (vbits d))
  | .ld h d m sz o => some (mkV h 0x200 (vbits d) (encSca m.base) (encSrc m.index) 0 (encMem m.ofs sz o))
  | .lds h d m sz o => some (mkV h 0x202 (vbits d) (encSca m.base) (encSrc m.index) 0 (encMem m.ofs sz o))
  | .ldb h d m sz o => some (mkV h 0x204 (vbits d) (encSca m.base) (encSrc m.index) 0 (encMem m.ofs sz o))
  | .st h m c sz o => some (mkV h 0x201 0 (encSca m.base) (encSrc m.index) (encSrc c) (encMem m.ofs sz o))
  | .sts h m c sz o => some (mkV h 0x203 0 (encSca m.base) (encSrc m.index) (encSrc c) (encMem m.ofs sz o))
  | .stb h m c sz o => some (mkV h 0x205 0 (encSca m.base) (encSrc m.index) (encSrc c) (encMem m.ofs sz o))
  | .atom h d m c op o => some (mkV h 0x206 (vbits d) (encSca m.base) (encSrc m.index) (encSrc c) (encMem (encAop op ++ m.ofs) .w o))
  | .red h m c op o => some (mkV h 0x207 0 (encSca m.base) (encSrc m.index) (encSrc c) (encMem (encAop op ++ m.ofs) .w o))
  | .fence h ord scope => some (mkV h 0x208 0 0 0 0 (encMem 0 .w ⟨ord, scope, 0⟩))
  | .pref h m scope evp => some (mkV h 0x209 0 (encSca m.base) (encSrc m.index) 0 (encMem m.ofs .w ⟨.plain, scope, evp⟩))
  | .tres h base ofs c evp scope => some (mkV h 0x20A 0 (encSca base) (encSca 0) (encSrc c) (encMem ofs .w ⟨.plain, scope, evp⟩))
  | .mon h m scope evp => some (mkV h 0x20B 0 (encSca m.base) (encSrc m.index) 0 (encMem m.ofs .w ⟨.plain, scope, evp⟩))
  | .mwait h d a => some (mkS h 0x20C 0 0 (sbits a) (sbits d))
  | .bar h b => some (mkI h 0x210 (BitVec.ofNat 24 b.val))
  | .bara h b => some (mkI h 0x211 (BitVec.ofNat 24 b.val))
  | .barw h b => some (mkI h 0x212 (BitVec.ofNat 24 b.val))
  | .ebar h b => some (mkI h 0x213 (BitVec.ofNat 24 b.val))
  | .nest h n =>
    some (.n ⟨0, boolBit n.red, BitVec.ofFin n.fs, encStr n.str, encExt n.ext, sbits n.bs2, sbits n.bs1, sbits n.bs0,
      encEop n.eop, encGb h.guard, encGs h.guard, encGc h.guard, 0x218, boolBit h.y, 2⟩)
  | .qdim h d rows cols => some (mkV h 0x280 (encQd d) 0 0 0 ((0 : BitVec 32) ++ (BitVec.ofFin cols : BitVec 3) ++ (BitVec.ofFin rows : BitVec 3)))
  | .qld h d m o => some (mkV h 0x281 (encQd d) (encSca m.base) (encSrc m.index) 0 (encMem m.ofs .w o))
  | .qst h m c o => some (mkV h 0x282 0 (encSca m.base) (encSrc m.index) (encQ c) (encMem m.ofs .w o))
  | .qzero h d => some (mkV h 0x283 (encQd d))
  | .qid h d => some (mkV h 0x284 (encQd d))
  | .qmov h d a => some (mkV h 0x285 (encQd d) (encQ a))
  | .qtrn h d a => some (mkV h 0x286 (encQd d) (encQ a))
  | .qadd h d a b => some (mkV h 0x287 (encQd d) (encQ a) (encQ b))
  | .qsub h d a b => some (mkV h 0x288 (encQd d) (encQ a) (encQ b))
  | .qmul h d a b => some (mkV h 0x289 (encQd d) (encQ a) (encQ b))
  | .qmad h d a b c => some (mkV h 0x28A (encQd d) (encQ a) (encQ b) (encQ c))
  | .qscl h d a b => some (mkV h 0x28B (encQd d) (encQ a) (encSrc b))
  | .qchol h d a => some (mkV h 0x28C (encQd d) (encQ a))
  | .qlu h d p a => some (mkV h 0x28D (encQd d) (encQ a) 0 0 ((0 : BitVec 30) ++ vbits p))
  | .qsolvCholesky h d f b => some (mkV h 0x28E (encQd d) (encQ f) (encQ b))
  | .qsolvLu h d f b p => some (mkV h 0x28E (encQd d) (encQ f) (encQ b) (encSrc p) 1)
  | .qget h d a i j => some (mkV h 0x28F (vbits d) (encQ a) 0 0 ((0 : BitVec 32) ++ (BitVec.ofFin j : BitVec 3) ++ (BitVec.ofFin i : BitVec 3)))
  | .qput h d a i j => some (mkV h 0x290 (encQd d) (encSrc a) 0 0 ((0 : BitVec 32) ++ (BitVec.ofFin j : BitVec 3) ++ (BitVec.ofFin i : BitVec 3)))
  | .qstatVst h d => some (mkV h 0x291 (encSd d))
  | .qstatNpd h d a => some (mkV h 0x291 (encSd d) (encQ a) 0 0 1)
  | .qstatSing h d a => some (mkV h 0x291 (encSd d) (encQ a) 0 0 2)
  | .qstatClear h d => some (mkV h 0x291 (encSd d) 0 0 0 3)
  | .qstatShape h d a => some (mkV h 0x291 (encSd d) (encQ a) 0 0 4)
  | .mma h d a b c fs ra => some (mkV h 0x300 (vbits d) (encGrp a) (encGrp b) (encGrp c) ((0 : BitVec 34) ++ boolBit ra ++ (BitVec.ofFin fs : BitVec 3)))
  | .tld h d m => some (mkV h 0x301 (vbits d) (encSca m.base) (encSca m.index) 0 (encTile m))
  | .tst h m c => some (mkV h 0x302 0 (encSca m.base) (encSca m.index) (encGrp c) (encTile m))
  | .lrec h d a b => some (mkV h 0x303 (encQd d) (encSca a) (encSca b))
  | .cpyq h d q b => some (mkV h 0x308 (encSd d) (encSrc q) (encSrc b))
  | .cpyp h d a => some (mkV h 0x309 (encSd d) (encSca a))
  | .cpyxSt h d q => some (mkV h 0x30A (encSd d) (encSrc q) 0 0 0)
  | .cpyxStop h d q => some (mkV h 0x30A (encSd d) (encSrc q) 0 0 1)
  | .cpyxSkip h d q => some (mkV h 0x30A (encSd d) (encSrc q) 0 0 2)
  | .cpyxRetry h d q => some (mkV h 0x30A (encSd d) (encSrc q) 0 0 3)
  | .tskl h d a => some (mkV h 0x310 (encSd d) (encSca a))
  | .tsks h a b scope => some (mkV h 0x311 0 (encSrc a) (encSrc b) 0 (encMem 0 .w ⟨.plain, scope, 0⟩))
  | .tskq h d a => some (mkV h 0x312 (encSd d) (encSrc a))
  | .trapi h code => some (mkI h 0x380 code)
  | .eret h => some (mkS h 0x381)
  | .srd h d reg => some (mkS h 0x382 ((0 : BitVec 6) ++ reg) 0 0 (sbits d))
  | .swr h reg a => some (mkS h 0x383 ((0 : BitVec 6) ++ reg) 0 (sbits a))
  | .wsave h d a b => some (mkS h 0x384 0 (sbits b) (sbits a) (sbits d))
  | .wrest h d a => some (mkS h 0x385 0 0 (sbits a) (sbits d))
  | .tlbi h d a b => some (mkS h 0x386 0 (sbits b) (sbits a) (sbits d))
  | .brk h code => some (mkI h 0x387 ((0 : BitVec 8) ++ code))
  | .dbgmRead h d reg => some (mkS h 0x388 ((0 : BitVec 7) ++ (0 : BitVec 1) ++ reg) 0 0 (sbits d))
  | .dbgmWrite h d reg a => some (mkS h 0x388 ((0 : BitVec 7) ++ (1 : BitVec 1) ++ reg) 0 (sbits a) (sbits d))
  | .haltHalt h d a b => some (mkS h 0x389 0 (sbits b) (sbits a) (sbits d))
  | .haltGo h d a b => some (mkS h 0x389 1 (sbits b) (sbits a) (sbits d))
  | .haltStep h d a b => some (mkS h 0x389 2 (sbits b) (sbits a) (sbits d))
  | .haltQuery h d a b => some (mkS h 0x389 3 (sbits b) (sbits a) (sbits d))
  | .clkrCr h d => some (mkS h 0x38A 0 0 0 (sbits d))
  | .clkrCore h d => some (mkS h 0x38A 1 0 0 (sbits d))
  | .perfsRead h d sel => some (mkS h 0x38B ((0 : BitVec 13) ++ BitVec.ofNat 5 sel.val) 0 0 (sbits d))
  | .perfsSnapshot h d => some (mkS h 0x38B 16 0 0 (sbits d))
  | .perfsShadowRead h d sel => some (mkS h 0x38B ((0 : BitVec 12) ++ (1 : BitVec 1) ++ BitVec.ofNat 5 sel.val) 0 0 (sbits d))
  | .performLoad _ => none
  | .performStore _ => none
  | .drain _ => none
  | .evict _ _ => none
  | .rmwPerform _ => none
  | .fencePerform _ => none
  | .barrierArrival _ => none
  | .barrierResume _ => none
  | .deferredReturn _ _ => none
  | .scoreboardComplete _ _ => none
  | .xevComplete _ _ => none
  | .vetchComplete _ _ => none
  | .mmaComplete _ _ => none
  | .nestIteration _ _ => none
  | .sideLogReplay _ => none
  | .issueLimitOverride _ _ => none
  | .mwaitWake _ => none
  | .mwaitTimeout _ => none
  | .wsleepWake _ => none
  | .cpyqSlotWrite _ => none
  | .channelFetch _ => none
  | .copyStart _ => none
  | .copyCompletion _ => none
  | .queueAttach _ _ _ => none
  | .queueDetach _ _ _ => none
  | .submit _ _ _ => none
  | .taskStart _ _ => none
  | .copyBatchAppend _ _ => none
  | .taskCompletion _ _ => none
  | .cohortPlace _ _ => none
  | .migration _ _ => none
  | .forwardProgressSwap _ => none
  | .reservationRelease _ => none
  | .rampComplete _ => none
  | .faultPost _ => none
  | .fltResRetry _ _ => none
  | .fltResUnmappable _ _ => none
  | .leaseExpiry _ => none
  | .intSend _ _ => none
  | .waveStWrite _ _ => none
  | .fltCfgWrite _ _ => none
  | .mftBaseWrite _ _ => none
  | .dbgMbxWrite _ _ => none
  | .mailboxEventPost _ => none
  | .stepEnd _ => none
  | .sample _ => none
  | .registerWrite _ _ => none
  | .haltCmdHalt _ _ _ _ => none
  | .haltCmdGo _ _ _ _ => none
  | .haltCmdStep _ _ _ _ => none
  | .haltCmdQuery _ _ _ _ => none
  | .saveCmd _ _ _ => none
  | .restCmd _ _ => none
  | .tlbiN _ _ => none
  | .asCreate _ => none
  | .asDestroy _ => none
  | .mgmtReq _ => none
  | .hostWrite _ _ _ _ => none
  | .hostRead _ _ => none
  | .lanbyRead _ _ _ _ => none
  | .lanbyWrite _ _ _ _ _ => none
  | .lanbyRmw _ _ _ _ _ _ => none
  | .lanbyResponse _ _ => none
  | .lanbyPoisonResponse _ _ => none
  | .lanbyCredit _ => none
  | .lanbyBadType _ _ => none
  | .flitReplay _ => none
  | .linkFailover _ => none
  | .uncorrectableError _ _ => none
  | .correctedError _ => none
  | .keySlotLoad _ => none
  | .spdmGetVersion => none
  | .spdmGetCapabilities => none
  | .spdmNegotiateAlgorithms => none
  | .spdmGetDigests => none
  | .spdmGetCertificate => none
  | .spdmChallenge => none
  | .spdmGetMeasurements => none
  | .spdmKeyExchange => none
  | .spdmFinish => none
  | .spdmEndSession => none
  | .bringUp => none
  | .dieOver105c _ => none
  | .dieOver110c _ => none
  | .dieOver120c _ => none
  | .illegalEncoding => none
  | .fetchFault => none
  | .coreCycle _ => none
  | .dieBelow105c _ => none
  | .dieBelow110c _ => none
  | .signedImageAccept _ => none

/-- The bytes of a raw word (R65). -/
def Raw.bytes : Raw → List Byte
  | .s r => leBytes 8 r.toWord.toNat
  | .v r => leBytes 16 r.toWord.toNat
  | .n r => leBytes 32 r.toWord.toNat

/-- The bytes of an instruction's word; an event has none. -/
def encode (i : Instr) : List Byte :=
  match i.raw with
  | some r => r.bytes
  | none => []

end Sys2Proof
end

