-- ==== Sys2Proof/Machine/Order.lean ====
section
/-! DEFINITION. The ordering machine (chapter 02): nodes and paths, the search of a load, caches, write buffers, writes
entering M and core-homed copies, memory keys (R367), poison (R334), and when an access may perform (R39, R40). -/

namespace Sys2Proof.Machine

/-! ## Nodes and paths (R33, R34) -/

/-- A node's level. -/
def nodeLevel : NodeId → Nat
  | .core _ => 1
  | .cluster _ _ => 2
  | .die _ => 3
  | .package => 4
  | .root => 5

/-- The path of an agent attached to a core node. -/
def corePath (c : CoreId) : List NodeId := [.core c, .cluster c.die c.clu, .die c.die, .package, .root]

/-- The path of a node up to the root. -/
def pathOf (n : NodeId) : List NodeId :=
  match n with
  | .core c => corePath c
  | .cluster d k => [.cluster d k, .die d, .package, .root]
  | .die d => [.die d, .package, .root]
  | .package => [.package, .root]
  | .root => [.root]

/-- The node above. -/
def parentOf (n : NodeId) : NodeId :=
  match n with
  | .core c => .cluster c.die c.clu
  | .cluster d _ => .die d
  | .die _ => .package
  | .package => .root
  | .root => .root

/-- The level-s node of a path, or its attachment node where s lies below that (R33, R34). -/
def levelNode (path : List NodeId) (s : Nat) : NodeId :=
  match path.find? (fun n => s ≤ nodeLevel n) with
  | some n => n
  | none => .root

/-- The path an access takes: of its core, or of its channel's cluster (R34). -/
def Access.path (a : Access) : List NodeId :=
  match a.agent with
  | .wave _ => corePath a.core
  | .channel c => pathOf (.cluster c.die c.clu)
  | .yarrow a => if h : a.val < 8 then pathOf (.die ⟨a.val, h⟩) else pathOf .package

/-- Whether a fused L1 holds the cluster (R17, R33). -/
def State.fusedAt (s : State) (d : Fin 8) (k : Fin 12) : Bool :=
  s.ensembles.any (fun e => e.fused && e.cohorts.any (fun u => match s.cohort? u with
    | some c => c.place == .resident && c.core.die == d && c.core.clu == k
    | none => false))

/-- Whether a node's cache receives entries (R33). -/
def State.hasCache (s : State) (n : NodeId) : Bool :=
  match n with
  | .core c => !s.fusedAt c.die c.clu
  | .cluster d k => s.fusedAt d k
  | .die _ => true
  | .package => false
  | .root => false

/-! ## Caches -/

/-- Whether an entry holds the byte of an address. -/
def CacheEntry.has (c : CacheEntry) (a : Nat) : Bool := decide (c.pa ≤ a) && decide (a < c.pa + c.bytes.length)

/-- Whether an entry holds a byte of some of the addresses. -/
def CacheEntry.meets (c : CacheEntry) (as : List Nat) : Bool := as.any c.has

/-- The byte of an entry at an address it holds. -/
def CacheEntry.at (c : CacheEntry) (a : Nat) : Byte := c.bytes.getD (a - c.pa) 0

/-- Remove the entries of a node's cache that hold a byte of some addresses. -/
def State.cacheDrop (s : State) (n : NodeId) (as : List Nat) : State :=
  { s with caches := s.caches.filter (fun c => !(c.node == n && c.meets as)) }

/-- Whether a lease ends entries of a node's cache: the lines of the L1 are filled through it (R322). -/
def leased : NodeId → Bool
  | .core _ => true
  | .cluster _ _ => true
  | _ => false

/-- Bytes by address as runs of adjacent addresses. -/
def runsOf : List (Nat × Byte) → List (Nat × List Byte)
  | [] => []
  | (a, b) :: l =>
    match runsOf l with
    | (c, bs) :: rs => if c = a + 1 then (a, b :: bs) :: rs else (a, [b]) :: (c, bs) :: rs
    | [] => [(a, [b])]

/-- New entries of a node's cache, one for each run of bytes. -/
def State.cacheAdd (s : State) (n : NodeId) (l : List (Nat × Byte)) (key : BitVec 8) (ends : Option Nat) : State :=
  { s with caches := s.caches ++ (runsOf l).map (fun r => ⟨n, r.1, r.2, key, if leased n then ends else none⟩) }

/-- Fill a node's cache with bytes found above, if it receives entries (R39). -/
def State.cacheFill (s : State) (n : NodeId) (l : List (Nat × Byte)) (key : BitVec 8) (ends : Option Nat) : State :=
  if s.hasCache n then (s.cacheDrop n (l.map (fun x => x.1))).cacheAdd n l key ends else s

/-- An entry with some of its bytes written anew. -/
def CacheEntry.overlay (c : CacheEntry) (l : List (Nat × Byte)) : CacheEntry :=
  { c with bytes := (List.range c.bytes.length).map (fun i =>
      match l.reverse.find? (fun x => x.1 == c.pa + i) with
      | some x => x.2
      | none => c.bytes.getD i 0) }

/-- A write writes a node's cache, if it receives entries (R39): entries that hold some of its bytes take them, and where
no entry holds them all the write makes one. -/
def State.cacheWrite (s : State) (n : NodeId) (l : List (Nat × Byte)) (key : BitVec 8) (ends : Option Nat) : State :=
  if s.hasCache n then
    let s := { s with caches := s.caches.map (fun c => if c.node == n then c.overlay l else c) }
    if s.caches.any (fun c => c.node == n && l.all (fun x => c.has x.1)) then s else s.cacheAdd n l key ends
  else s

/-- Empty every cache below a level on a path (R39). -/
def State.emptyBelow (s : State) (path : List NodeId) (level : Nat) : State :=
  { s with caches := s.caches.filter (fun c => !(path.contains c.node && decide (nodeLevel c.node < level))) }

/-- Empty every cache below a level and attachment node for a whole path, as an acquire does. -/
def State.acquire (s : State) (c : CoreId) (level : Nat) : State := s.emptyBelow (corePath c) level

/-! ## The search of a load (R39) -/

/-- The newest write-buffer byte for an address at a node, and whether a copy wrote it poisoned (R334). -/
def wbByte (wb : List WbEntry) (n : NodeId) (a : Nat) : Option (Byte × Bool) :=
  wb.foldl (fun o e =>
    if e.node == n then (match (e.bytes.reverse.find? (fun x => x.1 == a)) with
      | some x => some (x.2, e.poison)
      | none => o) else o) none

/-- The entry of a node's cache that holds every one of some addresses, its lease still running (R37, R322). -/
def State.cacheHit (s : State) (n : NodeId) (as : List Nat) : Option CacheEntry :=
  if s.hasCache n then
    s.caches.find? (fun c => c.node == n && as.all c.has && (match c.ends with
      | some t => decide (s.clk < t)
      | none => true))
  else none

/-- A byte that a search has found: its address, value, whether poison touches it, and the nodes below the one that held
it. -/
structure Found where
  pa : Nat
  byte : Byte
  bad : Bool
  below : List NodeId
  deriving DecidableEq, Repr

/-- The search of one access upward (R39): at each node the newest write-buffer byte of each address not found yet, then
the one cache entry that holds all the rest, so that an aligned access reads one write (R37). What it does not find stands
in M. -/
def State.searchUp (s : State) (as : List Nat) : List NodeId → List NodeId → List Found → List Found
  | [], _, got => got
  | n :: ns, below, got =>
    let rest (l : List Found) : List Nat := as.filter (fun a => !l.any (fun f => f.pa == a))
    let got := got ++ (rest got).filterMap (fun a => (wbByte s.wb n a).map (fun b => ⟨a, b.1, b.2, below⟩))
    match s.cacheHit n (rest got) with
    | some c => got ++ (rest got).map (fun a => ⟨a, c.at a, false, below⟩)
    | none => s.searchUp as ns (below ++ [n]) got

/-! ## Keys (R367) -/

/-- Local memory that is encrypted: first-tier and bulk ranges of a module (R363, R367). -/
def encrypted (pa : Nat) : Bool :=
  let l := pa % 2 ^ 46
  decide (l < 0x006000000000) || (decide (0x010000000000 ≤ l) && decide (l < 0x030000000000))

/-- The generation of a key slot: how often it has been loaded. -/
def State.keyGenOf (s : State) (k : BitVec 8) : Nat :=
  match s.mod.keyGen.find? (fun x => x.1 == k) with
  | some x => x.2
  | none => 0

/-- Whether a line was written under another key than the one in slot `k` now: its bytes read as others (R367). -/
def State.keyDiffers (s : State) (k : BitVec 8) (line : Nat) : Bool :=
  encrypted (line * 128) && (match s.mod.keyTags.find? (fun x => x.1 == line) with
    | some x => x.2 != (k, s.keyGenOf k)
    | none => false)

/-- A byte of M as an access of key `k` reads it: a free byte where the line stands under another key. -/
def State.readM (s : State) (k : BitVec 8) (a : Nat) : Byte × State :=
  if s.keyDiffers k (a / 128) then (BitVec.ofNat 8 s.draw.1, s.draw.2) else (s.mem.read a, s)

/-- `n` bytes of M so. -/
def State.readKeyed (s : State) (k : BitVec 8) (a n : Nat) : List Byte × State :=
  (List.range n).foldl (fun (x : List Byte × State) i =>
    let (b, s) := x.2.readM k (a + i)
    (x.1 ++ [b], s)) ([], s)

/-- A byte of a line written anew under slot `k`: the rest of a line under another key is re-encrypted as the different
bytes it read as. -/
def State.tagLine (s : State) (k : BitVec 8) (line : Nat) : State :=
  if encrypted (line * 128) then
    let s := if s.keyDiffers k line then
        (List.range 128).foldl (fun s i =>
          let (b, s) := s.draw
          { s with mem := s.mem.write (line * 128 + i) (BitVec.ofNat 8 b) }) s
      else s
    { s with mod := { s.mod with keyTags := (line, k, s.keyGenOf k) ::
                                              s.mod.keyTags.filter (fun x => x.1 != line) } }
  else s

/-! ## Poison of memory (R333, R334) -/

/-- Note that an instruction's store wrote a byte of a unit of `size` bytes; a unit it has written whole is clean. -/
def State.cleanse (s : State) (u : PoisonUnit) (size instr a : Nat) : State :=
  if s.poison.contains u then
    let seen := if s.poisonSeen.contains (u, instr, a) then s.poisonSeen else s.poisonSeen ++ [(u, instr, a)]
    if (seen.filter (fun x => x.1 == u && x.2.1 == instr)).length = size then
      { s with poison := s.poison.filter (fun x => x != u), poisonSeen := seen.filter (fun x => x.1 != u) }
    else { s with poisonSeen := seen }
  else s

/-! ## Monitors (R59, R60) -/

/-- The armed slots of a wave that a test selects, as wakes of WHY 1. -/
def Wave.wakeSlots (w : Wave) (hit : MonSlot → Bool) : Wave :=
  (List.finRange 4).foldl (fun w k => match w.mons[k.val] with
    | some m => if hit m then w.addWake 1 k.val else w
    | none => w) w

/-- A write of bytes enters node n, or M: every wave that armed one of their lines at or below n on its path wakes. -/
def State.wakeMem (s : State) (n : NodeId) (as : List Nat) : State :=
  let lines := (as.map (fun a => a / 128)).dedup
  { s with waves := s.waves.map (fun w =>
      w.wakeSlots (fun m => (match m.line with
        | .mem l => lines.contains l
        | _ => false) && ((corePath w.core).contains n && decide (nodeLevel (levelNode (corePath w.core) m.level) ≤ nodeLevel n)))) }

/-- A write to a core-homed line wakes every wave that armed it. -/
def State.wakeHome (s : State) (p : Place) : State :=
  { s with waves := s.waves.map (fun w => w.wakeSlots (fun m => m.line == p)) }

/-- The 128-byte line of a place. -/
def lineOf : Place → Place
  | .mem a => .mem (a / 128)
  | .spad c o => .spad c (o / 128)
  | .win w o => .win w (o / 128)

/-! ## Writes -/

/-- Bytes are written to M (R39): poison, keys and monitors follow. -/
def State.writeM (s : State) (l : List (Nat × Byte)) (key : Option (BitVec 8)) (instr : Nat) : State :=
  let lines := (l.map (fun x => x.1 / 128)).dedup
  let s : State := match key with
    | some k => lines.foldl (fun s n => s.tagLine k n) s
    | none => s
  let s := { s with mem := s.mem.writeAll l }
  let s := l.foldl (fun s x => s.cleanse (.mem (x.1 / 32)) 32 instr x.1) s
  s.wakeMem .root (l.map (fun x => x.1))

/-- Whether a physical address lies in a module's window of BAR2 pages, which is no memory (R363). -/
def deviceWindow (pa : Nat) : Bool := decide (0x3F0000000000 ≤ pa % 2 ^ 46)

/-- Whether it lies in this module's own window. -/
def State.ownWindow (s : State) (pa : Nat) : Bool := pa / 2 ^ 46 == s.mod.cfg.modno.val && deviceWindow pa

/-- Whether a physical address is reached: it is the module's own, or a link of its route is up (R363, R365). -/
def State.reachable (s : State) (pa : Nat) : Bool :=
  pa / 2 ^ 46 == s.mod.cfg.modno.val || (s.mod.cfg.routes.getD (pa / 2 ^ 46) []).any (fun l => s.mod.links[l.val].up)

/-- No route remains for an access of an agent: the grid of the requesting wave is degraded (R365). -/
def State.routeLost (s : State) (a : Agent) : State :=
  match a with
  | .wave u =>
    match s.wave? u with
    | some w => (match s.gridOf w with
      | some g => s.putGrid { g with degraded := true }
      | none => s)
    | none => s
  | _ => s

/-- An entry enters a node: its write buffer and cache, or M at the root (R39); sync entries bar merging across them; a
write for which no route remains is dropped (R365), and a register window is no part of M (R363). -/
def State.enterNode (s : State) (e : WbEntry) : State :=
  match e.node with
  | .root =>
    let s := if e.bytes.all (fun x => s.reachable x.1) then s else s.routeLost e.agent
    let s := s.writeM (e.bytes.filter (fun x => s.reachable x.1 && !deviceWindow x.1)) (some e.key) e.instr
    if e.poison then { s with poison := (s.poison ++ e.bytes.map (fun x => PoisonUnit.mem (x.1 / 32))).dedup } else s
  | n =>
    let s := { s with wb := s.wb ++ [e] }
    let s := if e.fill then s.cacheWrite n e.bytes e.key (e.trans.bind (fun t => t.ends))
      else s.cacheDrop n (e.bytes.map (fun x => x.1))
    s.wakeMem n (e.bytes.map (fun x => x.1))

/-- Remove bytes from every cache of a path below a level (R39, R48). -/
def State.dropBelow (s : State) (path : List NodeId) (level : Nat) (as : List Nat) : State :=
  { s with caches := s.caches.filter (fun c =>
      !(path.contains c.node && decide (nodeLevel c.node < level) && c.meets as)) }

/-! ## Core-homed copies (R36, R138, R183) -/

/-- The byte of a register window: lane bytes of the owner's vectors, zero above 0x8000 (R138). -/
def windowByte (w : Wave) (off : Nat) : Byte :=
  if h : off / 128 < 256 then
    let x := (w.v[off / 128]).lane ⟨off / 4 % 32, Nat.mod_lt _ (by omega)⟩
    BitVec.ofNat 8 (x.toNat / 2 ^ (8 * (off % 4)))
  else 0

/-- The same as a window access reads it: of a spilled register, a byte of its spill copy that a write has changed since is
a free choice between the two (R131). -/
def State.windowRead (s : State) (w : Wave) (off : Nat) : Byte × State :=
  let old := windowByte w off
  match (if w.spilled.any (fun r => r.val == off / 128) then w.spillPa else none) with
  | none => (old, s)
  | some a =>
    let now := s.mem.read (a + off)
    if now = old then (old, s)
    else
      let (b, s) := s.drawBit
      (if b then now else old, s)

/-- One byte of a core-homed place. -/
def State.homeByte (s : State) (p : Place) : Byte × State :=
  match p with
  | .mem _ => (0, s)
  | .spad c o => match s.cohort? c with
    | some x => (x.spad.read o, s)
    | none => (0, s)
  | .win u o => match s.wave? u with
    | some w => s.windowRead w o
    | none => (0, s)

/-- Place moved on by `i` bytes. -/
def placeAt (p : Place) (i : Nat) : Place :=
  match p with
  | .mem a => .mem (a + i)
  | .spad c o => .spad c (o + i)
  | .win w o => .win w (o + i)

/-- Poison a unit: the mark stands, and a word of a wave's registers or stacks reads as 0x7FC0_0000 (R333, R334). -/
def State.poisonUnit (s : State) (u : PoisonUnit) : State :=
  let s := { s with poison := if s.poison.contains u then s.poison else s.poison ++ [u],
                    poisonSeen := s.poisonSeen.filter (fun x => x.1 != u) }
  let onWave (x : Nat) (f : Wave → Wave) : State := { s with waves := modWhere (fun w => w.uid == x) f s.waves }
  match u with
  | .vreg x r _ => onWave x (fun w => { w with v := w.v.set r.val (poisonedReg s.poison x r w.v[r.val]) })
  | .qelem x q l k => onWave x (fun w =>
      let old := w.q[q.val]
      { w with q := w.q.set q.val { old with elems := (List.range old.elems.length).map (fun j =>
          let e := old.elems.getD j (splat 0)
          if j = k then (if old.general then e.set l.val nan32 else splat nan32) else e) } })
  | .stack x _ _ => onWave x (fun w => { w with stk := w.stk.map (poisonedStacks s.poison x) })
  | _ => s

/-- A store of bytes to a register's window: it becomes general, each untouched byte keeping its value, whatever the
owner's em; a non-deferred write that discards pending results, with a latch on the register gone, and spilling makes room
(R130, R138, R141, R288). A word that it writes in part keeps its poison (R334). -/
def State.windowStore (s : State) (u off : Nat) (bytes : List Byte) : State :=
  match s.wave? u with
  | none => s
  | some w =>
    if h : off / 128 < 256 then
      let r : VNum := ⟨off / 128, h⟩
      let s := s.unlatch w [r]
      let (s, w) := refillOne s w r
      let l := (off / 4) % 32
      let old := laneBytes (w.vreg r)
      let new := (List.range 128).map (fun i =>
        if off % 128 ≤ i ∧ i < off % 128 + bytes.length then bytes.getD (i - off % 128) 0 else old.getD i 0)
      let s := { s with poison := s.poison.filter (fun p => match p with
                          | .vreg a b c => !(a == u && b == r && c.val == l && bytes.length ≥ 4)
                          | _ => true) }
      let x : VReg := .gen (lanesBy (fun k => BitVec.ofNat 32 (leVal ((new.drop (4 * k.val)).take 4))))
      let w := (w.killDefs w.defs.length [r] []).vput r (poisonedReg s.poison u r x)
      let (s, w) := spillFit 256 s (w.touch [r])
      s.putWave w
    else s

/-- A store acts on the copy of a core-homed place (R36). -/
def State.homeStore (s : State) (p : Place) (bytes : List Byte) (instr : Nat) : State :=
  match p with
  | .mem _ => s
  | .spad c o =>
    match s.cohort? c with
    | none => s
    | some x =>
      let s := s.putCohort { x with spad := x.spad.writeAll (bytesAt o bytes) }
      let s := (List.range bytes.length).foldl (fun s i => s.cleanse (.spad c ((o + i) / 8)) 8 instr (o + i)) s
      s.wakeHome (lineOf p)
  | .win u o => (s.windowStore u o bytes).wakeHome (lineOf p)

/-- Whether a byte read from its home is poisoned (R334): a window's in its register's word, or, while that is spilled, in its
spill copy (R130). -/
def State.poisonAt (s : State) (p : Place) : Bool :=
  match p with
  | .mem a => s.poison.contains (.mem (a / 32))
  | .spad c o => s.poison.contains (.spad c (o / 8))
  | .win u o => (s.poison.any (fun x => match x with
    | .vreg a b l => a == u && b.val == o / 128 && (l.val == o / 4 % 32 || (match s.wave? u with
      | some w => (w.vreg b).isUA
      | none => false))
    | _ => false)) || (match s.wave? u with
      | some w => if h : o / 128 < 256 then s.copyPoisoned w ⟨o / 128, h⟩ (o / 4 % 32) else false
      | none => false)

/-- A window access waits for a scoreboarded result to its register (R138), and to a source of an outstanding MMA until its array
has read it: a store, for the MMA reads what stood before it, and a load, since what a later instruction of the wave writes
there is not written before then (R289; log 92). -/
def State.homeReady (s : State) (p : Place) : Bool :=
  match p with
  | .win u o => match s.wave? u with
    | some w => !w.sb.any (fun b => b.vw.any (fun x => x.1.val == o / 128) ||
        (decide (s.clkOf w.core < b.srcUntil) && b.src.any (fun r => r.val == o / 128)))
    | none => true
  | _ => true

/-! ## Reading bytes for an access -/

/-- The caches of a path that a search has passed keep nothing of the bytes it found above them, `got`, or beyond the path
(log 98). -/
def State.dropPassed (s : State) (path : List NodeId) (as : List Nat) (got : List Found) : State :=
  path.foldl (fun s n => s.cacheDrop n (as.filter (fun a => match got.find? (fun f => f.pa == a) with
    | some f => f.below.contains n
    | none => true))) s

/-- Read one aligned piece of at most 8 bytes of translated memory: values, whether any is poisoned, and the caches that
what was found above them fills; a cache it passes that is not filled keeps nothing of those bytes, so that no later read of
them returns what is older (R37, R39, R43; log 98). -/
def State.readChunk (s : State) (path : List NodeId) (key : BitVec 8) (fill : Bool) (ends : Option Nat) (a n : Nat) :
    State × List Byte × Bool :=
  let as := (List.range n).map (fun i => a + i)
  let got := s.searchUp as path [] []
  let (s, got) := (as.filter (fun a => !got.any (fun f => f.pa == a))).foldl (fun (x : State × List Found) a =>
    let (b, s) := x.1.readM key a
    (s, x.2 ++ [⟨a, b, s.poisonAt (.mem a) || !s.reachable a, path⟩])) (s, got)
  let at_ (p : Found → Bool) : List (Nat × Byte) :=
    as.filterMap (fun a => (got.find? (fun f => f.pa == a && p f)).map (fun f => (a, f.byte)))
  let bad := got.any (fun f => f.bad)
  let s := if fill && !bad then path.foldl (fun s n =>
      match at_ (fun f => f.below.contains n) with
      | [] => s
      | l => (s.cacheDrop n (l.map (fun x => x.1))).cacheFill n l key ends) s
    else s.dropPassed path as got
  (s, (at_ (fun _ => true)).map (fun x => x.2), bad)

/-- The pieces of `n` bytes from an address that do not cross an 8-byte boundary. -/
def chunksOf (a n : Nat) : List (Nat × Nat) :=
  (List.range (n / 8 + 2)).filterMap (fun i =>
    let lo := max a (a / 8 * 8 + 8 * i)
    let hi := min (a + n) (a / 8 * 8 + 8 * i + 8)
    if lo < hi then some (lo, hi - lo) else none)

/-- Read `n` bytes at a place along a path: values, whether any is poisoned, and the caches filled (R36, R39). -/
def State.readBytes (s : State) (path : List NodeId) (key : BitVec 8) (fill : Bool) (ends : Option Nat) (p : Place) (n : Nat) :
    State × List Byte × Bool :=
  match p with
  | .mem a => (chunksOf a n).foldl (fun (acc : State × List Byte × Bool) c =>
      let (s, bs, bad) := acc.1.readChunk path key fill ends c.1 c.2
      (s, acc.2.1 ++ bs, acc.2.2 || bad)) (s, [], false)
  | p => (List.range n).foldl (fun (acc : State × List Byte × Bool) i =>
      let q := placeAt p i
      let (b, s) := acc.1.homeByte q
      (s, acc.2.1 ++ [b], acc.2.2 || s.poisonAt q)) (s, [], false)

/-! ## When an access may perform (R40) -/

/-- Whether two runs of bytes share one. -/
def meet (x n y m : Nat) : Bool := decide (x < y + m) && decide (y < x + n)

/-- Whether two accesses touch a common byte: by place, or by address while a fault keeps the place of one unknown. -/
def overlaps (a b : Access) : Bool :=
  match a.place, b.place with
  | .mem x, .mem y =>
    if a.held.isSome || b.held.isSome then a.asid == b.asid && meet a.va a.size b.va b.size else meet x a.size y b.size
  | .spad c x, .spad d y => c == d && meet x a.size y b.size
  | .win c x, .win d y => c == d && meet x a.size y b.size
  | _, _ => false

/-- Kinds that touch no location. -/
def AccKind.isBar : AccKind → Bool
  | .fence | .arriveB | .arriveE => true
  | _ => false

/-- Whether an access waits as a release does: releases, SC accesses, release and SC fences, arrivals (R40, R56). -/
def Access.releases (a : Access) : Bool :=
  match a.kind with
  | .arriveB | .arriveE => true
  | _ => a.ord == .rel || a.ord == .sc

/-- Whether an access holds later ones back: acquire and SC accesses, and fences (R40). -/
def Access.blocks (a : Access) : Bool :=
  match a.kind with
  | .fence => true
  | .arriveB | .arriveE => false
  | _ => a.ord == .acq || a.ord == .sc

/-- Whether two accesses lie on one page of an address space. -/
def samePage (a b : Access) : Bool := a.asid == b.asid && a.va / 65536 == b.va / 65536

/-- Whether an earlier access y of the queue keeps x from performing (R37, R40). The lanes of one instruction share a
position; the accesses of a NEST have one each (R200). An access that a fault still holds has the memory type of x's page where
it lies on it (R49; log 111). -/
def holdsBack (y x : Access) : Bool :=
  (!y.kind.isBar && !x.kind.isBar && overlaps y x) ||
    ((y.instr, y.sub) != (x.instr, x.sub) &&
      (y.blocks || x.releases ||
        (x.kind == .fence && (y.kind == .load || y.kind == .rmw || y.kind == .mon || y.kind == .pref)) ||
        (y.device.isSome && y.device == x.device) || (y.held.isSome && x.device.isSome && samePage y x)))

/-- Whether a side-log entry of an earlier instruction keeps an access of its wave from performing (R40): a common byte, an SC
entry, or, x being on a device page, an entry of that page (R49). -/
def SideEntry.holds (e : SideEntry) (x : Access) : Bool :=
  x.agent == .wave e.wave && decide (e.instr < x.instr) &&
    (e.ord == .sc || (!x.kind.isBar && (match x.place with
      | .mem _ => e.asid == x.asid && e.lanes.any (fun l => meet l.va l.bytes.length x.va x.size)
      | _ => false)) || (e.rmw.isSome && x.kind == .fence) ||
      (x.device.isSome && e.asid == x.asid && e.page == x.va / 65536))

/-- The two further conditions of a release at a level (R40): nothing of the agent, and nothing that overlaps x, below
the level, and no earlier side-log entry of the wave (log 110). -/
def State.released (s : State) (x : Access) (level : Nat) : Bool :=
  let path := x.path
  (level == 0 || !s.wb.any (fun e => path.contains e.node && decide (nodeLevel e.node < level) &&
    (e.agent == x.agent || (match x.place with
      | .mem a => !x.kind.isBar && e.bytes.any (fun b => decide (a ≤ b.1) && decide (b.1 < a + x.size))
      | _ => false)))) &&
  (match x.agent with
    | .wave u => !(s.sideOf u).any (fun e => decide (e.instr < x.instr))
    | _ => true)

/-- The level an access orders at: a strongly ordered page acts at level 5 (R49). -/
def Access.level' (a : Access) : Nat := if a.isSo then 5 else a.level

/-- The Sorrel array whose generator makes an access: that of its wave's port (R15, R298). -/
def State.generatorOf (s : State) (a : Access) : Option (CoreId × Nat) :=
  match a.agent with
  | .wave u => if a.gen && a.nest.isNone then (s.wave? u).map (fun w => (a.core, w.port.val % 2)) else none
  | _ => none

/-- Whether a TLD's or TST's access waits for its array's generator: it serves the instructions of its two ports in issue
order, one at a time, and an instruction register by register (R298). -/
def State.generatorBusy (s : State) (x : Access) : Bool :=
  match s.generatorOf x with
  | none => false
  | some g => (s.accs.takeWhile (fun y => y.id != x.id)).any (fun y =>
      s.generatorOf y == some g && (y.instr != x.instr || y.part != x.part))

/-- Whether an access may perform now (R40, R63, R189). -/
def State.mayPerform (s : State) (x : Access) : Bool :=
  x.held.isNone &&
  !((s.accs.takeWhile (fun y => y.id != x.id)).any (fun y => y.agent == x.agent && holdsBack y x)) &&
  !(s.side.any (fun e => e.holds x)) && !s.generatorBusy x &&
  (!x.releases || s.released x x.level') && s.homeReady x.place

/-- Whether the write buffers below a node on a path are free of some bytes (R48). -/
def State.bufferClear (s : State) (path : List NodeId) (level a n : Nat) : Bool :=
  !s.wb.any (fun e => path.contains e.node && decide (nodeLevel e.node < level) &&
    e.bytes.any (fun b => decide (a ≤ b.1) && decide (b.1 < a + n)))

/-- Whether the write buffers below a read-modify-write's node are free of its location (R48). -/
def State.rmwClear (s : State) (x : Access) (n : NodeId) : Bool :=
  match x.place with
  | .mem a => s.bufferClear x.path (nodeLevel n) a 4
  | _ => true

/-- Take an access out of its queue. -/
def State.popAcc (s : State) (id : Nat) : State := { s with accs := s.accs.filter (fun a => a.id != id) }

end Sys2Proof.Machine
end

