-- ==== Sys2Proof/Machine/Translate.lean ====
section
/-! DEFINITION. Translation (R319, R322, R323): page-table walks, TLB entries and their leases, permission, and the
records of translation faults (R320). -/

namespace Sys2Proof.Machine

/-- What an access needs of a page (R319, R320). -/
inductive Need where
  | read | write | update | fetch
  deriving DecidableEq, Repr

/-- KIND of a fault record: an ATOM or RED counts as a write (R320; log 17). -/
def Need.kind : Need → Nat
  | .read => 1
  | .write => 2
  | .update => 2
  | .fetch => 3

/-- A frame within the ranges of the domain map (R363) that the configuration record keeps, the bulk tier of at most 2 TiB
(R2). -/
def State.frameOk (s : State) (pa : Nat) : Bool :=
  let m := pa / 2 ^ 46
  let l := pa % 2 ^ 46
  decide (m < 64) && s.mod.cfg.members.getLsbD m &&
    (decide (l < 0x006000000000) || (decide (0x010000000000 ≤ l) && decide (l < 0x010000000000 + min s.mod.cfg.bulkBytes (2 ^ 41))) ||
      (decide (0x100000000000 ≤ l) && decide (l < 0x200000000000)) ||
      (decide (0x3F0000000000 ≤ l) && decide (l < 0x3F0010000000)))

/-- One byte as an engine or a walk reads it at its home: the newest write on a path to M, caches aside; where it is poison,
is a register, or no route is left, the spec gives the reader no value, and it is free (R334, R365; log 18). What stands in M is
read under the key of the leaf that led there (R367), where there is one: a walk has none (log 54). -/
def State.readHome (s : State) (path : List NodeId) (a : Nat) (key : Option (BitVec 8) := none) : Byte × State :=
  let free (s : State) : Byte × State := (BitVec.ofNat 8 s.draw.1, s.draw.2)
  match firstOf (fun n => wbByte s.wb n a) path with
  | some b => if b.2 then free s else (b.1, s)
  | none =>
    if s.poisonAt (.mem a) || !s.reachable a || deviceWindow a then free s
    else match key with
      | some k => s.readM k a
      | none => (s.mem.read a, s)

/-- `n` bytes so. -/
def State.readHomes (s : State) (path : List NodeId) (pa n : Nat) (key : Option (BitVec 8) := none) : List Byte × State :=
  (List.range n).foldl (fun (x : List Byte × State) i =>
    let (b, s) := x.2.readHome path (pa + i) key
    (x.1 ++ [b], s)) ([], s)

/-- Eight bytes of a page-table entry, read as an acquire at level 5 of the walking agent: every cache below the root on its
path is emptied (R39, R319). -/
def State.readEntry (s : State) (path : List NodeId) (pa : Nat) (key : Option (BitVec 8) := none) : Nat × State :=
  let (l, s) := s.readHomes path pa 8 key
  (leVal l, s.emptyBelow path 5)

/-- Bits of a page-table entry. -/
def ebits (e lo n : Nat) : Nat := e / 2 ^ lo % 2 ^ n

/-- A leaf's fields (R319): EVP 0 reads as 4. -/
def leafOfEntry (e : Nat) (big : Bool) : Leaf :=
  { pa := ebits e 12 40 * 4096, big := big, key := BitVec.ofNat 8 (ebits e 52 8),
    evp := if ebits e 8 3 = 0 then 4 else ebits e 8 3, mt := ebits e 6 2, user := ebits e 5 1 == 1,
    x := ebits e 4 1 == 1, w := ebits e 3 1 == 1, r := ebits e 2 1 == 1 }

/-- What an entry of a table above level 0 gives: a WHY, the next table's address, or a leaf. -/
inductive Step1 where
  | why (n : Nat)
  | table (pa : Nat)
  | leaf (l : Leaf)
  deriving DecidableEq, Repr

/-- Reserved bits of an entry that make it malformed. -/
def malformed (e : Nat) : Bool := ebits e 60 4 != 0 || ebits e 11 1 != 0

/-- A root entry (R319). -/
def rootEntry (e : Nat) : Step1 :=
  if ebits e 0 1 = 0 then .why 1
  else if ebits e 1 1 = 1 ∨ malformed e ∨ ebits e 12 4 ≠ 0 then .why 3
  else .table (ebits e 12 40 * 4096)

/-- A level-1 entry. -/
def State.midEntry (s : State) (e : Nat) : Step1 :=
  if ebits e 0 1 = 0 then .why 1
  else if malformed e then .why 3
  else if ebits e 1 1 = 1 then
    if ebits e 12 13 ≠ 0 ∨ !s.frameOk (ebits e 12 40 * 4096) then .why 3 else .leaf (leafOfEntry e true)
  else .table (ebits e 12 40 * 4096)

/-- A level-0 entry. -/
def State.lastEntry (s : State) (e : Nat) : Except Nat Leaf :=
  if ebits e 0 1 = 0 then .error 1
  else if ebits e 1 1 = 0 ∨ malformed e ∨ ebits e 12 4 ≠ 0 ∨ !s.frameOk (ebits e 12 40 * 4096) then .error 3
  else .ok (leafOfEntry e false)

/-- A walk (R319): the leaf, or the WHY of the fault it finds: 1 not valid, 3 malformed. -/
def State.walk (s : State) (path : List NodeId) (ptb va : Nat) : State × Except Nat Leaf :=
  if ptb = 0 then (s, .error 1)
  else
    let (e2, s) := s.readEntry path (ptb + 8 * (va / 2 ^ 38 % 2 ^ 14))
    match rootEntry e2 with
    | .why n => (s, .error n)
    | .leaf _ => (s, .error 3)
    | .table p1 =>
      let (e1, s) := s.readEntry path (p1 + 8 * (va / 2 ^ 25 % 2 ^ 13))
      match s.midEntry e1 with
      | .why n => (s, .error n)
      | .leaf l => (s, .ok l)
      | .table p0 =>
        let (e0, s) := s.readEntry path (p0 + 8 * (va / 2 ^ 16 % 2 ^ 9))
        (s, s.lastEntry e0)

/-- Whether a leaf admits an access (R307, R319): a fetch only from a normal page. -/
def Leaf.allows (l : Leaf) (n : Need) (priv : Bool) : Bool :=
  (priv || l.user) && (match n with
    | .read => l.r
    | .write => l.w
    | .update => l.r && l.w
    | .fetch => l.x && l.mt == 0)

/-- A translated page: where it stands, its leaf, and the lease an access made through it holds (R322). -/
structure Xlat where
  base : Nat
  leaf : Leaf
  trans : Trans
  deriving DecidableEq, Repr

/-- The physical base of the 64 KiB page of `va` under a leaf. -/
def Leaf.page (l : Leaf) (va : Nat) : Nat := if l.big then l.pa + va % 2 ^ 25 / 65536 * 65536 else l.pa

/-- Entries of a TLB that cover a page, their lease running: those of 64 KiB pages first, which are used where it holds both
sizes (R323). -/
def State.tlbMatches (s : State) (asid va : Nat) (mine : TlbEntry → Bool) : List TlbEntry :=
  let live (e : TlbEntry) : Bool := mine e && e.asid == asid && decide (s.clk < e.expiry)
  s.tlb.filter (fun e => live e && !e.leaf.big && e.vpage == va / 65536) ++
    s.tlb.filter (fun e => live e && e.leaf.big && e.vpage / 512 == va / 2 ^ 25)

/-- The first of some entries that a TLB still holds: each may have made room for another, as a free bit says (log 89). -/
def State.tlbPick (s : State) : List TlbEntry → State × Option TlbEntry
  | [] => (s, none)
  | e :: es =>
    let (b, s) := s.drawBit
    if b then (s, some e) else s.tlbPick es

/-- Look a page up (R185): in the core's TLB, then in its die's, whose entry the core's then holds under the same lease,
then by a walk, which grants a lease of tlb.lease ticks (R322). -/
def State.lookup (s : State) (c : CoreId) (asid va : Nat) : State × Except Nat Xlat :=
  let use (e : TlbEntry) : Xlat := ⟨e.leaf.page va, e.leaf, ⟨asid, va / 65536, e.granted, some e.expiry⟩⟩
  match s.tlbPick (s.tlbMatches asid va (fun e => e.core == c)) with
  | (s, some e) => (s, .ok (use e))
  | (s, none) =>
    match s.tlbPick (s.tlbMatches asid va (fun e => e.core.die == c.die)) with
    | (s, some e) =>
      let (id, s) := s.fresh
      ({ s with tlb := if e.core = c then s.tlb else s.tlb ++ [{ e with id := id, core := c }] }, .ok (use e))
    | (s, none) =>
      match s.space? asid with
      | none => (s, .error 1)
      | some a =>
        match s.walk (corePath c) a.ptb.toNat va with
        | (s, .error y) => (s, .error y)
        | (s, .ok l) =>
          let (id, s) := s.fresh
          let e : TlbEntry := ⟨id, c, asid, va / 65536, l, s.clk, s.clk + a.tlbLease⟩
          ({ s with tlb := s.tlb ++ [e] }, .ok (use e))

/-- Translate for a need: the page, or the WHY of R319. -/
def State.translate (s : State) (c : CoreId) (asid va : Nat) (n : Need) (priv : Bool) : State × Except Nat Xlat :=
  match s.lookup c asid va with
  | (s, .error y) => (s, .error y)
  | (s, .ok x) => if x.leaf.allows n priv then (s, .ok x) else (s, .error 2)

/-- Translation by an engine or by a register write (R131, R237, R320, R342): user rights do not matter, the page must be
normal where `normal` says, and no TLB entry is used. -/
def State.probe (s : State) (path : List NodeId) (asid va : Nat) (n : Need) (normal : Bool) : State × Except Nat Xlat :=
  if 2 ^ 52 ≤ va then (s, .error 1)
  else
    match s.space? asid with
    | none => (s, .error 1)
    | some a =>
      match s.walk path a.ptb.toNat va with
      | (s, .error y) => (s, .error y)
      | (s, .ok l) =>
        (s, if !l.allows n true || (normal && l.mt != 0) then .error 2
          else .ok ⟨l.page va, l, ⟨asid, va / 65536, s.clk, none⟩⟩)

/-! ## Fault records (R320) -/

/-- A fault of a page and kind: joins an unresolved record or makes one; none where every fault of the space resolves as
unmappable at once (flt.cfg LOG = 0). -/
def State.raiseFault (s : State) (asid va : Nat) (n : Need) (why : Nat) (loc : BitVec 14) (seq : BitVec 32)
    (pc : Word) : State × Option Nat :=
  let log : Nat := match s.space? asid with
    | some a => field a.fltCfg 0 4
    | none => 0
  if log = 0 then (s, none)
  else
    match s.faults.find? (fun f => f.asid == asid && f.page == va / 65536 && f.kind == n.kind) with
    | some f => (s, some f.id)
    | none =>
      let (id, s) := s.fresh
      ({ s with faults := s.faults ++ [{ id := id, asid := asid, page := va / 65536, kind := n.kind, why := why,
                                         loc := loc, seq := seq, pc := pc }] }, some id)

end Sys2Proof.Machine
end

