-- ==== Sys2Proof/Machine/Access.lean ====
section
/-! DEFINITION. What a memory instruction does at issue: regions and address errors (R183, R184), watchpoints (R188,
R338), translation of each page once (R185), the accesses placed in the wave's queue (R39), held lanes (R189) and
side-log entries (R62, R190). -/

namespace Sys2Proof.Machine

/-- One access an instruction wants: lane, part, address (an offset for LDS and STS), size and store data. -/
structure Want where
  lane : Nat
  part : Nat := 0
  va : Nat
  size : Nat
  data : List Byte := []
  opA : W32 := 0
  opB : W32 := 0
  deriving DecidableEq, Repr

/-- How an instruction addresses memory: by scratchpad offset, or by virtual address with or without the window. -/
inductive Reach where
  | offset | virtual (window : Bool)
  deriving DecidableEq, Repr

/-- Where an address falls (R183). -/
inductive Where where
  | home (p : Place)
  | page
  | err (detail : Nat)
  deriving DecidableEq, Repr

/-- The cohorts of a grid (R260): NCOH cohorts, or NCOH ensembles of ENS cohorts. -/
def Grid.cohortCount (g : Grid) : Nat := g.launch.ncoh * g.launch.ens

/-- Whether an address lies in the aperture or window range of a running grid of the space other than the wave's own: no
cohort of it is the wave's (R138, R184). -/
def State.foreign (s : State) (own : Grid) (n : Nat) : Bool :=
  let within (base size count : Nat) : Bool := decide (base ≤ n) && decide (n < base + size * count)
  s.grids.any (fun g => g.uid != own.uid && g.asid == own.asid && !g.finished &&
    (within g.launch.spad 4194304 g.cohortCount || within g.launch.rwin 1048576 g.cohortCount))

/-- An address by R183 and R184, alignment apart. A wave that has exited keeps its window while its cohort stays (log 79). -/
def State.region (s : State) (w : Wave) (r : Reach) (a : Word) : Where :=
  match s.cohortOf w, s.gridOf w with
  | some c, some g =>
    let n := a.toNat
    match r with
    | .offset => if 2 ^ 52 ≤ n then .err 2 else if c.spadBytes ≤ n then .err 3 else .home (.spad c.uid n)
    | .virtual window =>
      if 2 ^ 52 ≤ n then .err 2
      else if g.launch.spad ≤ n ∧ n < g.launch.spad + 4194304 * g.cohortCount then
        if (n - g.launch.spad) / 4194304 = c.cid then
          let o := (n - g.launch.spad) % 4194304
          if c.spadBytes ≤ o then .err 3 else .home (.spad c.uid o)
        else .err 4
      else if g.launch.rwin ≤ n ∧ n < g.launch.rwin + 1048576 * g.cohortCount then
        if (n - g.launch.rwin) / 1048576 = c.cid then
          let i := (n - g.launch.rwin) % 1048576 / 65536
          if c.nwaves ≤ i then .err 3
          else if !window then .err 5
          else
            match s.waves.find? (fun x => x.cohort == c.uid && x.widx == i) with
            | some x => .home (.win x.uid ((n - g.launch.rwin) % 65536))
            | none => .err 3
        else .err 4
      else if s.foreign g n then .err 4
      else .page
  | _, _ => .err 2

/-- The detail of an access's address error: the lowest that applies (R184). -/
def State.addrError (s : State) (w : Wave) (r : Reach) (x : Want) (align : Nat) : Option Nat :=
  if x.va % align ≠ 0 then some 1
  else match s.region w r (BitVec.ofNat 64 x.va) with
    | .err d => some d
    | _ => none

/-- The first of some wants whose number by `f` is least. -/
def leastBy (f : Want → Nat) (x : Want) : List Want → Want
  | [] => x
  | y :: ys => leastBy f (if f y < f x then y else x) ys

/-- The PGF of an instruction some of whose lanes have address errors (R184): every lane with an error is in the mask, the
detail is the lowest that applies in the lowest such lane, and the address that of its first access in that error (log 83). -/
def State.addrTrap (s : State) (w : Wave) (o : Nat) (r : Reach) (xs : List Want) (align : Nat) : Option TrapInfo :=
  match xs.filter (fun x => (s.addrError w r x align).isSome) with
  | [] => none
  | x :: bad =>
    let detail (y : Want) : Nat := (s.addrError w r y align).getD 0
    let y := leastBy detail x (bad.filter (fun y => y.lane == x.lane))
    some { w.trapInfo 4 (detail y) with
           mask := (x :: bad).foldl (fun m y => m ||| laneBit y.lane) 0, addr := BitVec.ofNat 64 y.va,
           seq := w.nameSeq o }

/-! ## Watchpoints (R188, R338) -/

/-- Whether watchpoint slot `n` of a space hits an access: by virtual address, or by scratchpad offset. -/
def State.wpHit (s : State) (w : Wave) (a : Space) (n : Fin 8) (r : Reach) (rd wr lane0 : Bool) (x : Want) : Bool :=
  let wp := a.eb[32 + n.val]
  let wm := a.eb[40 + n.val]
  let lsz := field wp 52 5
  let start := field wp 0 52 / 2 ^ lsz * 2 ^ lsz
  let covers (v : Nat) : Bool := decide (v < start + 2 ^ lsz) && decide (start < v + x.size)
  let lane := if lane0 then 0 else x.lane
  wp.getLsbD 63 && wm.getLsbD lane && ((rd && wp.getLsbD 61) || (wr && wp.getLsbD 60)) &&
    (if wp.getLsbD 62 then
      (match s.region w r (BitVec.ofNat 64 x.va) with
        | .home (.spad _ o) => covers o
        | _ => false)
     else (match r with
        | .offset => false
        | .virtual _ => covers x.va))

/-- The want of the lowest lane. DESIGN CHOICE: of a lane with several the first, which of a NEST has the lowest t (R296;
log 97). -/
def lowestWant : List Want → Option Want
  | [] => none
  | x :: xs => match lowestWant xs with
    | some y => if y.lane < x.lane then some y else some x
    | none => some x

/-- WCH (R188, R338, R340): the lowest slot that hit, the union of hitting lanes, the lowest hitting lane's address; routed
if a hit slot routes. -/
def State.watch (s : State) (w : Wave) (o : Nat) (r : Reach) (rd wr lane0 : Bool) (xs : List Want) : Option TrapInfo :=
  match s.spaceOf w with
  | none => none
  | some a =>
    if w.exempt then none
    else
      let hits (n : Fin 8) : List Want := xs.filter (s.wpHit w a n r rd wr lane0)
      match (List.finRange 8).filter (fun n => !(hits n).isEmpty) with
      | [] => none
      | n :: _ =>
        let all := xs.filter (fun x => (List.finRange 8).any (fun n => s.wpHit w a n r rd wr lane0 x))
        some { w.trapInfo 6 n.val with
               mask := all.foldl (fun m x => m ||| laneBit (if lane0 then 0 else x.lane)) 0,
               addr := (match lowestWant all with
                 | some x => BitVec.ofNat 64 x.va
                 | none => 0), seq := w.nameSeq o,
               mbx := (List.finRange 8).any (fun k => !(hits k).isEmpty && a.eb[32 + k.val].getLsbD 59) }

/-! ## Placing accesses -/

/-- What the accesses of one instruction share. -/
structure Shared where
  kind : AccKind
  need : Need
  ord : MOrd := .plain
  level : Nat := 5
  evp : Nat := 0
  aop : Aop := .add
  defId : Option Nat := none
  instr : Nat
  deriving DecidableEq, Repr

/-- A page as an instruction's lookups found it: translated, or faulting with a record, or unmappable at once. -/
inductive PageRes where
  | ok (x : Xlat)
  | fault (why : Nat) (f : Option Nat)
  deriving DecidableEq, Repr

/-- A lookup's leaf under what an access needs. -/
def Xlat.check (x : Xlat) (n : Need) (priv : Bool) : Except Nat Xlat := if x.leaf.allows n priv then .ok x else .error 2

/-- The translation of a 64 KiB page by a leaf of 32 MiB that the instruction has looked up already. -/
def Xlat.sibling (x : Xlat) (p : Nat) : Xlat :=
  { x with base := x.leaf.page (p * 65536), trans := { x.trans with vpage := p } }

/-- The leaf of a page of an instruction: of its 32 MiB where the instruction has looked those up already, else of a lookup. -/
def State.findPage (s : State) (w : Wave) (big : List (Nat × Xlat)) (p : Nat) : State × Except Nat Xlat :=
  match big.find? (fun b => b.1 == p / 512) with
  | some b => (s, .ok (b.2.sibling p))
  | none => s.lookup w.core (s.asidOf w) (p * 65536)

/-- The leaves of 32 MiB looked up so far, with that of page `p` where it is one. -/
def noteBig (p : Nat) (found : Except Nat Xlat) (big : List (Nat × Xlat)) : List (Nat × Xlat) :=
  match found with
  | .ok x => if x.leaf.big then (p / 512, x) :: big else big
  | .error _ => big

/-- Look up each of an instruction's pages once, a page of 32 MiB once for all its parts (R185); post a fault for each that
faults, under the location the command issued at (R27, R320). -/
def State.pagesAt (s : State) (w : Wave) (loc : BitVec 14) (n : Need) (post : Bool) (o : Nat) :
    List Nat → List (Nat × Xlat) → State × List (Nat × PageRes)
  | [], _ => (s, [])
  | p :: ps, big =>
    let (s, found) := s.findPage w big p
    let (s, r) := match found.bind (fun x => x.check n w.priv) with
      | .ok x => (s, PageRes.ok x)
      | .error y =>
        if post then
          let (s, f) := s.raiseFault (s.asidOf w) (p * 65536) n y loc (w.nameSeq o) w.pc
          (s, .fault y f)
        else (s, .fault y none)
    let (s, rest) := s.pagesAt w loc n post o ps (noteBig p found big)
    (s, (p, r) :: rest)

/-- The same for an instruction that issues where its wave stands. -/
def State.pages (s : State) (w : Wave) (n : Need) (post : Bool) (o : Nat) (ps : List Nat) : State × List (Nat × PageRes) :=
  s.pagesAt w w.loc n post o ps []

/-- Whether an access of an EVP fills caches on a page: not where it streams, EVP 0 taking the page's default (R46, R49). -/
def fillsOn (evp : Nat) (l : Leaf) : Bool := (if evp = 0 then l.evp else evp) != 7 && l.mt == 0

/-- The access of a want at its home or on its translated page: the page's memory type overrides (R49), and a stream fills no
cache (R46). -/
def Want.toAccess (x : Want) (w : Wave) (h : Shared) (id asid : Nat) (pl : Place) (l : Option Xlat) (held : Option Nat) :
    Access :=
  let mt := match l with
    | some t => t.leaf.mt
    | none => 0
  { id := id, agent := .wave w.uid, core := w.core, instr := h.instr, kind := h.kind, place := pl, size := x.size,
    lane := x.lane, part := x.part, data := x.data, aop := h.aop, opA := x.opA, opB := x.opB,
    ord := if mt = 3 then .sc else h.ord, level := h.level, evp := h.evp,
    fill := (match l with
      | some t => fillsOn h.evp t.leaf
      | none => true),
    device := if mt = 2 then l.map (fun t => t.base) else none, wcomb := mt == 1, isSo := mt == 3,
    key := (match l with
      | some t => t.leaf.key
      | none => 0), priv := w.priv, defId := h.defId, va := x.va, asid := asid, trans := l.map (fun t => t.trans), held := held,
    pc := w.pc, seq := w.seq + 1, slot := w.slot.val }

/-- What an instruction's lookups found of the page of an address. -/
def pageOf (pg : List (Nat × PageRes)) (va : Nat) : Option PageRes :=
  (pg.find? (fun y => y.1 == va / 65536)).map (fun y => y.2)

/-- Place one access for each want whose page is not a faulting store's: loads of a faulting page are held (R189). A
lane whose fault resolves as unmappable at once is left out; `lost` collects those. -/
def placeAll (w : Wave) (h : Shared) (r : Reach) (pg : List (Nat × PageRes)) (hold : Bool) :
    List Want → State → State × List Want
  | [], s => (s, [])
  | x :: xs, s =>
    let (id, s) := s.fresh
    let asid := s.asidOf w
    let add (a : Access) : State := { s with accs := s.accs ++ [a] }
    match s.region w r (BitVec.ofNat 64 x.va) with
    | .home p => placeAll w h r pg hold xs (add (x.toAccess w h id asid p none none))
    | _ =>
      match pageOf pg x.va with
      | some (.ok t) =>
        placeAll w h r pg hold xs (add (x.toAccess w h id asid (.mem (t.base + x.va % 65536)) (some t) none))
      | some (.fault _ (some f)) =>
        placeAll w h r pg hold xs (if hold then add (x.toAccess w h id asid (.mem 0) none (some f)) else s)
      | _ =>
        let (s, lost) := placeAll w h r pg hold xs s
        (s, x :: lost)

/-- The translated pages an instruction's wants touch, each once, in lane order. -/
def State.pagesOf (s : State) (w : Wave) (r : Reach) (xs : List Want) : List Nat :=
  (xs.filter (fun x => match s.region w r (BitVec.ofNat 64 x.va) with
    | .page => true
    | _ => false)).foldl (fun l x => if l.contains (x.va / 65536) then l else l ++ [x.va / 65536]) []

/-- The pending faults a store takes for pages that are unmappable at once, one for each page: its entry is discarded as it
is made (R190, R320). -/
def lostStore (w : Wave) (h : Shared) (rmw : Option Aop) (xs : List Want) : List PendFault :=
  let pages := xs.foldl (fun l x => if l.contains (x.va / 65536) then l else l ++ [x.va / 65536]) []
  pages.flatMap (fun p =>
    match xs.filter (fun x => x.va / 65536 == p) with
    | [] => []
    | x :: ys => [{ seq := w.seq + 1, detail := 6, aux := 2,
                    mask := (x :: ys).foldl (fun m y => m ||| laneBit y.lane) 0, addr := BitVec.ofNat 64 x.va,
                    loc := some w.loc,
                    entry := some { instr := h.instr, spans := (x :: ys).map (fun y => (y.va, y.size)),
                                    rmw := rmw.isSome, sc := h.ord == .sc } }])

/-- A side-log entry for each faulting page of a store, RED or QST (R62). -/
def sideEntries (w : Wave) (h : Shared) (grid : Nat) (asid : Nat) (rmw : Option Aop) (xs : List Want) :
    List (Nat × PageRes) → State → State
  | [], s => s
  | (p, .fault _ (some f)) :: ps, s =>
    let (id, s) := s.fresh
    let lanes := (xs.filter (fun x => x.va / 65536 == p)).map (fun x => SideLane.mk x.lane x.va x.data)
    sideEntries w h grid asid rmw xs ps
      { s with side := s.side ++ [{ id := id, wave := w.uid, core := w.core, loc := w.loc, grid := grid, pc := w.pc, seq := w.seq + 1,
                                    instr := h.instr, asid := asid, page := p, user := !w.priv, ord := h.ord,
                                    level := h.level, evp := h.evp, rmw := rmw, lanes := lanes, fault := f }] }
  | _ :: ps, s => sideEntries w h grid asid rmw xs ps s

/-- The grid number of a wave. -/
def State.gridUid (s : State) (w : Wave) : Nat :=
  match s.gridOf w with
  | some g => g.uid
  | none => 0

/-- A load, ATOM, QLD or TLD at issue: its accesses join the queue, its result becomes pending (R139, R192). -/
def loadIssue (s : State) (w v : Wave) (h : Shared) (o : Nat) (r : Reach) (xs : List Want) (dest : DefDest) : State × Wave :=
  let (id, s) := s.fresh
  let h := { h with defId := some id }
  let (s, pg) := s.pages w h.need true o (s.pagesOf w r xs)
  let (s, lost) := placeAll w h r pg true xs s
  let d : Def := { id := id, seq := w.seq + 1, pc := w.pc, dest := dest, mask := w.em }
  let d := match lost with
    | [] => d
    | x :: _ => { d with lost := lost.foldl (fun m y => m ||| laneBit y.lane) 0, lostAddr := BitVec.ofNat 64 x.va,
                         lostLane := x.lane, lostAux := h.need.kind }
  (s, { v with defs := v.defs ++ [d] })

/-- A store, RED, QST or TST at issue (R190, R193, R195). -/
def storeIssue (s : State) (w v : Wave) (h : Shared) (o : Nat) (r : Reach) (rmw : Option Aop) (xs : List Want) :
    State × Wave :=
  let (s, pg) := s.pages w h.need true o (s.pagesOf w r xs)
  let (s, lost) := placeAll w h r pg false xs s
  let s := sideEntries w h (s.gridUid w) (s.asidOf w) rmw xs pg s
  (s, { v with pends := v.pends ++ lostStore w h rmw lost })

/-- How many side-log entries a store would need now, and how many the core has left of its 256 (R62). -/
def State.sideRoom (s : State) (w : Wave) (n : Need) (r : Reach) (xs : List Want) : Bool :=
  let need := ((s.pages w n true 0 (s.pagesOf w r xs)).2.filter (fun x => match x.2 with
    | .fault _ (some _) => true
    | _ => false)).length
  need == 0 || decide ((s.side.filter (fun e => e.core == w.core)).length + need ≤ 256)

/-! ## What comes before the accesses -/

/-- Where a memory instruction stands against the wave's side log (R40, R49, R64, R190). It takes the fault of a discarded entry
that it would have waited for: it touches a byte of it, the entry was SC, or a page of its own is strongly ordered, so that it
waits for every entry. For an entry that stands it waits here where it is SC in one of the two last ways, so that the entry's
fault can be taken at it (log 94); for the bytes of one its accesses wait. `k` goes on. -/
def sideGate (s : State) (w : Wave) (r : Reach) (n : Need) (xs : List Want) (k : State → Res) : Res :=
  let gone := w.pends.filterMap (fun p => p.entry)
  let live := s.sideOf w.uid
  if (gone.isEmpty && live.isEmpty) || xs.isEmpty then k s
  else
    let paged := xs.filter (fun x => s.region w r (BitVec.ofNat 64 x.va) == .page)
    if gone.any (fun d => d.sc || d.spans.any (fun y => paged.any (fun x => meet y.1 y.2 x.va x.size))) then
      .trap s w (w.trapInfo 4 6)
    else if live.any (fun e => e.ord == .sc) then .hold s w .order
    else
      let (s, pg) := s.pages w n false 0 (s.pagesOf w r xs)
      if pg.any (fun p => match p.2 with
        | .ok x => x.leaf.mt == 3
        | .fault _ _ => false) then
        if gone.isEmpty then .hold s w .order else .trap s w (w.trapInfo 4 6)
      else k s

/-- What a memory instruction meets before its accesses: its side log (R190), address errors (R184), watchpoints (R188); `k`
goes on where there is none. -/
def memGate (s : State) (w : Wave) (o : Nat) (r : Reach) (n : Need) (rd wr : Bool) (xs : List Want) (align : Nat)
    (k : State → Res) : Res :=
  sideGate s w r n xs (fun s =>
    match s.addrTrap w o r xs align with
    | some t => .trap s w t
    | none =>
      match s.watch w o r rd wr false xs with
      | some t => .trap s w t
      | none => k s)

end Sys2Proof.Machine
end

