-- ==== Sys2Proof/Machine/Mem.lean ====
section
/-! DEFINITION. Loads and stores (R191 to R193), read-modify-writes (R194, R195), FENCE, PREF and TRES (R196 to R198). -/

namespace Sys2Proof.Machine

/-- The request of an instruction with a memory operand. -/
def mreq (h : Head) (opc : Nat) (base : SReg) (index : VSrc) (o : MOrd) : Req :=
  { h := h, opc := opc, len := 16, rs := base :: srcSregs index, rv := srcRegs index, fv := srcFrees index,
    sideWait := o == .rel || o == .sc, uses := [.through index] }

/-- One want for each active lane, lanes ascending (R182). -/
def wantsOf (w : Wave) (m : MemOp) (scale size : Nat) (data : Fin 32 → List Byte) : List Want :=
  (lanesOf w.em).map (fun l =>
    { lane := l.val, va := (w.laneAddr m.base m.index (m.ofs.signExtend 64) scale l).toNat, size := size, data := data l })

/-- A 16-byte access as two single-copy atomic accesses of 8 bytes (R37). -/
def splitWants (xs : List Want) : List Want :=
  xs.flatMap (fun x =>
    if x.size = 16 then
      [{ x with size := 8, data := x.data.take 8 }, { x with part := 1, va := x.va + 8, size := 8, data := x.data.drop 8 }]
    else [x])

/-- A fresh position in program order. -/
def State.position (s : State) : Nat × State := s.fresh

/-- A load (R192). -/
def loadForm (h : Head) (opc : Nat) (d : VNum) (m : MemOp) (sz : Szt) (o : MMod) (r : Reach) (scale : Nat) :
    State → Host.Outcome State Fault Refusal :=
  issue (mreq h opc m.base m.index o.ord) (fun s w v =>
    let xs := wantsOf w m scale (sztBytes sz) (fun _ => [])
    memGate s w opc r .read true false xs (sztBytes sz) (fun s =>
      let (n, s) := s.position
      let k : Shared := { kind := .load, need := .read, ord := o.ord, level := o.scope.val, evp := o.evp.val, instr := n }
      let same := w.sameAddr m.index
      let (s, v) := loadIssue s w v k opc r (splitWants xs) (.vload d sz same)
      .ok s v (same && (w.em == 0xFFFFFFFF || w.em == 0))))

/-- LD (R191, R192). -/
def execLd (h : Head) (d : VNum) (m : MemOp) (sz : Szt) (o : MMod) : State → Host.Outcome State Fault Refusal :=
  loadForm h 0x200 d m sz o (.virtual true) 1

/-- LDS: by scratchpad offset (R183, R191). -/
def execLds (h : Head) (d : VNum) (m : MemOp) (sz : Szt) (o : MMod) : State → Host.Outcome State Fault Refusal :=
  loadForm h 0x202 d m sz o .offset 1

/-- LDB: the index counts elements (R182, R191). -/
def execLdb (h : Head) (d : VNum) (m : MemOp) (sz : Szt) (o : MMod) : State → Host.Outcome State Fault Refusal :=
  loadForm h 0x204 d m sz o (.virtual true) (sztBytes sz)

/-- The registers of a store's data operand. -/
def dataRegs (c : VSrc) (n : Nat) : List VNum :=
  match c with
  | .vec r _ _ => groupRegs r n
  | .sca _ => []

/-- The bytes a lane stores (R193): the low bytes of one register, or the words of a group, low word first. -/
def storeData (w : Wave) (c : VSrc) (sz : Szt) (l : Fin 32) : List Byte :=
  match c, sz.regs with
  | .vec r _ _, n + 2 => (groupRegs r (n + 2)).flatMap (fun q => leOf 4 ((w.vreg q).lane l).toNat)
  | c, _ => leOf (sztBytes sz) ((w.src c).lane l).toNat

/-- The registers a data operand frees. -/
def dataFrees (c : VSrc) (n : Nat) : List VNum :=
  match c with
  | .vec r _ true => groupRegs r n
  | _ => []

/-- Whether a store's data is uniform or affine, as the operand stands after the crossbar (R147). -/
def dataUA (w : Wave) (c : VSrc) (sz : Szt) : Bool :=
  if sz.regs = 1 then (w.src c).isUA else (dataRegs c sz.regs).all (fun q => (w.vreg q).isUA)

/-- A store (R193). -/
def storeForm (h : Head) (opc : Nat) (m : MemOp) (c : VSrc) (sz : Szt) (o : MMod) (r : Reach) (scale : Nat) :
    State → Host.Outcome State Fault Refusal :=
  issue (let q := mreq h opc m.base m.index o.ord
         { q with rs := q.rs ++ srcSregs c, rv := q.rv ++ dataRegs c sz.regs, fv := q.fv ++ dataFrees c sz.regs,
                  uses := q.uses ++ [.through c] }) (fun s w v =>
    let xs := wantsOf w m scale (sztBytes sz) (storeData w c sz)
    memGate s w opc r .write false true xs (sztBytes sz) (fun s =>
      if s.sideRoom w .write r xs then
        let (n, s) := s.position
        let k : Shared := { kind := .store, need := .write, ord := o.ord, level := o.scope.val, evp := o.evp.val, instr := n }
        let (s, v) := storeIssue s w v k opc r none (splitWants xs)
        .ok s v (w.oneAddr m.index && dataUA w c sz)
      else .hold s w .sideLog))

/-- ST (R191, R193). -/
def execSt (h : Head) (m : MemOp) (c : VSrc) (sz : Szt) (o : MMod) : State → Host.Outcome State Fault Refusal :=
  storeForm h 0x201 m c sz o (.virtual true) 1

/-- STS: by scratchpad offset (R183, R191). -/
def execSts (h : Head) (m : MemOp) (c : VSrc) (sz : Szt) (o : MMod) : State → Host.Outcome State Fault Refusal :=
  storeForm h 0x203 m c sz o .offset 1

/-- STB: the index counts elements (R182, R191). -/
def execStb (h : Head) (m : MemOp) (c : VSrc) (sz : Szt) (o : MMod) : State → Host.Outcome State Fault Refusal :=
  storeForm h 0x205 m c sz o (.virtual true) (sztBytes sz)

/-! ## Read-modify-writes -/

/-- One want for each active lane of an ATOM or RED. -/
def rmwWants (w : Wave) (m : MemOp20) (c : VSrc) (op : Aop) : List Want :=
  (lanesOf w.em).map (fun l =>
    let a := (w.src c).lane l
    let b := match c with
      | .vec r _ _ => if op = .cas then (w.vreg (groupReg r 1)).lane l else 0
      | .sca _ => 0
    { lane := l.val, va := (w.laneAddr m.base m.index (m.ofs.signExtend 64) 1 l).toNat, size := 4,
      data := leOf 4 a.toNat, opA := a, opB := b })

/-- The registers of an ATOM's operand C: a pair for .cas (R194). -/
def rmwRegs (c : VSrc) (op : Aop) : List VNum := dataRegs c (if op = .cas then 2 else 1)

/-- ATOM (R194): deferred; the page must be readable and writable. -/
def execAtom (h : Head) (d : VNum) (m : MemOp20) (c : VSrc) (op : Aop) (o : MMod) : State → Host.Outcome State Fault Refusal :=
  issue (let q := mreq h 0x206 m.base m.index o.ord
         { q with rs := q.rs ++ srcSregs c, rv := q.rv ++ rmwRegs c op,
                  fv := q.fv ++ dataFrees c (if op = .cas then 2 else 1), uses := q.uses ++ [.through c] }) (fun s w v =>
    let xs := rmwWants w m c op
    memGate s w 0x206 (.virtual true) .update true true xs 4 (fun s =>
      let (n, s) := s.position
      let k : Shared := { kind := .rmw, need := .update, ord := o.ord, level := o.scope.val, evp := o.evp.val, aop := op,
                          instr := n }
      let (s, v) := loadIssue s w v k 0x206 (.virtual true) xs (.vatom d)
      .ok s v false))

/-- RED (R195). -/
def execRed (h : Head) (m : MemOp20) (c : VSrc) (op : Aop) (o : MMod) : State → Host.Outcome State Fault Refusal :=
  issue (let q := mreq h 0x207 m.base m.index o.ord
         { q with rs := q.rs ++ srcSregs c, rv := q.rv ++ rmwRegs c op, fv := q.fv ++ srcFrees c,
                  uses := q.uses ++ [.through c] }) (fun s w v =>
    let xs := rmwWants w m c op
    memGate s w 0x207 (.virtual true) .update true true xs 4 (fun s =>
      if s.sideRoom w .update (.virtual true) xs then
        let (n, s) := s.position
        let k : Shared := { kind := .rmw, need := .update, ord := o.ord, level := o.scope.val, evp := o.evp.val, aop := op,
                            instr := n }
        let (s, v) := storeIssue s w v k 0x207 (.virtual true) (some op) xs
        .ok s v (w.oneAddr m.index && (w.src c).isUA)
      else .hold s w .sideLog))

/-! ## Fences, prefetch, residency -/

/-- An access of the wave that touches no location: a fence or a barrier arrival, `lane` naming the barrier. -/
def barAccess (w : Wave) (id instr : Nat) (kind : AccKind) (ord : MOrd) (level lane : Nat) : Access :=
  { id := id, agent := .wave w.uid, core := w.core, instr := instr, kind := kind, place := .mem 0, ord := ord,
    level := level, lane := lane, pc := w.pc, seq := w.seq, slot := w.slot.val }

/-- FENCE (R47, R196): it joins the queue, and performs as R40 and R47 let it. -/
def execFence (h : Head) (ord : MOrd) (scope : Fin 6) : State → Host.Outcome State Fault Refusal :=
  issue { h := h, opc := 0x208, len := 16, sideWait := ord != .acq } (fun s w v =>
    let (id, s) := s.fresh
    let (n, s) := s.position
    .ok { s with accs := s.accs ++ [barAccess w id n .fence ord scope.val 0] } v true)

/-- The level of the node PREF fills (R197). -/
def prefLevel (scope : Nat) : Nat := if scope ≤ 1 then 1 else if scope = 2 then 2 else 3

/-- PREF (R197): lanes on faulting, device, strongly ordered or write-combining pages, at addresses that are not
canonical, or in a core-homed region do nothing. -/
def execPref (h : Head) (m : MemOp) (scope : Fin 6) (evp : Fin 8) : State → Host.Outcome State Fault Refusal :=
  issue (mreq h 0x209 m.base m.index .plain) (fun s w v =>
    let xs := (wantsOf w m 1 1 (fun _ => [])).filter (fun x => s.region w (.virtual true) (BitVec.ofNat 64 x.va) == .page)
    let xs := xs.map (fun x => { x with va := x.va / 128 * 128, size := 128 })
    sideGate s w (.virtual true) .read xs (fun s =>
      let (n, s) := s.position
      let (s, pg) := s.pages w .read false 0x209 (s.pagesOf w (.virtual true) xs)
      let ok := pg.filter (fun p => match p.2 with
        | .ok t => t.leaf.mt == 0
        | .fault _ _ => false)
      let k : Shared := { kind := .pref, need := .read, level := prefLevel scope.val, evp := evp.val, instr := n }
      let (s, _) := placeAll w k (.virtual true) ok false xs s
      .ok s v (w.oneAddr m.index)))

/-- TRES (R198): the handle is uniform-required; priority 0 frees it, and a TRES replaces what the handle held. -/
def execTres (h : Head) (base : SReg) (ofs : BitVec 26) (c : VSrc) (evp : Fin 8) (scope : Fin 6) :
    State → Host.Outcome State Fault Refusal :=
  issue { h := h, opc := 0x20A, len := 16, rs := base :: srcSregs c, rv := srcRegs c, fv := srcFrees c, uses := [.one c] } (fun s w v =>
    match checkUniform w.em (w.src c) with
    | .error d => .trap s w (w.unf 0x20A d)
    | .ok x =>
      let handle := x.toNat / 2 ^ 24
      let t : Tensor := { handle := handle, asid := s.asidOf w,
                          base := (w.sget base + ofs.signExtend 64).toNat / 65536 * 65536, pages := x.toNat % 2 ^ 24,
                          evp := evp.val }
      let set (s : State) (d : Fin 8) : State :=
        let k := s.dieOf d
        let others := k.tensors.filter (fun y => y.handle != handle)
        s.putDie { k with tensors := if evp = 0 then others else others ++ [t] }
      let s := if scope.val = 3 then set s w.core.die
        else ((List.finRange 8).filter (fun d => s.mod.cfg.dies.getLsbD d.val)).foldl set s
      .ok s v (w.src c).isUA)

end Sys2Proof.Machine
end

