-- ==== Sys2Proof/Machine/Sync.lean ====
section
/-! DEFINITION. Monitors (R59 to R61, R202 to R204) and barriers (R56 to R58, R205 to R208): the instructions, and what
their resumption does. -/

namespace Sys2Proof.Machine

/-! ## MON and MWAIT -/

/-- MON (R202): its address is the same in every lane and is taken from lane 0 where em is 0; a translation fault is a
precise PGF with detail 8; its access joins the queue and arms the line when it performs. -/
def execMon (h : Head) (m : MemOp) (scope : Fin 6) (evp : Fin 8) : State → Host.Outcome State Fault Refusal :=
  issue { mreq h 0x20B m.base m.index .plain with uses := [.one m.index] } (fun s w v =>
    match (match m.index with
      | .sca _ => Except.ok 0
      | .vec _ _ _ => checkUniform w.em (w.src m.index)) with
    | .error d => .trap s w (w.unf 0x20B d)
    | .ok _ =>
      let l : Fin 32 := match lanesOf w.em with
        | f :: _ => f
        | [] => 0
      let x : Want := { lane := 0, va := (w.laneAddr m.base m.index (m.ofs.signExtend 64) 1 l).toNat, size := 1 }
      sideGate s w (.virtual true) .read [x] (fun s =>
        match s.addrError w (.virtual true) x 1 with
        | some e => .trap s w { w.trapInfo 4 e with addr := BitVec.ofNat 64 x.va, seq := w.seq + 1 }
        | none =>
          match s.watch w 0x20B (.virtual true) true false true [x] with
          | some t => .trap s w t
          | none =>
            let (n, s) := s.position
            let k : Shared := { kind := .mon, need := .read, level := scope.val, evp := evp.val, instr := n }
            let (s, pg) := s.pages w .read false 0x20B (s.pagesOf w (.virtual true) [x])
            match pg with
            | (_, .fault why _) :: _ =>
              .trap s w { w.trapInfo 4 8 with aux := why, addr := BitVec.ofNat 64 x.va, seq := w.seq + 1 }
            | _ =>
              let (s, _) := placeAll w k (.virtual true) pg false [x] s
              .ok s v (w.oneAddr m.index)))

/-- A slot's arm point; 0 for a free slot. -/
def Wave.slotAge (w : Wave) (k : Fin 4) : Nat :=
  match w.mons[k.val] with
  | some m => m.order
  | none => 0

/-- The oldest armed slot (R202). -/
def Wave.oldestSlot (w : Wave) : Fin 4 :=
  [1, 2, 3].foldl (fun (o k : Fin 4) => if w.slotAge k < w.slotAge o then k else o) 0

/-- The slot a line takes (R202): its own, the lowest free one, or the oldest. -/
def Wave.slotFor (w : Wave) (line : Place) : Fin 4 :=
  let held (k : Fin 4) : Bool := match w.mons[k.val] with
    | some m => m.line == line
    | none => false
  match (List.finRange 4).find? held with
  | some k => k
  | none =>
    match (List.finRange 4).find? (fun k => w.mons[k.val].isNone) with
    | some k => k
    | none => w.oldestSlot

/-- The slice and set of a line: which slice a line's home is the spec does not say, and a slice has 128 sets (R204; log
47). -/
def monSetOf (line : Nat) : Nat × Nat := ((Config.monSet line).1, (Config.monSet line).2 % 128)

/-- The armed lines of translated memory in one set of a slice: wave, slot and arm point (R204). -/
def State.monSetEntries (s : State) (set : Nat × Nat) : List (Nat × Fin 4 × Nat) :=
  s.waves.flatMap (fun w => (List.finRange 4).flatMap (fun k => match w.mons[k.val] with
    | some m => (match m.line with
      | .mem n => if monSetOf n = set then [(w.uid, k, m.order)] else []
      | _ => [])
    | none => []))

/-- A MON that finds its set full evicts the entry with the oldest arm point, whose wave wakes with WHY 2 (R204). -/
def State.monEvict (s : State) (line : Place) : State :=
  match line with
  | .mem n =>
    let es := s.monSetEntries (monSetOf n)
    if es.length < 8 then s
    else
      match es with
      | [] => s
      | e :: es =>
        let o := es.foldl (fun a b => if b.2.2 < a.2.2 then b else a) e
        match s.wave? o.1 with
        | some w => s.putWave ({ w with mons := w.mons.set o.2.1.val none, wakeLevel := max w.wakeLevel w.monLevel }.addWake 2 o.2.1.val)
        | none => s
  | _ => s

/-- The lowest slot among the causes of one reason; 0 for the reasons that have none (R203). -/
def wakeSlot (ws : List Wake) (why : Nat) : Nat :=
  if why = 1 ∨ why = 2 then
    (ws.filter (fun x => x.why == why)).foldl (fun n x => min n x.slot) 3
  else 0

/-- MWAIT's result (R203): the first of the reasons 1, 5, 2, 3, 4 that stands. -/
def Wave.mwaitValue (w : Wave) : Word :=
  let has (n : Nat) : Bool := w.wakes.any (fun x => x.why == n)
  let why := if has 1 then 1 else if w.intp then 5 else if has 2 then 2 else if has 3 then 3 else 4
  place (wakeSlot w.wakes why) 4 ||| place why 0

/-- What every return of MWAIT does (R61, R203): the acquire is at the highest level of the lines that were armed, those
that an eviction or a context switch has disarmed since among them. -/
def mwaitReturn (s : State) (w : Wave) (d : SReg) : State × Wave :=
  (s.acquire w.core (max w.wakeLevel w.monLevel),
    { (w.sset d w.mwaitValue).disarm with wakes := [], wakeLevel := 0, park := .none })

/-- MWAIT (R203): with a wake pending, an interrupt pending, or no ticks to wait, it returns at once. -/
def execMwait (h : Head) (d a : SReg) : State → Host.Outcome State Fault Refusal :=
  issue { h := h, opc := 0x20C, len := 8, rs := [a], ws := [d] } (fun s w v =>
    if w.intp ∨ w.wakes ≠ [] ∨ w.sget a = 0 then
      let (s, v) := mwaitReturn s v d
      .ok s v true
    else .parked s { v with park := .mwait d s.clk (w.sget a).toNat } true)

/-! ## Barriers -/

/-- Whether an arrival of the wave on a barrier still stands in its queue. -/
def State.arrivalQueued (s : State) (w : Wave) (k : AccKind) (n : Nat) : Bool :=
  s.accs.any (fun a => a.agent == .wave w.uid && a.kind == k && a.lane == n)

/-- The current generation of a cohort barrier. -/
def State.barGen (s : State) (w : Wave) (b : Fin 16) : Nat :=
  match s.cohortOf w with
  | some c => c.bars[b.val].gen
  | none => 0

/-- The current generation of an ensemble barrier. -/
def State.ebarGen (s : State) (w : Wave) (e : Fin 4) : Nat :=
  match s.ensOf w with
  | some x => x.bars[e.val].gen
  | none => 0

/-- Queue an arrival (R56): it performs as a release at the barrier's level does. -/
def State.queueArrival (s : State) (w : Wave) (k : AccKind) (level n : Nat) : State :=
  let (id, s) := s.fresh
  let (p, s) := s.position
  { s with accs := s.accs ++ [barAccess w id p k .rel level n] }

/-- BAR (R205, R206): a wave that has already arrived in the current generation parks uncounted until it completes. -/
def execBar (h : Head) (b : Fin 16) : State → Host.Outcome State Fault Refusal :=
  issue { h := h, opc := 0x210, len := 8, sideWait := true } (fun s w v =>
    if s.arrivalQueued w .arriveB b.val then .hold s v .order
    else if w.arrB[b.val] = s.barGen w b then .parked s { v with park := .barNext b } true
    else .parked (s.queueArrival w .arriveB 1 b.val) { v with park := .bar b } true)

/-- BARA (R205, R206): the arrival joins the queue and the wave goes on; one that has already arrived parks as BAR does. -/
def execBara (h : Head) (b : Fin 16) : State → Host.Outcome State Fault Refusal :=
  issue { h := h, opc := 0x211, len := 8, sideWait := true } (fun s w v =>
    if s.arrivalQueued w .arriveB b.val then .hold s v .order
    else if w.arrB[b.val] = s.barGen w b then .parked s { v with park := .baraNext b } true
    else .ok (s.queueArrival w .arriveB 1 b.val) v true)

/-- The weight class of the largest weight of the last 256 core cycles (R208). -/
def weightClass (ws : List (Nat × Nat)) (now : Nat) : Nat :=
  let m := (ws.filter (fun x => now < x.1 + 256)).foldl (fun n x => max n x.2) 0
  if m ≤ 1 then 0 else if m = 2 then 1 else if m = 4 then 2 else if m = 6 then 3 else 4

/-- A waiter's phase (R207, R208): its MAP entry, lowered to P − 1. -/
def phaseOf (cfg : Word) (idx cls : Nat) : Nat :=
  min (field cfg (3 * (if cfg.getLsbD 63 then cls else idx)) 3) (field cfg 60 3)

/-- The first cycle a phase may resume, and the last (R57). -/
def phaseWindow (d : BDone) (p : Nat) : Nat × Nat := (d.t0 + p * field d.cfg 52 8, d.t0 + p * field d.cfg 52 8 + 64)

/-- The record of a completed generation. -/
def doneOf (l : List BDone) (gen : Nat) : Option BDone := l.find? (fun d => d.gen == gen)

/-- The completion record of a wave's arrival on a cohort barrier, with the wave's phase. -/
def State.barDone (s : State) (w : Wave) (b : Fin 16) : Option (BDone × Nat) :=
  match s.cohortOf w with
  | some c => (doneOf c.bdone[b.val] w.arrB[b.val]).map (fun d => (d, phaseOf d.cfg w.widx w.clsB[b.val]))
  | none => none

/-- The same of an ensemble barrier: MODE 0 maps the cohort's index (R207). -/
def State.ebarDone (s : State) (w : Wave) (e : Fin 4) : Option (BDone × Nat) :=
  match s.cohortOf w with
  | some c => (doneOf c.edone[e.val] w.arrE[e.val]).map (fun d => (d, phaseOf d.cfg c.ensIdx w.clsE[e.val]))
  | none => none

/-- BARW (R57, R205, R206): at once where the wave never arrived, or where its phase's window has passed; otherwise it
parks. -/
def execBarw (h : Head) (b : Fin 16) : State → Host.Outcome State Fault Refusal :=
  issue { h := h, opc := 0x212, len := 8 } (fun s w v =>
    let now := s.clkOf w.core
    let resume : Res := .ok (s.acquire w.core 1) v true
    let park : Res := .parked s { v with park := .barw b, barwAt := now } true
    if s.arrivalQueued w .arriveB b.val then .hold s v .order
    else if w.arrB[b.val] = 0 then resume
    else if w.arrB[b.val] = s.barGen w b then park
    else match s.barDone w b with
      | some (d, p) => if (phaseWindow d p).2 < now then resume else park
      | none => resume)

/-- EBAR (R205, R206). -/
def execEbar (h : Head) (e : Fin 4) : State → Host.Outcome State Fault Refusal :=
  issue { h := h, opc := 0x213, len := 8, sideWait := true } (fun s w v =>
    if s.arrivalQueued w .arriveE e.val then .hold s v .order
    else if w.arrE[e.val] = s.ebarGen w e then .parked s { v with park := .ebarNext e } true
    else .parked (s.queueArrival w .arriveE 2 e.val) { v with park := .ebar e } true)

end Sys2Proof.Machine
end

