-- ==== Sys2Proof/Machine/Nest.lean ====
section
/-! DEFINITION. The loop nest (R199 to R201): its issue, the accesses of one iteration and their place in the queue, its
arithmetic, and how the iterations not yet placed order against the wave's later accesses. -/

namespace Sys2Proof.Machine

/-- Whether an operation reads operand 2 (R199). -/
def eopTwo : Eop → Bool
  | .copy | .relu => false
  | _ => true

/-- The iterations of a nest: the product of its extents. -/
def Nest.total (n : Nest) : Nat := (n.args.ext.toList.map (fun e => e.toNat)).foldl (· * ·) 1

/-- The index of level k at a position, level 0 innermost (R200). -/
def Nest.idx (n : Nest) (pos k : Nat) : Nat :=
  let e (j : Nat) : Nat := (n.args.ext.toList.getD j 0).toNat
  let below := ((List.range k).map e).foldl (· * ·) 1
  pos / below % e k

/-- off[o] of R200: the sum over the levels of index times stride. -/
def Nest.off (n : Nest) (pos o : Nat) : Int :=
  ((List.range 5).map (fun k => (n.idx pos k : Int) * (n.args.str.toList.getD (5 * o + k) 0).toInt)).foldl (· + ·) 0

/-- Bytes of a source element as NEST addresses it: 4-bit elements share a byte (R114, R200). -/
def nestBytes (f : Fmt) : Nat := (fmtSlot f + 7) / 8

/-- An address moved by a signed offset, modulo 2^64. -/
def moved (base : Word) (d : Int) : Nat := (base + BitVec.ofInt 64 d).toNat

/-- The byte address of source element e (R200). -/
def nestSrc (f : Fmt) (base : Word) (e : Int) : Nat :=
  if fmtSlot f = 4 then moved base (e / 2) else moved base (nestBytes f * e)

/-- Whether the destination is read: reductions and .mac (R200). -/
def Nest.readsDest (n : Nest) : Bool := n.args.red || n.args.eop == .mac

/-- The reads of one iteration, in the order written (R200): element and scale byte of operand 1, of operand 2, then the
destination. The part number tells them apart. -/
def Nest.reads (n : Nest) (pos : Nat) : List Want :=
  let src (part : Nat) (base scale : Word) (e : Int) : List Want :=
    { lane := 0, part := part, va := nestSrc n.fmt base e, size := nestBytes n.fmt } ::
      (if n.scaled then [{ lane := 0, part := part + 1, va := moved scale (e / 32), size := 1 }] else [])
  src 0 n.base1 n.scale1 (n.off pos 1) ++ (if eopTwo n.args.eop then src 2 n.base2 n.scale2 (n.off pos 2) else []) ++
    (if n.readsDest then [{ lane := 0, part := 4, va := moved n.base0 (4 * n.off pos 0), size := 4 }] else [])

/-- The store of one iteration, its data apart. -/
def Nest.write (n : Nest) (pos : Nat) : Want := { lane := 0, part := 5, va := moved n.base0 (4 * n.off pos 0), size := 4 }

/-- A source value before the operation (R122, R199): widened, scaled, rounded to FP32 once; as an FP32 word, or for an
integer format as the INT32 that the word narrows to (R116, R117). -/
def nestElem (f : Fmt) (scaled : Bool) (odd : Bool) (bytes : List Byte) (scale : Nat) : W32 :=
  let raw := leVal bytes
  let code := if fmtSlot f = 4 then (if odd then raw / 16 else raw % 16) else raw % 2 ^ fmtBits f
  let v := decodeElem f code
  let x := to32 (if scaled then scaleNum v scale else v)
  if fmtIsInt f then fToInt x else x

/-- The element operation on INT32 (R199): wrapping, signed comparisons. -/
def nestInt (op : Eop) (red : Bool) (x y d : W32) : W32 :=
  let r := match op with
    | .copy => x
    | .add => x + y
    | .sub => x - y
    | .mul => x * y
    | .mac => d + x * y
    | .min => minS x y
    | .max => maxS x y
    | .relu => if (0 : W32).slt x then x else 0
  if red then (match op with
    | .min => minS d r
    | .max => maxS d r
    | _ => d + r)
  else r

/-- The element operation on FP32, one rounding a step (R199). -/
def nestFloat (op : Eop) (red : Bool) (x y d : W32) : W32 :=
  let r := match op with
    | .copy => x
    | .add => fAdd x y
    | .sub => fSub x y
    | .mul => fMul x y
    | .mac => fFma x y d
    | .min => fMin x y
    | .max => fMax x y
    | .relu => if fCompare x 0 = some .gt then x else 0
  if red then (match op with
    | .min => fMin d r
    | .max => fMax d r
    | _ => fAdd d r)
  else r

/-- Whether a nest would have waited for a discarded side-log entry: one of its accesses touches a byte of it (R40, R190).
-/
def Nest.owes (w : Wave) (n : Nest) : Bool :=
  let gone := w.pends.filterMap (fun p => p.entry)
  !gone.isEmpty && (gone.any (fun d => d.sc) || (List.range n.total).any (fun k =>
    (n.reads k ++ [n.write k]).any (fun x => gone.any (fun d => d.spans.any (fun y => meet y.1 y.2 x.va x.size)))))

/-- The accesses of the iterations a nest has still to place. -/
def Nest.rest (n : Nest) : List Want := (List.range (n.total - n.pos)).flatMap (fun k => n.reads (n.pos + k) ++ [n.write (n.pos + k)])

/-- The pages of a nest's unplaced accesses. -/
def Nest.pages (n : Nest) : List Nat := (n.rest.map (fun x => x.va / 65536)).dedup

/-- The page of an address as a walk finds it now. -/
def State.peek (s : State) (w : Wave) (page : Nat) : Option Xlat :=
  match s.probe (corePath w.core) (s.asidOf w) (page * 65536) .read false with
  | (_, .ok x) => some x
  | (_, .error _) => none

/-- Where a nest stands against the wave's side log, as sideGate has it of another instruction; a nest is never SC, and its pages
are as a walk finds them at its issue (R40, R49, R190). -/
def nestGate (s : State) (w : Wave) (n : Nest) (k : Res) : Res :=
  let gone := w.pends.any (fun p => p.entry.isSome)
  let live := s.sideOf w.uid
  let ordered (_ : Unit) : Bool := n.pages.any (fun p => match s.peek w p with
    | some x => x.leaf.mt == 3
    | none => false)
  if n.owes w || (gone && ordered ()) then .trap s w (w.trapInfo 4 6)
  else if live.any (fun e => e.ord == .sc) || (!live.isEmpty && ordered ()) then .hold s w .order
  else k

/-- NEST (R199 to R201): the slot must be bound; with a scale, BS1 and BS2 at most 62, and what R121 refuses traps with R88's
frame (log 91); a fifth waits for one of four to finish, stopped ones among the four (log 101); the base registers are read at
issue. -/
def execNest (h : Head) (n : NestArgs) : State → Host.Outcome State Fault Refusal :=
  issue { h := h, opc := 0x218, len := 32, rs := [n.bs0, n.bs1] ++ (if eopTwo n.eop then [n.bs2] else []) } (fun s w v =>
    let slot := s.slotOf w n.fs
    let scaled := slotScaled slot
    let nextReg (r : SReg) : SReg := r + 1
    if !slotBound slot || (scaled && (n.bs1.val == 63 || (eopTwo n.eop && n.bs2.val == 63))) then .trap s w (w.trapInfo 1 0)
    else if n.ext.toList.any (fun e => e == 0) then .ok s v true
    else if 4 ≤ w.nests.length then .hold s w .resource
    else
      let (id, s) := s.fresh
      let (p, s) := s.position
      let x : Nest := { id := id, head := h, args := n, base0 := w.sget n.bs0, base1 := w.sget n.bs1, base2 := w.sget n.bs2,
                        scale1 := w.sget (nextReg n.bs1), scale2 := w.sget (nextReg n.bs2), fmt := slotElem slot,
                        scaled := scaled, loc := w.loc, pc := w.pc, seq := w.seq + 1, instr := p, priv := w.priv,
                        stepped := w.exempt }
      nestGate s w x (.ok s { v with nests := v.nests ++ [x] } true))

/-! ## The iterations not yet placed (R40, R201) -/

/-- Whether an access of the wave touches a byte that a want of a nest touches: by place for core-homed bytes; in translated
memory by address, and through an alias by the frame that a walk gives the want's page now (log 20). -/
def State.wantMeets (s : State) (w : Wave) (x : Want) (a : Access) : Bool :=
  match a.place with
  | .spad d q => (match s.region w (.virtual false) (BitVec.ofNat 64 x.va) with
    | .home (.spad c o) => c == d && meet o x.size q a.size
    | _ => false)
  | .mem q =>
    meet x.va x.size a.va a.size ||
      (a.held.isNone && x.va / 65536 != a.va / 65536 && meet (x.va % 65536) x.size (q % 65536) a.size &&
        (match s.peek w (x.va / 65536) with
          | some p => p.base == q / 65536 * 65536
          | none => false))
  | .win _ _ => false

/-- Whether a page of a nest holds a later access back whatever it touches: a strongly ordered page, or the device page it
is on (R40, R49). -/
def State.pageHolds (s : State) (w : Wave) (n : Nest) (a : Access) : Bool :=
  n.pages.any (fun p => match s.peek w p with
    | some x => x.leaf.mt == 3 || (x.leaf.mt == 2 && a.device == some x.base)
    | none => false)

/-- An earlier nest keeps an access back (R40, R201): it has accesses to place that overlap, or the access is a release, SC
access, fence or arrival, or a page of the nest orders them. -/
def State.nestHolds (s : State) (a : Access) : Bool :=
  match a.agent with
  | .wave u =>
    match s.wave? u with
    | none => false
    | some w => w.nests.any (fun n => decide (n.instr < a.instr) && n.state != .stopped && decide (n.pos < n.total) &&
        (a.releases || a.kind == .fence || s.pageHolds w n a || (!a.kind.isBar && n.rest.any (fun x => s.wantMeets w x a))))
  | _ => false

/-- The data of a nest's store waits for what the iteration's loads return (R200). -/
def State.nestReady (s : State) (a : Access) : Bool :=
  a.kind != .store || a.nest.isNone || !s.accs.any (fun y => y.agent == a.agent && y.nest == a.nest && y.kind == .load)

/-- Whether an access may perform, nests included. -/
def State.mayGo (s : State) (a : Access) : Bool := s.mayPerform a && !s.nestHolds a && s.nestReady a

/-! ## Stops (R201) -/

/-- Stop a nest with a fault to take. -/
def Wave.stopNest (w : Wave) (id : Nat) (p : PendFault) : Wave :=
  { w with nests := modWhere (fun n => n.id == id) (fun n => { n with state := .stopped }) w.nests, pends := w.pends ++ [p] }

/-- The fault of a nest whose next iteration reaches an unmappable page: the address of its first access there. -/
def Nest.lostFault (n : Nest) (em : Mask) (page aux : Nat) : PendFault :=
  let xs := (n.reads n.pos ++ [n.write n.pos]).filter (fun x => x.va / 65536 == page)
  { seq := n.seq, cls := 4, detail := 6, aux := aux, mask := em, loc := some n.loc, addr := match xs with
      | x :: _ => BitVec.ofNat 64 x.va
      | [] => BitVec.ofNat 64 (page * 65536) }

/-! ## The accesses of an iteration (R200) -/

/-- Place accesses in the queue where their instruction stands in program order. -/
def insertAccs (as : List Access) (agent : Agent) (instr : Nat) : List Access → List Access
  | [] => as
  | y :: ys => if y.agent == agent && decide (instr < y.instr) then as ++ y :: ys else y :: insertAccs as agent instr ys

/-- The access of one want of a nest: a plain access of the issuing wave, on its home or its translated page. -/
def Nest.access (s : State) (w : Wave) (n : Nest) (pg : List (Nat × PageRes)) (kind : AccKind) (id sub : Nat) (x : Want) : Access :=
  let h : Shared := { kind := kind, need := if kind = .store then .write else .read, instr := n.instr }
  let base := match s.region w (.virtual false) (BitVec.ofNat 64 x.va) with
    | .home p => x.toAccess w h id (s.asidOf w) p none none
    | _ =>
      match pageOf pg x.va with
      | some (.ok t) => x.toAccess w h id (s.asidOf w) (.mem (t.base + x.va % 65536)) (some t) none
      | _ => x.toAccess w h id (s.asidOf w) (.mem 0) none none
  { base with sub := sub, nest := some (n.id, n.pos), gen := true, pc := n.pc, seq := n.seq, priv := n.priv }

/-- Place one iteration's loads and its store, in the order written, and move on. -/
def State.nestPlace (s : State) (w : Wave) (n : Nest) (pr pw : List (Nat × PageRes)) : State :=
  let xs := (n.reads n.pos).map (fun x => (AccKind.load, x)) ++ [(AccKind.store, n.write n.pos)]
  let (s, as) := xs.foldl (fun (acc : State × List Access) x =>
    let (id, s) := acc.1.fresh
    (s, acc.2 ++ [n.access s w (if x.1 = .store then pw else pr) x.1 id (6 * n.pos + x.2.part) x.2])) (s, [])
  let s := { s with accs := insertAccs as (.wave w.uid) n.instr s.accs }
  s.putWave { w with nests := modWhere (fun m => m.id == n.id) (fun m => { m with pos := m.pos + 1, exempt := false }) w.nests }

/-- A nest's load returns. -/
def State.nestGive (s : State) (x : Access) (bytes : List Byte) (bad : Bool) : State :=
  match x.agent, x.nest with
  | .wave u, some (id, pos) =>
    let take (n : Nest) : Nest := { n with got := n.got ++ [⟨pos, x.part, bytes, bad⟩] }
    { s with waves := modWhere (fun w => w.uid == u) (fun w => { w with nests := modWhere (fun n => n.id == id) take w.nests }) s.waves }
  | _, _ => s

/-- The result of an iteration from what its loads returned (R199), and whether poison touched it: an FP32 result is then
0x7FC0_0000 (R334). -/
def Nest.result (n : Nest) (pos : Nat) : W32 × Bool :=
  let mine := n.got.filter (fun g => g.pos == pos)
  let part (k : Nat) : List Byte := match mine.find? (fun g => g.part == k) with
    | some g => g.bytes
    | none => []
  let odd (o : Nat) : Bool := n.off pos o % 2 == 1
  let x := nestElem n.fmt n.scaled (odd 1) (part 0) (leVal (part 1))
  let y := if eopTwo n.args.eop then nestElem n.fmt n.scaled (odd 2) (part 2) (leVal (part 3)) else 0
  let d := BitVec.ofNat 32 (leVal (part 4))
  let r := if fmtIsInt n.fmt then nestInt n.args.eop n.args.red x y d else nestFloat n.args.eop n.args.red x y d
  let bad := mine.any (fun g => g.poison)
  (if bad && !fmtIsInt n.fmt then nan32 else r, bad)

/-- A nest's store with its data, its iteration's returns used up; poison counts once for the nest. -/
def State.nestStore (s : State) (x : Access) : State × Access :=
  match x.agent, x.nest with
  | .wave u, some (id, pos) =>
    match s.wave? u with
    | none => (s, x)
    | some w =>
      match w.nests.find? (fun n => n.id == id) with
      | none => (s, x)
      | some n =>
        let (r, bad) := n.result pos
        let drop (m : Nest) : Nest := { m with got := m.got.filter (fun g => g.pos != pos) }
        let s := s.putWave { w with nests := modWhere (fun m => m.id == id) drop w.nests }
        (if bad then s.consumeOnce w n.instr else s, { x with data := leOf 4 r.toNat })
  | _, _ => (s, x)

/-- A nest whose iterations have all been placed and performed has finished. -/
def State.nestEnd (s : State) (x : Access) : State :=
  match x.agent, x.nest with
  | .wave u, some (id, _) =>
    let ended (n : Nest) : Bool := n.id == id && decide (n.total ≤ n.pos) &&
      !s.accs.any (fun y => y.agent == x.agent && (match y.nest with
        | some k => k.1 == id
        | none => false))
    { s with waves := modWhere (fun w => w.uid == u) (fun w => { w with nests := w.nests.filter (fun n => !ended n) }) s.waves }
  | _, _ => s

/-- The watchpoint hit of an iteration, as an access of lane 0 whatever em holds (log 81): reads and the write together,
the lowest slot, routed if a hit slot routes. -/
def State.nestWatch (s : State) (w : Wave) (n : Nest) : Option TrapInfo :=
  let rd := s.watch w 0x218 (.virtual false) true false true (n.reads n.pos)
  let wr := s.watch w 0x218 (.virtual false) false true true [n.write n.pos]
  match rd, wr with
  | some a, some b => some { (if b.detail < a.detail then b else a) with mbx := a.mbx || b.mbx, addr := a.addr }
  | some a, none => some a
  | none, b => b

/-- The first page of some that faulted, and its record. -/
def badPage (l : List (Nat × PageRes)) : Option (Nat × Option Nat) :=
  firstOf (fun p => match p.2 with
    | .ok _ => none
    | .fault _ f => some (p.1, f)) l

/-- NEST_ITERATION (R200, R201): an address error or a watchpoint hit stops the nest before its accesses, for the next
boundary; a translation fault holds it there; otherwise the iteration's accesses join the queue. -/
def execNestIteration (wave id : Nat) (s : State) : Host.Outcome State Fault Refusal :=
  match s.wave? wave with
  | none => .next s
  | some w =>
    match w.nests.find? (fun n => n.id == id) with
    | none => .next s
    | some n =>
      if n.state ≠ .running ∨ n.total ≤ n.pos then .next s
      else
        let w' := { w with pc := n.pc, seq := n.seq - 1, exempt := n.exempt || n.stepped, priv := n.priv }
        let errs := (n.reads n.pos).filterMap (fun x => s.addrTrap w' 0x218 (.virtual false) [x] x.size) ++
          (s.addrTrap w' 0x218 (.virtual false) [n.write n.pos] 4).toList
        match errs with
        | t :: _ =>
          .next (s.putWave (w.stopNest id { seq := n.seq, cls := 4, detail := t.detail, aux := 0, mask := w.em,
                                            addr := t.addr, now := true, loc := some n.loc }))
        | [] =>
          match s.nestWatch w' n with
          | some t =>
            .next (s.putWave (w.stopNest id { seq := n.seq, cls := 6, detail := t.detail, aux := 0, mask := t.mask,
                                              addr := t.addr, now := true, mbx := t.mbx, loc := some n.loc }))
          | none =>
            let (s, pr) := s.pagesAt w' n.loc .read true 0x218 (s.pagesOf w (.virtual false) (n.reads n.pos)) []
            let (s, pw) := s.pagesAt w' n.loc .write true 0x218 (s.pagesOf w (.virtual false) [n.write n.pos]) []
            let stop (p : Nat) (aux : Nat) : State := s.putWave (w.stopNest id (n.lostFault w.em p aux))
            let held (f : Nat) : State :=
              s.putWave { w with nests := modWhere (fun m => m.id == id) (fun m => { m with state := .held f }) w.nests }
            match badPage pr, badPage pw with
            | some (_, some f), _ => .next (held f)
            | some (p, none), _ => .next (stop p 1)
            | none, some (_, some f) => .next (held f)
            | none, some (p, none) => .next (stop p 2)
            | none, none => .next (s.nestPlace w n pr pw)

end Sys2Proof.Machine
end

