-- ==== Sys2Proof/Machine/Sorrel.lean ====
section
/-! DEFINITION. Sorrel (R282 to R300): MMA with its latch, array times and chaining, layout records, TLD and TST. -/

namespace Sys2Proof.Machine

/-! ## MMA -/

/-- K of R283 for an element format that MMA accepts (R121). -/
def mmaK : Fmt → Option Nat
  | .bf16 | .fp16 => some 32
  | .e4m3 | .e5m2 | .e3m2 => some 64
  | .e2m1 => some 128
  | _ => none

/-- Elements k of lane l of a group of 16, low register first (R283). -/
def tileElems (w : Wave) (g : VNum) (f : Fmt) (k : Nat) (l : Fin 32) : List Num :=
  (List.range k).map (fun i => decodeElem f (wordElem f ((w.vreg (groupReg g (i / f.perWord))).lane l) (i % f.perWord)))

/-- The scale code of block b of a lane (R284). -/
def blockCode (x : W32) (b : Nat) : Nat := x.toNat / 2 ^ (8 * b) % 256

/-- Elements with their scale codes: those of a scale register, or 127. -/
def scaledElems (w : Wave) (xs : List Num) (scale : Option VNum) (l : Fin 32) : List (Num × Nat) :=
  (List.range xs.length).map (fun i => (xs.getD i .nan, match scale with
    | some r => blockCode ((w.vreg r).lane l) (i / 32)
    | none => 127))

/-- The register of an accumulator group as C: an outstanding MMA's result to it where one stands (R289). -/
def Wave.accReg (w : Wave) (r : VNum) : VReg :=
  match w.pendingV r with
  | some x => x
  | none => w.vreg r

/-- The 32 registers of D (R286). -/
def mmaResult (w : Wave) (d a b c : VNum) (f : Fmt) (k : Nat) (scaled : Bool) : List (VNum × VReg) :=
  let rows := (List.finRange 32).map (fun l => scaledElems w (tileElems w a f k l) (if scaled then some c else none) l)
  let cols := (List.finRange 32).map (fun j =>
    scaledElems w (tileElems w b f k j) (if scaled then some (groupReg c 1) else none) j)
  (List.range 32).map (fun j =>
    (groupReg d j, .gen (lanesBy (fun l =>
      mmaElem ((w.accReg (groupReg d j)).lane l) (List.zip (rows.getD l.val []) (cols.getD j []))))))

/-- The clock of an operating point in MHz (R277). -/
def clockMHz (p : Fin 4) : Nat := [1700, 1500, 1275, 850].getD p.val 1700

/-- The clock a rail's engines run at: in a ramp the lower of the two (R318). -/
def RailSt.mhz (r : RailSt) : Nat :=
  match r.ramp with
  | some (q, _) => min (clockMHz r.point) (clockMHz q)
  | none => clockMHz r.point

/-- Matrix-rail cycles as vector-rail cycles, rounded up (R289). -/
def State.matrixCycles (s : State) (n : Nat) : Nat :=
  let m := s.mod.rails[0].mhz
  (n * s.mod.rails[1].mhz + m - 1) / m

/-- The Sorrel array a port feeds (R15). -/
def arrayOf (port : Fin 4) : Fin 2 := ⟨port.val % 2, Nat.mod_lt _ (by omega)⟩

/-- The registers of MMA's accumulator group where a chained MMA may take it over: its sources share none of them
(R289). -/
def mmaChain (d a b c : VNum) (scaled : Bool) : List VNum :=
  let ds := groupRegs d 32
  let src := groupRegs a 16 ++ groupRegs b 16 ++ (if scaled then groupRegs c 2 else [])
  if src.any (fun r => ds.contains r) then [] else ds

/-- What MMA asks of the issue logic under a slot. -/
def mmaReq (h : Head) (d : VNum) (a b c : VGrp) (scaled : Bool) : Req :=
  { h := h, opc := 0x300, len := 16,
    rv := groupRegs a.reg 16 ++ groupRegs b.reg 16 ++ (if scaled then groupRegs c.reg 2 else []) ++ groupRegs d 32,
    wv := groupRegs d 32, fv := grpFrees a 16 ++ grpFrees b 16 ++ (if scaled then grpFrees c 2 else []),
    ignoreEm := true, chain := mmaChain d a.reg b.reg c.reg scaled }

/-- The port's latch after an MMA of the wave, and whether `.ra` missed it (R288). -/
def mmaLatch (s : State) (w : Wave) (a : VNum) (ra : Bool) : State × Bool :=
  let k := s.coreOf w.core
  let p := k.ports[w.port.val]
  if ra && p.latch == some (w.uid, a) then (s, false)
  else (s.putCore { k with ports := k.ports.set w.port.val { p with latch := some (w.uid, a) } }, ra)

/-- MMA's body: IIL for a slot or operand C that R121 and R287 refuse; waits for its array and for a fifth to finish;
then the result stands outstanding and its group is allocated (R286, R289, R290). -/
def mmaBody (d : VNum) (a b c : VGrp) (fs : Fin 8) (ra : Bool) : Body := fun s w v =>
  let slot := s.slotOf w fs
  let scaled := slotScaled slot
  match (if slotBound slot then mmaK (slotElem slot) else none) with
  | none => .trap s w (w.iil 0x300 0)
  | some k =>
    if !scaled && (c.reg != 0 || c.last) then .trap s w (w.iil 0x300 0)
    else
      let core := s.coreOf w.core
      let arr := arrayOf w.port
      if 4 ≤ (w.sb.filter (fun x => x.kind == .mma)).length ∨ core.clk < core.arrayFree[arr.val] then .hold s w .resource
      else
        let out := mmaResult w d a.reg b.reg c.reg (slotElem slot) k scaled
        let start := core.clk
        let s := s.putCore { core with arrayFree := core.arrayFree.set arr.val (start + s.matrixCycles 16) }
        let (s, miss) := mmaLatch s w a.reg ra
        let (id, s) := s.fresh
        let v := (groupRegs d 32).foldl (fun (v : Wave) r => (v.dropPendingV r).vput r (.gen (v.vreg r).lanes)) v
        let src := groupRegs a.reg 16 ++ groupRegs b.reg 16 ++ (if scaled then groupRegs c.reg 2 else [])
        let b : Sb := { id := id, kind := .mma, vw := out, due := start + s.matrixCycles 24, src := src,
                        srcUntil := start + s.matrixCycles 16 }
        .ok s { v with sb := v.sb ++ [b], lmiss := if miss then v.lmiss + 1 else v.lmiss } false

/-- MMA (R285 to R290). -/
def execMma (h : Head) (d : VNum) (a b c : VGrp) (fs : Fin 8) (ra : Bool) (s : State) : Host.Outcome State Fault Refusal :=
  let scaled : Bool := match s.wave? s.cur with
    | some w => slotScaled (s.slotOf w fs)
    | none => false
  issue (mmaReq h d a b c scaled) (mmaBody d a b c fs ra) s

/-! ## Layout records (R291, R292) -/

/-- LREC (R292): bits [63:46] are stored as 0. DESIGN CHOICE: a TLD or TST of another wave that issues after it reads the new record,
whether or not a barrier stands between (R293; log 102). -/
def execLrec (h : Head) (d : Fin 8) (a b : SReg) : State → Host.Outcome State Fault Refusal :=
  issue { h := h, opc := 0x303, len := 16, rs := [a, b], ignoreEm := true } (fun s w v =>
    let lo := field (w.sget a) 0 46
    let rec_ : BitVec 128 := w.sget b ++ (BitVec.ofNat 64 lo)
    match s.cohortOf w with
    | some c => .ok (s.putCohort { c with lr := c.lr.set d.val rec_ }) v true
    | none => .ok s v true)

/-- A record's extent of level k (R291). -/
def lrExt (r : BitVec 128) (k : Nat) : Nat := (r.extractLsb' (22 + 6 * k) 6).toNat + 1

/-- A record's stride of level k, signed (R291). -/
def lrStr (r : BitVec 128) (k : Nat) : Int := (r.extractLsb' (64 + 16 * k) 16).toInt

/-- walk() of R295. -/
def lrWalk (r : BitVec 128) (a b : Word) (ofs : BitVec 20) (t : Nat) : Int :=
  let e0 := lrExt r 0
  let e1 := lrExt r 1
  let e2 := lrExt r 2
  ((r.extractLsb' 0 22).toNat : Int) + a.toInt + b.toInt + ofs.toInt + (t % e0 : Nat) * lrStr r 0 +
    (t / e0 % e1 : Nat) * lrStr r 1 + (t / (e0 * e1) % e2 : Nat) * lrStr r 2 + (t / (e0 * e1 * e2) : Nat) * lrStr r 3

/-! ## TLD and TST (R294 to R298) -/

/-- The detail of a word's address error: 1 misaligned, 3 outside the scratchpad (R296). -/
def tileError (spad : Nat) (x : Int) : Option Nat :=
  if x % 4 ≠ 0 then some 1 else if x < 0 ∨ (spad : Int) - 4 < x then some 3 else none

/-- The stall cycles of one group of 32 words (R298). -/
def groupStall (offs : List Nat) : Nat :=
  let distinct := offs.eraseDups
  ((List.range 32).foldl (fun n c => max n (distinct.filter (fun o => o / 4 % 32 == c)).length) 0) - 1

/-- The stall cycles of a whole TLD or TST. -/
def tileStall (offs : List Nat) (n : Nat) : Nat :=
  ((List.range n).map (fun r => groupStall ((offs.drop (32 * r)).take 32))).foldl (· + ·) 0

/-- The shared checks of TLD and TST (R296), then `k` on the offsets of the 32n words. -/
def tileForm (opc : Nat) (m : TileOp) (isRead : Bool) (s : State) (w : Wave) (k : State → Cohort → List Nat → Res) : Res :=
  match s.cohortOf w with
  | none => .hold s w .resource
  | some c =>
    let n := 2 ^ m.cnt.val
    let r := c.lr[m.lr.val]
    if lrExt r 0 * lrExt r 1 * lrExt r 2 * lrExt r 3 ≠ 32 * n then .trap s w (w.iil opc 6)
    else
      let walk := (List.range (32 * n)).map (lrWalk r (w.sget m.base) (w.sget m.index) m.ofs)
      let bad := (List.range (32 * n)).filter (fun t => (tileError c.spadBytes (walk.getD t 0)).isSome)
      match bad with
      | t :: _ =>
        let x := walk.getD t 0
        .trap s w { w.trapInfo 4 ((tileError c.spadBytes x).getD 0) with
                    mask := bad.foldl (fun b t => b ||| laneBit (t % 32)) 0, addr := BitVec.ofInt 64 x, seq := w.nameSeq opc }
      | [] =>
        let offs := walk.map (fun x => x.toNat)
        let xs := (List.range (32 * n)).map (fun t => ({ lane := t % 32, va := offs.getD t 0, size := 4 } : Want))
        sideGate s w .offset .read xs (fun s =>
          match s.watch w opc .offset isRead (!isRead) false xs with
          | some t => .trap s w t
          | none => k s c offs)

/-- The access of one word of a tile, on the cohort's single copy (R297). -/
def tileAccess (w : Wave) (id instr : Nat) (kind : AccKind) (c : Cohort) (t off : Nat) (data : List Byte)
    (d : Option Nat) : Access :=
  { id := id, agent := .wave w.uid, core := w.core, instr := instr, kind := kind, place := .spad c.uid off, size := 4,
    lane := t % 32, part := t / 32, data := data, defId := d, va := off, pc := w.pc, seq := w.seq + 1,
    slot := w.slot.val, gen := true }

/-- Place the accesses of a tile, word 0 first. -/
def placeTile (w : Wave) (instr : Nat) (kind : AccKind) (c : Cohort) (offs : List Nat) (data : Nat → List Byte)
    (d : Option Nat) (s : State) : State :=
  (List.range offs.length).foldl (fun s t =>
    let (id, s) := s.fresh
    { s with accs := s.accs ++ [tileAccess w id instr kind c t (offs.getD t 0) (data t) d] }) s

/-- TLD (R294 to R298): deferred, every lane. -/
def execTld (h : Head) (d : VNum) (m : TileOp) : State → Host.Outcome State Fault Refusal :=
  issue { h := h, opc := 0x301, len := 16, rs := [m.base, m.index], ignoreEm := true } (fun s w v =>
    tileForm 0x301 m true s w (fun s c offs =>
      let (p, s) := s.position
      let (id, s) := s.fresh
      let s := placeTile w p .load c offs (fun _ => []) (some id) s
      let n := 2 ^ m.cnt.val
      let e : Def := { id := id, seq := w.seq + 1, pc := w.pc, dest := .tile d n, mask := 0xFFFFFFFF }
      .ok s { v with defs := v.defs ++ [e], bconf := v.bconf + BitVec.ofNat 64 (tileStall offs n) } false))

/-- TST (R294 to R298): it reads its group whole, then stores. -/
def execTst (h : Head) (m : TileOp) (c : VGrp) : State → Host.Outcome State Fault Refusal :=
  issue { h := h, opc := 0x302, len := 16, rs := [m.base, m.index], rv := groupRegs c.reg (2 ^ m.cnt.val),
          fv := grpFrees c (2 ^ m.cnt.val), ignoreEm := true } (fun s w v =>
    tileForm 0x302 m false s w (fun s co offs =>
      let (p, s) := s.position
      let n := 2 ^ m.cnt.val
      let word (t : Nat) : List Byte :=
        leOf 4 ((w.vreg (groupReg c.reg (t / 32))).lane ⟨t % 32, Nat.mod_lt _ (by omega)⟩).toNat
      let s := placeTile w p .store co offs word none s
      .ok s { v with bconf := v.bconf + BitVec.ofNat 64 (tileStall offs n) } false))

end Sys2Proof.Machine
end

