-- ==== Sys2Proof/Machine/Image.lean ====
section
/-! DEFINITION. Cohort and wave images (R325, R326): their sizes, their bytes, and the cohort and waves an image gives. -/

namespace Sys2Proof.Machine

/-! ## Sizes -/

/-- Rounded up to 64. -/
def pad64 (n : Nat) : Nat := (n + 63) / 64 * 64

/-- Zero bytes. -/
def zeros (n : Nat) : List Byte := List.replicate n 0

/-- Bytes, then zeros up to `n`. -/
def padTo (n : Nat) (l : List Byte) : List Byte := l ++ zeros (n - l.length)

/-- The bytes of a vector register's value by tag. -/
def vregBytes : VReg → List Byte
  | .none => []
  | .uni u => leOf 4 u.toNat
  | .aff b s => leOf 4 b.toNat ++ leOf 4 s.toNat
  | .gen l => laneBytes (.gen l)

/-- The bytes of a q register's elements. -/
def qregBytes (q : QReg) : List Byte :=
  if q.general then q.elems.flatMap (fun e => laneBytes (.gen e)) else q.elems.flatMap (fun e => leOf 4 e[0].toNat)

/-- The bytes of the visible stack entries, bottom first, lanes ascending. -/
def stackBytes (k : Option Stacks) : List Byte :=
  match k with
  | none => []
  | some st => st.toList.flatMap (fun l => l.reverse.flatMap (fun x => leOf 4 x.toNat))

/-- The variable part of a wave image. -/
def waveTail (w : Wave) : List Byte :=
  let l := w.v.toList.flatMap vregBytes ++ w.q.toList.flatMap qregBytes ++ stackBytes w.stk
  padTo (pad64 l.length) l

/-- A wave image's bytes in all. -/
def waveImageSize (w : Wave) : Nat := 2048 + (waveTail w).length

/-- A cohort image's bytes in all (R325). -/
def State.imageSize (s : State) (c : Cohort) : Nat :=
  0x240 + pad64 c.spadBytes + ((s.liveWaves c.uid).map waveImageSize).foldl (· + ·) 0

/-! ## A wave's fixed part -/

/-- The code of a park and its barrier number (R326); a wave that waits uncounted is parked at its barrier too (R206). -/
def parkCode : Park → Nat × Nat
  | .none => (0, 0)
  | .bar b => (1, b.val)
  | .barNext b => (1, b.val)
  | .baraNext b => (1, b.val)
  | .ebarNext e => (3, e.val)
  | .barw b => (2, b.val)
  | .ebar e => (3, e.val)
  | .mwait _ _ _ => (4, 0)
  | .wsleep _ => (5, 0)
  | .cpyq => (0, 0)

/-- The wake time on clk.cr. -/
def parkTime : Park → Nat
  | .mwait _ a b => a + b
  | .wsleep t => t
  | _ => 0

/-- The tag byte of a vector register (R326). -/
def tagByte : VReg → Byte
  | .none => 0
  | .uni _ => 1
  | .aff _ _ => 2
  | .gen _ => 3

/-- The 2-bit status code (log 23). -/
def statCode : QStat → Nat
  | .none => 0
  | .npd => 1
  | .sing => 2

/-- The 16 bytes of a q register. -/
def qregHead (q : QReg) : List Byte :=
  let tag : Byte := if q.rows = 0 then 0 else if q.general then 2 else 1
  [BitVec.ofNat 8 q.rows, BitVec.ofNat 8 q.cols, tag, BitVec.ofNat 8 (statCode q.status[0])] ++ zeros 4 ++
    leOf 8 ((List.finRange 32).foldl (fun n l => n + statCode q.status[l.val] * 4 ^ l.val) 0)

/-- The 32 bytes of a nest's word. -/
def nestWord (n : Nest) : List Byte := padTo 32 (encode (.nest n.head n.args))

/-- The state word at 0x018. -/
def waveFlags (w : Wave) : Nat :=
  (if w.priv then 1 else 0) + (if w.halted then 2 else 0) + (if w.intp then 4 else 0) + (parkCode w.park).1 * 16 +
    (parkCode w.park).2 * 256 + (match w.wakes with
      | k :: _ => k.why
      | [] => 0) * 4096

/-- Free bytes: what the spec gives no layout for (log 23). -/
def State.freeBytes : Nat → State → State × List Byte
  | 0, s => (s, [])
  | n + 1, s =>
    let (x, s) := s.draw
    let (s, l) := State.freeBytes n s
    (s, BitVec.ofNat 8 x :: l)

/-- A nest's 64 bytes: word, position, and 24 bytes without a layout. -/
def nestBlock (s : State) (n : Option Nest) : State × List Byte :=
  match n with
  | none => (s, zeros 64)
  | some n =>
    let (s, l) := s.freeBytes 24
    (s, nestWord n ++ leOf 8 n.pos ++ l)

/-- The four NEST stops. -/
def nestArea (s : State) (w : Wave) : State × List Byte :=
  (List.range 4).foldl (fun (acc : State × List Byte) k =>
    let (s, l) := nestBlock acc.1 w.nests[k]?
    (s, acc.2 ++ l)) (s, [])

/-- A wave image (R326). The promise table's entries have no layout in the spec: their bytes are free (log 23). -/
def waveImage (s : State) (w : Wave) : State × List Byte :=
  let (s, prom) := s.freeBytes (32 * w.promises.length)
  let (s, nests) := nestArea s w
  let w64 (x : Word) : List Byte := leOf 8 x.toNat
  (s, padTo 0x018 (w64 w.pc ++ leOf 4 w.em.toNat ++ leOf 4 w.xst.toNat ++ leOf 4 w.vst.toNat ++ leOf 4 w.seq.toNat) ++
    leOf 8 (waveFlags w) ++ leOf 8 (parkTime w.park) ++ w64 w.bconf ++ w64 w.lmiss ++ zeros 8 ++
    w.arrB.toList.flatMap (leOf 4) ++
    padTo 128 ((w64 w.cause ++ w64 w.tpc ++ w64 w.tseq ++ w64 w.tmask ++ w64 w.taddr ++ w64 w.tem) ++ w.sv.toList.flatMap w64) ++
    w.s.toList.flatMap w64 ++ padTo 512 prom ++ padTo 256 nests ++ w.v.toList.map tagByte ++ w.q.toList.flatMap qregHead ++
    (match w.stk with
      | none => List.replicate 32 (0xFF : Byte)
      | some st => st.toList.map (fun l => BitVec.ofNat 8 l.length)) ++ w.arrE.toList.flatMap (leOf 4) ++
    zeros 80 ++ waveTail w)

/-! ## A cohort's image -/

/-- The 8 bytes of a barrier: arrived, expected, generation. -/
def barBytes (b : Bar) (expected : Nat) : List Byte := leOf 2 b.arrived ++ leOf 2 expected ++ leOf 4 b.gen

/-- The wave images in WIDX order, and the offset of each of the 16. -/
def waveImages (s : State) (ws : List Wave) (base : Nat) : State × List Byte × List Nat :=
  (List.range 16).foldl (fun (acc : State × List Byte × List Nat) k =>
    let (s, bytes, offs) := acc
    match ws.find? (fun w => w.widx == k) with
    | none => (s, bytes, offs ++ [0])
    | some w =>
      let (s, l) := waveImage s w
      (s, bytes ++ l, offs ++ [base + bytes.length])) (s, [], [])

/-- The 16 bytes of a layout record. -/
def lrBytes (r : BitVec 128) : List Byte := leOf 16 r.toNat

/-- A cohort image (R325) under a token and a task id. -/
def cohortImage (s : State) (c : Cohort) (e : Ensemble) (asid : Nat) (task : W32) (token : Word) : State × List Byte :=
  let ws := s.liveWaves c.uid
  let base := 0x240 + pad64 c.spadBytes
  let total := s.imageSize c
  let (s, waves, offs) := waveImages s ws base
  let head := leOf 4 1 ++ leOf 4 0 ++ leOf 4 task.toNat ++ leOf 4 c.cid ++ leOf 8 token.toNat ++ leOf 4 c.nwaves ++
    leOf 4 c.spadBytes ++ leOf 8 total ++ leOf 8 (asid + c.core.die.val * 2 ^ 61) ++ offs.flatMap (leOf 4) ++
    c.bcfg.toList.flatMap (fun x => leOf 8 x.toNat) ++ c.bars.toList.flatMap (fun b => barBytes b ws.length) ++
    c.lr.toList.flatMap lrBytes ++ zeros 16 ++ e.ecfg.toList.flatMap (fun x => leOf 8 x.toNat) ++
    e.bars.toList.flatMap (fun b => barBytes b ws.length)
  (s, padTo 0x240 head ++ padTo (pad64 c.spadBytes) (c.spad.readN 0 c.spadBytes) ++ waves)

/-! ## Reading an image -/

/-- An `n`-byte field at an offset. -/
def fieldAt (img : List Byte) (off n : Nat) : Nat := leVal ((img.drop off).take n)

/-- A 64-bit field. -/
def wordAt (img : List Byte) (off : Nat) : Word := BitVec.ofNat 64 (fieldAt img off 8)

/-- A 32-bit field. -/
def w32At (img : List Byte) (off : Nat) : W32 := BitVec.ofNat 32 (fieldAt img off 4)

/-- A register's 32 lanes at an offset. -/
def lanesAt (img : List Byte) (off : Nat) : Lanes := lanesBy (fun l => w32At img (off + 4 * l.val))

/-- A vector register by its tag byte, and the offset after it. -/
def vregAt (img : List Byte) (tag off : Nat) : VReg × Nat :=
  match tag with
  | 0 => (.none, off)
  | 1 => (.uni (w32At img off), off + 4)
  | 2 => (.aff (w32At img off) (w32At img (off + 4)), off + 8)
  | _ => (.gen (lanesAt img off), off + 128)

/-- The status of a code. -/
def statOf (n : Nat) : QStat := match n with
  | 1 => .npd
  | 2 => .sing
  | _ => .none

/-- A q register by its 16 bytes, and the offset after its elements. -/
def qregAt (img : List Byte) (head off : Nat) : QReg × Nat :=
  let rows := fieldAt img head 1
  let cols := fieldAt img (head + 1) 1
  let general : Bool := fieldAt img (head + 2) 1 == 2
  let st := fieldAt img (head + 8) 8
  let step := if general then 128 else 4
  ({ rows := rows, cols := cols, general := general,
     elems := (List.range (rows * cols)).map (fun k =>
       if general then lanesAt img (off + step * k) else splat (w32At img (off + step * k))),
     status := Vector.ofFn (fun l => statOf (st / 4 ^ l.val % 4)) }, off + step * (rows * cols))

/-- The vector registers, in order, and the offset after them. -/
def vregsAt (img : List Byte) (base : Nat) : List VReg × Nat :=
  (List.range 256).foldl (fun (acc : List VReg × Nat) n =>
    let (x, o) := vregAt img (fieldAt img (base + 0x600 + n) 1) acc.2
    (acc.1 ++ [x], o)) ([], base + 0x800)

/-- The q registers. -/
def qregsAt (img : List Byte) (base off : Nat) : List QReg × Nat :=
  (List.range 8).foldl (fun (acc : List QReg × Nat) n =>
    let (x, o) := qregAt img (base + 0x700 + 16 * n) acc.2
    (acc.1 ++ [x], o)) ([], off)

/-- The stacks. -/
def stacksAt (img : List Byte) (base off : Nat) : Option Stacks :=
  if fieldAt img (base + 0x780) 1 = 0xFF then none
  else
    let l := (List.range 32).foldl (fun (acc : List (List W32) × Nat) n =>
      let d := fieldAt img (base + 0x780 + n) 1
      (acc.1 ++ [((List.range d).map (fun k => w32At img (acc.2 + 4 * k))).reverse], acc.2 + 4 * d)) ([], off)
    some (Vector.ofFn (fun i => l.1.getD i.val []))

/-- The park an image gives; a parked MWAIT keeps the destination it was saved with, and without one runs again; of a barrier
the record kept since the save tells whether the wave waits uncounted (log 23). -/
def parkAt (old : Park) (flags time : Nat) : Park :=
  let b := flags / 256 % 16
  match flags / 16 % 16 with
  | 1 =>
    let k : Fin 16 := ⟨b % 16, Nat.mod_lt _ (by omega)⟩
    if old = .barNext k ∨ old = .baraNext k then old else .bar k
  | 2 => .barw ⟨b % 16, Nat.mod_lt _ (by omega)⟩
  | 3 =>
    let k : Fin 4 := ⟨b % 4, Nat.mod_lt _ (by omega)⟩
    if old = .ebarNext k then old else .ebar k
  | 4 => match old with
    | .mwait d _ _ => .mwait d 0 time
    | _ => .none
  | 5 => .wsleep time
  | _ => .none

/-- A stopped nest as its 64 bytes give it: word and position, over the record kept since the save (log 23); a word that is no
NEST leaves the record's. -/
def nestAt (img : List Byte) (off : Nat) (n : Nest) : Nest :=
  let n := { n with pos := fieldAt img (off + 32) 8 }
  match decode ((img.drop off).take 32) with
  | some (.nest h a, _) => { n with head := h, args := a }
  | _ => n

/-- The wave an image gives, over the record kept since its save for what an image has no layout for (log 23). -/
def waveFrom (img : List Byte) (b : Nat) (w : Wave) : Wave :=
  let flags := fieldAt img (b + 0x018) 8
  let (vs, o) := vregsAt img b
  let (qs, o) := qregsAt img b o
  let why := flags / 4096 % 16
  { w with
    pc := wordAt img b, em := w32At img (b + 8), xst := w32At img (b + 12), vst := w32At img (b + 16),
    seq := w32At img (b + 20), priv := flags % 2 == 1, halted := flags / 2 % 2 == 1, intp := flags / 4 % 2 == 1,
    park := parkAt w.park flags (fieldAt img (b + 0x020) 8), wakes := if why = 0 then [] else [⟨why, 0⟩],
    bconf := wordAt img (b + 0x028), lmiss := wordAt img (b + 0x030),
    arrB := Vector.ofFn (fun i => fieldAt img (b + 0x040 + 4 * i.val) 4),
    cause := wordAt img (b + 0x080), tpc := wordAt img (b + 0x088), tseq := wordAt img (b + 0x090),
    tmask := wordAt img (b + 0x098), taddr := wordAt img (b + 0x0A0), tem := wordAt img (b + 0x0A8),
    sv := Vector.ofFn (fun i => wordAt img (b + 0x0B0 + 8 * i.val)),
    s := Vector.ofFn (fun i => if i.val = 0 then 0 else wordAt img (b + 0x100 + 8 * i.val)),
    nests := (List.range w.nests.length).filterMap (fun k => (w.nests[k]?).map (nestAt img (b + 0x500 + 64 * k))),
    v := Vector.ofFn (fun i => vs.getD i.val .none), q := Vector.ofFn (fun i => qs.getD i.val {}),
    stk := stacksAt img b o, spilled := [],
    arrE := Vector.ofFn (fun i => fieldAt img (b + 0x7A0 + 4 * i.val) 4) }

/-- The barrier an image gives. -/
def barAt (img : List Byte) (off : Nat) : Bar := { arrived := fieldAt img off 2, gen := fieldAt img (off + 4) 4 }

/-- The cohort an image gives. -/
def cohortFrom (img : List Byte) (c : Cohort) : Cohort :=
  { c with
    bcfg := Vector.ofFn (fun i => wordAt img (0x070 + 8 * i.val)), bars := Vector.ofFn (fun i => barAt img (0x0F0 + 8 * i.val)),
    lr := Vector.ofFn (fun i => BitVec.ofNat 128 (fieldAt img (0x170 + 16 * i.val) 16)),
    spad := Memory.writeAll [] (bytesAt 0 ((img.drop 0x240).take c.spadBytes)) }

/-- The ensemble of one an image gives. -/
def ensFrom (img : List Byte) (e : Ensemble) : Ensemble :=
  { e with
    ecfg := Vector.ofFn (fun i => wordAt img (0x200 + 8 * i.val)), bars := Vector.ofFn (fun i => barAt img (0x220 + 8 * i.val)) }

end Sys2Proof.Machine
end

