-- ==== Sys2Proof/Machine/Teasel.lean ====
section
/-! DEFINITION. Teasel (chapter 12): queues and their attachment, packets and probes, CPYQ, promises, WSLEEP, CPYP, CPYX,
and the channel's steps: fetch, start and completion of copies. -/

namespace Sys2Proof.Machine

/-! ## Waiting as a release does (R40, R52, R64) -/

/-- Whether a wave has nothing left that a release at a level waits for (R40, R201). -/
def State.releaseReady (s : State) (w : Wave) (level : Nat) : Bool :=
  !s.accs.any (fun a => a.agent == .wave w.uid) && w.nests.all (fun n => n.state == .stopped) &&
    !s.wb.any (fun e => e.agent == .wave w.uid && (corePath w.core).contains e.node && decide (nodeLevel e.node < level)) &&
    (s.sideOf w.uid).isEmpty && !w.pends.any (fun p => p.entry.isSome)

/-- Whether no write buffer below a level on an agent's path holds an entry of it (R40). -/
def State.agentDrained (s : State) (path : List NodeId) (a : Agent) (level : Nat) : Bool :=
  !s.wb.any (fun e => e.agent == a && path.contains e.node && decide (nodeLevel e.node < level))

/-- Whether no buffer below a level on a path holds an entry that overlaps 8 bytes of a completion word (R40, R51). -/
def State.wordClear (s : State) (path : List NodeId) (level : Nat) (cmp : Option Place) : Bool :=
  match cmp with
  | some (.mem pa) => s.bufferClear path level pa 8
  | _ => true

/-- The level of CPYQ's release: 3 for a channel of the wave's own die, 4 for another die's (R52). -/
def releaseLevel (ch : ChanId) (c : CoreId) : Nat := if ch.die ≠ c.die then 4 else 3

/-- The lowest level whose node lies on the paths of a channel and a core of one module (R244). -/
def commonLevel (ch : ChanId) (c : CoreId) : Nat := if ch.die ≠ c.die then 4 else if ch.clu ≠ c.clu then 3 else 2

/-- A channel's path (R34). -/
def chanPath (ch : ChanId) : List NodeId := pathOf (.cluster ch.die ch.clu)

/-- A release store of an engine at a level: directly at the level's node (R39). `trans`: the translation it is made under, whose
invalidation waits for it (R322). -/
def State.releaseStore (s : State) (path : List NodeId) (agent : Agent) (level pa : Nat) (key : BitVec 8)
    (trans : Option Trans) (bytes : List Byte) : State :=
  let (id, s) := s.fresh
  let l := bytesAt pa bytes
  let s := s.dropBelow path level (l.map (fun x => x.1))
  s.enterNode { id := id, node := levelNode path level, agent := agent, bytes := l, sync := true, key := key, trans := trans,
                instr := id }

/-- A release at level 5 into M under the key of the page's leaf (R367); what no route reaches is dropped (R365), and a register
window takes nothing of an engine's (log 36). -/
def State.storeM (s : State) (path : List NodeId) (key : BitVec 8) (pa : Nat) (bytes : List Byte) : State :=
  let l := (bytesAt pa bytes).filter (fun x => s.reachable x.1 && !deviceWindow x.1)
  let (id, s) := s.fresh
  (s.dropBelow path 5 (l.map (fun x => x.1))).writeM l (some key) id

/-! ## Packets (R239, R240) -/

/-- Word n of a packet. -/
def pword (p : List W32) (n : Nat) : W32 := p.getD n 0

/-- CMPV, TASKV, ORDER and CSCOPE of word 0. -/
def pktCmpv (p : List W32) : Bool := (pword p 0).getLsbD 5
def pktTaskv (p : List W32) : Bool := (pword p 0).getLsbD 4
def pktOrder (p : List W32) : Bool := (pword p 0).getLsbD 3
def pktScope (p : List W32) : Nat := (pword p 0).toNat % 8

/-- CMPA. -/
def pktCmpa (p : List W32) : Nat := pair64 p 11

/-- The rule of R240. -/
def pktValid (p : List W32) : Bool :=
  (pword p 0).toNat / 64 == 0 && decide (2 ≤ pktScope p) && decide (pktScope p ≤ 5) &&
    [2, 4, 12].all (fun n => (pword p n).toNat / 2 ^ 20 == 0) && (pword p 14).toNat / 65536 == 0 &&
    (!pktCmpv p || pktCmpa p % 8 == 0) && decide (boxBytes p ≤ 2 ^ 32)

/-- The address of a row's first byte, as an integer (R239). -/
def rowStart (p : List W32) (dst : Bool) (y z : Nat) : Int :=
  (pair64 p (if dst then 3 else 1) : Int) + boxOfs (pword p (if dst then 9 else 7)) (pword p (if dst then 10 else 8)) 0 y z

/-- The parts of a row on each page it reaches, by their first and last byte. -/
def rowProbes (start : Int) (x : Nat) : List (Int × Int) :=
  let last := start + x - 1
  (List.range ((last / 65536 - start / 65536).toNat + 1)).map (fun j =>
    (max start ((start / 65536 + (j : Nat)) * 65536), min last ((start / 65536 + 1 + (j : Nat)) * 65536 - 1)))

/-- The parts of a box that are probed, rows innermost; none for a zero-extent packet (R240). -/
def boxProbes (p : List W32) (dst : Bool) : List (Int × Int) :=
  let x := (pword p 5).toNat
  let y := (pword p 6).toNat % 65536
  if boxBytes p = 0 then []
  else (List.range (y * ((pword p 6).toNat / 65536))).flatMap (fun r => rowProbes (rowStart p dst (r % y) (r / y)) x)

/-! ## Probes and leases (R248, R251) -/

/-- Where a box address falls among the apertures and windows of the address space's grids (R248). -/
inductive BoxHome where
  | none | bad | home (p : Place)
  deriving DecidableEq, Repr

/-- Whether an address lies in a grid's aperture or window range. -/
def Grid.inRange (g : Grid) (a : Nat) : Bool :=
  (decide (g.launch.spad ≤ a) && decide (a < g.launch.spad + 4194304 * g.cohortCount)) ||
    (decide (g.launch.rwin ≤ a) && decide (a < g.launch.rwin + 1048576 * g.cohortCount))

/-- The home of a box address in a grid, CAUSE 4 of R248 as `bad`; `held`: a cohort that has left counts while its
reservation is held for copies (R252). -/
def State.gridHome (s : State) (g : Grid) (ch : ChanId) (held : Bool) (a : Nat) : BoxHome :=
  let aper : Bool := decide (g.launch.spad ≤ a) && decide (a < g.launch.spad + 4194304 * g.cohortCount)
  let cid := if aper then (a - g.launch.spad) / 4194304 else (a - g.launch.rwin) / 1048576
  match s.cohorts.find? (fun c => c.grid == g.uid && c.cid == cid && (c.place == .resident || (held && c.place == .gone))) with
  | none => .bad
  | some c =>
    if aper then
      let o := (a - g.launch.spad) % 4194304
      if c.spadBytes ≤ o then .bad else .home (.spad c.uid o)
    else
      let i := (a - g.launch.rwin) % 1048576 / 65536
      if c.core.die ≠ ch.die ∨ c.core.clu ≠ ch.clu then .bad
      else
        match s.waves.find? (fun w => w.cohort == c.uid && w.widx == i) with
        | some w => .home (.win w.uid ((a - g.launch.rwin) % 65536))
        | none => .bad

/-- The home of a box address as a probe finds it now. -/
def State.boxHome (s : State) (asid : Nat) (ch : ChanId) (a : Nat) : BoxHome :=
  match s.grids.find? (fun g => g.asid == asid && !g.finished && g.inRange a) with
  | none => .none
  | some g => s.gridHome g ch false a

/-- The home of a box address of a packet: in the youngest grid that stood when the packet was admitted or fetched. -/
def State.pktHome (s : State) (p : Packet) (a : Nat) : BoxHome :=
  match (s.grids.filter (fun g => g.asid == p.asid && decide (g.uid < p.id) && g.inRange a)).getLast? with
  | none => .none
  | some g => s.gridHome g p.chan true a

/-- What a probe makes of a walk: the page, or the CAUSE of R248. DESIGN CHOICE: a page that both lacks the permission and is not of
normal type gives CAUSE 2 (log 99). -/
def probeLeaf (n : Need) (a : Nat) (r : Except Nat Leaf) : Except Nat (Option PageMap) :=
  match r with
  | .error y => .error (if y = 3 then 7 else 1)
  | .ok l =>
    if !l.allows n true then .error 2
    else if l.mt ≠ 0 then .error 3
    else .ok (some ⟨a / 65536, l.page a, l.key⟩)

/-- One probe: a page's translation, no page for a home, or the CAUSE of R248. -/
def State.probeAt (s : State) (asid : Nat) (ch : ChanId) (n : Need) (va : Int) : State × Except Nat (Option PageMap) :=
  if va < 0 ∨ 2 ^ 52 ≤ va then (s, .error 4)
  else
    let a := va.toNat
    match s.boxHome asid ch a with
    | .home _ => (s, .ok none)
    | .bad => (s, .error 4)
    | .none =>
      match s.space? asid with
      | none => (s, .error 1)
      | some sp =>
        let (s, r) := s.walk (chanPath ch) sp.ptb.toNat a
        (s, probeLeaf n a r)

/-- The first byte of a part, all on one page, that no cohort's scratchpad or window holds. -/
def State.badByte (s : State) (asid : Nat) (ch : ChanId) (va last : Int) : Option Nat :=
  let bad (a : Nat) : Bool := s.boxHome asid ch a == .bad
  if bad last.toNat then (List.range ((last - va).toNat + 1)).find? (fun i => bad (va.toNat + i)) else none

/-- Probe parts in order: the pages leased, or the CAUSE and address of the first failure. -/
def State.probeList (s : State) (asid : Nat) (ch : ChanId) :
    List (Need × Int × Int) → List PageMap → State × Except (Nat × Nat) (List PageMap)
  | [], l => (s, .ok l)
  | (n, va, last) :: ps, l =>
    match s.probeAt asid ch n va with
    | (s, .error c) => (s, .error (c, (BitVec.ofInt 64 va).toNat))
    | (s, .ok none) =>
      (match s.badByte asid ch va last with
        | some i => (s, .error (4, va.toNat + i))
        | none => s.probeList asid ch ps l)
    | (s, .ok (some m)) => s.probeList asid ch ps (if l.any (fun x => x.vpage == m.vpage) then l else l ++ [m])

/-- Every probe of a packet: source box, destination box, and CMPA, which R183 takes to a scratchpad or window as it does a
box address (R241). -/
def State.probePacket (s : State) (asid : Nat) (ch : ChanId) (p : List W32) : State × Except (Nat × Nat) (List PageMap) :=
  s.probeList asid ch ((boxProbes p false).map (fun a => (Need.read, a)) ++
    (boxProbes p true).map (fun a => (Need.write, a)) ++
    (if pktCmpv p then [(Need.write, (pktCmpa p : Int), (pktCmpa p : Int) + 7)] else [])) []

/-- Lease a packet's pages. -/
def State.leasePages (s : State) (asid pkt : Nat) (l : List PageMap) : State :=
  { s with leases := s.leases ++ l.map (fun m => ⟨asid, m.vpage, .packet pkt, s.clk⟩) }

/-- The lease under which a packet reaches a page. -/
def State.pktTrans (s : State) (p : Packet) (va : Nat) : Option Trans :=
  (s.leases.find? (fun l => l.holder == .packet p.id && l.vpage == va / 65536)).map (fun l => ⟨l.asid, l.vpage, l.granted, none⟩)

/-- End a packet's leases. -/
def State.dropLeases (s : State) (h : LeaseHolder) : State := { s with leases := s.leases.filter (fun l => l.holder != h) }

/-- The place of a box address of a packet: a home, or its leased page. -/
def State.boxPlace (s : State) (p : Packet) (a : Nat) : Option (Place × BitVec 8) :=
  match s.pktHome p a with
  | .home q => some (q, 0)
  | .bad => none
  | .none => (p.maps.find? (fun m => m.vpage == a / 65536)).map (fun m => (.mem (m.pa + a % 65536), m.key))

/-! ## Rates and promises (R242, R246) -/

/-- Bytes per clk.cr tick of a physical address (R242): 64 for first-tier memory, 16 for the bulk tier and peers, 8 for
host memory. -/
def State.rateOf (s : State) (pa : Nat) : Nat :=
  if pa / 2 ^ 46 ≠ s.mod.cfg.modno.val then 16
  else
    let l := pa % 2 ^ 46
    if l < 0x006000000000 then 64 else if l < 0x030000000000 then 16 else 8

/-- The rate of a packet: the lowest over the pages of its two boxes. -/
def State.pktRate (s : State) (p : Packet) : Nat :=
  (boxProbes p.words false ++ boxProbes p.words true).foldl (fun r a =>
    match s.boxPlace p a.1.toNat with
    | some (.mem pa, _) => min r (s.rateOf pa)
    | _ => r) 64

/-- Ticks to move bytes at a rate, rounded up. -/
def moveTicks (bytes rate : Nat) : Nat := (bytes + rate - 1) / rate

/-- The horizon H of a channel (R242). -/
def State.horizon (s : State) (ch : ChanId) : Nat :=
  s.packets.foldl (fun h p => match p.promise with
    | some x => if p.chan == ch && p.state != .done then max h x else h
    | none => h) 0

/-- The promise of a packet admitted now (R242). -/
def State.promiseFor (s : State) (p : Packet) : Nat :=
  max s.clk (s.horizon p.chan) + 200 + moveTicks (boxBytes p.words) (s.pktRate p)

/-- The revised promise of a copy of a channel that was admitted at an order: over the channel's incomplete packets admitted
by then (R246). -/
def State.revised (s : State) (ch : ChanId) (order : Nat) : Nat :=
  let ps := s.packets.filter (fun p => p.chan == ch && p.promise.isSome && p.state != .done && decide (p.order ≤ order))
  let ticks (p : Packet) : Nat :=
    moveTicks (boxBytes p.words - p.stored.length) (s.pktRate p) + (if p.state = .started then 0 else 200)
  max 200 (s.clk + (ps.map ticks).foldl (· + ·) 0)

/-! ## Queues (R236, R237) -/

/-- A first-tier address of the module (R363). -/
def State.firstTier (s : State) (pa : Nat) : Bool :=
  pa / 2 ^ 46 == s.mod.cfg.modno.val && decide (pa % 2 ^ 46 < 0x006000000000)

/-- A queue's page as attachment needs it: normal, first-tier, readable and writable. -/
def State.queuePage (s : State) (path : List NodeId) (asid va : Nat) : State × Option Xlat :=
  match s.probe path asid va .update true with
  | (s, .ok x) => (s, if s.firstTier x.base then some x else none)
  | (s, .error _) => (s, none)

/-- The same of several pages. -/
def State.queuePages (s : State) (path : List NodeId) (asid : Nat) (vas : List Nat) : State × List (Option Xlat) :=
  vas.foldl (fun (x : State × List (Option Xlat)) va =>
    let (s, r) := x.1.queuePage path asid va
    (s, x.2 ++ [r])) (s, [])

/-- The virtual address of slot i of a queue's ring. -/
def TQueue.slotVa (q : TQueue) (i : Nat) : Nat := q.ring + 64 * (i % 2 ^ q.logcap)

/-- The physical address of slot i. -/
def TQueue.slotPa (q : TQueue) (i : Nat) : Nat :=
  q.ringPa.getD (q.slotVa i / 65536 - q.ring / 65536) 0 + q.slotVa i % 65536

/-- The key of the leaf of slot i's page (R367). -/
def TQueue.slotKey (q : TQueue) (i : Nat) : BitVec 8 := q.ringKeys.getD (q.slotVa i / 65536 - q.ring / 65536) 0

/-- STAT as the header holds it (R236). -/
def TQueue.stat (q : TQueue) : Nat := q.cause * 16 + q.state

/-- A queue's record, and a write of a header word by its channel: a release at level 5 that joins the channel's accesses,
and performs once the channel's earlier entries have drained (R40, R248). It gives the access's identity. -/
def State.putHeader (s : State) (q : TQueue) (ofs v : Nat) : State × Nat :=
  let (id, s) := (s.putQueue q).fresh
  let a : Access := { id := id, agent := .channel q.chan, core := ⟨q.chan.die, q.chan.clu, 0⟩, instr := id, kind := .store,
                      place := .mem (q.hdrPa + ofs), size := 8, data := leOf 8 v, ord := .rel, level := 5, key := q.hdrKey }
  ({ s with accs := s.accs ++ [a] }, id)

/-- Write STAT. -/
def State.putStat (s : State) (q : TQueue) : State × Nat := s.putHeader q 0x98 q.stat

/-- A word of a queue's header as it stands in M, under the key of the header's leaf (R367). -/
def State.headerWord (s : State) (key : BitVec 8) (hdrPa ofs : Nat) : Nat × State :=
  let (l, s) := s.readKeyed key (hdrPa + ofs) 8
  (leVal l, s)

/-- A queue whose attachment has still to write STAT: it is not attached yet (R237). -/
def State.opening (s : State) (q : TQueue) : Bool := !q.detaching && s.accs.any (fun a => a.id == q.acc)

/-- Record the result of a write of chq.att (R237). -/
def State.chqResult (s : State) (asid : Nat) (ch : ChanId) (v : Nat) : State :=
  { s with chqRes := ⟨asid, ch, BitVec.ofNat 64 v⟩ :: s.chqRes.filter (fun r => !(r.asid == asid && r.chan == ch)) }

/-- The result of the last write of chq.att from an address space; 0 if there was none. -/
def State.chqRead (s : State) (asid : Nat) (ch : ChanId) : Word :=
  match s.chqRes.find? (fun r => r.asid == asid && r.chan == ch) with
  | some r => r.value
  | none => 0

/-- Whether the last write of chq.att for a channel from an address space has still to take effect: a detachment that waits
for its packets, or a header write of an attachment or detachment that has not performed (R237). -/
def State.chqPending (s : State) (asid : Nat) (ch : ChanId) : Bool :=
  s.queues.any (fun q => q.asid == asid && q.chan == ch && (q.detaching || s.accs.any (fun a => a.id == q.acc)))

/-- RING and CFG of a header, as the channel reads them at attachment, where they keep R236; reserved bits of CFG must be
zero (log 87). -/
def State.queueShape (s : State) (ch : ChanId) (hdrPa : Nat) (key : BitVec 8) : State × Option (Nat × Nat) :=
  let (ring, s) := s.readEntry (chanPath ch) (hdrPa + 0x88) (some key)
  let (cfg, s) := s.readEntry (chanPath ch) (hdrPa + 0x90) (some key)
  (s, if 2 ^ 52 ≤ ring ∨ ring % 4096 ≠ 0 ∨ cfg < 4 ∨ 15 < cfg then none else some (ring, cfg))

/-- The pages of a ring. -/
def ringPages (ring logcap : Nat) : List Nat :=
  (List.range ((ring + 64 * 2 ^ logcap - 1) / 65536 - ring / 65536 + 1)).map (fun k => (ring / 65536 + k) * 65536)

/-- Bind a queue whose header and ring pages translate: the leases, the header's words, the result (R237). -/
def State.bind (s : State) (asid : Nat) (ch : ChanId) (hdr hdrPa : Nat) (key : BitVec 8) (ring logcap : Nat)
    (frames : List Nat) (keys : List (BitVec 8)) : State :=
  let (id, s) := s.fresh
  let q : TQueue := { id := id, asid := asid, chan := ch, hdr := hdr, hdrPa := hdrPa, hdrKey := key, ring := ring,
                      ringPa := frames, ringKeys := keys, logcap := logcap }
  let held := (hdr / 65536 :: (ringPages ring logcap).map (fun a => a / 65536)).dedup
  let s := { s with queues := s.queues ++ [q],
                    leases := s.leases ++ held.map (fun v => ({ asid := asid, vpage := v, holder := .queue id, granted := s.clk } : Lease)) }
  let (s, _) := s.putHeader q 0x00 0
  let (s, _) := s.putHeader q 0x80 0
  let (s, _) := s.putHeader q 0xA0 0
  let (s, n) := s.putStat q
  (s.putQueue { q with acc := n }).chqResult asid ch (hdr + 1)

/-- OP 00 of chq.att (R237); a die that is not enabled has no channel (R3). -/
def State.attach (s : State) (asid : Nat) (ch : ChanId) (hdr : Nat) : State :=
  if !s.mod.cfg.dies.getLsbD ch.die.val then s.chqResult asid ch 0
  else
    match s.queuePage (chanPath ch) asid hdr with
    | (s, none) => s.chqResult asid ch 0
    | (s, some page) =>
      let hdrPa := page.base + hdr % 65536
      match s.queueShape ch hdrPa page.leaf.key with
      | (s, none) => s.chqResult asid ch 0
      | (s, some (ring, cfg)) =>
        if 16 ≤ (s.queues.filter (fun q => q.chan == ch)).length ∨ s.queues.any (fun q => q.hdrPa == hdrPa) then
          s.chqResult asid ch 0
        else
          let (s, found) := s.queuePages (chanPath ch) asid (ringPages ring cfg)
          if found.any (fun x => x.isNone) then s.chqResult asid ch 0
          else s.bind asid ch hdr hdrPa page.leaf.key ring cfg (found.filterMap (fun x => x.map (fun y => y.base)))
            (found.filterMap (fun x => x.map (fun y => y.leaf.key)))

/-- Packets of a queue that its channel has fetched and not completed, the one that stopped it among them (log 88). -/
def State.inFlight (s : State) (q : Nat) : List Packet :=
  s.packets.filter (fun p => p.queue == q &&
    (p.state == .fetched || p.state == .started || p.state == .faulted || p.state == .skipped))

/-- A detachment takes effect once STATE stands in the header and every fetched packet has completed: leases end, and
unfetched packets never move; the register reads back the header address of the write (R237). -/
def State.finishDetach (s : State) (q : TQueue) : State :=
  if q.detaching && (s.inFlight q.id).isEmpty && !s.accs.any (fun a => a.id == q.acc) then
    let s := (s.dropLeases (.queue q.id)).chqResult q.asid q.chan (q.left + 2)
    let lose (p : Packet) : Packet := if p.queue == q.id && p.state == .admitted then { p with state := .dead } else p
    { s with queues := s.queues.filter (fun x => x.id != q.id), packets := s.packets.map lose }
  else s

/-- Every detachment that may take effect now does. -/
def State.finishDetaches (s : State) : State := s.queues.foldl State.finishDetach s

/-- The attached queue a header address names in an address space: by that address, or by another mapping of the header
(R237). -/
def State.queueNamed (s : State) (path : List NodeId) (asid hdr : Nat) : State × Option TQueue :=
  match s.queues.find? (fun q => q.asid == asid && q.hdr == hdr && !s.opening q) with
  | some q => (s, some q)
  | none =>
    match s.probe path asid hdr .read false with
    | (s, .ok x) => (s, s.queues.find? (fun q => q.asid == asid && q.hdrPa == x.base + hdr % 65536 && !s.opening q))
    | (s, .error _) => (s, none)

/-- OP 01 of chq.att (R237): STATE 0 at once; what is already fetched completes first. -/
def State.detach (s : State) (asid : Nat) (ch : ChanId) (hdr : Nat) : State :=
  match s.queueNamed (chanPath ch) asid hdr with
  | (s, some q) =>
    if q.chan = ch ∧ !q.detaching then
      let q := { q with state := 0, detaching := true, left := hdr }
      let (s, n) := s.putStat q
      s.putQueue { q with acc := n }
    else s.chqResult asid ch 0
  | (s, none) => s.chqResult asid ch 0

/-- A write of chq.att that may take effect now. -/
def State.writeChq (s : State) (asid : Nat) (ch : ChanId) (v : Word) : State :=
  let hdr := field v 8 44 * 256
  match field v 0 2 with
  | 0 => s.attach asid ch hdr
  | 1 => s.detach asid ch hdr
  | _ => s.chqResult asid ch 0

/-- The offset of a channel's register on a BAR2 page (R359). -/
def chqOffset (ch : ChanId) : Nat := 0x1000 + 8 * (48 * ch.die.val + 4 * ch.clu.val + ch.chan.val)

/-- A host's write of chq.att: posted, behind one of the same register that has not taken effect (R237). -/
def State.hostChq (s : State) (asid : Nat) (ch : ChanId) (v : Word) : State :=
  match s.space? asid with
  | none => s
  | some a =>
    if s.chqPending asid ch || a.cmds.any (fun c => c.1 == chqOffset ch) then
      s.putSpace { a with cmds := a.cmds ++ [(chqOffset ch, v)] }
    else s.writeChq asid ch v

/-- QUEUE_ATTACH from the host (R237, R359). -/
def execQueueAttach (asid : Nat) (ch : ChanId) (hdr : Nat) (s : State) : Host.Outcome State Fault Refusal :=
  .next (if hdr % 256 != 0 || decide (2 ^ 52 ≤ hdr) then s else s.hostChq asid ch (BitVec.ofNat 64 hdr))

/-- QUEUE_DETACH from the host (R237, R359). -/
def execQueueDetach (asid : Nat) (ch : ChanId) (hdr : Nat) (s : State) : Host.Outcome State Fault Refusal :=
  .next (if hdr % 256 != 0 || decide (2 ^ 52 ≤ hdr) then s else s.hostChq asid ch (BitVec.ofNat 64 (hdr + 1)))

/-! ## Completion effects (R249, R267) -/

/-- Decrement a task's counter (R267): discarded for no agent, a free entry or another generation. The level is that of
the acquire the task takes when it starts. -/
def State.decTask (s : State) (id : W32) (amount level : Nat) : State :=
  let gen := id.toNat / 65536
  let agent := id.toNat / 4096 % 16
  if h : agent < 9 then
    match s.task? ⟨agent, h⟩ (id.toNat % 4096) with
    | none => s
    | some t =>
      if gen ≠ 0 ∧ gen ≠ t.gen then s
      else
        let acquire := if t.state = .waiting then max t.acquire level else t.acquire
        s.putTask { t with counter := t.counter - amount, acquire := acquire }
  else s

/-- Mark the promise-table entries of a packet complete. -/
def State.promisesDone (s : State) (pkt : Nat) : State :=
  { s with waves := s.waves.map (fun w =>
      { w with promises := modWhere (fun e => e.pkt == pkt) (fun e => { e with complete := true }) w.promises }) }

/-- A packet's completion effects (R249): the task decrement, the completion word at the scope of R244, and what waits on
it; `cmp`: where CMPA stands, if the word is stored. -/
def State.finishPacket (s : State) (p : Packet) (status cause : Nat) (cmp : Option (Place × BitVec 8)) : State :=
  let s := if pktTaskv p.words then s.decTask ((pword p.words 14) &&& 0xFFFF) 1 p.scope else s
  let word := (pword p.words 13).toNat + 2 ^ 32 * status + 2 ^ 36 * cause
  let s := match cmp with
    | some (.mem pa, key) => s.releaseStore (chanPath p.chan) (.channel p.chan) p.scope pa key
        (s.pktTrans p (pktCmpa p.words)) (leOf 8 word)
    | some (q, _) =>
      let (n, s) := s.fresh
      s.homeStore q (leOf 8 word) n
    | none => s
  let s := s.promisesDone p.id
  let late : Bool := match p.promise with
    | some x => decide (s.clk < x)
    | none => false
  let s := if late then s.putPkt { p with state := .done }
    else { s.dropLeases (.packet p.id) with packets := s.packets.filter (fun x => x.id != p.id) }
  match s.queue? p.queue with
  | none => s
  | some q =>
    let q := { q with doneScope := max q.doneScope p.scope }
    (s.putQueue q).finishDetach q

/-- Whether a packet may complete: no access of its channel is queued, the channel's entries have drained to the completion scope,
and nothing below it overlaps the completion word (R40, R51). -/
def State.mayFinish (s : State) (p : Packet) (cmp : Option (Place × BitVec 8)) : Bool :=
  let path := chanPath p.chan
  !s.accs.any (fun a => a.agent == .channel p.chan) && s.agentDrained path (.channel p.chan) p.scope &&
    s.wordClear path p.scope (cmp.map (fun x => x.1)) && cmp.all (fun x => s.homeReady x.1)

/-! ## CPYQ (R241) -/

/-- Lanes 0 to 14 of the packet register. -/
def cpyqWords (w : Wave) (b : VSrc) : List W32 := (List.finRange 15).map (fun i => (w.src b).lane (i.castLE (by omega)))

/-- The traps of a header operand (R241, R247): alignment, then the rest of R184. -/
def State.headerTrap (s : State) (w : Wave) (opc : Nat) (qa : Word) : Option TrapInfo :=
  match s.addrError w (.virtual false) { lane := 0, va := qa.toNat, size := 1 } 256 with
  | some e => some { w.trapInfo 4 e with addr := qa, seq := w.nameSeq opc }
  | none => none

/-- A write-buffer entry of the path below M that holds bytes of a queue's WIDX (R48). -/
def State.widxBusy (s : State) (w : Wave) (q : TQueue) : Bool :=
  s.wb.any (fun e => (corePath w.core).contains e.node && e.bytes.any (fun x => decide (q.hdrPa ≤ x.1) && decide (x.1 < q.hdrPa + 8)))

/-- The claim: the pages are leased, WIDX rises by 1 in M, and the wave waits for its slot (R238, R241). -/
def cpyqClaim (s : State) (v : Wave) (d : SReg) (q : TQueue) (words : List W32) (maps : List PageMap) : State × Wave :=
  let (id, s) := (s.putWave v).fresh
  let (i, s) := s.headerWord q.hdrKey q.hdrPa 0
  let s := s.storeM (corePath v.core) q.hdrKey q.hdrPa (leOf 8 (i + 1))
  let p : Packet := { id := id, queue := q.id, chan := q.chan, asid := q.asid, slot := i, words := words,
                      wave := some v.uid, scope := max (pktScope words) (commonLevel q.chan v.core), order := id,
                      state := .claimed, maps := maps }
  let s := { s with packets := s.packets ++ [p] }
  (s.leasePages q.asid id maps, { s.waveNow v with park := .cpyq, cpyq := some ⟨q.id, i, words, d, id⟩ })

/-- CPYQ's body. A header that names no attached queue has no channel, and the release before the answer is that for a
channel of the own die (R52, R64, R241). -/
def cpyqBody (d : SReg) (qs : VSrc) (b : VSrc) : Body := fun s w v =>
  let sp := (w.src qs).isUA && (w.src b).isUA
  match w.uniform64 qs with
  | .error m => .trap s w (w.unf 0x308 m)
  | .ok qa =>
    let words := cpyqWords w b
    match s.headerTrap w 0x308 qa with
    | some t => .trap s w t
    | none =>
      if !pktValid words then .trap s w (w.iil 0x308 4)
      else
        match s.queueNamed (corePath w.core) (s.asidOf w) qa.toNat with
        | (s, none) => if s.releaseReady w 3 then .ok s (v.sset d 0) sp else .hold s w .order
        | (s, some q) =>
          if !s.releaseReady w (releaseLevel q.chan w.core) then .hold s w .order
          else if q.state ≠ 1 then .ok s (v.sset d 0) sp
          else
            match s.probePacket (s.asidOf w) q.chan words with
            | (s, .error (cause, a)) =>
              .trap s w { w.trapInfo 4 8 with aux := cause, addr := BitVec.ofNat 64 a, seq := w.seq + 1 }
            | (s, .ok maps) =>
              if s.widxBusy w q then .hold s w .order
              else
                let (s, v) := cpyqClaim s v d q words maps
                .parked s v sp

/-- CPYQ (R241). -/
def execCpyq (h : Head) (d : SReg) (q : VSrc) (b : VSrc) : State → Host.Outcome State Fault Refusal :=
  issue { h := h, opc := 0x308, len := 16, rs := srcSregs q, ws := [d], rv := srcRegs q ++ srcRegs b,
          fv := srcFrees q ++ srcFrees b, ignoreEm := true, sideWait := true, uses := [.one q, .low b 15] } (cpyqBody d q b)

/-- A parked command, which counted as it issued (R26), ends: its destination and the next pc. -/
def State.endParked (s : State) (w : Wave) (d : SReg) (x : Word) (len : Nat) : State :=
  let s := { s with poison := s.poison.filter (fun u => u != PoisonUnit.sreg w.uid d) }
  s.putWave { w.sset d x with park := .none, pc := w.pc + BitVec.ofNat 64 len }

/-- A new entry of the promise table, the oldest making room (R244). -/
def Wave.addPromise (w : Wave) (e : Promise) : Wave :=
  { w with promises := (if w.promises.length < 16 then w.promises else w.promises.drop 1) ++ [e] }

/-- CPYQ_SLOT_WRITE (R241, R242, R244): once the header shows room and STAMP's release at level 5 may perform (R40, R238) the
slot is written, the packet admitted and promised; a queue detached meanwhile takes nothing and sD is 0. -/
def execCpyqSlotWrite (wave : Nat) (s : State) : Host.Outcome State Fault Refusal :=
  match s.wave? wave with
  | none => .next s
  | some w =>
    match w.cpyq with
    | none => .next s
    | some c =>
      let w := { w with cpyq := none }
      match s.queue? c.queue, s.pkt? c.pkt with
      | some q, some p =>
        if q.detaching then
          let s := { s.dropLeases (.packet c.pkt) with packets := s.packets.filter (fun x => x.id != c.pkt) }
          .next (s.endParked w c.dest 0 16)
        else if (s.headerWord q.hdrKey q.hdrPa 0x80).1 + 2 ^ q.logcap ≤ c.slot ∨ !s.releaseReady w 5 ∨
            !s.bufferClear (corePath w.core) 5 (q.slotPa c.slot) 64 then .next s
        else
          let bytes := c.words.flatMap (fun x => leOf 4 x.toNat) ++ leOf 4 (c.slot + 1)
          let s := s.storeM (corePath w.core) (q.slotKey c.slot) (q.slotPa c.slot) bytes
          let (o, s) := s.fresh
          let t := s.promiseFor p
          let s := s.putPkt { p with state := .admitted, promise := some t, order := o }
          let w : Wave := { s.waveNow w with cpyq := none }
          let w := w.addPromise { promise := BitVec.ofNat 64 t, pkt := p.id, queue := q.id, slot := c.slot, scope := p.scope,
                                  pc := w.pc, seq := w.seq, order := o }
          .next (s.endParked w c.dest (BitVec.ofNat 64 t) 16)
      | _, _ =>
        let s := { s.dropLeases (.packet c.pkt) with packets := s.packets.filter (fun x => x.id != c.pkt) }
        .next (s.endParked w c.dest 0 16)

/-! ## WSLEEP (R157, R245) -/

/-- How a sleep ends once its time has come: the acquire and the consumed entries, or PRM. -/
def sleepEnd (s : State) (w : Wave) (x : Word) : Except TrapInfo (State × Wave) :=
  let linked := w.promises.filter (fun e => e.promise == x)
  match linked.find? (fun e => !e.complete) with
  | some e => .error { w.trapInfo 5 0 with addr := e.pc, seq := e.seq }
  | none =>
    if linked.isEmpty then .ok (s, w)
    else .ok (s.acquire w.core (linked.foldl (fun n e => max n e.scope) 0),
      { w with promises := w.promises.filter (fun e => e.promise != x) })

/-- WSLEEP (R157, R245). -/
def execWsleep (h : Head) (a : SReg) : State → Host.Outcome State Fault Refusal :=
  issue { h := h, opc := 0x02A, len := 8, rs := [a] } (fun s w v =>
    if (w.sget a).toNat ≤ s.clk then
      match sleepEnd s v (w.sget a) with
      | .ok (s, v) => .ok s v true
      | .error t => .trap s w t
    else .parked s { v with park := .wsleep (w.sget a).toNat } true)

/-- WSLEEP_WAKE (R157, R245). A halted wave whose sleep ends in PRM takes it once it issues again. -/
def execWsleepWake (wave : Nat) (s : State) : Host.Outcome State Fault Refusal :=
  match s.wave? wave with
  | none => .next s
  | some w =>
    match w.park with
    | .wsleep t =>
      if s.clk < t ∨ !s.resident w then .next s
      else
        let w := { w with park := .none }
        match sleepEnd s w (BitVec.ofNat 64 t) with
        | .ok (s, w) => .next (s.putWave { w with pc := w.pc + 8 })
        | .error e => .next (if w.halted then s.putWave w else s.takeTrap w e)
    | _ => .next s

/-! ## CPYP (R246) -/

/-- An entry's queue is stopped, faulted or detached. -/
def State.entryStopped (s : State) (e : Promise) : Bool :=
  match s.queue? e.queue with
  | some q => q.state != 1
  | none => true

/-- CPYP (R246). -/
def execCpyp (h : Head) (d a : SReg) : State → Host.Outcome State Fault Refusal :=
  issue { h := h, opc := 0x309, len := 16, rs := [a], ws := [d], ignoreEm := true } (fun s w v =>
    let x := w.sget a
    let es := w.promises.filter (fun e => e.promise == x)
    if es.isEmpty then .ok s (v.sset d 1) true
    else if es.all (fun e => e.complete) then
      .ok (s.acquire w.core (es.foldl (fun n e => max n e.scope) 0))
        { v.sset d 0 with promises := w.promises.filter (fun e => e.promise != x) } true
    else if es.any s.entryStopped then .ok s (v.sset d 0xFFFFFFFFFFFFFFFF) true
    else
      let q := es.foldl (fun n e => match s.queue? e.queue with
        | some c => max n (s.revised c.chan e.order)
        | none => n) 0
      let new : Word := BitVec.ofNat 64 q
      .ok s { v.sset d new with promises := modWhere (fun e => e.promise == x) (fun e => { e with promise := new }) w.promises }
        true)

/-! ## CPYX (R247) -/

/-- The end of a CPYX: sD takes STAT as it stands; of a queue detached meanwhile, as its header holds it (R237, R247). -/
def cpyxDone (s : State) (v : Wave) (d : SReg) (sp : Bool) (id hdr : Nat) (key : BitVec 8) : Res :=
  match s.queue? id with
  | some q => .ok s (v.sset d (BitVec.ofNat 64 q.stat)) sp
  | none =>
    let (n, s) := s.headerWord key hdr 0x98
    .ok s (v.sset d (BitVec.ofNat 64 n)) sp

/-- A CPYX whose change of STAT is on its way waits until it has performed, and where `drain` for every fetched packet
(R247, R248). -/
def cpyxWait (s : State) (w v : Wave) (d : SReg) (sp : Bool) (id hdr acc : Nat) (key : BitVec 8) (drain : Bool) : Res :=
  if s.accs.any (fun a => a.id == acc) || (drain && !(s.inFlight id).isEmpty) then
    .hold s { w with inProg := .cpyx id hdr acc key drain } .order
  else cpyxDone s v d sp id hdr key

/-- What every CPYX does before its op (R247): the header's traps, and PGF for a queue that is not attached; one that has
begun waits for its end. -/
def cpyxForm (h : Head) (d : SReg) (q : VSrc) (k : State → Wave → Wave → Bool → TQueue → Res) :
    State → Host.Outcome State Fault Refusal :=
  issue { h := h, opc := 0x30A, len := 16, rs := srcSregs q, ws := [d], rv := srcRegs q, fv := srcFrees q,
          ignoreEm := true, uses := [.one q] } (fun s w v =>
    let sp := (w.src q).isUA
    match w.inProg with
    | .cpyx id hdr acc key drain => cpyxWait s w v d sp id hdr acc key drain
    | _ =>
      match w.uniform64 q with
      | .error m => .trap s w (w.unf 0x30A m)
      | .ok qa =>
        match s.headerTrap w 0x30A qa with
        | some t => .trap s w t
        | none =>
          match s.queueNamed (corePath w.core) (s.asidOf w) qa.toNat with
          | (s, none) => .trap s w { w.trapInfo 4 8 with aux := 6, addr := qa, seq := w.seq + 1 }
          | (s, some t) => k s w v sp t)

/-- An operation that gives the identity of its write of STAT, and its wait. -/
def cpyxOp (s : State) (w v : Wave) (d : SReg) (sp : Bool) (t : TQueue) (drain : Bool) (f : State → State × Nat) : Res :=
  let (s, acc) := f (s.putWave w)
  let w := s.waveNow w
  cpyxWait s w { v with promises := w.promises } d sp t.id t.hdrPa acc t.hdrKey drain

/-- CPYX.st (R247). -/
def execCpyxSt (h : Head) (d : SReg) (q : VSrc) : State → Host.Outcome State Fault Refusal :=
  cpyxForm h d q (fun s _ v sp t => cpyxDone s v d sp t.id t.hdrPa t.hdrKey)

/-- What `.stop` does to its queue; identity 0 where it writes nothing. -/
def State.stopPackets (s : State) (t : TQueue) : State × Nat :=
  if t.state = 1 then s.putStat { t with state := 2 } else (s, 0)

/-- CPYX.stop (R247): it returns once every fetched packet of the queue has completed. -/
def execCpyxStop (h : Head) (d : SReg) (q : VSrc) : State → Host.Outcome State Fault Refusal :=
  cpyxForm h d q (fun s w v sp t => cpyxOp s w v d sp t true (fun s => s.stopPackets t))

/-- The packet that stopped a queue. -/
def State.faultedPkt (s : State) (q : TQueue) : Option Packet :=
  s.packets.find? (fun p => p.queue == q.id && p.slot == q.fidx && p.state == .faulted)

/-- Slots after a skipped one that were fetched already stand again as they were before their fetch. -/
def State.unfetch (s : State) (q : TQueue) : State :=
  let back (p : Packet) : Bool := p.queue == q.id && decide (q.fidx < p.slot) && p.state == .fetched
  let gone := s.packets.filter (fun p => back p && p.promise.isNone)
  let s := gone.foldl (fun s p => s.dropLeases (.packet p.id)) s
  { s with packets := (s.packets.filter (fun p => !(back p && p.promise.isNone))).map (fun p =>
      if back p then { p with state := .admitted } else p) }

/-- Where a skipped packet's completion word goes, if a probe of CMPA succeeds now; the packet leases the page (R251). -/
def State.cmpProbe (s : State) (t : TQueue) (pkt a : Nat) : State × Option (Place × BitVec 8) :=
  match s.probeList t.asid t.chan [(.write, (a : Int), (a : Int) + 7)] [] with
  | (s, .error _) => (s, none)
  | (s, .ok (m :: _)) => (s.leasePages t.asid pkt [m], some (.mem (m.pa + a % 65536), m.key))
  | (s, .ok []) => (s, match s.boxHome t.asid t.chan a with
    | .home q => some (q, 0)
    | _ => none)

/-- A skipped packet completes, at once where R40 lets its completion perform (R247, R249). -/
def State.finishSkipped (s : State) (p : Packet) : State :=
  if s.mayFinish p p.cmp then s.finishPacket p 1 p.cause p.cmp else s.putPkt p

/-- What `.skip` does to its queue. -/
def State.skipPacket (s : State) (t : TQueue) : State × Nat :=
  if t.state = 3 then
    let u := { t with ridx := t.fidx + 1, state := 1 }
    let (s, _) := (s.unfetch t).putHeader u 0x80 u.ridx
    let (s, n) := s.putStat u
    match s.faultedPkt t with
    | none => (s, n)
    | some p =>
      let (s, cmp) := if pktCmpv p.words then s.cmpProbe t p.id (pktCmpa p.words) else (s, none)
      (s.finishSkipped { p with state := .skipped, cause := t.cause, cmp := cmp }, n)
  else if t.state = 2 then s.putStat { t with state := 1 }
  else (s, 0)

/-- CPYX.skip (R247). -/
def execCpyxSkip (h : Head) (d : SReg) (q : VSrc) : State → Host.Outcome State Fault Refusal :=
  cpyxForm h d q (fun s w v sp t => cpyxOp s w v d sp t false (fun s => s.skipPacket t))

/-- A queue stops at a packet (R248): FIDX and FADDR are written before STAT. -/
def State.stopQueue (s : State) (q : TQueue) (p : Packet) (cause addr : Nat) : State :=
  let u := { q with fidx := p.slot, cause := cause, state := if q.state = 0 then 0 else 3 }
  let s := s.putPkt { p with state := .faulted }
  let (s, _) := s.putHeader u 0xA0 u.fidx
  let (s, _) := s.putHeader u 0xA8 addr
  (s.putStat u).1

/-- Probe a packet and note it as fetched, or stop its queue (R248). An invalid packet has no failing address: FADDR is
then a free value (log 21). -/
def State.probeFetched (s : State) (q : TQueue) (p : Packet) : State :=
  if !pktValid p.words then
    let (a, s) := s.draw
    s.stopQueue q p 5 (a % 2 ^ 52)
  else
    match s.probePacket p.asid p.chan p.words with
    | (s, .error (cause, a)) => s.stopQueue q p cause a
    | (s, .ok maps) => (s.putPkt { p with state := .fetched, maps := maps, withdrawn := false }).leasePages p.asid p.id maps

/-- Packets a channel has in flight. DESIGN CHOICE: one that has stopped its queue, or that `.skip` has yet to complete, is not
among the four (R248; log 100). -/
def State.chanFlight (s : State) (ch : ChanId) : Nat :=
  (s.packets.filter (fun p => p.chan == ch && (p.state == .fetched || p.state == .started))).length

/-- What `.retry` does to its queue: its faulted packet is probed again, at once unless the channel has four packets in
flight (R247, R248). -/
def State.retryPacket (s : State) (t : TQueue) : State × Nat :=
  if t.state = 2 ∨ t.state = 3 then
    let u := { t with state := 1 }
    let (s, n) := s.putStat u
    (match (if t.state = 3 ∧ s.chanFlight t.chan < 4 then s.faultedPkt t else none) with
      | some p => s.probeFetched u p
      | none => s, n)
  else (s, 0)

/-- CPYX.retry (R247). -/
def execCpyxRetry (h : Head) (d : SReg) (q : VSrc) : State → Host.Outcome State Fault Refusal :=
  cpyxForm h d q (fun s w v sp t => cpyxOp s w v d sp t false (fun s => s.retryPacket t))

/-! ## The channel at work (R248, R249) -/

/-- Completed and never-fetched packets whose promise has passed hold no lease any longer (R251). -/
def State.sweepPackets (s : State) : State :=
  let past (p : Packet) : Bool := (p.state == .done || p.state == .dead) && (match p.promise with
    | some x => decide (x ≤ s.clk)
    | none => true)
  let gone := s.packets.filter past
  let s := gone.foldl (fun s p => s.dropLeases (.packet p.id)) s
  { s with packets := s.packets.filter (fun p => !(past p && p.state == .done)) }

/-- The 16 words of a queue's slot, as the channel's acquire at level 5 reads them. -/
def State.slotWords (s : State) (q : TQueue) (i : Nat) : List W32 × State :=
  let (l, s) := s.readHomes (chanPath q.chan) (q.slotPa i) 64 (some (q.slotKey i))
  ((List.range 16).map (fun k => BitVec.ofNat 32 (leVal ((l.drop (4 * k)).take 4))), s.emptyBelow (chanPath q.chan) 5)

/-- Whether a channel has something of a running queue to take: a packet it has to probe again, or slot RIDX with its STAMP
there (R238, R247). -/
def State.queueReady (s : State) (q : TQueue) : Bool :=
  q.state == 1 && !s.opening q && ((s.faultedPkt q).isSome ||
    leVal ((List.range 4).map (fun i =>
      let a := q.slotPa q.ridx + 60 + i
      match firstOf (fun n => wbByte s.wb n a) (chanPath q.chan) with
      | some b => b.1
      | none => (s.readM (q.slotKey q.ridx) a).1)) == (q.ridx + 1) % 2 ^ 32)

/-- The queue a channel serves next: the first ready one after the one it served last, round-robin (R248). -/
def State.nextQueue (s : State) (ch : ChanId) : Option TQueue :=
  let last := match s.served.find? (fun x => x.1 == ch) with
    | some x => x.2
    | none => 0
  let ready := s.queues.filter (fun q => q.chan == ch && s.queueReady q)
  match ready.find? (fun q => decide (last < q.id)) with
  | some q => some q
  | none => ready.head?

/-- Fetch slot RIDX of a queue: RIDX rises, and a packet that CPYQ did not admit is probed (R238, R248, R51). -/
def State.fetchSlot (s : State) (q : TQueue) : State :=
  let (words, s) := s.slotWords q q.ridx
  let i := q.ridx
  let q := { q with ridx := q.ridx + 1 }
  let (s, _) := s.putHeader q 0x80 q.ridx
  match s.packets.find? (fun p => p.queue == q.id && p.slot == i && p.state == .admitted) with
  | some p => s.putPkt { p with state := .fetched }
  | none =>
    let (id, s) := s.fresh
    let p : Packet := { id := id, queue := q.id, chan := q.chan, asid := q.asid, slot := i, words := words.take 15,
                        scope := pktScope words, order := id, state := .fetched }
    { s with packets := s.packets ++ [p] }.probeFetched q p

/-- CHANNEL_FETCH (R238, R248): the queue whose turn it is, with at most four packets in flight. -/
def execChannelFetch (queue : Nat) (s : State) : Host.Outcome State Fault Refusal :=
  match s.queue? queue with
  | none => .next s
  | some q =>
    if 4 ≤ s.chanFlight q.chan ∨ (s.nextQueue q.chan).all (fun x => x.id != queue) then .next s
    else
      let s := { s with served := (q.chan, queue) :: s.served.filter (fun x => x.1 != q.chan) }
      .next (match s.faultedPkt q with
        | some p => s.probeFetched q p
        | none => s.fetchSlot q)

/-- Earlier packets of a packet's queue that have not completed. -/
def State.earlier (s : State) (p : Packet) : List Packet :=
  s.packets.filter (fun x => x.queue == p.queue && decide (x.slot < p.slot) && x.state != .done && x.state != .dead &&
    x.state != .claimed)

/-- COPY_START (R248, R251): in slot order, after every earlier packet has completed where ORDER is set; a packet whose
lease was withdrawn is probed again. -/
def execCopyStart (pkt : Nat) (s : State) : Host.Outcome State Fault Refusal :=
  match s.pkt? pkt with
  | none => .next s
  | some p =>
    match s.queue? p.queue with
    | none => .next s
    | some q =>
      let before := s.earlier p
      if p.state ≠ .fetched ∨ before.any (fun x => x.state != .started) ∨ (pktOrder p.words ∧ before ≠ []) then .next s
      else
        let start (s : State) (p : Packet) : State :=
          (if pktOrder p.words then s.emptyBelow (chanPath p.chan) q.doneScope else s).putPkt { p with state := .started }
        if p.withdrawn then
          let s := s.probeFetched q p
          match s.pkt? pkt with
          | some p => .next (if p.state = .fetched then start s p else s)
          | none => .next s
        else .next (start s p)

/-- COPY_COMPLETION (R51, R249): every byte moved and drained to the completion scope, or the packet skipped (R247). -/
def execCopyCompletion (pkt : Nat) (s : State) : Host.Outcome State Fault Refusal :=
  match s.pkt? pkt with
  | none => .next s
  | some p =>
    let cmp := if pktCmpv p.words then s.boxPlace p (pktCmpa p.words) else none
    .next (
      if p.state = .skipped then s.finishSkipped p
      else if p.state = .started ∧ p.stored.length = boxBytes p.words ∧ s.mayFinish p cmp then
        s.finishPacket p (if p.poisoned then 3 else 0) 0 cmp
      else s)

end Sys2Proof.Machine
end

