-- ==== Sys2Proof/Machine/Yarrow.lean ====
section
/-! DEFINITION. Yarrow (chapter 13): task and launch records, submission and signalling, edges, starts, copy batches,
completion, placement, migration, the forward-progress swap, and the rails' operating points. -/

namespace Sys2Proof.Machine

/-! ## Agents and tables (R34, R255, R256) -/

/-- An agent's path: the die node of its die, or the package node for the coordinator. -/
def agentPath (a : Fin 9) : List NodeId := if h : a.val < 8 then pathOf (.die ⟨a.val, h⟩) else pathOf .package

/-- A die's agent. -/
def dieAgent (d : Fin 8) : Fin 9 := d.castLE (by omega)

/-- A task id. -/
def taskId (agent : Fin 9) (entry gen : Nat) : W32 := BitVec.ofNat 32 (gen * 65536 + agent.val * 4096 + entry)

/-- The task an id names: an entry in use whose generation matches, 0 matching any (R255, R267). -/
def State.taskNamed (s : State) (id : W32) : Option Task :=
  let agent := id.toNat / 4096 % 16
  if h : agent < 9 then
    match s.task? ⟨agent, h⟩ (id.toNat % 4096) with
    | none => none
    | some t => if id.toNat / 65536 ≠ 0 ∧ id.toNat / 65536 ≠ t.gen then none else some t
  else none

/-- Count a discarded submission or completion store of an agent (R263, R269, R361). -/
def State.agentError (s : State) (a : Fin 9) : State :=
  { s with mod := { s.mod with agErr := s.mod.agErr.set a.val (s.mod.agErr[a.val] + 1) } }

/-! ## Task records (R257 to R259) -/

/-- Region i of a record, and whether a reserved bit of it is set. -/
def parseRegion (b : List Byte) (i : Nat) : Region × Bool :=
  let lo := fieldAt b (0x80 + 16 * i) 8
  let hi := fieldAt b (0x88 + 16 * i) 8
  ({ base := lo % 2 ^ 52, len := hi % 2 ^ 40, write := lo / 2 ^ 63 == 1 }, lo / 2 ^ 52 % 2 ^ 11 != 0 || hi / 2 ^ 40 != 0)

/-- A task record from its 256 bytes; the regions past NREG are not read. -/
def parseTask (b : List Byte) : TaskRec :=
  let ctl := fieldAt b 0 8
  let nreg := ctl / 2 ^ 12 % 16
  let kind := ctl / 2 ^ 8 % 4
  let regions := (List.range (min nreg 8)).map (parseRegion b)
  { depc := ctl / 2 ^ 48, nx1v := ctl / 2 ^ 23 % 2 == 1, nx0v := ctl / 2 ^ 22 % 2 == 1, fence := ctl / 2 ^ 21 % 2 == 1,
    cscope := ctl / 2 ^ 16 % 8, nreg := nreg, kind := kind, stream := ctl % 64, work := fieldAt b 0x08 8,
    cmpa := fieldAt b 0x10 8, seqv := w32At b 0x18, npkt := fieldAt b 0x1C 2, next0 := w32At b 0x20,
    next1 := w32At b 0x24, qhdr := fieldAt b 0x28 8, est := fieldAt b 0x30 4, deadline := fieldAt b 0x38 8,
    regions := regions.map (fun x => x.1),
    reservedBad := ctl / 2 ^ 24 % 2 ^ 24 != 0 || ctl / 2 ^ 19 % 4 != 0 || ctl / 2 ^ 10 % 4 != 0 || ctl / 2 ^ 6 % 4 != 0 ||
      fieldAt b 0x1E 2 != 0 || fieldAt b 0x34 4 != 0 || fieldAt b 0x40 64 != 0 || (kind == 0 && fieldAt b 0x28 8 != 0) ||
      regions.any (fun x => x.2) }

/-- The rule of R259. -/
def TaskRec.valid (r : TaskRec) : Bool :=
  !r.reservedBad && decide (r.nreg ≤ 8) && decide (r.kind ≤ 1) && [0, 3, 4, 5].contains r.cscope && r.cmpa % 8 == 0 &&
    (r.kind == 0 || r.work % 64 == 0) && r.regions.all (fun x => decide (x.base + x.len ≤ 2 ^ 52))

/-! ## Launch records (R260 to R262) -/

/-- A launch record from its 128 bytes. -/
def parseLaunch (b : List Byte) : LaunchRec :=
  let geom := fieldAt b 0x08 8
  { entry := wordAt b 0x00, waves := geom % 32, ens := geom / 2 ^ 8 % 8, fuse := geom / 2 ^ 11 % 2 == 1,
    regs := geom / 2 ^ 16 % 2 ^ 17, dies := BitVec.ofNat 8 (geom / 2 ^ 40), geomLow := BitVec.ofNat 16 geom,
    scratch := fieldAt b 0x10 4, ncoh := fieldAt b 0x14 4, spill := fieldAt b 0x18 8, spad := fieldAt b 0x20 8,
    rwin := fieldAt b 0x28 8, fs := Vector.ofFn (fun i => BitVec.ofNat 16 (fieldAt b (0x30 + 2 * i.val) 2)),
    args := Vector.ofFn (fun i => wordAt b (0x40 + 8 * i.val)),
    reservedBad := geom / 2 ^ 48 != 0 || geom / 2 ^ 33 % 2 ^ 7 != 0 || geom / 2 ^ 12 % 16 != 0 || geom / 2 ^ 5 % 8 != 0 }

/-- A format slot that R120 refuses. -/
def slotRefused (x : BitVec 16) : Bool :=
  let elem := (x.extractLsb' 4 4).toNat
  let scale := (x.extractLsb' 2 2).toNat
  x.extractLsb' 8 8 != 0 || x.getLsbD 1 || decide (9 ≤ elem) || decide (2 ≤ scale) || (scale == 1 && elem == 0)

/-- Bytes of a cohort's reservation as R29 counts them. -/
def LaunchRec.bytes (l : LaunchRec) : Nat := 4 * l.waves * l.regs + l.scratch

/-- The first cause in the order 1, 2, 3, 7 that refuses a launch record that was read (R262); `on`: the dies whose
agents firmware has enabled. -/
def LaunchRec.refusal (l : LaunchRec) (on : BitVec 8) : Option Nat :=
  if l.reservedBad || l.waves == 0 || decide (16 < l.waves) || l.ens == 0 || decide (4 < l.ens) ||
      l.entry.toNat % 8 != 0 || decide (2 ^ 52 ≤ l.entry.toNat) || l.spill % 65536 != 0 || l.spad % 4194304 != 0 ||
      l.rwin % 1048576 != 0 then some 1
  else if l.regs < 16384 ∨ 65536 < l.regs ∨ 3670016 < l.bytes then some 2
  else if l.fs.toList.any slotRefused then some 3
  else if l.dies &&& ~~~on ≠ 0 then some 7
  else none

/-- The bytes of a launch record, if it is aligned and its page is present and readable. -/
def State.launchBytes (s : State) (a : Fin 9) (asid addr : Nat) : State × Option (List Byte) :=
  if addr % 128 ≠ 0 then (s, none)
  else match s.probe (agentPath a) asid addr .read false with
    | (s, .ok x) =>
      let (l, s) := s.readHomes (agentPath a) (x.base + addr % 65536) 128 (some x.leaf.key)
      (s, some l)
    | (s, .error _) => (s, none)

/-! ## Submission (R266, R269, R270) -/

/-- The agent that takes a record submitted to agent `a`: the coordinator for a grid that names another die. -/
def State.agentFor (s : State) (asid : Nat) (a : Fin 9) (r : TaskRec) : State × Fin 9 :=
  if r.kind ≠ 0 then (s, a)
  else match s.launchBytes a asid r.work with
    | (s, none) => (s, a)
    | (s, some b) => (s, if (List.range 8).any (fun d => (parseLaunch b).dies.getLsbD d && d != a.val) then 8 else a)

/-- Whether two regions make an edge. -/
def Region.meets (a b : Region) : Bool :=
  decide (a.base < b.base + b.len) && decide (b.base < a.base + a.len) && decide (0 < a.len) && decide (0 < b.len) &&
    (a.write || b.write)

/-- Whether an earlier task orders a later one of its stream. -/
def TaskRec.meets (n p : TaskRec) : Bool :=
  n.fence || p.fence || n.regions.any (fun x => p.regions.any x.meets)

/-- The incoming edges of a record submitted now (R270). -/
def State.edgesFor (s : State) (a : Fin 9) (r : TaskRec) : List (Nat × Nat) :=
  let earlier := s.tasks.filter (fun t => t.agent == a && t.trec.stream == r.stream)
  let met := earlier.filter (fun t => r.meets t.trec)
  (if 255 < met.length then earlier else met).map (fun t => (t.entry, t.gen))

/-- The free entries of an agent's table. -/
def State.freeEntries (s : State) (a : Fin 9) : List Nat :=
  (List.range 4096).filter (fun e => (s.task? a e).isNone)

/-- Give a record an entry, which one being free (R266): its id, or none with the table full. -/
def State.accept (s : State) (a : Fin 9) (asid : Nat) (r : TaskRec) (level : Nat) : State × Option W32 :=
  match s.freeEntries a with
  | [] => (s, none)
  | e :: es =>
    let (k, s) := s.draw
    let entry := (e :: es).getD (k % (es.length + 1)) e
    let gen := s.genOf a.val entry
    let (order, s) := s.fresh
    let t : Task := { agent := a, entry := entry, gen := gen, asid := asid, trec := r, counter := r.depc,
                      edges := s.edgesFor a r, order := order, acquire := level }
    ({ s with tasks := s.tasks ++ [t] }, some (taskId a entry gen))

/-- Where a record stands and the key of its page's leaf; of a page that cannot be read the R248 cause (R266, R311). -/
def State.recordPage (s : State) (a : Fin 9) (asid addr : Nat) : State × Except Nat (Nat × BitVec 8) :=
  match s.probe (agentPath a) asid addr .read false with
  | (s, .ok x) => (s, .ok (x.base + addr % 65536, x.leaf.key))
  | (s, .error y) => (s, .error (if y = 3 then 7 else y))

/-- A task record as its agent reads it, an acquire at a level, given to the agent that takes it (R266, R269): the result of
its submission, or none for an invalid record. -/
def State.submitRecord (s : State) (own : Fin 9) (asid : Nat) (page : Nat × BitVec 8) (level : Nat) :
    State × Option (Option W32) :=
  let (l, s) := (s.emptyBelow (agentPath own) level).readHomes (agentPath own) page.1 256 (some page.2)
  let r := parseTask l
  if !r.valid then (s, none)
  else
    let (s, a) := s.agentFor asid own r
    let (s, id) := s.accept a asid r level
    (s, some id)

/-- The traps of a record address (R184, R266): TSKL reaches neither the aperture nor the windows of its own cohort. -/
def State.recordTrap (s : State) (w : Wave) (ra : Word) : Option TrapInfo :=
  match s.headerTrap w 0x310 ra, s.region w (.virtual false) ra with
  | some t, _ => some t
  | none, .home _ => some { w.trapInfo 4 5 with addr := ra, seq := w.seq + 1 }
  | none, _ => none

/-- TSKL (R266). -/
def execTskl (h : Head) (d a : SReg) : State → Host.Outcome State Fault Refusal :=
  issue { h := h, opc := 0x310, len := 16, rs := [a], ws := [d], ignoreEm := true, sideWait := true } (fun s w v =>
    let ra := w.sget a
    match s.recordTrap w ra with
    | some t => .trap s w t
    | none =>
      if !s.releaseReady w 4 then .hold s w .order
      else
        let own := dieAgent w.core.die
        match s.recordPage own (s.asidOf w) ra.toNat with
        | (s, .error c) => .trap s w { w.trapInfo 4 8 with aux := c, addr := ra, seq := w.seq + 1 }
        | (s, .ok page) =>
          match s.submitRecord own (s.asidOf w) page 4 with
          | (s, none) => .trap s w (w.iil 0x310 5)
          | (s, some id) => .ok s (v.sset d (match id with
            | some x => x.setWidth 64
            | none => 0)) true)

/-- Whether an agent's die is enabled; the coordinator always is (R269). -/
def State.agentOn (s : State) (a : Fin 9) : Bool := a.val == 8 || s.mod.cfg.dies.getLsbD a.val

/-- SUBMIT (R269, R359): the record is read as an acquire at level 5; what is discarded is counted. Before bring-up has
ended no register of BAR2 answers (R371). -/
def execSubmit (asid : Nat) (agent : Fin 9) (addr : Nat) (s : State) : Host.Outcome State Fault Refusal :=
  .next (
    if !s.mod.ready then s
    else if (s.space? asid).isNone || !s.agentOn agent || addr % 256 != 0 || s.grids.any (fun g => g.asid == asid && !g.finished && g.inRange addr) then
      s.agentError agent
    else match s.recordPage agent asid addr with
      | (s, .error _) => s.agentError agent
      | (s, .ok page) =>
        match s.submitRecord agent asid page 5 with
        | (s, some (some _)) => s
        | (s, _) => s.agentError agent)

/-! ## TSKS and TSKQ (R265, R267, R268) -/

/-- The level TSKS releases at: raised to 4 for an agent of another die or the coordinator. -/
def tsksLevel (d : Fin 8) (scope : Nat) (id : W32) : Nat :=
  let agent := id.toNat / 4096 % 16
  if agent < 9 ∧ agent ≠ d.val then max scope 4 else scope

/-- TSKS (R267). -/
def execTsks (h : Head) (a b : VSrc) (scope : Fin 6) : State → Host.Outcome State Fault Refusal :=
  issue { h := h, opc := 0x311, len := 16, rs := srcSregs a ++ srcSregs b, rv := srcRegs a ++ srcRegs b,
          fv := srcFrees a ++ srcFrees b, ignoreEm := true, sideWait := true, uses := [.one a, .one b] } (fun s w v =>
    match w.uniform64 a, w.uniform64 b with
    | .error m, _ => .trap s w (w.unf 0x311 m)
    | _, .error m => .trap s w (w.unf 0x311 m)
    | .ok x, .ok n =>
      let level := tsksLevel w.core.die scope.val (low32 x)
      if !s.releaseReady w level then .hold s w .order
      else .ok (s.decTask (low32 x) (field n 0 16) level) v ((w.src a).isUA && (w.src b).isUA))

/-! ## Work of a started task (R256) -/

/-- The cohorts of a grid. -/
def State.gridCohorts (s : State) (g : Nat) : List Cohort := s.cohorts.filter (fun c => c.grid == g)

/-- The waves of a grid, exited ones included. -/
def State.gridWaves (s : State) (g : Nat) : List Wave :=
  s.waves.filter (fun w => (s.gridCohorts g).any (fun c => c.uid == w.cohort))

/-- Whether every access and piece of work of a task is done (R51, R256). -/
def State.workDone (s : State) (t : Task) : Bool :=
  t.refused.isSome ||
    (if t.trec.kind = 1 then t.counter == 0 && t.appended == t.trec.npkt
     else match t.grid with
      | none => true
      | some g =>
        (s.gridCohorts g).all (fun c => c.place == .gone) &&
          (s.gridWaves g).all (fun w => !s.accs.any (fun a => a.agent == .wave w.uid) && (s.sideOf w.uid).isEmpty &&
            w.nests.all (fun n => n.state == .stopped)))

/-- The R256 code of a task's state. -/
def State.taskCode (s : State) (t : Task) : Nat :=
  match t.state with
  | .waiting => if t.counter = 0 ∧ t.edges = [] then 2 else 1
  | .running => if s.workDone t then 4 else 3

/-- TSKQ (R268). -/
def execTskq (h : Head) (d : SReg) (a : VSrc) : State → Host.Outcome State Fault Refusal :=
  issue { h := h, opc := 0x312, len := 16, rs := srcSregs a, ws := [d], rv := srcRegs a, fv := srcFrees a,
          ignoreEm := true, uses := [.one a] } (fun s w v =>
    match w.uniform64 a with
    | .error m => .trap s w (w.unf 0x312 m)
    | .ok x =>
      .ok s (v.sset d (match s.taskNamed (low32 x) with
        | none => 0
        | some t => place t.counter 32 ||| place (min t.edges.length 255) 24 ||| place (s.taskCode t) 0)) (w.src a).isUA)

/-! ## Operating points (R277, R318) -/

/-- The tasks that depend on a task through an edge or through its NEXT words. -/
def State.dependents (s : State) (t : Task) : List Task :=
  s.tasks.filter (fun x => (x.agent == t.agent && x.edges.contains (t.entry, t.gen)) ||
    (t.trec.nx0v && s.taskNamed t.trec.next0 == some x) || (t.trec.nx1v && s.taskNamed t.trec.next1 == some x))

/-- A task's latest finish, to a depth of dependents. -/
def State.latestFinish (s : State) : Nat → Task → Option Int
  | 0, t => if t.trec.deadline = 0 then none else some t.trec.deadline
  | n + 1, t =>
    let least (a b : Option Int) : Option Int := match a, b with
      | some x, some y => some (min x y)
      | some x, none => some x
      | none, y => y
    (s.dependents t).foldl (fun o x => least o ((s.latestFinish n x).map (fun f => f - x.trec.est)))
      (if t.trec.deadline = 0 then none else some t.trec.deadline)

/-- The point a running task requests: the lowest at which it finishes in time. -/
def State.requested (s : State) (t : Task) : Fin 4 :=
  match s.latestFinish s.tasks.length t with
  | none => 0
  | some f =>
    let left := f - s.clk
    let est : Int := t.trec.est
    if t.trec.est = 0 then 0
    else if 2 * est ≤ left then 3
    else if 4 * est ≤ 3 * left then 2
    else if 17 * est ≤ 15 * left then 1
    else 0

/-- The point every rail is to run at: OP3 while a die is above 110 °C (R370), else the highest a running task requests,
and none without running tasks. -/
def State.railTarget (s : State) : Option (Fin 4) :=
  if s.dies.any (fun d => d.over110) then some 3
  else (s.tasks.filter (fun t => t.state == .running && s.taskCode t == 3)).foldl (fun o t => match o with
    | none => some (s.requested t)
    | some p => some (min p (s.requested t))) none

/-- Start the ramps that the requests now ask for: before and after time passes, so that a later clk.cr, submissions, starts
and completions all count (R277; log 10). -/
def State.retarget (s : State) : State :=
  match s.railTarget with
  | none => s
  | some p =>
    let change (r : RailSt) : RailSt := match r.ramp with
      | some (q, _) => if q = p then r else { r with ramp := some (p, s.clk + 20000) }
      | none => if r.point = p then r else { r with ramp := some (p, s.clk + 20000) }
    { s with mod := { s.mod with rails := s.mod.rails.map change } }

/-- The index of a rail. -/
def railIdx : Rail → Fin 4
  | .matrix => 0
  | .vector => 1
  | .sram => 2
  | .fabric => 3

/-- RAMP_COMPLETE (R277, R318). -/
def execRampComplete (r : Rail) (s : State) : Host.Outcome State Fault Refusal :=
  match s.mod.rails[(railIdx r).val].ramp with
  | none => .next s
  | some (p, _) =>
    let life := { s.mod.life with ramps := s.mod.life.ramps + 1 }
    let rails := s.mod.rails.set (railIdx r).val { point := p, ramp := none }
    .next { s with mod := { s.mod with rails := rails, life := life } }

/-! ## Starting a task (R261, R262, R271 to R273) -/

/-- Ready, and no ready task of the agent is older; at most 256 run at once (R271). -/
def State.mayStart (s : State) (t : Task) : Bool :=
  s.taskCode t == 2 && !s.tasks.any (fun x => x.agent == t.agent && s.taskCode x == 2 && decide (x.order < t.order)) &&
    decide ((s.tasks.filter (fun x => x.agent == t.agent && s.taskCode x == 3)).length < 256)

/-- The dies of a grid, ascending: those DIES names; else the agent's own, or one that is free on the coordinator. -/
def gridDies (a : Fin 9) (dies : BitVec 8) (pick : Nat) (on : BitVec 8) : List (Fin 8) :=
  let named := (List.finRange 8).filter (fun d => dies.getLsbD d.val)
  if named.isEmpty then
    (if h : a.val < 8 then [⟨a.val, h⟩]
     else
      let l := (List.finRange 8).filter (fun d => on.getLsbD d.val)
      [l.getD (pick % max 1 l.length) 0])
  else named

/-- A free base in multiples of `unit`, with room for `n` of them below 2^52 where there is any (R260). -/
def freeBase (pick unit n : Nat) : Nat := (1 + pick % max 1 (2 ^ 52 / unit - n)) * unit

/-- One ensemble of a grid, its cohorts and the place they wait in (R273). -/
def State.addEnsemble (s : State) (g : Grid) (dies : List (Fin 8)) (e : Nat) : State :=
  let d := dies.getD (e % dies.length) 0
  let (ens, s) := s.fresh
  let (s, uids) := (List.range g.launch.ens).foldl (fun (acc : State × List Nat) i =>
    let (uid, s) := acc.1.fresh
    let c : Cohort := { uid := uid, grid := g.uid, cid := g.launch.ens * e + i, ens := ens, ensIdx := i, core := ⟨d, 0, 0⟩,
                        nwaves := g.launch.waves, spadBytes := g.launch.scratch }
    ({ s with cohorts := s.cohorts ++ [c] }, acc.2 ++ [uid])) (s, [])
  let en : Ensemble := { uid := ens, cohorts := uids, fused := g.launch.fuse }
  let s : State := { s with ensembles := s.ensembles ++ [en] }
  let k := s.dieOf d
  s.putDie { k with queue := k.queue ++ [⟨uids⟩] }

/-- Start a grid: refused, empty, or its entries joining the tails of their queues. -/
def State.startGrid (s : State) (t : Task) : State :=
  match s.launchBytes t.agent t.asid t.trec.work with
  | (s, none) => s.putTask { t with state := .running, refused := some 6 }
  | (s, some b) =>
    let l := parseLaunch b
    match l.refusal s.mod.cfg.dies with
    | some c => s.putTask { t with state := .running, refused := some c }
    | none =>
      if l.ncoh = 0 then s.putTask { t with state := .running }
      else
        let (pick, s) := s.draw
        let (p1, s) := s.draw
        let (p2, s) := s.draw
        let dies := gridDies t.agent l.dies pick s.mod.cfg.dies
        let n := l.ncoh * l.ens
        let l := { l with spad := if l.spad = 0 then freeBase p1 4194304 n else l.spad,
                          rwin := if l.rwin = 0 then freeBase p2 1048576 n else l.rwin,
                          dies := dies.foldl (fun m d => m ||| (1#8 <<< d.val)) 0 }
        let (uid, s) := s.fresh
        let g : Grid := { uid := uid, asid := t.asid, agent := t.agent, entry := t.entry, launch := l }
        let s := { s with grids := s.grids ++ [g] }
        (List.range l.ncoh).foldl (fun s e => s.addEnsemble g dies e) (s.putTask { t with state := .running, grid := some uid })

/-- The queue a copy batch names, attached in its address space. -/
def State.batchQueue (s : State) (t : Task) : State × Option TQueue :=
  match s.queueNamed (agentPath t.agent) t.asid t.trec.qhdr with
  | (s, some q) => (s, if q.detaching then none else some q)
  | (s, none) => (s, none)

/-- The page of packet k of a batch's array. -/
def State.batchPage (s : State) (t : Task) (k : Nat) : State × Except Nat Xlat :=
  s.probe (agentPath t.agent) t.asid (t.trec.work + 64 * k) .read false

/-- Whether the pages of packets of a batch's array all translate. -/
def State.batchReads (s : State) (t : Task) : State × Bool :=
  (List.range t.trec.npkt).foldl (fun (x : State × Bool) k =>
    match x.1.batchPage t k with
    | (s, .ok _) => (s, x.2)
    | (s, .error _) => (s, false)) (s, true)

/-- Start a copy batch (R272): CAUSE 8, or the counter at NPKT. -/
def State.startBatch (s : State) (t : Task) : State :=
  let t := { t with state := .running, counter := t.trec.npkt }
  let (s, q) := s.batchQueue t
  let (s, good) := s.batchReads t
  s.putTask (if q.isNone || !good then { t with refused := some 8 } else t)

/-- TASK_START (R51, R271): starting is an acquire at the level of the submission and of every task or TSKS it waited
for. -/
def execTaskStart (agent : Fin 9) (entry : Nat) (s : State) : Host.Outcome State Fault Refusal :=
  match s.task? agent entry with
  | none => .next s
  | some t =>
    if !s.mayStart t then .next s
    else
      let s := s.emptyBelow (agentPath agent) t.acquire
      .next (if t.trec.kind = 0 then s.startGrid t else s.startBatch t)

/-- Packet words as a batch appends them: TASKV set, TASK its entry and agent (R272). -/
def batchWords (t : Task) (bytes : List Byte) : List W32 :=
  (List.range 15).map (fun k =>
    let x := w32At bytes (4 * k)
    if k = 0 then x ||| 0x10 else if k = 14 then (x &&& 0xFFFF0000) ||| (taskId t.agent t.entry 0) else x)

/-- The claim of a slot for a batch's next packet: a fetch-and-add of 1 on WIDX at level 5 (R238). -/
def State.batchClaim (s : State) (t : Task) (q : TQueue) : State :=
  let (i, s) := s.headerWord q.hdrKey q.hdrPa 0
  (s.storeM (agentPath t.agent) q.hdrKey q.hdrPa (leOf 8 (i + 1))).putTask { t with claim := some (q.id, i) }

/-- A batch's next packet goes into its slot, its array read by the agent's loads (R272); poisoned bytes have no value that
the spec gives, and are free (log 18). -/
def State.batchWrite (s : State) (t : Task) (q : TQueue) (slot : Nat) (x : Xlat) : State :=
  let path := agentPath t.agent
  let (s, read, bad) := s.readBytes path x.leaf.key true none (.mem (x.base + (t.trec.work + 64 * t.appended) % 65536)) 64
  let (s, bytes) := if bad then s.freeBytes 64 else (s, read)
  let s := s.storeM path (q.slotKey slot) (q.slotPa slot) ((batchWords t bytes).flatMap (fun w => leOf 4 w.toNat) ++ leOf 4 (slot + 1))
  s.putTask { t with claim := none, appended := t.appended + 1 }

/-- COPY_BATCH_APPEND (R238, R272): a step of the append of a batch's next packet: the claim, once no buffer of the agent's
path holds WIDX (R48), then, once the ring has room and STAMP's release at level 5 may perform (R40), the slot. A batch whose
queue has gone, or whose array no longer translates, appends nothing. -/
def execCopyBatchAppend (agent : Fin 9) (entry : Nat) (s : State) : Host.Outcome State Fault Refusal :=
  match s.task? agent entry with
  | none => .next s
  | some t =>
    let path := agentPath agent
    let held (q : TQueue) : Option Nat := match t.claim with
      | some (id, k) => if id = q.id then some k else none
      | none => none
    let step (s : State) (q : TQueue) (x : Xlat) : State :=
      match held q with
      | none => if s.bufferClear path 5 q.hdrPa 8 then s.batchClaim t q else s
      | some slot =>
        if (s.headerWord q.hdrKey q.hdrPa 0x80).1 + 2 ^ q.logcap ≤ slot ∨ !s.agentDrained path (.yarrow agent) 5 ∨
            !s.bufferClear path 5 (q.slotPa slot) 64 then s
        else s.batchWrite t q slot x
    if t.state ≠ .running ∨ t.trec.kind ≠ 1 ∨ t.refused.isSome ∨ t.trec.npkt ≤ t.appended then .next s
    else
      let (s, q) := s.batchQueue t
      let (s, x) := s.batchPage t t.appended
      match q, x with
      | some q, .ok x => .next (step s q x)
      | _, _ => .next s

/-! ## Completion (R51, R263, R264) -/

/-- Whether a task runs on more than one die. -/
def State.manyDies (s : State) (t : Task) : Bool :=
  match t.grid with
  | some u => (match s.grid? u with
    | some g => decide (1 < popCount g.launch.dies)
    | none => false)
  | none => false

/-- The completion level L. -/
def State.taskLevel (s : State) (t : Task) : Nat :=
  let l := if t.trec.cscope = 0 then 5 else t.trec.cscope
  if s.manyDies t || (s.dependents t).any (fun x => x.agent != t.agent || x.agent.val == 8) then max l 4 else l

/-- Whether a write-buffer entry is a byte that a completed copy of an address space wrote: its packet is done. A wave of a
grid may have taken the copy's completion (R245), and the grid's completion releases it with the rest (R50, R305; log 90). -/
def State.copyByte (s : State) (asid : Nat) (e : WbEntry) : Bool :=
  (match e.agent with
    | .channel _ => true
    | _ => false) && e.trans.any (fun x => x.asid == asid) && !s.packets.any (fun p => p.id == e.instr && p.state != .done)

/-- The conditions of R40 at the completion level: no write buffer below it holds an entry of the job, of its agent, or of a
copy that completed, nor one on the agent's path that overlaps the completion word. -/
def State.jobDrained (s : State) (t : Task) (level : Nat) (cmp : Option Place) : Bool :=
  let path := agentPath t.agent
  s.agentDrained path (.yarrow t.agent) level && s.wordClear path level cmp &&
    (match t.grid with
      | none => true
      | some g =>
        let ws := s.gridWaves g
        !s.wb.any (fun e => decide (nodeLevel e.node < level) &&
          (ws.any (fun w => e.agent == .wave w.uid) || s.copyByte t.asid e)))

/-- STATUS and CAUSE, the first in the order 4, 2, 6, 5, 3 (R263). -/
def State.taskStatus (s : State) (t : Task) : Nat × Nat :=
  match t.refused with
  | some c => (2, c)
  | none =>
    match (match t.grid with
      | some u => s.grid? u
      | none => none) with
    | none => (0, 0)
    | some g =>
      if g.civ then (4, 0)
      else if g.spillFail then (2, 4)
      else match g.undelivered with
        | some c => (6, c % 16)
        | none => if g.storeFault then (5, 0) else if g.degraded then (3, 0) else (0, 0)

/-- Where a task's completion word goes, with its key: none without a word, an error where its page does not take it
(R263). -/
def State.completionPlace (s : State) (t : Task) : State × Except Unit (Option (Nat × BitVec 8)) :=
  if t.trec.cmpa = 0 then (s, .ok none)
  else match s.probe (agentPath t.agent) t.asid t.trec.cmpa .write true with
    | (s, .error _) => (s, .error ())
    | (s, .ok x) => (s, .ok (some (x.base + t.trec.cmpa % 65536, x.leaf.key)))

/-- The completion store at level L, or its count in AGERR (R263). -/
def State.completionWord (s : State) (t : Task) (place : Except Unit (Option (Nat × BitVec 8))) (level status cause : Nat) :
    State :=
  match place with
  | .ok none => s
  | .error _ => s.agentError t.agent
  | .ok (some (pa, key)) =>
    s.releaseStore (agentPath t.agent) (.yarrow t.agent) level pa key (some ⟨t.asid, t.trec.cmpa / 65536, s.clk, none⟩)
      (leOf 8 (t.trec.seqv.toNat + 2 ^ 32 * status + 2 ^ 36 * cause))

/-- The freeing of the entry (R256): its generation rises, and edges from it are satisfied (R271). -/
def State.freeTask (s : State) (t : Task) (level : Nat) : State :=
  let gen := if t.gen = 65535 then 1 else t.gen + 1
  let satisfy (x : Task) : Task :=
    if x.agent == t.agent && x.edges.contains (t.entry, t.gen) then
      { x with edges := x.edges.filter (fun e => e != (t.entry, t.gen)), acquire := max x.acquire level }
    else x
  { s with
    tasks := (s.tasks.filter (fun x => !(x.agent == t.agent && x.entry == t.entry))).map satisfy,
    gens := ((t.agent.val, t.entry), gen) :: s.gens.filter (fun x => x.1 != (t.agent.val, t.entry)) }

/-- Whether a copy into or out of a cohort of the grid is outstanding (R252). -/
def State.gridBusy (s : State) (g : Grid) : Bool :=
  (s.gridCohorts g.uid).any (fun c => s.packets.any (fun p => p.touches true g c.cid || p.touches false g c.cid))

/-- Forget a grid with its ensembles, cohorts and waves, and any reservation that it still holds (R16). -/
def State.dropGrid (s : State) (g : Nat) : State :=
  let cs := (s.gridCohorts g).map (fun c => c.uid)
  let s := (s.gridCohorts g).foldl State.release s
  { s with
    grids := s.grids.filter (fun x => x.uid != g), waves := s.waves.filter (fun w => !cs.contains w.cohort),
    ensembles := s.ensembles.filter (fun e => !e.cohorts.any cs.contains),
    cohorts := s.cohorts.filter (fun c => c.grid != g) }

/-- A completed task's grid: counted (R351), and dropped unless copies still hold its cohorts' reservations (R252). -/
def State.endGrid (s : State) (t : Task) (status : Nat) : State :=
  match (match t.grid with
    | some u => s.grid? u
    | none => none) with
  | none => s
  | some g =>
    let l := s.mod.life
    let one (n : Nat) (x : Word) : Word := if status = n then x + 1 else x
    let life := { l with degraded := one 3 l.degraded, civ := one 4 l.civ, undelivered := one 6 l.undelivered }
    let s := { s with mod := { s.mod with life := life } }
    if s.gridBusy g then s.putGrid { g with finished := true } else s.dropGrid g.uid

/-- TASK_COMPLETION (R51, R264): the decrements, the completion word, the freeing of the entry. -/
def execTaskCompletion (agent : Fin 9) (entry : Nat) (s : State) : Host.Outcome State Fault Refusal :=
  match s.task? agent entry with
  | none => .next s
  | some t =>
    let level := s.taskLevel t
    let (s, place) := s.completionPlace t
    let word : Option Place := match place with
      | .ok (some x) => some (.mem x.1)
      | _ => none
    if t.state ≠ .running ∨ !s.workDone t ∨ !s.jobDrained t level word then .next s
    else
      let s := if t.trec.nx0v then s.decTask t.trec.next0 1 level else s
      let s := if t.trec.nx1v then s.decTask t.trec.next1 1 level else s
      let (status, cause) := s.taskStatus t
      .next (((s.completionWord t place level status cause).freeTask t level).endGrid t status)

/-- RESERVATION_RELEASE (R16, R252). -/
def execReservationRelease (cohort : Nat) (s : State) : Host.Outcome State Fault Refusal :=
  match s.cohort? cohort with
  | none => .next s
  | some c =>
    match s.grid? c.grid with
    | none => .next s
    | some g =>
      if c.place ≠ .gone ∨ s.packets.any (fun p => p.touches true g c.cid || p.touches false g c.cid) then .next s
      else
        let s := s.release c
        .next (if g.finished && !s.gridBusy g then s.dropGrid g.uid else s)

/-! ## Room on a core (R16) -/

/-- Whether a bank holds a reserved granule. -/
def CoreSt.reserves (k : CoreSt) (b : Fin 32) : Bool := k.granules.any (fun g => g.bank == b)

/-- The granules a new reservation may take, in order: those of reserve banks, then of L1 banks down to the four that
stay. -/
def CoreSt.room (k : CoreSt) : List (Fin 32 × Fin 32) :=
  let banks := (List.finRange 32).reverse
  let reserve := banks.filter k.reserves
  let l1 := (banks.filter (fun b => !k.reserves b)).take (28 - reserve.length)
  (reserve ++ l1).flatMap (fun b => ((List.finRange 32).filter (fun i => !k.granules.any (fun g => g.bank == b && g.index == i))).map
    (fun i => (b, i)))

/-- Granules a cohort reserves. -/
def reservation (c : Cohort) (budget : Nat) : Nat := c.nwaves * ((budget + 1023) / 1024) + (c.spadBytes + 4095) / 4096

/-- The register budget of a cohort's waves. -/
def State.budgetOf (s : State) (c : Cohort) : Nat :=
  match s.grid? c.grid with
  | some g => g.launch.regs
  | none => 0

/-- Waves a placement seats: all of them at the first, those that have not exited later. -/
def State.seatsNeeded (s : State) (c : Cohort) : Nat := if c.started then (s.liveWaves c.uid).length else c.nwaves

/-- The slots of a core that hold a wave. -/
def State.slotsUsed (s : State) (c : CoreId) : List (Fin 32) :=
  (s.waves.filter (fun w => s.resident w && w.core == c)).map (fun w => w.slot)

/-- Whether a core has the slots and granules a cohort needs (R273). -/
def State.fits (s : State) (c : Cohort) (k : CoreId) : Bool :=
  decide ((s.slotsUsed k).length + s.seatsNeeded c ≤ 32) &&
    decide (reservation c (s.budgetOf c) ≤ (s.coreOf k).room.length)

/-- Whether a seat names that many free slots. -/
def State.seatFits (s : State) (c : Cohort) (x : Seat) : Bool :=
  s.fits c x.core && x.slots.length == s.seatsNeeded c && decide (x.slots.Nodup) &&
    x.slots.all (fun k => !(s.slotsUsed x.core).contains k)

/-! ## Placement (R127, R131, R261, R273) -/

/-- The frame of each wave's spill area, and the pages leased; none if a page does not translate with read and write
permission. -/
def State.spillAreas (s : State) (g : Grid) (c : Cohort) (d : Fin 8) : State × Option (List (Nat × Nat)) :=
  (List.range c.nwaves).foldl (fun (acc : State × Option (List (Nat × Nat))) w =>
    let va := g.launch.spill + 32768 * (16 * c.cid + w)
    match acc.2, acc.1.probe (pathOf (.die d)) g.asid va .update false with
    | some l, (s, .ok x) => (s, some (l ++ [(va / 65536, x.base + va % 65536)]))
    | _, (s, _) => (s, none)) (s, some [])

/-- A wave at its first issue (R127, R261). -/
def newWave (g : Grid) (c : Cohort) (uid widx : Nat) : Wave :=
  { uid := uid, cohort := c.uid, widx := widx, core := c.core, pc := g.launch.entry,
    s := Vector.ofFn (fun i => if 1 ≤ i.val ∧ i.val ≤ 8 then g.launch.args.toList.getD (i.val - 1) 0 else 0),
    budget := g.launch.regs }

/-- The waves of a cohort's first placement. -/
def State.newWaves (s : State) (g : Grid) (c : Cohort) : State :=
  (List.range c.nwaves).foldl (fun s i =>
    let (uid, s) := s.fresh
    { s with waves := s.waves ++ [newWave g c uid i] }) s

/-- Seat a wave: core, slot and port by R13; its weights are of the core it left. -/
def Wave.seat (w : Wave) (k : CoreId) (slot : Fin 32) (port : Fin 4) (area : Option Nat) : Wave :=
  { w with core := k, slot := slot, port := port, spillPa := area, ready := 0, weights := [] }

/-- A cycle count of the old core carried over to the new: as long ago there as it was here. -/
def carry (new old t : Nat) : Nat := new - (old - t)

/-- A completion on the return of its cohort (R209): one that came while the cohort was away has its t0 at the return, the
others keep theirs. -/
def BDone.retime (d : BDone) (new old : Nat) : BDone :=
  if d.away then { d with t0 := new, away := false } else { d with t0 := carry new old d.t0 }

/-- The completions a cohort carries. -/
def Cohort.retime (c : Cohort) (new old : Nat) : Cohort :=
  { c with bdone := c.bdone.map (fun l => l.map (fun d => d.retime new old)),
           edone := c.edone.map (fun l => l.map (fun d => d.retime new old)) }

/-- A wave on the return of its cohort, which stands with its completions as they were: one that waits for a completion, or
waited as it came, counts from the return; a BARW that came to it late keeps its time, and its parking the order it has among
the waits of its new core (R57, R209, R275). -/
def State.retimeWave (s : State) (w : Wave) (new old : Nat) : Wave :=
  let waits : Bool := match w.park with
    | .bar _ | .ebar _ => true
    | .barw b => (match s.barDone w b with
      | some (d, _) => d.away || decide (w.barwAt ≤ d.t0)
      | none => true)
    | _ => false
  { w with backAt := if waits then some new else none, barwAt := carry new old w.barwAt,
           parkOrder := carry new old w.parkOrder }

/-- A cohort's return at a core cycle of a core. -/
def State.retimeCohort (s : State) (c : Cohort) (new old : Nat) : State :=
  let s := (s.liveWaves c.uid).foldl (fun s w => s.putWave (s.retimeWave w new old)) s
  s.putCohort (c.retime new old)

/-- Seat every live wave of a cohort, ascending, on ports from the core's pointer on (R13), each with its spill area. -/
def State.seatWaves (s : State) (c : Cohort) (x : Seat) (area : Wave → Option Nat) : State :=
  let k := s.coreOf x.core
  let ws := s.liveWaves c.uid
  let s := (List.range ws.length).foldl (fun s i =>
    match ws[i]? with
    | none => s
    | some w =>
      let w := w.seat x.core (x.slots.getD i 0) (k.portPtr + Fin.ofNat 4 i) (area w)
      let (s, w) := spillFit 256 s w
      s.putWave w) s
  s.putCore { k with portPtr := k.portPtr + Fin.ofNat 4 ws.length }

/-- Reserve a cohort's granules. -/
def State.reserve (s : State) (c : Cohort) (k : CoreId) : State :=
  let core := s.coreOf k
  let l := core.room.take (reservation c (s.budgetOf c))
  s.putCore { core with granules := core.granules ++ l.map (fun x => ⟨x.1, x.2, c.uid⟩) }

/-- Place one cohort on its seat: granules, waves, spill leases, and the acquire of its task's start or of its return
(R35, R51, R131); a halted wave that WREST brings back posts event 6 (R329). -/
def State.placeCohort (s : State) (g : Grid) (c : Cohort) (x : Seat) (areas : Option (List (Nat × Nat))) : State :=
  let s := s.reserve c x.core
  let s := if c.started then s.retimeCohort c (s.clkOf x.core) (s.clkOf c.core) else s.newWaves g c
  let back := match s.cohort? c.uid with
    | some b => b
    | none => c
  let s := s.putCohort { back with core := x.core, place := .resident, started := true,
                                   granules := reservation c (s.budgetOf c) }
  let s := s.seatWaves c x (fun w => match areas with
    | some l => (l[w.widx]?).map (fun y => y.2)
    | none => none)
  let restored := (s.liveWaves c.uid).filter (fun w => w.halted && c.started && c.place == .queued)
  let s := restored.foldl (fun s w => s.postEvent w 6 0 w.pc w.seq w.em 0) s
  let pages : List Nat := match areas with
    | some l => (l.map (fun y => y.1)).dedup
    | none => []
  let held : List Lease := pages.map (fun v => ⟨g.asid, v, .cohort c.uid, s.clk⟩)
  let s : State := { s with leases := s.leases ++ held }
  let level := if c.started then 3 else match s.task? g.agent g.entry with
    | some t => t.acquire
    | none => 5
  s.acquire x.core level

/-- The cohorts of an entry that has failed its spill check are gone, with the waves of any that had run (R131). -/
def State.dropCohorts (s : State) (l : List Nat) : State :=
  { s with
    cohorts := modWhere (fun c => l.contains c.uid) (fun c => { c with place := .gone }) s.cohorts,
    waves := modWhere (fun w => l.contains w.cohort) (fun w => { w with exited := true }) s.waves }

/-- The grid ends: no further cohort of it is placed, and its entries that have not run leave their queues (R131). -/
def State.failSpill (s : State) (g : Grid) (entry : List Nat) : State :=
  let fresh := ((s.gridCohorts g.uid).filter (fun c => !c.started && c.place == .queued)).map (fun c => c.uid)
  let l := entry ++ fresh
  let s := s.putGrid { g with spillFail := true }
  let keep (d : DieSt) : DieSt := { d with queue := d.queue.filter (fun e => !e.cohorts.any l.contains) }
  { s with dies := s.dies.map keep }.dropCohorts l

/-- A fused L1 begins: its partitions start empty (R17; log 112). -/
def State.beginFused (s : State) (g : Grid) (k : CoreId) : State :=
  if g.launch.fuse then
    { s with caches := s.caches.filter (fun c => match c.node with
        | .core x => !(x.die == k.die && x.clu == k.clu)
        | .cluster d u => !(d == k.die && u == k.clu)
        | _ => true) }
  else s

/-- Whether seats suit an entry's cohorts: one each, on distinct cores of one cluster of the die, which is enabled (R3,
R273). -/
def State.seatsFit (s : State) (d : Fin 8) (cs : List Cohort) (seats : List Seat) : Bool :=
  s.mod.cfg.dies.getLsbD d.val && seats.length == cs.length && decide ((seats.map (fun x => x.core)).Nodup) &&
    seats.all (fun x => x.core.die == d && (match seats with
      | y :: _ => x.core.clu == y.core.clu
      | [] => true)) &&
    (cs.zip seats).all (fun x => s.seatFits x.1 x.2)

/-- A die's spill pool of a size the spec does not give: free whether it has room (R262). -/
def State.poolRoom (s : State) (g : Grid) : Bool × State := if g.launch.spill = 0 then s.drawBit else (true, s)

/-- An entry's cohorts with their spill areas; without a spill base they have none to check. -/
def State.entryAreas (s : State) (g : Grid) (d : Fin 8) (cs : List Cohort) :
    State × List (Cohort × Option (List (Nat × Nat))) :=
  cs.foldl (fun (acc : State × List (Cohort × Option (List (Nat × Nat)))) c =>
    if g.launch.spill = 0 then (acc.1, acc.2 ++ [(c, some [])])
    else
      let (s, a) := acc.1.spillAreas g c d
      (s, acc.2 ++ [(c, a)])) (s, [])

/-- COHORT_PLACE (R273): the entry at the head of a die's queue, on seats the choice of which is free. -/
def execCohortPlace (d : Fin 8) (seats : List Seat) (s : State) : Host.Outcome State Fault Refusal :=
  let die := s.dieOf d
  match die.queue with
  | [] => .next s
  | e :: es =>
    let cs := e.cohorts.filterMap s.cohort?
    match cs with
    | [] => .next (s.putDie { die with queue := es })
    | c :: _ =>
      match s.grid? c.grid with
      | none => .next (s.putDie { die with queue := es })
      | some g =>
        if !s.seatsFit d cs seats then .next s
        else
          let (s, areas) := s.entryAreas g d cs
          let (room, s) := s.poolRoom g
          if !room || areas.any (fun x => x.2.isNone) then .next (s.failSpill g e.cohorts)
          else
            let s := s.putDie { die with queue := es }
            let s := s.beginFused g (match seats with
              | x :: _ => x.core
              | [] => c.core)
            .next ((areas.zip seats).foldl (fun s x =>
              s.placeCohort g x.1.1 x.2 (if g.launch.spill = 0 then none else x.1.2)) s)

/-! ## Leaving a core with its state (R35, R143, R204, R274, R275) -/

/-- Nothing of a cohort is on its way: no side-log entry, no copy, no access, no outstanding result, and no entry in a
write buffer below a level (R35, R63, R143, R252, R274). -/
def State.still (s : State) (c : Cohort) (level : Nat) : Bool :=
  let ws := s.liveWaves c.uid
  let copies : Bool := match s.grid? c.grid with
    | some g => s.packets.any (fun p => p.touches true g c.cid || p.touches false g c.cid)
    | none => false
  !copies && (s.waves.filter (fun w => w.cohort == c.uid)).all (fun w => (s.sideOf w.uid).isEmpty &&
      !s.accs.any (fun a => a.agent == .wave w.uid) &&
      !s.wb.any (fun e => e.agent == .wave w.uid && decide (nodeLevel e.node < level))) &&
    ws.all (fun w => s.quiet w)

/-- Parked at BAR, BARW, MWAIT or WSLEEP, and with `e` at EBAR; a BARA that parks does so as a BAR (R206). -/
def Wave.parkedFor (w : Wave) (e : Bool) : Bool :=
  match w.park with
  | .bar _ | .barNext _ | .baraNext _ | .barw _ | .mwait _ _ _ | .wsleep _ => true
  | .ebar _ | .ebarNext _ => e
  | _ => false

/-- A wave leaves its core: what it has pending commits (R143), its registers are whole, its lines disarmed, a wake pending
with WHY 3, its latch tags void. -/
def State.liftWave (s : State) (w : Wave) : State :=
  let (s, w) := s.commitNow w
  let (s, w) := refill s w w.spilled
  (s.unlatchWave w).putWave w.disarmSwitched

/-- A cohort leaves its core for `p`: waves lifted, spill leases and granules given back. -/
def State.liftCohort (s : State) (c : Cohort) (p : CPlace) : State :=
  let s := (s.liveWaves c.uid).foldl State.liftWave s
  let s := s.dropLeases (.cohort c.uid)
  (s.release c).putCohort { c with place := p }

/-- MIGRATION (R274): to another core of the die; the move drains and acquires by R35, and a fused L1 begins at its cluster
(R17). -/
def execMigration (cohort : Nat) (seat : Seat) (s : State) : Host.Outcome State Fault Refusal :=
  match s.cohort? cohort with
  | none => .next s
  | some c =>
    let level := if seat.core.clu = c.core.clu then 2 else 3
    let alone : Bool := match s.ens? c.ens with
      | some e => e.cohorts == [cohort]
      | none => false
    let settled (w : Wave) : Bool := !w.halted && w.inProg == .none && (w.parkedFor false || (w.park == .none && w.defs.isEmpty))
    let pendingE (w : Wave) : Bool := (List.finRange 4).any (fun e => match s.ensOf w with
      | some x => w.arrE[e.val] == x.bars[e.val].gen
      | none => false)
    let rested : Bool := match c.lastMove with
      | some t => decide (t + 1000000 ≤ s.clk)
      | none => true
    if c.place ≠ .resident ∨ !alone ∨ !rested ∨ seat.core.die ≠ c.core.die ∨ seat.core = c.core ∨ !s.still c level ∨
        !s.seatFits c seat ∨ (s.liveWaves cohort).any (fun w => !settled w || pendingE w) then .next s
    else
      let s := (s.liveWaves cohort).foldl State.liftWave (s.release c)
      let s := s.reserve c seat.core
      let s := s.retimeCohort c (s.clkOf seat.core) (s.clkOf c.core)
      let s := { s with cohorts := modWhere (fun x => x.uid == c.uid)
                          (fun x => { x with core := seat.core, lastMove := some s.clk }) s.cohorts }
      let s := match s.grid? c.grid with
        | some g => s.beginFused g seat.core
        | none => s
      .next ((s.seatWaves c seat (fun w => w.spillPa)).acquire seat.core level)

/-! ## The forward-progress swap (R275) -/

/-- The cohorts of a cohort's ensemble that have not ended. -/
def State.ensembleOf (s : State) (c : Cohort) : List Cohort :=
  match s.ens? c.ens with
  | some e => (e.cohorts.filterMap s.cohort?).filter (fun x => x.place != .gone)
  | none => [c]

/-- Whether a cohort meets the side-log and copy conditions of R274. -/
def State.movable (s : State) (c : Cohort) : Bool :=
  (match s.grid? c.grid with
    | some g => !s.packets.any (fun p => p.touches true g c.cid || p.touches false g c.cid)
    | none => true) && (s.waves.filter (fun w => w.cohort == c.uid)).all (fun w => (s.sideOf w.uid).isEmpty)

/-- Whether a cohort may be swapped out, with the rest of its ensemble. -/
def State.swappable (s : State) (c : Cohort) : Bool :=
  (s.ensembleOf c).all (fun x => x.place == .resident && s.movable x && (s.liveWaves x.uid).all (fun w => w.parkedFor true))

/-- When a cohort's last wave to park parked. -/
def State.parkedAt (s : State) (c : Cohort) : Nat := (s.liveWaves c.uid).foldl (fun n w => max n w.parkOrder) 0

/-- A cohort's lowest slot. -/
def State.lowSlot (s : State) (c : Cohort) : Nat := (s.liveWaves c.uid).foldl (fun n w => min n w.slot.val) 32

/-- The cohort of a core to swap: the one that parked first, on a tie the one with the lowest slot. -/
def State.swapChoice (s : State) (k : CoreId) : Option Cohort :=
  (s.cohorts.filter (fun c => c.place == .resident && c.core == k && s.swappable c)).foldl (fun o c => match o with
    | none => some c
    | some b =>
      if s.parkedAt c < s.parkedAt b ∨ (s.parkedAt c = s.parkedAt b ∧ s.lowSlot c < s.lowSlot b) then some c else some b) none

/-- Bytes of a die's swap pool: what the configuration record sets, and never less than 20 MiB (R275, R369). -/
def State.poolSize (s : State) : Nat := max (20 * 2 ^ 20) s.mod.cfg.swapPool

/-- Bytes of the die's swap pool in use. -/
def State.poolUsed (s : State) (d : Fin 8) : Nat :=
  ((s.cohorts.filter (fun c => c.place == .away && c.core.die == d)).map s.imageSize).foldl (· + ·) 0

/-- Whether cohorts can take distinct cores of a list. -/
def State.assign (s : State) : List Cohort → List CoreId → Bool
  | [], _ => true
  | c :: cs, ks => ks.any (fun k => s.fits c k && s.assign cs (ks.filter (fun x => x != k)))

/-- Whether the entry at the head of a core's die could be placed on the core. -/
def State.headFits (s : State) (k : CoreId) : Bool :=
  match (s.dieOf k.die).queue with
  | [] => false
  | e :: _ =>
    let cs := e.cohorts.filterMap s.cohort?
    let others := ((List.finRange 4).map (fun n => (⟨k.die, k.clu, n⟩ : CoreId))).filter (fun x => x != k)
    cs.any (fun c => s.fits c k && s.assign (cs.filter (fun x => x.uid != c.uid)) others)

/-- FORWARD_PROGRESS_SWAP (R275): the chosen cohort goes once it has drained (R35, R143), and the idle time of every core it or its
ensemble leaves starts anew. -/
def execForwardProgressSwap (c : CoreId) (s : State) : Host.Outcome State Fault Refusal :=
  let d := s.dieOf c.die
  let k := s.coreOf c
  if d.fp = 0 ∨ k.idle < d.fp.toNat ∨ d.queue = [] then .next s
  else
    match s.swapChoice c with
    | none => .next s
    | some x =>
      let out := s.ensembleOf x
      let size := (out.map s.imageSize).foldl (· + ·) 0
      let t := out.foldl (fun s y => s.liftCohort y .away) s
      if s.poolSize < s.poolUsed c.die + size ∨ out.any (fun y => !s.still y 3) ∨ !t.headFits c then .next s
      else
        let d := t.dieOf c.die
        let t := t.putDie { d with queue := d.queue ++ [⟨out.map (fun y => y.uid)⟩] }
        .next (out.foldl (fun t y => t.putCore { t.coreOf y.core with idle := 0 }) t)

end Sys2Proof.Machine
end

