-- ==== Sys2Proof/Machine/Regs.lean ====
section
/-! DEFINITION. Registers by number: the Eyebright registers (R335 to R338, R342, R349), the registers of an address space
that a wave and the host both write (R308, R320 to R322, R330), the faults they resolve (R321), and the system registers
(R309). -/

namespace Sys2Proof.Machine

/-! ## Pages that a register write leases (R320, R342, R349) -/

/-- The frames of the pages that hold `n` bytes from `va`, normal with read and write permission, each with the key of its leaf;
none if one is not. -/
def State.wholePages (s : State) (path : List NodeId) (asid va n : Nat) : State × Option (List (Nat × BitVec 8)) :=
  (List.range ((va + n - 1) / 65536 - va / 65536 + 1)).foldl (fun (acc : State × Option (List (Nat × BitVec 8))) k =>
    match acc.2, acc.1.probe path asid ((va / 65536 + k) * 65536) .update true with
    | some l, (s, .ok x) => (s, some (l ++ [(x.base, x.leaf.key)]))
    | _, (s, _) => (s, none)) (s, some [])

/-- End the leases of an address space for one holder. -/
def State.unlease (s : State) (asid : Nat) (h : LeaseHolder) : State :=
  { s with leases := s.leases.filter (fun l => !(l.asid == asid && l.holder == h)) }

/-- Lease `n` pages from the one of `va`. -/
def State.leaseFor (s : State) (asid va n : Nat) (h : LeaseHolder) : State :=
  let held : List Lease := (List.range n).map (fun k => ⟨asid, va / 65536 + k, h, s.clk⟩)
  { s with leases := s.leases ++ held }

/-- The physical address of byte `ofs` of an area whose pages' frames are known. -/
def areaPa (frames : List Nat) (va ofs : Nat) : Nat :=
  frames.getD ((va + ofs) / 65536 - va / 65536) 0 + (va + ofs) % 65536

/-- The key of the leaf of that byte's page (R367). -/
def areaKey (keys : List (BitVec 8)) (va ofs : Nat) : BitVec 8 := keys.getD ((va + ofs) / 65536 - va / 65536) 0

/-! ## Address-space registers (R308, R309, R320, R322, R359) -/

/-- Change an address space that exists. -/
def State.inSpace (s : State) (asid : Nat) (f : Space → Space) : State :=
  match s.space? asid with
  | some a => s.putSpace (f a)
  | none => s

/-- trap.base: bits [51:12]. -/
def trapBaseBits (v : Word) : Word := v &&& 0x000FFFFFFFFFF000

/-- flt.svc: bit 63 and bits [13:0]. -/
def fltSvcBits (v : Word) : Word := v &&& 0x8000000000003FFF

/-- FLT.VEC: bit 63 and bits [10:0]. -/
def fltVecBits (v : Word) : Word := v &&& 0x80000000000007FF

/-- tlb.lease: TICKS held to 1,000 to 1,000,000. -/
def tlbLeaseTicks (v : Word) : Nat := max 1000 (min 1000000 (field v 0 20))

/-- A write of flt.cfg (R320): the old leases end; LOG 4 to 12 leases every page of the ring, or 0 is stored. DESIGN CHOICE: a fault
that stands keeps its record, posted or not, and a posted one its RID; it counts for the new ring until it is resolved
(log 105). -/
def State.writeFltCfg (s : State) (path : List NodeId) (asid : Nat) (v : Word) : State :=
  let log := field v 0 4
  let base := v &&& 0x000FFFFFFFFFF000
  let s := s.unlease asid .faultRing
  let put (s : State) (v : Word) (l : List (Nat × BitVec 8)) : State := s.inSpace asid (fun a =>
    { a with fltCfg := v, ringPa := l.map (fun x => x.1), ringKeys := l.map (fun x => x.2), posted := 0 })
  if 4 ≤ log ∧ log ≤ 12 then
    match s.wholePages path asid base.toNat (32 * 2 ^ log) with
    | (s, none) => put s 0 []
    | (s, some l) => (put s (base ||| place log 0) l).leaseFor asid base.toNat l.length .faultRing
  else put s base []

/-- A write of mft.base lifts every bar (R331). -/
def State.writeMftBase (s : State) (asid : Nat) (v : Word) : State :=
  s.inSpace asid (fun a => { a with mftBase := v, barObj := [], barPage := [] })

/-- FLT_CFG_WRITE: the host's (R320, R359). -/
def execFltCfgWrite (asid : Nat) (v : Word) (s : State) : Host.Outcome State Fault Refusal :=
  .next (s.writeFltCfg [.root] asid v)

/-- MFT_BASE_WRITE: the host's (R331, R359). -/
def execMftBaseWrite (asid : Nat) (v : Word) (s : State) : Host.Outcome State Fault Refusal := .next (s.writeMftBase asid v)

/-! ## Eyebright registers (R335, R336, R338, R342, R349) -/

/-- The bits that register i stores. -/
def ebMask (i : Nat) : Word :=
  if i < 0x10 then 0xE00FFFFFFFFFFFF8
  else if i < 0x20 then 0x800FFFFFFFFFFFFF
  else if i < 0x28 then 0xF9FFFFFFFFFFFFFF
  else if i < 0x30 then 0x00000000FFFFFFFF
  else if i = 0x30 then 0x000FFFFFFFFF0001
  else if i = 0x31 then 0x800F0000FFFFFFFF
  else if i = 0x32 then 0x000FFFFFFFFFF00F
  else 0x00000000FFFFFFFF

/-- Store a register's bits. -/
def State.ebPut (s : State) (asid i : Nat) (v : Word) : State :=
  s.inSpace asid (fun a => if h : i < 52 then { a with eb := a.eb.set i v } else a)

/-- A write of dbg.mbx (R342): the write that sets EN leases the page, or EN stays 0. -/
def State.writeMbx (s : State) (path : List NodeId) (asid : Nat) (v : Word) : State :=
  let v := v &&& ebMask 0x30
  let s := s.unlease asid .mailbox
  if v.getLsbD 0 then
    let va := (v &&& ~~~1).toNat
    match s.probe path asid va .update true with
    | (s, .error _) => s.ebPut asid 0x30 (v &&& ~~~1)
    | (s, .ok x) =>
      ((s.ebPut asid 0x30 v).leaseFor asid va 1 .mailbox).inSpace asid (fun a => { a with mbxPa := x.base, mbxKey := x.leaf.key })
  else s.ebPut asid 0x30 v

/-- A write of smp.ctl (R349): PER below 2^JIT stores 2^JIT. -/
def smpCtlBits (v : Word) : Word :=
  let v := v &&& ebMask 0x31
  if field v 0 32 < 2 ^ field v 48 4 then (v &&& 0x800F000000000000) ||| place (2 ^ field v 48 4) 0 else v

/-- A write of smp.ring (R349): its pages are translated and leased as dbg.mbx is; LOG 0 if one does not translate. -/
def State.writeSmpRing (s : State) (path : List NodeId) (asid : Nat) (v : Word) : State :=
  let v := v &&& ebMask 0x32
  let log := field v 0 4
  let base := v &&& ~~~0xF
  let s := s.unlease asid .samples
  if 4 ≤ log ∧ log ≤ 12 then
    match s.wholePages path asid base.toNat (64 * 2 ^ log) with
    | (s, none) => s.ebPut asid 0x32 base
    | (s, some l) => ((s.ebPut asid 0x32 v).leaseFor asid base.toNat l.length .samples).inSpace asid (fun a =>
        { a with smpPa := l.map (fun x => x.1), smpKeys := l.map (fun x => x.2) })
  else s.ebPut asid 0x32 v

/-- A write of smp.seed (R335, R349): 0 stores 1; each core's LFSR for the space is seeded anew. -/
def State.writeSmpSeed (s : State) (asid : Nat) (v : Word) : State :=
  let v := v &&& ebMask 0x33
  let s := s.ebPut asid 0x33 (if v = 0 then 1 else v)
  { s with cores := s.cores.map (fun k => { k with samplers := k.samplers.filter (fun x => x.asid != asid) }) }

/-- A write of an Eyebright register, by DBGM or the host. -/
def State.writeEb (s : State) (path : List NodeId) (asid i : Nat) (v : Word) : State :=
  if i = 0x30 then s.writeMbx path asid v
  else if i = 0x31 then s.ebPut asid i (smpCtlBits v)
  else if i = 0x32 then s.writeSmpRing path asid v
  else if i = 0x33 then s.writeSmpSeed asid v
  else s.ebPut asid i (v &&& ebMask i)

/-- DBG_MBX_WRITE: the host's (R342, R359). -/
def execDbgMbxWrite (asid : Nat) (v : Word) (s : State) : Host.Outcome State Fault Refusal := .next (s.writeMbx [.root] asid v)

/-! ## Resolving faults (R189, R190, R201, R320, R321) -/

/-- An access that has its translation: its page's memory type and key apply (R49). -/
def Access.mapTo (a : Access) (x : Xlat) : Access :=
  { a with place := .mem (x.base + a.va % 65536), held := none, trans := some x.trans, key := x.leaf.key,
           fill := fillsOn a.evp x.leaf, device := if x.leaf.mt = 2 then some x.base else none,
           wcomb := x.leaf.mt == 1, isSo := x.leaf.mt == 3, ord := if x.leaf.mt = 3 then .sc else a.ord }

/-- What a held access needs of its page. -/
def Access.need (a : Access) : Need := if a.kind = .rmw then .update else .read

/-- A held lane's page is unmappable: the lane writes nothing, and its fault stands with the result (R189). -/
def State.loseLane (s : State) (a : Access) : State :=
  let lose (d : Def) : Def :=
    if a.defId = some d.id then
      let d := { d with lost := d.lost ||| laneBit a.lane, lostAux := a.need.kind }
      if a.lane < d.lostLane then { d with lostLane := a.lane, lostAddr := BitVec.ofNat 64 a.va } else d
    else d
  let s := s.popAcc a.id
  match a.agent with
  | .wave u => { s with waves := modWhere (fun w => w.uid == u) (fun w => { w with defs := w.defs.map lose }) s.waves }
  | _ => s

/-- What a discarded entry held back. -/
def SideEntry.gone (e : SideEntry) : Discarded :=
  { instr := e.instr, spans := e.lanes.map (fun l => (l.va, l.bytes.length)), rmw := e.rmw.isSome, sc := e.ord == .sc }

/-- A side-log entry is discarded, and its wave holds the fault; one reported after the exit goes to the grid (R190,
R263). -/
def State.discardEntry (s : State) (e : SideEntry) : State :=
  let s := { s with side := s.side.filter (fun x => x.id != e.id) }
  let p : PendFault :=
    { seq := e.seq, detail := 6, aux := 2, mask := e.lanes.foldl (fun m l => m ||| laneBit l.lane) 0, addr := match e.lanes with
      | l :: _ => BitVec.ofNat 64 l.va
      | [] => 0, entry := some e.gone, loc := some e.loc }
  match s.wave? e.wave with
  | none => s
  | some w =>
    if w.exited then
      (match s.grid? e.grid with
        | some g => s.putGrid { g with storeFault := true }
        | none => s)
    else s.putWave { w with pends := w.pends ++ [p] }

/-- A held access translates again. -/
def State.retryAccess (s : State) (a : Access) : State :=
  match s.translate a.core a.asid a.va a.need a.priv with
  | (s, .ok x) => { s with accs := modWhere (fun y => y.id == a.id) (fun y => y.mapTo x) s.accs }
  | (s, .error y) =>
    match s.raiseFault a.asid a.va a.need y (locOf a.core a.slot) a.seq a.pc with
    | (s, some f) => { s with accs := modWhere (fun y => y.id == a.id) (fun y => { y with held := some f }) s.accs }
    | (s, none) => s.loseLane a

/-- A side-log entry's page translates again. -/
def State.retryEntry (s : State) (e : SideEntry) : State :=
  let n : Need := if e.rmw.isSome then .update else .write
  match s.translate e.core e.asid (e.page * 65536) n (!e.user) with
  | (s, .ok _) => { s with side := modWhere (fun x => x.id == e.id) (fun x => { x with ready := true }) s.side }
  | (s, .error y) =>
    match s.raiseFault e.asid (e.page * 65536) n y e.loc e.seq e.pc with
    | (s, some f) => { s with side := modWhere (fun x => x.id == e.id) (fun x => { x with fault := f }) s.side }
    | (s, none) => s.discardEntry e

/-- The holders of a record go on as a retry has them. -/
def State.retryHolders (s : State) (f : FaultRec) : State :=
  let s := (s.accs.filter (fun a => a.held == some f.id)).foldl State.retryAccess s
  let s := (s.side.filter (fun e => e.fault == f.id && !e.ready)).foldl State.retryEntry s
  { s with waves := s.waves.map (fun w =>
      { w with fetch := if w.fetch = .held f.id then .free else w.fetch,
               nests := modWhere (fun n => n.state == .held f.id) (fun n => { n with state := .running }) w.nests }) }

/-- The holders of a record take PGF with detail 6. -/
def State.failHolders (s : State) (f : FaultRec) : State :=
  let s := (s.accs.filter (fun a => a.held == some f.id)).foldl State.loseLane s
  let s := (s.side.filter (fun e => e.fault == f.id && !e.ready)).foldl State.discardEntry s
  let stop (w : Wave) (n : Nest) : Wave := w.stopNest n.id (n.lostFault w.em f.page f.kind)
  let fail (w : Wave) : Wave :=
    (w.nests.filter (fun n => n.state == .held f.id)).foldl stop
      { w with fetch := if w.fetch = .held f.id then .lost else w.fetch }
  { s with waves := s.waves.map fail }

/-- Resolve the record of a RID (R321): an unknown one is ignored. -/
def State.resolve (s : State) (asid : Nat) (rid : W32) (unmappable : Bool) : State :=
  match s.faults.find? (fun f => f.asid == asid && f.rid == some rid) with
  | none => s
  | some f =>
    let s := { s with faults := s.faults.filter (fun x => x.id != f.id) }
    if unmappable then s.failHolders f else s.retryHolders f

/-- FLT_RES_RETRY (R321). -/
def execFltResRetry (asid : Nat) (rid : W32) (s : State) : Host.Outcome State Fault Refusal := .next (s.resolve asid rid false)

/-- FLT_RES_UNMAPPABLE (R321). -/
def execFltResUnmappable (asid : Nat) (rid : W32) (s : State) : Host.Outcome State Fault Refusal :=
  .next (s.resolve asid rid true)

/-- Records posted and not resolved. -/
def State.unresolved (s : State) (asid : Nat) : Nat := (s.faults.filter (fun f => f.asid == asid && f.rid.isSome)).length

/-- The 16 bytes of a name (R27). -/
def nameBytes (loc : BitVec 14) (seq : BitVec 32) (pc : Word) : List Byte :=
  leOf 8 (pc.toNat % 2 ^ 52) ++ leOf 8 (nameHigh loc seq).toNat

/-- A fault record's 32 bytes (R320). -/
def faultBytes (f : FaultRec) (rid : Nat) : List Byte :=
  leOf 8 (f.page * 65536) ++ leOf 8 (rid % 2 ^ 32 * 2 ^ 32 + f.kind * 2 ^ 20 + f.why * 2 ^ 16) ++ nameBytes f.loc f.seq f.pc

/-- FAULT_POST (R320): with room in the ring the record is written, its RID last; the host and the service wave are
signalled. DESIGN CHOICE: a fault that stood unposted when flt.cfg was written is posted in the new ring, and stays held while its
LOG is 0 (log 105). -/
def execFaultPost (id : Nat) (s : State) : Host.Outcome State Fault Refusal :=
  match s.faults.find? (fun f => f.id == id) with
  | none => .next s
  | some f =>
    match s.space? f.asid with
    | none => .next s
    | some a =>
      let log := field a.fltCfg 0 4
      if f.rid.isSome ∨ log = 0 ∨ 2 ^ log ≤ s.unresolved f.asid then .next s
      else
        let rid := a.posted + 1
        let base := (a.fltCfg &&& ~~~0xFFF).toNat
        let ofs := 32 * (a.posted % 2 ^ log)
        let s := s.storeM [.root] (areaKey a.ringKeys base ofs) (areaPa a.ringPa base ofs) (faultBytes f rid)
        let s := s.putSpace { a with posted := rid % 2 ^ 32 }
        let s := { s with faults := modWhere (fun x => x.id == id) (fun x => { x with rid := some (BitVec.ofNat 32 rid) }) s.faults }
        let s := if a.fltVec.getLsbD 63 then
            { s with mod := { s.mod with msix := s.mod.msix ++ [field a.fltVec 0 11] } } else s
        .next (if a.fltSvc.getLsbD 63 then s.sendInt f.asid (a.fltSvc.setWidth 14) else s)

/-- LEASE_EXPIRY (R185, R322): an entry whose lease has run out is used no more, nor the lines of an L1 that were filled
through one. -/
def execLeaseExpiry (id : Nat) (s : State) : Host.Outcome State Fault Refusal :=
  let ended (c : CacheEntry) : Bool := match c.ends with
    | some t => decide (t ≤ s.clk)
    | none => false
  .next { s.sweepPackets with tlb := s.tlb.filter (fun e => !(e.id == id && decide (e.expiry ≤ s.clk))),
                              caches := s.caches.filter (fun c => !ended c) }

/-- INT_SEND (R316, R360): to a space that does not exist it is dropped and counted; which agent's counter is not said,
so each of the nine may be it. -/
def execIntSend (asid : Nat) (loc : BitVec 14) (s : State) : Host.Outcome State Fault Refusal :=
  match s.space? asid with
  | some _ => .next (s.sendInt asid loc)
  | none =>
    if !s.mod.ready then .next s
    else
      let (k, s) := s.draw
      .next (s.agentError (Fin.ofNat 9 k))

/-! ## Module registers (R275, R276) -/

/-- yar.clim as it reads: the lower of the value written and Yarrow's, which is the whole range before bring-up, follows the
die's current budget after it, and is lower above 105 °C (R276, R370). -/
def State.climit (s : State) (d : Fin 8) (k : Fin 12) : Nat :=
  let n := (s.clk * 8 + d.val) * 12 + k.val
  let full := min (Config.yarLimit s.mod.cfg.currents[d.val] n) 0x3FFFFF
  let own := if !s.mod.cfgApplied then 0x3FFFFF else if (s.dieOf d).over105 then full - (1 + Config.yarCut n) else full
  min (s.cluOf d k).clim.toNat own

/-- A write of yar.clim. -/
def State.writeClim (s : State) (d : Fin 8) (k : Fin 12) (v : Word) : State := s.putClu { s.cluOf d k with clim := v.setWidth 22 }

/-- A write of yar.fp. -/
def State.writeFp (s : State) (d : Fin 8) (v : Word) : State := s.putDie { s.dieOf d with fp := v.setWidth 32 }

/-! ## System registers (R308, R309) -/

/-- A view of a register. -/
inductive View where
  | ro | rw | wo | hidden
  deriving DecidableEq, Repr

/-- The user view of a register that has a number; wave.st is written by its map. -/
def userView (n : Nat) : View :=
  if n = 0x003 then .rw
  else if n = 0x00B ∨ n = 0x00C ∨ (0x010 ≤ n ∧ n < 0x024) then .rw
  else if n < 0x100 then .ro
  else if n = 0x120 then .ro
  else .hidden

/-- The privileged view. -/
def privView (n : Nat) : View :=
  if n = 0x125 ∨ n = 0x170 then .wo
  else if n = 0x003 then .rw
  else if n = 0x00B ∨ n = 0x00C ∨ (0x010 ≤ n ∧ n < 0x024) then .rw
  else if n < 0x100 ∨ n = 0x120 ∨ n = 0x121 ∨ 0x180 ≤ n then .ro
  else .rw

/-- The view a wave has. -/
def Wave.view (w : Wave) (n : Nat) : View := if w.priv then privView n else userView n

/-- wave.id (R28). -/
def State.waveId (s : State) (w : Wave) : Word :=
  place w.loc.toNat 16 ||| place (match s.cohortOf w with
    | some c => c.ensIdx
    | none => 0) 8 ||| place w.widx 0

/-- The cohort's records and grid of a wave, where it has them. -/
def State.cohortWord (s : State) (w : Wave) (f : Cohort → Word) : Word :=
  match s.cohortOf w with
  | some c => f c
  | none => 0

/-- A word of the wave's grid. -/
def State.gridWord (s : State) (w : Wave) (f : Grid → Word) : Word :=
  match s.gridOf w with
  | some g => f g
  | none => 0

/-- A word of the wave's address space. -/
def State.spaceWord (s : State) (w : Wave) (f : Space → Word) : Word :=
  match s.spaceOf w with
  | some a => f a
  | none => 0

/-- A word of the wave's ensemble. -/
def State.ensWord (s : State) (w : Wave) (f : Ensemble → Word) : Word :=
  match s.ensOf w with
  | some e => f e
  | none => 0

/-- Where the part of a grid's aperture or window range that is the wave's cohort's begins (R138, R183, R260). -/
def State.cohortBase (s : State) (w : Wave) (base : LaunchRec → Nat) (size : Nat) : Nat :=
  match s.gridOf w, s.cohortOf w with
  | some g, some c => base g.launch + size * c.cid
  | _, _ => 0

/-- A channel of the wave's cluster. -/
def Wave.chan (w : Wave) (n : Nat) : ChanId := ⟨w.core.die, w.core.clu, Fin.ofNat 4 n⟩

/-- The registers of wave, cohort, ensemble, grid and clocks: numbers below 0x100. -/
def State.lowRegister (s : State) (w : Wave) (n : Nat) : Word :=
  match n with
  | 0x000 => s.waveId w
  | 0x001 => w.seq.setWidth 64
  | 0x002 => BitVec.ofNat 64 (s.cohortBase w (fun l => l.rwin) 1048576 + 65536 * w.widx)
  | 0x003 => boolWord w.priv ||| (boolWord w.intp <<< 8)
  | 0x004 => s.cohortWord w (fun c => BitVec.ofNat 64 c.cid)
  | 0x005 => BitVec.ofNat 64 (s.cohortBase w (fun l => l.spad) 4194304)
  | 0x006 => s.gridWord w (fun g => place g.launch.geomLow.toNat 32 ||| place g.launch.ncoh 0)
  | 0x007 => w.xst.setWidth 64
  | 0x008 => w.vst.setWidth 64
  | 0x009 => BitVec.ofNat 64 s.clk
  | 0x00A => BitVec.ofNat 64 (s.clkOf w.core)
  | 0x00B => w.bconf
  | 0x00C => w.lmiss
  | _ =>
    if n < 0x020 then s.cohortWord w (fun c => c.bcfg.toList.getD (n - 0x010) 0)
    else if n < 0x030 then s.ensWord w (fun e => e.ecfg.toList.getD (n - 0x020) 0)
    else if n < 0x040 then s.cohortWord w (fun c => (c.lr.toList.getD ((n - 0x030) / 2) 0).extractLsb' (64 * (n % 2)) 64)
    else s.gridWord w (fun g => (g.launch.fs.toList.getD (n - 0x040) 0).setWidth 64)

/-- The registers from 0x100 up. -/
def State.highRegister (s : State) (w : Wave) (n : Nat) : Word :=
  match n with
  | 0x100 => w.cause
  | 0x101 => w.tpc
  | 0x102 => w.tseq
  | 0x103 => w.tmask
  | 0x104 => w.taddr
  | 0x105 => w.tem
  | 0x106 => s.trapBase w
  | 0x120 => BitVec.ofNat 64 (s.asidOf w)
  | 0x121 => s.spaceWord w (fun a => a.ptb)
  | 0x122 => s.spaceWord w (fun a => BitVec.ofNat 64 a.tlbLease)
  | 0x123 => s.spaceWord w (fun a => a.fltCfg)
  | 0x124 => s.spaceWord w (fun a => a.fltSvc)
  | 0x126 => s.spaceWord w (fun a => a.mftBase)
  | 0x127 => s.spaceWord w (fun a => a.mftN)
  | 0x160 => (s.dieOf w.core.die).fp.setWidth 64
  | 0x161 => BitVec.ofNat 64 (s.climit w.core.die w.core.clu)
  | 0x180 => (s.dieOf w.core.die).ce
  | 0x181 => (s.dieOf w.core.die).ue
  | 0x182 => (s.dieOf w.core.die).pois
  | _ =>
    if n < 0x120 then w.sv.toList.getD (n - 0x107) 0 else s.chqRead (s.asidOf w) (w.chan (n - 0x140))

/-- What SRD returns: the value where the wave's view shows it, else 0. -/
def State.readRegister (s : State) (w : Wave) (n : Nat) : Word :=
  match w.view n with
  | .ro | .rw => if n < 0x100 then s.lowRegister w n else s.highRegister w n
  | .wo | .hidden => 0

/-- What SWR stores in the wave's own registers. -/
def Wave.writeOwn (w : Wave) (n : Nat) (v : Word) : Wave :=
  match n with
  | 0x003 => if v.getLsbD 8 then { w with intp := false } else w
  | 0x00B => { w with bconf := v }
  | 0x00C => { w with lmiss := v }
  | 0x100 => { w with cause := v &&& 0xFFFFFFFF }
  | 0x101 => { w with tpc := v }
  | 0x102 => { w with tseq := v }
  | 0x103 => { w with tmask := v &&& 0xFFFFFFFF }
  | 0x104 => { w with taddr := v }
  | 0x105 => { w with tem := v &&& 0xFFFFFFFF }
  | 0x107 => { w with sv := w.sv.set 0 v }
  | 0x108 => { w with sv := w.sv.set 1 v }
  | 0x109 => { w with sv := w.sv.set 2 v }
  | 0x10A => { w with sv := w.sv.set 3 v }
  | _ => w

/-- bcfg and ecfg without their reserved field (R207). -/
def cfgBits (v : Word) : Word := v &&& 0xFFF0FFFFFFFFFFFF

/-- What SWR stores outside the wave; chq.att is apart (R237). -/
def State.writeShared (s : State) (w : Wave) (n : Nat) (v : Word) : State :=
  let asid := s.asidOf w
  if h : 0x010 ≤ n ∧ n < 0x020 then
    match s.cohortOf w with
    | some c => s.putCohort { c with bcfg := c.bcfg.set (n - 0x010) (cfgBits v) }
    | none => s
  else if h : 0x020 ≤ n ∧ n < 0x024 then
    match s.ensOf w with
    | some e => s.putEns { e with ecfg := e.ecfg.set (n - 0x020) (cfgBits v) }
    | none => s
  else
    match n with
    | 0x106 => s.inSpace asid (fun a => { a with trapBase := trapBaseBits v })
    | 0x122 => s.inSpace asid (fun a => { a with tlbLease := tlbLeaseTicks v })
    | 0x123 => s.writeFltCfg (corePath w.core) asid v
    | 0x124 => s.inSpace asid (fun a => { a with fltSvc := fltSvcBits v })
    | 0x125 => s.resolve asid (low32 v) (v.getLsbD 32)
    | 0x126 => s.writeMftBase asid v
    | 0x127 => s.inSpace asid (fun a => { a with mftN := v })
    | 0x160 => s.writeFp w.core.die v
    | 0x161 => s.writeClim w.core.die w.core.clu v
    | 0x170 => s.sendInt asid (v.setWidth 14)
    | _ => s

/-- WAVE_ST_WRITE (R310): bit 8 clears INTP; every other bit is ignored. -/
def execWaveStWrite (wave : Nat) (v : Word) (s : State) : Host.Outcome State Fault Refusal :=
  match s.wave? wave with
  | none => .next s
  | some w => .next (s.putWave (w.writeOwn 0x003 v))

end Sys2Proof.Machine
end

