-- ==== Sys2Proof/Machine/System.lean ====
section
/-! DEFINITION. System instructions (R315): TRAPI, ERET, SRD, SWR, CLKR, TLBI (R322), WSAVE and WREST (R327, R328), and how
the host's commands for the last three end (R359). -/

namespace Sys2Proof.Machine

/-! ## TRAPI, ERET, CLKR -/

/-- TRAPI (R311, R312, R315). -/
def execTrapi (h : Head) (code : BitVec 24) : State → Host.Outcome State Fault Refusal :=
  issue { h := h, opc := 0x380, len := 8 } (fun s w _ =>
    .trap s w { w.trapInfo 12 (code.toNat % 65536) with aux := code.toNat / 65536, rpc := w.pc + 8 })

/-- ERET (R201, R315, R341): it neither commits nor waits. -/
def execEret (h : Head) : State → Host.Outcome State Fault Refusal :=
  issue { h := h, opc := 0x381, len := 8 } (fun s _ v => .gone (s.putWave ((v.issued s 0x381).eret)))

/-- CLKR sel 0 (R317): clk.cr, after every earlier instruction and access. -/
def execClkrCr (h : Head) (d : SReg) : State → Host.Outcome State Fault Refusal :=
  issue { h := h, opc := 0x38A, len := 8, ws := [d], drains := true } (fun s _ v => .ok s (v.sset d (BitVec.ofNat 64 s.clk)) true)

/-- CLKR sel 1 (R317): clk.core. -/
def execClkrCore (h : Head) (d : SReg) : State → Host.Outcome State Fault Refusal :=
  issue { h := h, opc := 0x38A, len := 8, ws := [d], drains := true } (fun s w v =>
    .ok s (v.sset d (BitVec.ofNat 64 (s.clkOf w.core))) true)

/-! ## SRD and SWR (R87, R237, R308, R321) -/

/-- Whether a register number is a chq.att. -/
def isChq (n : Nat) : Bool := decide (0x140 ≤ n) && decide (n < 0x144)

/-- Whether the last write of chq.att for a channel from an address space has still to take effect, one that the host has
posted among them (R237). -/
def State.chqBusy (s : State) (asid : Nat) (ch : ChanId) : Bool :=
  s.chqPending asid ch || (s.space? asid).any (fun a => a.cmds.any (fun c => c.1 == chqOffset ch))

/-- SRD (R87, R308): chq.att is read once the last write's operation has taken effect (R237); wave.xst and wave.vst once an
outstanding result has written them (R144). -/
def execSrd (h : Head) (d : SReg) (reg : BitVec 12) (s : State) : Host.Outcome State Fault Refusal :=
  if !(Instr.srd h d reg).wf then illegalWord s
  else
    let n := reg.toNat
    issue { h := h, opc := 0x382, len := 8, ws := [d], xst := n == 0x007, vst := n == 0x008 } (fun s w v =>
      if w.priv && isChq n && s.chqBusy (s.asidOf w) (w.chan (n - 0x140)) then .hold s w .order
      else .ok s (v.sset d (s.readRegister w n)) true) s

/-- A write of chq.att by a wave (R237): it follows an earlier write of the register, and completes when its operation has
taken effect. -/
def swrChq (s : State) (w v : Wave) (n : Nat) (x : Word) : Res :=
  let asid := s.asidOf w
  let ch := w.chan (n - 0x140)
  if s.chqBusy asid ch then .hold s w .order
  else if w.inProg = .chq ch then .ok s v true
  else
    let s := s.writeChq asid ch x
    if s.chqPending asid ch then .hold s { w with inProg := .chq ch } .order else .ok s v true

/-- SWR (R87, R308): a view without write raises PRV, before the guard (R90); an unassigned register number is no instruction;
flt.res waits for the wave's earlier accesses (R321). -/
def execSwr (h : Head) (reg : BitVec 12) (a : SReg) (s : State) : Host.Outcome State Fault Refusal :=
  if !(Instr.swr h reg a).wf then illegalWord s
  else
    let n := reg.toNat
    let denied := (s.wave? s.cur).any (fun w => decide (w.view n = .ro ∨ w.view n = .hidden))
    issue { h := h, opc := 0x383, len := 8, rs := [a], drains := n == 0x125, denied := denied } (fun s w v =>
      let x := w.sget a
      if isChq n then swrChq s w v n x
      else onState s (v.writeOwn n x) (fun s => s.writeShared w n x)) s

/-! ## Invalidation (R251, R322) -/

/-- The pages a TLBI names: first and one past the last. -/
def tlbiRange (va n : Word) : Nat × Nat :=
  if n = 0 then (0, 2 ^ 36)
  else
    let lo := field va 16 48
    (lo, min (lo + n.toNat) (2 ^ 36))

/-- A packet that has not started, its promise passed, gives its leases up to a TLBI that waits on one of them: one granted by
the TLBI's t1 (R251, R322). DESIGN CHOICE: a fetched packet without a promise, which no CPYQ appended, counts as one whose promise
has passed (log 106). -/
def State.withdraw (s : State) (asid t1 lo hi : Nat) : State :=
  let waited (p : Packet) (l : Lease) : Bool := l.asid == asid && l.holder == .packet p.id && decide (lo ≤ l.vpage) &&
    decide (l.vpage < hi) && decide (l.granted ≤ t1)
  let hit (p : Packet) : Bool :=
    p.asid == asid && (p.state == .admitted || p.state == .fetched) && s.leases.any (waited p) &&
      (match p.promise with
        | some x => decide (x ≤ s.clk)
        | none => true)
  let s := (s.packets.filter hit).foldl (fun s p => s.dropLeases (.packet p.id)) s
  { s with packets := modWhere hit (fun p => { p with withdrawn := true }) s.packets }

/-- Whether the two waits of a TLBI that began at t1 are over (R322). -/
def State.invalidated (s : State) (asid t1 lo hi : Nat) : Bool :=
  let inRange (v : Nat) : Bool := decide (lo ≤ v) && decide (v < hi)
  let old (t : Trans) : Bool := t.asid == asid && inRange t.vpage && decide (t.granted ≤ t1)
  let pages (e : TlbEntry) : Bool :=
    if e.leaf.big then decide (e.vpage / 512 * 512 < hi) && decide (lo < e.vpage / 512 * 512 + 512) else inRange e.vpage
  !s.tlb.any (fun e => e.asid == asid && pages e && decide (e.granted ≤ t1) && decide (s.clk < e.expiry)) &&
    !s.leases.any (fun l => l.asid == asid && inRange l.vpage && decide (l.granted ≤ t1)) &&
    !s.accs.any (fun a => match a.trans with
      | some t => old t
      | none => false) &&
    !s.wb.any (fun e => match e.trans with
      | some t => old t
      | none => false)

/-- TLBI (R322). -/
def execTlbi (h : Head) (d a b : SReg) : State → Host.Outcome State Fault Refusal :=
  issue { h := h, opc := 0x386, len := 8, rs := [a, b], ws := [d], sideWait := true } (fun s w v =>
    let goOn (s : State) (t1 asid lo hi : Nat) : Res :=
      let s := (s.withdraw asid t1 lo hi).sweepPackets
      if s.invalidated asid t1 lo hi then .ok s (v.sset d (BitVec.ofNat 64 s.clk)) true
      else .hold s { w with inProg := .tlbi t1 asid lo hi } .order
    match w.inProg with
    | .tlbi t1 asid lo hi => goOn s t1 asid lo hi
    | _ =>
      if !s.releaseReady w 5 then .hold s w .order
      else
        let (lo, hi) := tlbiRange (w.sget a) (w.sget b)
        goOn s s.clk (s.asidOf w) lo hi)

/-- Finish the host's invalidation of a space once it may. -/
def State.tryTlbi (s : State) (asid : Nat) : State :=
  match s.space? asid with
  | none => s
  | some a =>
    match a.tlbiWait with
    | none => s
    | some t =>
      let s := (s.withdraw asid t.t1 t.lo t.hi).sweepPackets
      if s.invalidated asid t.t1 t.lo t.hi then
        s.inSpace asid (fun a => { a with tlbiWait := none, tlbiRes := BitVec.ofNat 64 s.clk })
      else s

/-- The host's invalidation begins (R322, R359). -/
def State.startTlbi (s : State) (asid : Nat) (n : Word) : State :=
  match s.space? asid with
  | none => s
  | some a =>
    let (lo, hi) := tlbiRange a.tlbiVa n
    (s.putSpace { a with tlbiWait := some ⟨s.clk, lo, hi⟩ }).tryTlbi asid

/-! ## Saving a cohort (R325 to R329) -/

/-- The cohort a save names: not absent, of another space, the issuer's own, part of a larger ensemble, or held by a wave
that event 8 halted (R327, R340). -/
def State.saveTarget (s : State) (asid : Nat) (own : Option Nat) (loc : BitVec 14) (addr : Nat) : Option Cohort :=
  match s.waveAt loc with
  | none => none
  | some t =>
    match s.cohortOf t, s.ensOf t with
    | some c, some e =>
      if s.asidOf t ≠ asid ∨ own = some c.uid ∨ e.cohorts.length ≠ 1 ∨ addr % 256 ≠ 0 ∨
        (s.liveWaves c.uid).any (fun w => w.fatal.isSome) then none else some c
    | _, _ => none

/-- Whether every wave of a cohort stands at a boundary with nothing on its way (R143, R201, R230, R241, R252, R300,
R327). -/
def State.saveReady (s : State) (c : Cohort) : Bool :=
  (s.liveWaves c.uid).all (fun w => w.inProg == .none && w.park != .cpyq) && s.still c 3

/-- The pieces of an area of `n` bytes at `va`, each within a page: the offset, the length, the address. -/
def piecesOf (va n : Nat) : List (Nat × Nat × Nat) :=
  (List.range ((va + n - 1) / 65536 - va / 65536 + 1)).map (fun k =>
    let lo := max va ((va / 65536 + k) * 65536)
    let hi := min (va + n) ((va / 65536 + k + 1) * 65536)
    (lo - va, hi - lo, lo))

/-- The pages of an area, each piece with its translation; none if one faults. -/
def State.areaPages (s : State) (path : List NodeId) (asid va n : Nat) (need : Need) :
    State × Option (List ((Nat × Nat × Nat) × Xlat)) :=
  (piecesOf va n).foldl (fun (acc : State × Option (List ((Nat × Nat × Nat) × Xlat))) p =>
    match acc.2, acc.1.probe path asid p.2.2 need false with
    | some l, (s, .ok x) => (s, some (l ++ [(p, x)]))
    | _, (s, _) => (s, none)) (s, some [])

/-- An area of a wave's WSAVE or WREST with a page that no route reaches degrades its grid (R365). -/
def State.lostArea (s : State) (wave : Option Nat) (pages : List ((Nat × Nat × Nat) × Xlat)) : State :=
  match wave with
  | some u => if pages.any (fun p => !s.reachable p.2.base) then s.routeLost (.wave u) else s
  | none => s

/-- Store bytes in the pages of an area, into M as they stand after a release at level 5; what no route reaches is dropped
(R365). -/
def State.storeArea (s : State) (path : List NodeId) (wave : Option Nat) (pages : List ((Nat × Nat × Nat) × Xlat))
    (bytes : List Byte) : State :=
  pages.foldl (fun s p =>
    let l := (bytesAt (p.2.base + p.1.2.2 % 65536) ((bytes.drop p.1.1).take p.1.2.1)).filter (fun x => s.reachable x.1)
    let (id, s) := s.fresh
    (s.dropBelow path 5 (l.map (fun x => x.1))).writeM l (some p.2.leaf.key) id) (s.lostArea wave pages)

/-- The bytes of an area, read as an acquire at level 5 under the keys of its leaves; none if a page faults. -/
def State.readArea (s : State) (path : List NodeId) (wave : Option Nat) (asid va n : Nat) : State × Option (List Byte) :=
  match s.areaPages path asid va n .read with
  | (s, none) => (s, none)
  | (s, some ps) =>
    let (s, l) := ps.foldl (fun (acc : State × List Byte) p =>
      let (l, s) := acc.1.readHomes path (p.2.base + p.1.2.2 % 65536) p.1.2.1 (some p.2.leaf.key)
      (s, acc.2 ++ l)) (s.lostArea wave ps, [])
    (s.emptyBelow path 5, some l)

/-- What a save does before it writes (R143, R204, R327): the waves' results commit, their lines are disarmed, WHY 3 is
pending. -/
def State.savePrepare (s : State) (c : Cohort) : State :=
  (s.liveWaves c.uid).foldl (fun s w =>
    let (s, w) := s.commitNow w
    s.putWave { w.disarmSwitched with wakes := [⟨3, 0⟩] }) s

/-- The image's bytes, and the state with the cohort lifted from its core; a halted wave posts event 5 (R329). -/
def State.saveImage (s : State) (c : Cohort) (token : Word) : State × List Byte :=
  let s := (s.liveWaves c.uid).foldl (fun s w => if w.halted then s.postEvent w 5 0 w.pc w.seq w.em 0 else s) s
  let asid := match s.grid? c.grid with
    | some g => g.asid
    | none => 0
  let task := match s.liveWaves c.uid with
    | w :: _ => s.taskIdOf w
    | [] => 0
  let s := s.liftCohort c (.saved token)
  match s.cohort? c.uid, s.ens? c.ens with
  | some c, some e => cohortImage s c e asid task token
  | _, _ => (s, [])

/-- A save that is ready: sD, and the state. Where a page of the image faults the cohort issues again, its results committed
and its lines disarmed (R327). -/
def State.saveNow (s : State) (path : List NodeId) (wave : Option Nat) (asid : Nat) (c : Cohort) (addr : Nat) : State × Word :=
  let (k, s) := s.draw
  let token : Word := BitVec.ofNat 64 (k % 2 ^ 32 * 2 ^ 32 + c.uid)
  let s := s.savePrepare c
  match s.areaPages path asid addr (s.imageSize c) .write with
  | (s, none) => (s, 0)
  | (s, some pages) =>
    let (s, img) := s.saveImage c token
    let s := s.storeArea path wave pages img
    let s := match s.grid? c.grid with
      | some g => s.putGrid { g with tokens := g.tokens ++ [(token, c.uid)] }
      | none => s
    (s, BitVec.ofNat 64 img.length)

/-- WSAVE (R327): the issuer waits; from its first turn on no wave of the cohort issues past its next boundary. -/
def execWsave (h : Head) (d a b : SReg) : State → Host.Outcome State Fault Refusal :=
  issue { h := h, opc := 0x384, len := 8, rs := [a, b], ws := [d], sideWait := true } (fun s w v =>
    let addr := (w.sget a).toNat
    let goOn (c : Cohort) : Res :=
      if (s.liveWaves c.uid).isEmpty || (s.liveWaves c.uid).any (fun x => x.fatal.isSome) then .ok s (v.sset d 0) true
      else if !s.saveReady c || !s.releaseReady w 5 then .hold s { w with inProg := .wsave c.uid } .order
      else
        let (s, x) := (s.putWave v).saveNow (corePath w.core) (some w.uid) (s.asidOf w) c addr
        .ok s ((s.waveNow v).sset d x) true
    match w.inProg with
    | .wsave u => match s.cohort? u with
      | some c => goOn c
      | none => .ok s (v.sset d 0) true
    | _ => match s.saveTarget (s.asidOf w) (some w.cohort) ((w.sget b).setWidth 14) addr with
      | some c => goOn c
      | none => .ok s (v.sset d 0) true)

/-- The cohort of an image that has been read, as the image gives it, at the head of its die's placement queue (R328). -/
def State.restoreImage (s : State) (g : Grid) (c : Cohort) (token : Word) (img : List Byte) : State :=
  let off (w : Wave) : Nat := fieldAt img (0x030 + 4 * w.widx) 4
  let back (w : Wave) : Wave := if off w = 0 then w else waveFrom img (off w) w
  let s := s.putGrid { g with tokens := g.tokens.filter (fun t => t.1 != token) }
  let s := { s with waves := modWhere (fun w => w.cohort == c.uid && !w.exited) back s.waves }
  let s := { s with ensembles := modWhere (fun e => e.uid == c.ens) (ensFrom img) s.ensembles }
  let die : Fin 8 := Fin.ofNat 8 (fieldAt img 0x028 8 / 2 ^ 61)
  let s := s.putCohort { cohortFrom img c with place := .queued, core := ⟨die, c.core.clu, c.core.core⟩ }
  let k := s.dieOf die
  s.putDie { k with queue := ⟨[c.uid]⟩ :: k.queue }

/-- Restore an image (R328): 1, or 0 for an image that does not read, another version or space, or a token not
outstanding. -/
def State.restore (s : State) (path : List NodeId) (wave : Option Nat) (asid addr : Nat) : State × Word :=
  match s.readArea path wave asid addr 0x240 with
  | (s, none) => (s, 0)
  | (s, some head) =>
    match s.readArea path wave asid addr (fieldAt head 0x020 8) with
    | (s, none) => (s, 0)
    | (s, some img) =>
      let token := wordAt head 0x010
      match s.grids.find? (fun g => g.asid == asid && g.tokens.any (fun t => t.1 == token)),
        s.cohorts.find? (fun c => c.place == .saved token) with
      | some g, some c =>
        if fieldAt head 0 4 ≠ 1 ∨ fieldAt head 0x028 8 % 2 ^ 61 ≠ asid then (s, 0) else (s.restoreImage g c token img, 1)
      | _, _ => (s, 0)

/-- WREST (R328). -/
def execWrest (h : Head) (d a : SReg) : State → Host.Outcome State Fault Refusal :=
  issue { h := h, opc := 0x385, len := 8, rs := [a], ws := [d] } (fun s w v =>
    let (s, x) := s.restore (corePath w.core) (some w.uid) (s.asidOf w) (w.sget a).toNat
    .ok s (v.sset d x) true)

/-- Finish the host's save of a space once it may. -/
def State.trySave (s : State) (asid : Nat) : State :=
  match s.space? asid with
  | none => s
  | some a =>
    match a.saveWait with
    | none => s
    | some (u, addr) =>
      let done (s : State) (x : Word) : State := s.inSpace asid (fun a => { a with saveWait := none, preRes := x })
      match s.cohort? u with
      | none => done s 0
      | some c =>
        if (s.liveWaves u).isEmpty || (s.liveWaves u).any (fun x => x.fatal.isSome) then done s 0
        else if s.saveReady c then
          let (s, x) := s.saveNow [.root] none asid c addr
          done s x
        else s

/-- The host's save begins: PRE.RES is 0 where there is nothing to save (R327, R359). -/
def State.startSave (s : State) (asid : Nat) (loc : BitVec 14) (addr : Nat) : State :=
  match s.space? asid with
  | none => s
  | some a =>
    match s.saveTarget asid none loc addr with
    | none => s.putSpace { a with preRes := 0 }
    | some c => (s.putSpace { a with saveWait := some (c.uid, addr) }).trySave asid

/-- The host's restore (R328, R359). -/
def State.hostRestore (s : State) (asid addr : Nat) : State :=
  let (s, x) := s.restore [.root] none asid addr
  s.inSpace asid (fun a => { a with preRes := x })

end Sys2Proof.Machine
end

