-- ==== Sys2Proof/Machine/Debug.lean ====
section
/-! DEFINITION. Eyebright (chapter 18): BRK, DBGM, HALT and how the host's HALT.CMD works, the end of a step, the mailbox, PERFS
and samples. -/

namespace Sys2Proof.Machine

/-! ## BRK and DBGM (R339, R346) -/

/-- BRK: BKP with AUX 0, trap.pc past the BRK. -/
def execBrk (h : Head) (code : BitVec 16) : State → Host.Outcome State Fault Refusal :=
  issue { h := h, opc := 0x387, len := 8 } (fun s w _ =>
    .trap s w { w.trapInfo 7 code.toNat with rpc := w.pc + 8, addr := w.pc })

/-- DBGM (R335, R346). -/
def execDbgmRead (h : Head) (d : SReg) (reg : BitVec 10) (s : State) : Host.Outcome State Fault Refusal :=
  if !(Instr.dbgmRead h d reg).wf then illegalWord s
  else issue { h := h, opc := 0x388, len := 8, ws := [d] } (fun s w v =>
    .ok s (v.sset d (s.spaceWord w (fun a => a.eb.toList.getD reg.toNat 0))) true) s

/-- DBGM.w: sD takes the register as it stood, the register takes sA by its field map. -/
def execDbgmWrite (h : Head) (d : SReg) (reg : BitVec 10) (a : SReg) (s : State) : Host.Outcome State Fault Refusal :=
  if !(Instr.dbgmWrite h d reg a).wf then illegalWord s
  else issue { h := h, opc := 0x388, len := 8, rs := [a], ws := [d] } (fun s w v =>
    let old := s.spaceWord w (fun a => a.eb.toList.getD reg.toNat 0)
    .ok (s.writeEb (corePath w.core) (s.asidOf w) reg.toNat (w.sget a)) (v.sset d old) true) s

/-! ## Halts (R344) -/

/-- A wave asked to halt does so at a boundary, after R143, or in place where it is parked; a CPYQ that waits for its slot
is no boundary (R241). -/
def State.tryHalt (s : State) (u : Nat) : State :=
  match s.wave? u with
  | none => s
  | some w =>
    if w.haltReq ∧ !w.halted ∧ !w.exited ∧ s.quiet w ∧ w.inProg = .none ∧ w.park ≠ .cpyq then
      let (s, w) := s.commitNow w
      s.standHalted w
    else s

/-- Ask a wave of a space to halt, at once where it can. -/
def State.askHalt (s : State) (u : Nat) : State :=
  ({ s with waves := modWhere (fun w => w.uid == u) (fun w => { w with haltReq := true }) s.waves }).tryHalt u

/-- End a wave that event 8 halted (R314, R340); a step of it posts event 7. -/
def State.endFatal (s : State) (w : Wave) (cls : Nat) (event : Bool) : State :=
  let s := if event then s.postEvent w 7 0 w.pc w.seq w.em 0 else s
  (s.markUndelivered w cls).waveExit w

/-- A halted wave resumes: with PASS as R341 states, an exemption that it has not used yet standing; its stopped nests go on
(R201). -/
def Wave.released (w : Wave) (pass : Bool) (step : Option StepSt) : Wave :=
  { w with halted := false, exempt := w.exempt || pass, step := step,
           nests := modWhere (fun n => n.state == .stopped)
             (fun n => { n with state := .running, exempt := n.exempt || pass }) w.nests }

/-- Whether an event of a wave waits for room in the mailbox: its wave stays halted until it has been posted (R342). -/
def State.eventWaits (s : State) (w : Wave) : Bool :=
  s.mbxOn w && (s.spaceOf w).any (fun a => a.mbxQueue.any (fun e => e.loc == w.loc && e.evt != 5 && e.evt != 7))

/-- Go or step, on the wave at a location. -/
def State.resume (s : State) (u : Nat) (pass : Bool) (step : Option StepSt) : State :=
  match s.wave? u with
  | none => s
  | some w =>
    if !w.halted then s
    else match w.fatal with
      | some c => s.endFatal w c step.isSome
      | none => s.putWave (w.released pass step)

/-- The wave of a space at a location. -/
def State.target (s : State) (asid : Nat) (loc : BitVec 14) : Option Wave :=
  match s.waveAt loc with
  | some t => if s.asidOf t = asid then some t else none
  | none => none

/-- HALT's form: location in sA, PASS and MBX in sB. -/
def haltForm (h : Head) (d a b : SReg) (k : State → Wave → Wave → Wave → Bool → Bool → Res) :
    State → Host.Outcome State Fault Refusal :=
  issue { h := h, opc := 0x389, len := 8, rs := [a, b], ws := [d] } (fun s w v =>
    let give (n : Nat) : Res := .ok s (v.sset d (BitVec.ofNat 64 n)) true
    match w.inProg with
    | .haltDone n => give n
    | .haltWait u =>
      let t := s.wave? u
      if haltReport t = 0 ∨ t.any (fun x => x.halted) then give (haltReport t) else .hold s w .engine
    | _ => match s.target (s.asidOf w) ((w.sget a).setWidth 14) with
      | none => give 0
      | some t => k s w v t ((w.sget b).getLsbD 0) ((w.sget b).getLsbD 1))

/-- HALT.halt: a wave that halts itself writes sD first. -/
def execHaltHalt (h : Head) (d a b : SReg) : State → Host.Outcome State Fault Refusal :=
  haltForm h d a b (fun s w v t _ _ =>
    if t.uid = w.uid then .ok s { v.sset d 1 with haltReq := true } true
    else if t.halted then .ok s (v.sset d (BitVec.ofNat 64 (haltReport (some t)))) true
    else
      let s := s.askHalt t.uid
      let r := s.wave? t.uid
      if r.any (fun x => x.halted) then .ok s (v.sset d (BitVec.ofNat 64 (haltReport r))) true
      else .hold s { w with inProg := .haltWait t.uid } .engine)

/-- HALT.go and HALT.step: the target is released, or ended, once its events have been posted (R340, R342, R344). -/
def haltResume (s : State) (w v : Wave) (d : SReg) (t : Wave) (pass : Bool) (step : Option StepSt) : Res :=
  if t.halted && s.eventWaits t then .hold s w .engine
  else
    let s := s.resume t.uid pass step
    .ok s (v.sset d (BitVec.ofNat 64 (haltReport (s.wave? t.uid)))) true

/-- HALT.go. -/
def execHaltGo (h : Head) (d a b : SReg) : State → Host.Outcome State Fault Refusal :=
  haltForm h d a b (fun s w v t pass _ => haltResume s w v d t pass none)

/-- HALT.step. -/
def execHaltStep (h : Head) (d a b : SReg) : State → Host.Outcome State Fault Refusal :=
  haltForm h d a b (fun s w v t pass mbx => haltResume s w v d t pass (some { mbx := mbx }))

/-- HALT.query. -/
def execHaltQuery (h : Head) (d a b : SReg) : State → Host.Outcome State Fault Refusal :=
  haltForm h d a b (fun s _ v t _ _ => .ok s (v.sset d (BitVec.ofNat 64 (haltReport (some t)))) true)

/-- The host's halt whose wave stands halted, or has left before it halted: HALT.RES is then 0. -/
def State.tryHaltCmd (s : State) (asid : Nat) : State :=
  match s.space? asid with
  | none => s
  | some a =>
    match a.haltWait with
    | none => s
    | some u =>
      let s := s.tryHalt u
      if haltReport (s.wave? u) = 0 then s.inSpace asid (fun a => { a with haltWait := none, haltRes := 0 })
      else if (s.wave? u).any (fun w => w.halted) then s.haltTaken u
      else s

/-- The host's result, as the wave stands now. -/
def State.haltAnswer (s : State) (asid u : Nat) : State :=
  let v := haltReport (s.wave? u)
  s.inSpace asid (fun a => { a with haltRes := BitVec.ofNat 64 v })

/-- A HALT.CMD's location, operation, PASS and MBX (R359). -/
def haltWord (op : Nat) (loc : BitVec 14) (pass mbx : Bool) : Word :=
  place loc.toNat 0 ||| place op 16 ||| place (if pass then 1 else 0) 18 ||| place (if mbx then 1 else 0) 19

/-- A HALT.CMD takes effect (R344, R359); a halt whose wave has yet to reach a boundary leaves haltWait. -/
def State.runHalt (s : State) (asid : Nat) (v : Word) : State :=
  let pass := v.getLsbD 18
  match s.target asid (v.setWidth 14) with
  | none => s.inSpace asid (fun a => { a with haltRes := 0 })
  | some t =>
    match field v 16 2 with
    | 0 => if t.halted then s.haltAnswer asid t.uid
      else (s.inSpace asid (fun a => { a with haltWait := some t.uid })).askHalt t.uid
    | 1 => (s.resume t.uid pass none).haltAnswer asid t.uid
    | 2 => (s.resume t.uid pass (some { mbx := v.getLsbD 19 })).haltAnswer asid t.uid
    | _ => s.haltAnswer asid t.uid

/-- Whether a HALT.CMD has to wait: a go or step of a wave whose event has still to be posted (R342). -/
def State.haltBlocked (s : State) (asid : Nat) (v : Word) : Bool :=
  (field v 16 2 == 1 || field v 16 2 == 2) && (s.target asid (v.setWidth 14)).any (fun t => t.halted && s.eventWaits t)

/-- STEP_END (R339, R344, R345): once the stepped instruction is complete, after R143, the wave halts and the step is
reported: event 2, or STP to a wave in user state with a handler. -/
def execStepEnd (wave : Nat) (s : State) : Host.Outcome State Fault Refusal :=
  match s.wave? wave with
  | none => .next s
  | some w =>
    match w.step with
    | none => .next s
    | some st =>
      if !st.issued ∨ w.park ≠ .none ∨ w.inProg ≠ .none ∨ w.halted ∨ w.exited ∨ !s.quiet w then .next s
      else
        let (s, w) := s.commitNow w
        let event := st.mbx && s.mbxOn w
        if !event && !w.priv && s.trapBase w != 0 then
          match oldestPend w with
          | some p => .next (s.deliver { w with pends := w.pends.filter (fun q => q != p) } (w.pendTrap p))
          | none => .next (s.deliver { w with step := none } { w.trapInfo 8 0 with addr := st.stepped })
        else
          .next ((if event then s.postEvent w 2 8 w.pc w.seq w.em st.stepped else s).standHalted w)

/-! ## The mailbox (R342, R343) -/

/-- Bytes 0x04 to 0x3F of a mailbox slot. -/
def eventBytes (e : MbxEvent) (clk : Nat) : List Byte :=
  leOf 2 e.evt ++ leOf 2 e.loc.toNat ++ leOf 8 e.cause.toNat ++ nameBytes e.name e.seq e.pc ++ leOf 4 e.mask.toNat ++
    leOf 4 e.em.toNat ++ leOf 8 e.addr.toNat ++ leOf 4 e.task.toNat ++ leOf 4 e.coh.toNat ++ leOf 8 clk

/-- MAILBOX_EVENT_POST: the oldest event of the space, unless HEAD − TAIL is 1,023: the slot, STAMP, then HEAD. -/
def execMailboxEventPost (asid : Nat) (s : State) : Host.Outcome State Fault Refusal :=
  match s.space? asid with
  | none => .next s
  | some a =>
    match a.mbxQueue with
    | [] => .next s
    | e :: es =>
      let tail := leVal (s.readKeyed a.mbxKey (a.mbxPa + 8) 8).1
      if !a.eb[0x30].getLsbD 0 ∨ (a.mbxCount + 2 ^ 64 - tail) % 2 ^ 64 = 1023 then .next s
      else
        let slot := a.mbxPa + 64 * (1 + a.mbxCount % 1023)
        let s := s.storeM [.root] a.mbxKey (slot + 4) (eventBytes e s.clk)
        let s := s.storeM [.root] a.mbxKey slot (leOf 4 (a.mbxCount + 1))
        let s := s.storeM [.root] a.mbxKey a.mbxPa (leOf 8 (a.mbxCount + 1))
        .next (s.putSpace { a with mbxQueue := es, mbxCount := a.mbxCount + 1 })

/-! ## Counters (R347, R348) -/

/-- PERFS with sel 0 to 13. -/
def execPerfsRead (h : Head) (d : SReg) (sel : Fin 14) : State → Host.Outcome State Fault Refusal :=
  issue { h := h, opc := 0x38B, len := 8, ws := [d] } (fun s w v => .ok s (v.sset d (s.coreOf w.core).leaves[sel.val]) true)

/-- PERFS with sel 16. -/
def execPerfsSnapshot (h : Head) (d : SReg) : State → Host.Outcome State Fault Refusal :=
  issue { h := h, opc := 0x38B, len := 8, ws := [d] } (fun s w v =>
    let k := s.coreOf w.core
    .ok (s.putCore { k with shadow := k.leaves }) (v.sset d 0) true)

/-- PERFS with sel 32 to 45. -/
def execPerfsShadowRead (h : Head) (d : SReg) (sel : Fin 14) : State → Host.Outcome State Fault Refusal :=
  issue { h := h, opc := 0x38B, len := 8, ws := [d] } (fun s w v => .ok s (v.sset d (s.coreOf w.core).shadow[sel.val]) true)

/-- The leaf of a wave that did not issue (R347). Two conditions are not in the rule's table: a wave that waits for its
earlier accesses or for an engine counts as memory, and a ready wave that is not held by R147 as not yet fetched. -/
def Wave.waitLeaf (w : Wave) (limited : Bool) : Nat :=
  match w.park with
  | .bar _ | .barNext _ | .baraNext _ | .barw _ | .ebar _ | .ebarNext _ => 9
  | .mwait _ _ _ | .wsleep _ => 10
  | .cpyq => 8
  | .none =>
    if w.halted then 11
    else match w.hold with
      | .returns | .sideLog | .order | .engine => 8
      | .dependence => 6
      | .resource => 5
      | .barrier => 9
      | .none => if limited && w.fetch == .free then 4 else 7

/-! ## Samples (R349, R350) -/

/-- One advance of the Galois LFSR of x^32 + x^22 + x^2 + x + 1, in the direction that Config leaves open. -/
def lfsrNext (x : W32) : W32 :=
  if Config.lfsrRight then (if x.getLsbD 0 then (x >>> 1) ^^^ 0x80200003 else x >>> 1)
  else if x.getLsbD 31 then (x <<< 1) ^^^ 0x00400007 else x <<< 1

/-- A core's sampler for a space: seeded from smp.seed and the core's location, its first sample free to come. -/
def State.samplerOf (s : State) (c : CoreId) (a : Space) : Sampler :=
  match (s.coreOf c).samplers.find? (fun x => x.asid == a.asid) with
  | some x => x
  | none => { asid := a.asid, lfsr := low32 a.eb[0x33] ^^^ (locOf c 0).setWidth 32, next := 0 }

/-- Whether a space samples: EN, and a ring of 2^4 to 2^12 records. -/
def Space.samples (a : Space) : Bool :=
  a.eb[0x31].getLsbD 63 && decide (4 ≤ field a.eb[0x32] 0 4) && decide (field a.eb[0x32] 0 4 ≤ 12)

/-- A space whose sample is due on a core now; a core of a disabled die is not offered (R3). -/
def State.sampleDue (s : State) (c : CoreId) : Option Space :=
  s.spaces.find? (fun a => s.mod.cfg.dies.getLsbD c.die.val && a.samples && decide ((s.samplerOf c a).next ≤ s.clkOf c))

/-- Whether a sample that has been scheduled is due: the cycle does not end before it is taken. -/
def State.sampleWaits (s : State) (c : CoreId) : Bool :=
  s.spaces.any (fun a => s.mod.cfg.dies.getLsbD c.die.val && a.samples &&
    (s.coreOf c).samplers.any (fun x => x.asid == a.asid && decide (x.next ≤ s.clkOf c)))

/-- A record's half for a wave: the valid bit, leaf, and name. -/
def waveName (w : Option Wave) (pc : Wave → Word) : List Byte :=
  match w with
  | some w => nameBytes w.loc w.seq (pc w)
  | none => List.replicate 16 (0 : Byte)

end Sys2Proof.Machine
end

