-- ==== Sys2Proof/Machine/Shake.lean ====
section
/-! DEFINITION. SHAKE256 as R330 and R368 use it: 256 or 512 bits of output of the sponge over Keccak-f[1600] with a rate of 1,088 bits.
The spec names the function and not its definition (PRESUMED, log 41: FIPS 202). -/

namespace Sys2Proof.Machine

/-- The 25 lanes of Keccak's state; lane (x, y) stands at x + 5y. -/
abbrev Keccak := List (BitVec 64)

/-- A lane; a list shorter than 25 reads 0 beyond its end. -/
def klane (k : Keccak) (x y : Nat) : BitVec 64 := k.getD (x % 5 + 5 * (y % 5)) 0

/-- The lanes by a function of their coordinates. -/
def kmap (f : Nat → Nat → BitVec 64) : Keccak := (List.range 25).map (fun i => f (i % 5) (i / 5))

/-- The rotation offsets of ρ, by lane. -/
def rhoOffsets : List Nat :=
  [0, 1, 62, 28, 27, 36, 44, 6, 55, 20, 3, 10, 43, 25, 39, 41, 45, 15, 21, 8, 18, 2, 61, 56, 14]

/-- The constants of ι, by round. -/
def iotaConstants : List (BitVec 64) :=
  [0x0000000000000001, 0x0000000000008082, 0x800000000000808A, 0x8000000080008000,
    0x000000000000808B, 0x0000000080000001, 0x8000000080008081, 0x8000000000008009] ++
  [0x000000000000008A, 0x0000000000000088, 0x0000000080008009, 0x000000008000000A,
    0x000000008000808B, 0x800000000000008B, 0x8000000000008089, 0x8000000000008003] ++
  [0x8000000000008002, 0x8000000000000080, 0x000000000000800A, 0x800000008000000A,
    0x8000000080008081, 0x8000000000008080, 0x0000000080000001, 0x8000000080008008]

/-- The parity of a column. -/
def kcolumn (k : Keccak) (x : Nat) : BitVec 64 := (List.range 5).foldl (fun a y => a ^^^ klane k x y) 0

/-- One round: θ, ρ and π, χ, ι. -/
def kround (k : Keccak) (rc : BitVec 64) : Keccak :=
  let c := (List.range 5).map (kcolumn k)
  let d (x : Nat) : BitVec 64 := c.getD ((x + 4) % 5) 0 ^^^ (c.getD ((x + 1) % 5) 0).rotateLeft 1
  let t := kmap (fun x y => klane k x y ^^^ d x)
  let b := kmap (fun x y =>
    let u := (x + 3 * y) % 5
    (klane t u x).rotateLeft (rhoOffsets.getD (u + 5 * x) 0))
  let e := kmap (fun x y => klane b x y ^^^ (~~~(klane b (x + 1) y) &&& klane b (x + 2) y))
  match e with
  | a :: l => (a ^^^ rc) :: l
  | [] => []

/-- Keccak-f[1600]. -/
def keccakF (k : Keccak) : Keccak := iotaConstants.foldl kround k

/-- Eight bytes as a lane, low byte first. -/
def bytesLane (l : List Byte) : BitVec 64 :=
  BitVec.ofNat 64 (l.foldr (fun b n => b.toNat + 256 * n) 0)

/-- Absorb one block of 136 bytes. -/
def absorb (k : Keccak) (block : List Byte) : Keccak :=
  keccakF ((List.range 25).map (fun i => k.getD i 0 ^^^ (if i < 17 then bytesLane ((block.drop (8 * i)).take 8) else 0)))

/-- Absorb the blocks of a padded message, `n` of them. -/
def absorbAll : Nat → Keccak → List Byte → Keccak
  | 0, k, _ => k
  | n + 1, k, l => absorbAll n (absorb k (l.take 136)) (l.drop 136)

/-- The message padded to whole blocks: 0x1F, zeros, and the top bit of the last byte. -/
def shakePad (l : List Byte) : List Byte :=
  let gap := 136 - l.length % 136
  if gap = 1 then l ++ [0x9F] else l ++ 0x1F :: (List.replicate (gap - 2) (0 : Byte) ++ [0x80])

/-- The first `n` output bytes, at most 136. -/
def shakeBytes (n : Nat) (l : List Byte) : List Byte :=
  let p := shakePad l
  let k := absorbAll (p.length / 136) (List.replicate 25 0) p
  ((k.take 17).flatMap (fun x => (List.range 8).map (fun i => BitVec.ofNat 8 (x.toNat / 2 ^ (8 * i))))).take n

/-- A digest of R330: 32 bytes. -/
def shake256 (l : List Byte) : List Byte := shakeBytes 32 l

end Sys2Proof.Machine
end

