-- ==== Sys2Proof/Machine/Fetch.lean ====
section
/-! DEFINITION. Fetching a wave's next instruction (R65, R67, R68, R320): translation of its pages, code pages as a grid
loaded them, the manifest check (R330 to R332), poison (R334), and the two ways a fetch ends in no instruction. -/

namespace Sys2Proof.Machine

/-! ## Code pages (R68, R330, R331) -/

/-- Bytes of a write-buffer entry that lie in the 64 KiB page at a physical base, by offset. -/
def entryOn (e : WbEntry) (base : Nat) : List (Nat × Byte) :=
  (e.bytes.filter (fun x => decide (base ≤ x.1) && decide (x.1 < base + 65536))).map (fun x => (x.1 - base, x.2))

/-- A page's cells of M, by offset; the canonical form stays. -/
def pageCells (base : Nat) : Memory → Memory
  | [] => []
  | (a, b) :: m => if base ≤ a ∧ a < base + 65536 then (a - base, b) :: pageCells base m else pageCells base m

/-- Free bytes stand for the lines of a page that another key encrypted (R367). -/
def State.otherKeys (s : State) (base : Nat) (key : BitVec 8) (m : Memory) : State × Memory :=
  let lines := (s.mod.keyTags.map (fun x => x.1)).filter (fun l =>
    decide (base ≤ l * 128) && decide (l * 128 < base + 65536) && s.keyDiffers key l)
  lines.foldl (fun (acc : State × Memory) l => (List.range 128).foldl (fun (acc : State × Memory) i =>
    let (b, s) := acc.1.draw
    (s, acc.2.write (l * 128 + i - base) (BitVec.ofNat 8 b))) acc) (s, m)

/-- A page as an acquire at level 5 reads it: M, with the write-buffer entries of the path over it, the nearest node
winning. -/
def State.loadCode (s : State) (path : List NodeId) (base : Nat) (key : BitVec 8) : State × Memory :=
  let (s, m) := s.otherKeys base key (pageCells base s.mem)
  let lay (m : Memory) (n : NodeId) : Memory := s.wb.foldl (fun m e => if e.node == n then m.writeAll (entryOn e base) else m) m
  (s.emptyBelow path 5, path.reverse.foldl lay m)

/-- One entry of a manifest: page, object id, digest. -/
structure Listed where
  page : Nat
  obj : Nat
  digest : List Byte
  deriving DecidableEq, Repr

/-- The manifest of a space, read as an acquire at level 5, an entry that does not read left out (R330, R331). -/
def State.manifest (s : State) (path : List NodeId) (a : Space) : State × List Listed :=
  (List.range a.mftN.toNat).foldl (fun (x : State × List Listed) i =>
    match x.1.readArea path none a.asid (a.mftBase.toNat + 64 * i) 64 with
    | (s, some l) => (s, x.2 ++ [⟨leVal (l.take 8) / 65536, leVal ((l.drop 8).take 2), l.drop 32⟩])
    | (s, none) => (s, x.2)) (s, [])

/-- Whether a page is barred for a space (R331). -/
def Space.barred (a : Space) (page : Nat) : Bool := a.barPage.contains page

/-- Check a page that a grid loads for the first time: a page that the manifest does not list bars itself; one whose digest
differs, or whose object is barred, bars every listed page of its object (R331). -/
def Space.check (a : Space) (page : Nat) (m : Memory) (l : List Listed) : Space :=
  match l.find? (fun e => e.page == page) with
  | none => { a with barPage := page :: a.barPage }
  | some e =>
    if a.barObj.contains e.obj ∨ shake256 (m.readN 0 65536) ≠ e.digest then
      let pages := (l.filter (fun x => x.obj == e.obj)).map (fun x => x.page)
      { a with barObj := e.obj :: a.barObj, barPage := pages ++ a.barPage }
    else a

/-- The code page of a grid: as it was loaded, or loaded and checked now. -/
def State.codePage (s : State) (w : Wave) (g : Grid) (page : Nat) (x : Xlat) : State × Memory :=
  match g.code.find? (fun c => c.vpage == page) with
  | some c => (s, c.bytes)
  | none =>
    let path := corePath w.core
    let (s, m) := s.loadCode path x.base x.leaf.key
    let s := s.putGrid { g with code := g.code ++ [⟨page, m⟩] }
    match s.space? g.asid with
    | some a =>
      if a.mftN = 0 then (s, m)
      else
        let (s, l) := s.manifest path a
        (s.putSpace (a.check page m l), m)
    | none => (s, m)

/-! ## Fetch -/

/-- How a fetch ends. -/
inductive Fetched where
  | bytes (l : List Byte)
  | held (fault : Nat)
  | trap (t : TrapInfo)
  | barred
  deriving DecidableEq, Repr

/-- PGF of a fetch (R67, R311). -/
def Wave.fetchPgf (w : Wave) (detail aux : Nat) : TrapInfo := { w.trapInfo 4 detail with aux := aux, addr := w.pc }

/-- Bytes `off` to `off + n` of the page at `base` hold poison, in M or in a copy's write on its way, or cannot be reached
(R334, R365). -/
def State.codePoison (s : State) (base off n : Nat) : Bool :=
  s.wb.any (fun e => e.poison && e.bytes.any (fun x => decide (base + off ≤ x.1) && decide (x.1 < base + off + n))) ||
  (List.range ((n + 31) / 32 + 1)).any (fun i =>
    decide (off / 32 * 32 + 32 * i < off + n) && s.poison.contains (.mem (base / 32 + off / 32 + i))) || !s.reachable base

/-- One page of a fetch: its translation, the page's bytes from `off` on, `n` of them; or how the fetch ends there. -/
def State.fetchPart (s : State) (w : Wave) (g : Grid) (page off n : Nat) : State × Except Fetched (List Byte) :=
  match s.translate w.core g.asid (page * 65536) .fetch w.priv with
  | (s, .error y) =>
    (match s.raiseFault g.asid (page * 65536) .fetch y w.loc w.seq w.pc with
      | (s, some f) => (s, .error (.held f))
      | (s, none) => (s, .error (.trap (w.fetchPgf 6 3))))
  | (s, .ok x) =>
    let (s, m) := s.codePage w g page x
    if s.codePoison x.base off n then (s, .error (.trap { w.trapInfo 11 1 with addr := w.pc })) else (s, .ok (m.readN off n))

/-- Bytes of an instruction whose first byte is given; an illegal length counts as 8 (R69). -/
def lengthOf (b : Byte) : Nat :=
  match lenOf b with
  | some n => n
  | none => 8

/-- The rest of an instruction of `n` bytes after its first eight, in the page of its start and the next. -/
def State.fetchRest (s : State) (w : Wave) (g : Grid) (page off n : Nat) (first : List Byte) : State × Except Fetched (List Byte) :=
  if n ≤ 8 then (s, .ok first)
  else
    let here := min (n - 8) (65536 - (off + 8))
    match (if here = 0 then (s, .ok []) else s.fetchPart w g page (off + 8) here) with
    | (s, .error e) => (s, .error e)
    | (s, .ok a) =>
      if here = n - 8 then (s, .ok (first ++ a))
      else match s.fetchPart w g (page + 1) 0 (n - 8 - here) with
        | (s, .error e) => (s, .error e)
        | (s, .ok b) => (s, .ok (first ++ a ++ b))

/-- Whether the pages an instruction stands on are barred (R332). -/
def State.onBarred (s : State) (g : Grid) (pc n : Nat) : Bool :=
  match s.space? g.asid with
  | some a => a.barred (pc / 65536) || a.barred ((pc + n - 1) / 65536)
  | none => false

/-- The bytes of a code page that the grid has loaded, for an instruction that has begun: it fetches no more. -/
def Grid.loaded (g : Grid) (pc n : Nat) : List Byte :=
  (List.range n).map (fun i =>
    match g.code.find? (fun c => c.vpage == (pc + i) / 65536) with
    | some c => c.bytes.read ((pc + i) % 65536)
    | none => 0)

/-- Fetch a wave's next instruction (R67, R68, R90 step 1). -/
def State.fetch (s : State) (w : Wave) : State × Fetched :=
  let pc := w.pc.toNat
  match s.gridOf w with
  | none => (s, .trap (w.fetchPgf 2 0))
  | some g =>
    if w.inProg ≠ .none then (s, .bytes (g.loaded pc (lengthOf ((g.loaded pc 1).headD 0))))
    else match w.fetch with
      | .held f => (s, .held f)
      | .lost => (s, .trap (w.fetchPgf 6 3))
      | .free =>
        if 2 ^ 52 ≤ pc then (s, .trap (w.fetchPgf 2 0))
        else match s.fetchPart w g (pc / 65536) (pc % 65536) 8 with
          | (s, .error e) => (s, e)
          | (s, .ok first) =>
            let n := lengthOf (first.headD 0)
            if 2 ^ 52 < pc + n then (s, .trap (w.fetchPgf 2 0))
            else
              let g := match s.gridOf w with
                | some g => g
                | none => g
              match s.fetchRest w g (pc / 65536) (pc % 65536) n first with
              | (s, .error e) => (s, e)
              | (s, .ok l) => if s.onBarred g pc n then (s, .barred) else (s, .bytes l)

/-! ## The two ways to no instruction -/

/-- A wave on a barred page ends as EXIT does, after a pending fault of an earlier command if one stands (R313, R332). -/
def State.takeBar (s : State) (w : Wave) : State :=
  s.atBoundary w (fun s w =>
    let s := match s.gridOf w with
      | some g => s.putGrid { g with civ := true }
      | none => s
    let s := if w.step.isSome then s.postEvent w 7 0 w.pc w.seq w.em 0 else s
    s.waveExit w)

/-- ILLEGAL_ENCODING (R88, R311, R313). -/
def execIllegalEncoding (s : State) : Host.Outcome State Fault Refusal := illegalWord s

/-- FETCH_FAULT (R67, R320, R332, R334): the wave is held on a fault record, takes PGF or ECC, or ends at a barred page. -/
def execFetchFault (s : State) : Host.Outcome State Fault Refusal :=
  match s.wave? s.cur with
  | none => .fault .noCurrentWave
  | some w =>
    match s.fetch w with
    | (s, .held f) => .next (s.putWave { w with fetch := .held f, hold := .none })
    | (s, .barred) => .next (s.takeBar w)
    | (s, .trap t) => .next (s.atBoundary w (fun s w => (if t.cls = 11 then s.consumePoison w else s).deliver w t))
    | (_, .bytes _) => .next s

/-! ## An issue turn up to the instruction -/

/-- Whether a save has stopped a wave's cohort (R327). -/
def State.saving (s : State) (w : Wave) : Bool :=
  s.waves.any (fun x => x.inProg == .wsave w.cohort) || s.spaces.any (fun a => match a.saveWait with
    | some x => x.1 == w.cohort
    | none => false)

/-- Whether a wave may issue at all in this turn: resident with its whole ensemble (R20), not parked, not halted; at a
boundary also not asked to halt, its step not over, and its cohort not being saved. -/
def State.eligible (s : State) (w : Wave) : Bool :=
  s.gangResident w && w.park == .none && !w.halted &&
    (w.inProg != .none || (!w.haltReq && !s.saving w && (match w.step with
      | some t => !t.issued
      | none => true)))

/-- The end of a wave whose control state is poisoned: STATUS 3 (R334). -/
def State.endPoisoned (s : State) (w : Wave) : State :=
  s.atBoundary w (fun s w =>
    let s := { s with poison := s.poison.filter (fun u => u != PoisonUnit.control w.uid) }
    (s.consumePoison w).waveExit w)

/-- What an issue turn comes to: a state with nothing left to do, or an instruction to run. -/
inductive Turned where
  | stop (s : State)
  | run (s : State) (i : Instr)

/-- An eligible wave's turn (R90, R313, R337): poisoned control state, faults pending for the next boundary, fetch,
decode. -/
def State.turn (s : State) (w : Wave) : Turned :=
  let s := { s with cur := w.uid }
  if s.poison.contains (.control w.uid) then .stop (s.endPoisoned w)
  else if w.inProg == .none && w.pends.any (fun p => p.now) then .stop (takePend s w)
  else match s.fetch w with
    | (_, .held f) => if w.fetch = .held f then .stop s else .run s .fetchFault
    | (_, .trap _) => .run s .fetchFault
    | (_, .barred) => .run s .fetchFault
    | (t, .bytes l) =>
      match decode l with
      | some (i, _) => .run t i
      | none => .run t .illegalEncoding

end Sys2Proof.Machine
end

