-- ==== Sys2Proof/Machine/Bar.lean ====
section
/-! DEFINITION. The host's page of each address space, BAR2 (R359, R360), which peers and mapped accesses reach through the
module's register window (R363): spaces, registers, and commands that wait for one another. -/

namespace Sys2Proof.Machine

/-! ## Address spaces (R360) -/

/-- BUSY of a space: a task holds an entry, a grid runs, a queue is attached, or a saved cohort's token is out. -/
def State.spaceBusy (s : State) (asid : Nat) : Bool :=
  s.tasks.any (fun t => t.asid == asid) || s.grids.any (fun g => g.asid == asid && (!g.finished || !g.tokens.isEmpty)) ||
    s.queues.any (fun q => q.asid == asid)

/-- AS_CREATE: the space's registers stand as R360 puts them. -/
def execAsCreate (asid : Nat) (s : State) : Host.Outcome State Fault Refusal :=
  .next (if s.mod.ready ∧ asid < 4096 ∧ (s.space? asid).isNone then { s with spaces := s.spaces ++ [{ asid := asid }] } else s)

/-- AS_DESTROY: while BUSY is 0; every lease held for the space ends. -/
def execAsDestroy (asid : Nat) (s : State) : Host.Outcome State Fault Refusal :=
  .next (if s.spaceBusy asid then s
    else { s with
      spaces := s.spaces.filter (fun a => a.asid != asid), leases := s.leases.filter (fun l => l.asid != asid),
      tlb := s.tlb.filter (fun e => e.asid != asid), chqRes := s.chqRes.filter (fun c => c.asid != asid),
      faults := s.faults.filter (fun f => f.asid != asid), packets := s.packets.filter (fun p => p.asid != asid) })

/-! ## Registers of the host's pages (R275, R276, R335, R359) -/

/-- Whether a grid of a space runs: from its task's start until its completion step has performed (R360). -/
def State.gridRuns (s : State) (asid : Nat) : Bool :=
  s.grids.any (fun g => g.asid == asid && !g.finished) ||
    s.tasks.any (fun t => t.asid == asid && t.state == .running && t.trec.kind == 0)

/-- REGISTER_WRITE: a register with no row of its own stores by its field map (R308). -/
def execRegisterWrite (r : HostReg) (v : Word) (s : State) : Host.Outcome State Fault Refusal :=
  .next (match r with
    | .asPtb asid => if s.gridRuns asid then s else s.inSpace asid (fun a => { a with ptb := v })
    | .fltVec asid => s.inSpace asid (fun a => { a with fltVec := fltVecBits v })
    | .trapBase asid => s.inSpace asid (fun a => { a with trapBase := trapBaseBits v })
    | .fltSvc asid => s.inSpace asid (fun a => { a with fltSvc := fltSvcBits v })
    | .mftN asid => s.inSpace asid (fun a => { a with mftN := v })
    | .tlbLease asid => s.inSpace asid (fun a => { a with tlbLease := tlbLeaseTicks v })
    | .tlbiVa asid => s.inSpace asid (fun a => { a with tlbiVa := v })
    | .eyebright asid i => if i < 52 ∧ (s.space? asid).isSome then s.writeEb [.root] asid i v else s
    | .chqNone asid ch => s.hostChq asid ch 2
    | .yarFp d => if s.mod.ready || s.mod.recovery then s.writeFp d v else s
    | .yarClim d k => if s.mod.ready || s.mod.recovery then s.writeClim d k v else s)

/-- The state an operation that always goes on leaves. -/
def after (o : Host.Outcome State Fault Refusal) (s : State) : State :=
  match o with
  | .next t => t
  | _ => s

/-- Channel j of BAR2 (R359). -/
def chanOf (j : Nat) : ChanId := ⟨Fin.ofNat 8 (j / 48), Fin.ofNat 12 (j / 4), Fin.ofNat 4 j⟩

/-! ## Commands that wait (R237, R359) -/

/-- Which commands wait behind one another: HALT.CMD, SAVE.CMD and REST.CMD; of the others those of one register. -/
def cmdClass (off : Nat) : Nat := if off = 0x080 ∨ off = 0x088 then 0x070 else off

/-- Whether an earlier HALT.CMD, SAVE.CMD or REST.CMD of the space is unfinished. -/
def Space.busyCmd (a : Space) : Bool := a.haltWait.isSome || a.saveWait.isSome

/-- Whether a command that stands first of its class has to wait still. -/
def State.cmdHeld (s : State) (asid off : Nat) (v : Word) : Bool :=
  match s.space? asid with
  | none => false
  | some a =>
    if cmdClass off = 0x070 then a.busyCmd || (off == 0x070 && s.haltBlocked asid v)
    else if off = 0x0E0 then a.tlbiWait.isSome
    else s.chqPending asid (chanOf ((off - 0x1000) / 8))

/-- A command goes ahead. -/
def State.runCmd (s : State) (asid off : Nat) (v : Word) : State :=
  if off = 0x070 then s.runHalt asid v
  else if off = 0x080 then s.startSave asid (v.setWidth 14) (field v 16 36 * 65536)
  else if off = 0x088 then s.hostRestore asid v.toNat
  else if off = 0x0E0 then s.startTlbi asid v
  else s.writeChq asid (chanOf ((off - 0x1000) / 8)) v

/-- Run what may run of some commands, oldest first, none before an earlier one of its class: the state, and what still
waits. -/
def runCmds (asid : Nat) : List (Nat × Word) → List Nat → State → State × List (Nat × Word)
  | [], _, s => (s, [])
  | (off, v) :: l, held, s =>
    if held.contains (cmdClass off) || s.cmdHeld asid off v then
      let (s, rest) := runCmds asid l (cmdClass off :: held) s
      (s, (off, v) :: rest)
    else runCmds asid l held (s.runCmd asid off v)

/-- Commands of a space that were written while an earlier one was unfinished go ahead once it has finished. -/
def State.pump (s : State) (asid : Nat) : State :=
  match s.space? asid with
  | none => s
  | some a =>
    if a.cmds.isEmpty then s
    else
      let (s, rest) := runCmds asid a.cmds [] s
      s.inSpace asid (fun a => { a with cmds := rest })

/-- A posted write of a command. -/
def State.post (s : State) (asid off : Nat) (v : Word) : State :=
  (s.inSpace asid (fun a => { a with cmds := a.cmds ++ [(off, v)] })).pump asid

/-- The commands of a space that can finish do, and those behind them begin (R322, R327, R344). -/
def State.settle (s : State) (asid : Nat) : State := (((s.tryHaltCmd asid).trySave asid).tryTlbi asid).pump asid

/-- Host commands that wait go on once they may. -/
def State.hostWork (s : State) : State := s.spaces.foldl (fun s a => s.settle a.asid) s

/-- HALT_CMD_HALT. -/
def execHaltCmdHalt (asid : Nat) (loc : BitVec 14) (pass mbx : Bool) (s : State) : Host.Outcome State Fault Refusal :=
  .next ((s.settle asid).post asid 0x070 (haltWord 0 loc pass mbx))

/-- HALT_CMD_GO. -/
def execHaltCmdGo (asid : Nat) (loc : BitVec 14) (pass mbx : Bool) (s : State) : Host.Outcome State Fault Refusal :=
  .next ((s.settle asid).post asid 0x070 (haltWord 1 loc pass mbx))

/-- HALT_CMD_STEP. -/
def execHaltCmdStep (asid : Nat) (loc : BitVec 14) (pass mbx : Bool) (s : State) : Host.Outcome State Fault Refusal :=
  .next ((s.settle asid).post asid 0x070 (haltWord 2 loc pass mbx))

/-- HALT_CMD_QUERY. -/
def execHaltCmdQuery (asid : Nat) (loc : BitVec 14) (pass mbx : Bool) (s : State) : Host.Outcome State Fault Refusal :=
  .next ((s.settle asid).post asid 0x070 (haltWord 3 loc pass mbx))

/-- SAVE_CMD (R327): bits [51:16] of the image's address. -/
def execSaveCmd (asid : Nat) (loc : BitVec 14) (addr : Nat) (s : State) : Host.Outcome State Fault Refusal :=
  .next ((s.settle asid).post asid 0x080 (place loc.toNat 0 ||| place (addr / 65536 % 2 ^ 36) 16))

/-- REST_CMD (R328). -/
def execRestCmd (asid : Nat) (addr : Nat) (s : State) : Host.Outcome State Fault Refusal :=
  .next ((s.settle asid).post asid 0x088 (BitVec.ofNat 64 addr))

/-- TLBI_N (R322). -/
def execTlbiN (asid : Nat) (n : Word) (s : State) : Host.Outcome State Fault Refusal :=
  .next ((s.settle asid).post asid 0x0E0 n)

/-! ## BAR2 (R359) -/

/-- A write of eight bytes to a register of a space's BAR2 page (R359). -/
def State.bar2Write (s : State) (asid off : Nat) (v : Word) : State :=
  let reg (r : HostReg) : State := after (execRegisterWrite r v s) s
  if off < 0x048 ∧ off % 8 = 0 then after (execSubmit asid (Fin.ofNat 9 (off / 8)) v.toNat s) s
  else if 0x400 ≤ off ∧ off < 0x5A0 ∧ off % 8 = 0 then reg (.eyebright asid ((off - 0x400) / 8))
  else if 0x1000 ≤ off ∧ off < 0x1C00 ∧ off % 8 = 0 then
    s.post asid off v
  else match off with
    | 0x050 => reg (.asPtb asid)
    | 0x058 => s.resolve asid (low32 v) (v.getLsbD 32)
    | 0x060 => reg (.fltVec asid)
    | 0x068 => after (execIntSend asid (v.setWidth 14) s) s
    | 0x070 => s.post asid off v
    | 0x080 => s.post asid off v
    | 0x088 => s.post asid off v
    | 0x0A0 => after (if v.getLsbD 0 then execAsCreate asid s else execAsDestroy asid s) s
    | 0x0A8 => reg (.trapBase asid)
    | 0x0B0 => s.writeFltCfg [.root] asid v
    | 0x0B8 => reg (.fltSvc asid)
    | 0x0C0 => s.writeMftBase asid v
    | 0x0C8 => reg (.mftN asid)
    | 0x0D0 => reg (.tlbLease asid)
    | 0x0D8 => reg (.tlbiVa asid)
    | 0x0E0 => s.post asid off v
    | _ => s

/-- The word at an eight-byte offset of a space's BAR2 page; none where the read completes only later (R359). -/
def State.bar2Word (s : State) (asid off : Nat) : Option Word :=
  match s.space? asid with
  | none => some 0
  | some a =>
    let waits (o : Nat) : Bool := a.cmds.any (fun c => c.1 == o)
    if 0x400 ≤ off ∧ off < 0x5A0 then some (a.eb.toList.getD ((off - 0x400) / 8) 0)
    else if 0x1000 ≤ off ∧ off < 0x1C00 then
      let ch := chanOf ((off - 0x1000) / 8)
      if s.chqBusy asid ch then none else some (s.chqRead asid ch)
    else match off with
      | 0x050 => some a.ptb
      | 0x060 => some a.fltVec
      | 0x078 => if a.haltWait.isSome || waits 0x070 then none else some a.haltRes
      | 0x090 => if a.saveWait.isSome || waits 0x080 || waits 0x088 then none else some a.preRes
      | 0x0A0 => some (place (if s.spaceBusy asid then 1 else 0) 1 ||| 1)
      | 0x0A8 => some a.trapBase
      | 0x0B0 => some a.fltCfg
      | 0x0B8 => some a.fltSvc
      | 0x0C0 => some a.mftBase
      | 0x0C8 => some a.mftN
      | 0x0D0 => some (BitVec.ofNat 64 a.tlbLease)
      | 0x0D8 => some a.tlbiVa
      | 0x0E8 => if a.tlbiWait.isSome || waits 0x0E0 then none else some a.tlbiRes
      | _ => some 0

/-! ## The register window (R363) -/

/-- The bytes of the module's own window from an address, as eight-byte registers give them; none while a register's read
has not completed. -/
def State.barBytes (s : State) (pa n : Nat) : Option (List Byte) :=
  let word (o : Nat) : Option Word := if o < 2 ^ 28 then s.bar2Word (o / 65536) (o % 65536 / 8 * 8) else some 0
  (List.range n).foldr (fun i l =>
    let o := pa % 2 ^ 46 - 0x3F0000000000 + i
    match word o, l with
    | some w, some l => some (BitVec.ofNat 8 (w.toNat / 2 ^ (8 * (o % 8))) :: l)
    | _, _ => none) (some [])

/-- Bytes written to the module's own window: a register takes a write of all its eight bytes, and a write of a part of one has
no effect (log 36). -/
def State.barStore (s : State) (l : List (Nat × Byte)) : State :=
  let own := l.filter (fun x => s.ownWindow x.1)
  let words := (own.map (fun x => x.1 / 8)).dedup
  words.foldl (fun s w =>
    let bytes := (List.range 8).filterMap (fun i => (own.find? (fun x => x.1 == 8 * w + i)).map (fun x => x.2))
    let o := 8 * w % 2 ^ 46 - 0x3F0000000000
    if bytes.length = 8 ∧ o < 2 ^ 28 then s.bar2Write (o / 65536) (o % 65536) (BitVec.ofNat 64 (leVal bytes)) else s) s

end Sys2Proof.Machine
end

