-- ==== Sys2Proof/Machine/Perform.lean ====
section
/-! DEFINITION. The steps of the ordering machine (R37 to R40, R47 to R49, R53, R56 to R59, R63): loads, stores, drains,
evictions, read-modify-writes, fences, arrivals and resumptions, replays of the side log, and the events that complete an
instruction's pending result (R140, R144, R203). An event that is not enabled leaves the machine as it is. -/

namespace Sys2Proof.Machine

/-! ## Loads -/

/-- The address space whose page of the register window an address lies on (R359, R363). -/
def windowAsid (pa : Nat) : Nat := (pa % 2 ^ 46 - 0x3F0000000000) / 65536

/-- Whether the registers that a read reaches can answer: a read of one that waits for a command completes only then
(R359). -/
def State.barReady (s : State) (p : Place) (n : Nat) : Bool :=
  match p with
  | .mem a => !s.ownWindow a || ((s.settle (windowAsid a)).barBytes a n).isSome
  | _ => true

/-- What the register window answers at an address: this module's registers; of a peer's, whose registers State does not
hold, free bytes. -/
def State.windowBytes (s : State) (a n : Nat) : State × List Byte :=
  if s.ownWindow a then
    let s := s.settle (windowAsid a)
    (s, match s.barBytes a n with
      | some l => l
      | none => List.replicate n 0)
  else
    (List.range n).foldl (fun (acc : State × List Byte) i =>
      let (x, s) := acc.1.draw
      (s, acc.2 ++ [Config.deviceByte (a + i) x])) (s, [])

/-- The bytes an access reads at a place, whether poison touches them, and the caches it fills. In a register window a byte
that a node on the path holds wins, and none is filled (log 36). -/
def State.readPlace (s : State) (path : List NodeId) (key : BitVec 8) (fill : Bool) (ends : Option Nat) (p : Place) (n : Nat) :
    State × List Byte × Bool :=
  match p with
  | .mem a =>
    if deviceWindow a then
      let as := (List.range n).map (fun i => a + i)
      let got := s.searchUp as path [] []
      let (s, l) := (s.dropPassed path as got).windowBytes a n
      (s, (List.range n).map (fun i => match got.find? (fun f => f.pa == a + i) with
        | some f => f.byte
        | none => l.getD i 0), !s.reachable a || got.any (fun f => f.bad))
    else s.readBytes path key fill ends p n
  | p => s.readBytes path key fill ends p n

/-- A read that no route took to its home degrades the grid of the wave that made it (R365). -/
def State.lostRead (s : State) (a : Agent) (p : Place) (bad : Bool) : State :=
  match p with
  | .mem pa => if bad && !s.reachable pa then s.routeLost a else s
  | _ => s

/-- An entry enters a node; at the root a register window takes what lies in it (R39, R363). -/
def State.enter (s : State) (e : WbEntry) : State :=
  let s := s.enterNode e
  if e.node = .root then s.barStore e.bytes else s

/-- A byte's place as a number, to tell the bytes an instruction's lanes have read apart. -/
def placeKey : Place → Nat
  | .mem a => 4 * a
  | .spad c o => 4 * (4194304 * c + o) + 1
  | .win u o => 4 * (65536 * u + o) + 2

/-- Data returns to one lane of a deferred result: of one byte, every lane of a load reads the same write (R37). -/
def Def.take (d : Def) (x : Access) (bytes : List Byte) (bad : Bool) : Def :=
  if x.kind = .rmw then { d with got := d.got ++ [⟨x.lane, x.part, bytes, bad⟩] }
  else
    let one (i : Nat) : Nat × Byte × Bool :=
      let k := placeKey (placeAt x.place i)
      match d.seen.find? (fun y => y.1 == k) with
      | some y => y
      | none => (k, bytes.getD i 0, bad)
    let all := (List.range bytes.length).map one
    { d with got := d.got ++ [⟨x.lane, x.part, all.map (fun y => y.2.1), all.any (fun y => y.2.2)⟩],
             seen := d.seen ++ all.filter (fun y => !d.seen.any (fun z => z.1 == y.1)) }

/-- Give an access's data to the deferred instruction it belongs to, or to its NEST. -/
def State.giveData (s : State) (x : Access) (bytes : List Byte) (bad : Bool) : State :=
  match x.agent, x.defId with
  | .wave u, some d =>
    let f (w : Wave) : Wave := { w with defs := modWhere (fun y => y.id == d) (fun y => y.take x bytes bad) w.defs }
    { s with waves := modWhere (fun w => w.uid == u) f s.waves }
  | _, _ => s.nestGive x bytes bad

/-- When the lease ends that an access came through (R322). -/
def Access.ends (x : Access) : Option Nat := x.trans.bind (fun t => t.ends)

/-- Whether a slot holds a line. -/
def Wave.armed (w : Wave) (k : Fin 4) (line : Place) : Bool :=
  match w.mons[k.val] with
  | some m => m.line == line
  | none => false

/-- Disarm one slot. -/
def Wave.clearSlot (w : Wave) (k : Fin 4) : Wave := { w with mons := w.mons.set k.val none }

/-- Arm one slot. -/
def Wave.setSlot (w : Wave) (k : Fin 4) (m : MonSlot) : Wave := { w with mons := w.mons.set k.val (some m) }

/-- The arm point of a MON (R59, R202, R204): the oldest of four lines makes room, and a full set evicts. -/
def State.armLine (s : State) (x : Access) : State :=
  match x.agent with
  | .wave u =>
    match s.wave? u with
    | none => s
    | some w =>
      let line := lineOf x.place
      let k := w.slotFor line
      let s := if w.armed k line then s else (s.putWave (w.clearSlot k)).monEvict line
      let (o, s) := s.fresh
      (match s.wave? u with
        | some w => s.putWave (w.setSlot k ⟨line, x.level, o⟩)
        | none => s)
  | _ => s

/-- A PREF's line enters the cache of one node (R197). -/
def State.prefetch (s : State) (x : Access) : State :=
  let n := levelNode x.path x.level
  match x.place with
  | .mem a =>
    if deviceWindow a || !x.fill then s
    else
      let (s, bytes, bad) := s.readPlace (pathOf n) x.key false none x.place x.size
      if bad then s
      else (chunksOf a bytes.length).foldl (fun s c =>
        s.cacheFill n (bytesAt c.1 ((bytes.drop (c.1 - a)).take c.2)) x.key x.ends) s
  | _ => s

/-- A load waits for the wave's earlier side-log entries on its page (R43, R63). -/
def State.sideClear (s : State) (x : Access) : Bool :=
  !s.side.any (fun e => x.agent == .wave e.wave && decide (e.instr < x.instr) && e.asid == x.asid && e.page == x.va / 65536)

/-- Perform a load, a MON's load or a PREF (R39): SC first empties the caches below its level, and acquire and SC do
afterwards. -/
def State.performRead (s : State) (x : Access) : State :=
  let s := if x.ord = .sc then s.emptyBelow x.path x.level' else s
  let s : State := match x.kind with
    | .pref => s.prefetch x
    | .mon =>
      let (s, _, bad) := s.readPlace x.path x.key x.fill x.ends x.place x.size
      (s.armLine x).lostRead x.agent x.place bad
    | _ =>
      let (s, bytes, bad) := s.readPlace x.path x.key x.fill x.ends x.place x.size
      (s.giveData x bytes bad).lostRead x.agent x.place bad
  let s := if x.ord = .acq ∨ x.ord = .sc then s.emptyBelow x.path x.level' else s
  s.popAcc x.id

/-- A channel reads byte `k` of a packet's source box (R53, R249). -/
def State.copyLoad (s : State) (p : Packet) (k : Nat) : State :=
  match s.boxPlace p (boxAddr p.words false k) with
  | some (pl, key) =>
    if s.homeReady pl && s.barReady pl 1 then
      let (s, b, bad) := s.readPlace (chanPath p.chan) key true none pl 1
      s.putPkt { p with loaded := p.loaded ++ [(k, b.headD 0, bad)] }
    else s
  | none =>
    let (b, s) := s.draw
    s.putPkt { p with loaded := p.loaded ++ [(k, BitVec.ofNat 8 b, false)] }

/-- PERFORM_LOAD (R39, R53). -/
def execPerformLoad (x : Sel) (s : State) : Host.Outcome State Fault Refusal :=
  match x with
  | .acc id =>
    match s.accs.find? (fun a => a.id == id) with
    | none => .next s
    | some a =>
      if (a.kind = .load ∨ a.kind = .mon ∨ a.kind = .pref) ∧ s.mayGo a ∧ s.sideClear a ∧ s.barReady a.place a.size then .next (s.performRead a) else .next s
  | .copy pkt k =>
    match s.pkt? pkt with
    | none => .next s
    | some p =>
      if p.state = .started ∧ k < boxBytes p.words ∧ !p.loaded.any (fun y => y.1 == k) then .next (s.copyLoad p k) else .next s

/-! ## Stores (R39, R49) -/

/-- Whether a later plain write-combining entry may join an older one: one agent, one node, one 128-byte line, and between
them no release or SC entry, and no entry with a byte of the later one, which would land after it (R43, R49). -/
def mergeable (wb : List WbEntry) (a b : WbEntry) : Bool :=
  a.id != b.id && a.node == b.node && a.agent == b.agent && a.wcomb && b.wcomb && !a.sync && !b.sync && !a.poison && !b.poison &&
    (match a.bytes, b.bytes with
      | x :: _, y :: _ => x.1 / 128 == y.1 / 128
      | _, _ => false) && nodeLevel a.node == 1 &&
    !(((wb.dropWhile (fun e => e.id != a.id)).drop 1).takeWhile (fun e => e.id != b.id)).any (fun e => e.node == a.node &&
      (e.sync || e.bytes.any (fun x => b.bytes.any (fun y => y.1 == x.1))))

/-- Merge one later entry into an entry at its position, the later bytes winning. -/
def mergeInto (wb : List WbEntry) (a b : WbEntry) : List WbEntry :=
  let old := a.bytes.filter (fun x => !b.bytes.any (fun y => y.1 == x.1))
  modWhere (fun e => e.id == a.id) (fun e => { e with bytes := old ++ b.bytes }) (wb.filter (fun e => e.id != b.id))

/-- An entry of a core buffer joins the newest that it may merge with or does not, as a free bit says (R49; log 65). -/
def State.combine (s : State) (id : Nat) : State :=
  match s.wb.find? (fun e => e.id == id) with
  | none => s
  | some b =>
    match s.wb.reverse.find? (fun a => mergeable s.wb a b && decide (a.id < b.id)) with
    | none => s
    | some a =>
      let (m, s) := s.drawBit
      if m then { s with wb := mergeInto s.wb a b } else s

/-- The write-buffer entry of a store at a node. -/
def Access.entry (x : Access) (id : Nat) (n : NodeId) (bytes : List (Nat × Byte)) : WbEntry :=
  { id := id, node := n, agent := x.agent, bytes := bytes, fill := x.fill, sync := x.releases, wcomb := x.wcomb,
    key := x.key, trans := x.trans, instr := x.instr }

/-- A store's write of bytes: on the single copy of a core-homed place, into the buffer of the attachment node, or, as a
release or SC store, of the level's node directly (R36, R39). -/
def State.writeFor (s : State) (x : Access) : State :=
  match x.place with
  | .mem a =>
    let l := bytesAt a x.data
    let (id, s) := s.fresh
    if x.releases then
      (s.dropBelow x.path x.level' (l.map (fun y => y.1))).enter (x.entry id (levelNode x.path x.level') l)
    else (s.enter (x.entry id (x.path.headD .root) l)).combine id
  | p => s.homeStore p x.data x.instr

/-- Perform a store: a NEST's has its data by now; a channel's write of a header may end a detachment (R200, R237). -/
def State.performWrite (s : State) (x : Access) : State :=
  let (s, x) := s.nestStore x
  (((s.writeFor x).popAcc x.id).nestEnd x).finishDetaches

/-- A copy's byte that poison has touched poisons the unit it lands in (R249, R334). -/
def State.poisonHome (s : State) (p : Place) : State :=
  match p with
  | .mem _ => s
  | .spad c o => s.poisonUnit (.spad c (o / 8))
  | .win u o => if h : o / 128 < 256 then s.poisonUnit (.vreg u ⟨o / 128, h⟩ (Fin.ofNat 32 (o / 4))) else s

/-- A channel writes byte `k` of a packet's destination box (R53, R249). -/
def State.copyStore (s : State) (p : Packet) (k : Nat) (b : Byte) (bad : Bool) : State :=
  let va := boxAddr p.words true k
  let (n, s) := s.fresh
  let instr := if bad then n else p.id
  let mark (s : State) : State := s.putPkt { p with stored := p.stored ++ [k], poisoned := p.poisoned || bad }
  match s.boxPlace p va with
  | some (.mem a, key) =>
    mark (s.enter { id := n, node := (chanPath p.chan).headD .root, agent := .channel p.chan, bytes := [(a, b)],
                        poison := bad, key := key, trans := s.pktTrans p va, instr := instr })
  | some (q, _) =>
    if s.homeReady q then
      let s := s.homeStore q [b] instr
      mark (if bad then s.poisonHome q else s)
    else s
  | none => mark s

/-- PERFORM_STORE (R39, R53). -/
def execPerformStore (x : Sel) (s : State) : Host.Outcome State Fault Refusal :=
  match x with
  | .acc id =>
    match s.accs.find? (fun a => a.id == id) with
    | none => .next s
    | some a => if a.kind = .store ∧ s.mayGo a then .next (s.performWrite a) else .next s
  | .copy pkt k =>
    match s.pkt? pkt with
    | none => .next s
    | some p =>
      match p.loaded.find? (fun y => y.1 == k) with
      | some (_, b, bad) => if p.state = .started ∧ !p.stored.contains k then .next (s.copyStore p k b bad) else .next s
      | none => .next s

/-- DRAIN (R39): no older entry of the node holds a byte of it. -/
def execDrain (entry : Nat) (s : State) : Host.Outcome State Fault Refusal :=
  match s.wb.find? (fun e => e.id == entry) with
  | none => .next s
  | some e =>
    let older := s.wb.takeWhile (fun y => y.id != entry)
    if older.any (fun y => y.node == e.node && y.bytes.any (fun x => e.bytes.any (fun z => z.1 == x.1))) then .next s
    else .next ({ s with wb := s.wb.filter (fun y => y.id != entry) }.enter { e with node := parentOf e.node })

/-- EVICT (R39). -/
def execEvict (n : NodeId) (pa : Nat) (s : State) : Host.Outcome State Fault Refusal := .next (s.cacheDrop n [pa])

/-! ## Read-modify-writes (R48, R194, R195) -/

/-- The node an ATOM or RED performs at: the level's node, and the root for a device page (R48, R49). -/
def Access.rmwNode (x : Access) : NodeId := if x.device.isSome then .root else levelNode x.path x.level'

/-- The word an ATOM or RED leaves. -/
def rmwNew (op : Aop) (old a b : W32) : W32 :=
  match op with
  | .swap => a
  | .cas => if old = a then b else old
  | op => aopValue op old a

/-- The indivisible step: the state, the old bytes, and whether poison forbade the write (R334). -/
def State.rmwStep (s : State) (x : Access) : State × List Byte × Bool :=
  let n := x.rmwNode
  let (s, old, bad) := s.readPlace (pathOf n) x.key false none x.place 4
  if bad then (s.lostRead x.agent x.place bad, old, true)
  else
    let new := leOf 4 (rmwNew x.aop (BitVec.ofNat 32 (leVal old)) x.opA x.opB).toNat
    match x.place with
    | .mem a =>
      let l := bytesAt a new
      let (id, s) := s.fresh
      let s := s.enter { x.entry id n l with wcomb := false }
      (s.dropBelow x.path (nodeLevel n) (l.map (fun y => y.1)), old, false)
    | p => (s.homeStore p new x.instr, old, false)

/-- Perform an ATOM or RED: acquire and SC then empty the caches below the level; a RED that met poison has consumed it. -/
def State.performRmw (s : State) (x : Access) : State :=
  let (s, old, bad) := s.rmwStep x
  let s := if x.ord = .acq ∨ x.ord = .sc then s.emptyBelow x.path x.level' else s
  let s : State := match x.defId, x.agent with
    | some _, _ => s.giveData x old bad
    | none, .wave u => (match s.wave? u with
      | some w => if bad then s.consumeOnce w x.instr else s
      | none => s)
    | none, _ => s
  s.popAcc x.id

/-- RMW_PERFORM (R48). -/
def execRmwPerform (id : Nat) (s : State) : Host.Outcome State Fault Refusal :=
  match s.accs.find? (fun a => a.id == id) with
  | none => .next s
  | some a =>
    if a.kind = .rmw ∧ s.mayGo a ∧ s.sideClear a ∧ s.rmwClear a a.rmwNode ∧ s.barReady a.place 4 then .next (s.performRmw a) else .next s

/-! ## Fences and barriers (R47, R56 to R58) -/

/-- FENCE_PERFORM (R47). -/
def execFencePerform (id : Nat) (s : State) : Host.Outcome State Fault Refusal :=
  match s.accs.find? (fun a => a.id == id) with
  | none => .next s
  | some a =>
    if a.kind = .fence ∧ s.mayGo a then
      .next ((if a.ord = .rel then s else s.emptyBelow a.path a.level).popAcc id)
    else .next s

/-- An arrival counts (R56, R206), its wave's weight class fixed (R208). -/
def State.arrive (s : State) (a : Access) (w : Wave) : State :=
  let cls := weightClass w.weights (s.clkOf w.core)
  let s := s.popAcc a.id
  match a.kind with
  | .arriveB =>
    let b : Fin 16 := Fin.ofNat 16 a.lane
    (match s.cohortOf w with
      | none => s
      | some c =>
        let bar := c.bars[b.val]
        let s := s.putCohort { c with bars := c.bars.set b.val { bar with arrived := bar.arrived + 1 } }
        let s := s.putWave { w with arrB := w.arrB.set b.val bar.gen, clsB := w.clsB.set b.val cls }
        s.checkBar c.uid b.val)
  | _ =>
    let e : Fin 4 := Fin.ofNat 4 a.lane
    (match s.ensOf w with
      | none => s
      | some x =>
        let bar := x.bars[e.val]
        let s := s.putEns { x with bars := x.bars.set e.val { bar with arrived := bar.arrived + 1 } }
        let s := s.putWave { w with arrE := w.arrE.set e.val bar.gen, clsE := w.clsE.set e.val cls }
        s.checkEBar x.uid e.val)

/-- BARRIER_ARRIVAL (R56). -/
def execBarrierArrival (id : Nat) (s : State) : Host.Outcome State Fault Refusal :=
  match s.accs.find? (fun a => a.id == id) with
  | none => .next s
  | some a =>
    match a.agent with
    | .wave u =>
      match s.wave? u with
      | some w => if (a.kind = .arriveB ∨ a.kind = .arriveE) ∧ s.mayGo a then .next (s.arrive a w) else .next s
      | none => .next s
    | _ => .next s

/-- Where a waiter stands: its completion, counted from its cohort's return where it waited as it came (R209), its phase, and
the earliest cycle it may resume in. Of a completion that no record holds it may resume in any cycle. -/
def Wave.pointOf (w : Wave) (arr gen : Nat) (d : Option (BDone × Nat)) : Option (BDone × Nat × Nat) :=
  match d with
  | some (x, p) =>
    let x := { x with t0 := max x.t0 (w.backAt.getD 0) }
    some (x, p, (phaseWindow x p).1)
  | none => if arr < gen then some (⟨arr, 0, 0, false⟩, 0, 0) else none

/-- The completed generation a parked wave waits for, its phase, and the earliest cycle it may resume in (R57); none while
its arrival has yet to count. -/
def State.resumePoint (s : State) (w : Wave) : Option (BDone × Nat × Nat) :=
  match w.park with
  | .bar b => if s.arrivalQueued w .arriveB b.val then none else w.pointOf w.arrB[b.val] (s.barGen w b) (s.barDone w b)
  | .barw b => (w.pointOf w.arrB[b.val] (s.barGen w b) (s.barDone w b)).map (fun x => (x.1, x.2.1, max x.2.2 w.barwAt))
  | .ebar e => if s.arrivalQueued w .arriveE e.val then none else w.pointOf w.arrE[e.val] (s.ebarGen w e) (s.ebarDone w e)
  | _ => none

/-- A wave parked uncounted goes on once the generation it has arrived in completes: it arrives in the next, and a BARA is
then over (R206). -/
def State.countNext (s : State) (w : Wave) : State :=
  match w.park with
  | .barNext b =>
    if w.arrB[b.val] < s.barGen w b then (s.queueArrival w .arriveB 1 b.val).putWave { w with park := .bar b } else s
  | .baraNext b =>
    if w.arrB[b.val] < s.barGen w b then
      (s.queueArrival w .arriveB 1 b.val).putWave { w with park := .none, pc := w.pc + 8 }
    else s
  | .ebarNext e =>
    if w.arrE[e.val] < s.ebarGen w e then (s.queueArrival w .arriveE 2 e.val).putWave { w with park := .ebar e } else s
  | _ => s

/-- Whether a wave is parked uncounted. -/
def Park.next : Park → Bool
  | .barNext _ | .baraNext _ | .ebarNext _ => true
  | _ => false

/-- Whether a wave waits on the same barrier as another. -/
def sameBar (a b : Park) : Bool :=
  match a, b with
  | .bar x, .bar y => x == y
  | .bar x, .barw y => x == y
  | .barw x, .bar y => x == y
  | .barw x, .barw y => x == y
  | .ebar x, .ebar y => x == y
  | _, _ => false

/-- The waiters of a wave's generation in a lower phase, still parked: those that stood parked when it completed (R57). -/
def State.lowerPhase (s : State) (w : Wave) (d : BDone) (p : Nat) : Bool :=
  let mine (x : Wave) : Bool := match w.park with
    | .ebar _ => (match s.ensOf w with
      | some e => e.cohorts.contains x.cohort
      | none => false)
    | _ => x.cohort == w.cohort
  s.waves.any (fun x => mine x && x.uid != w.uid && sameBar x.park w.park && (match s.resumePoint x with
    | some (e, q, _) => decide (q < p) && e.gen == d.gen && (match x.park with
      | .barw _ => decide (x.barwAt ≤ e.t0)
      | _ => true)
    | none => false))

/-- BARRIER_RESUME (R57, R58, R206). -/
def execBarrierResume (wave : Nat) (s : State) : Host.Outcome State Fault Refusal :=
  match s.wave? wave with
  | none => .next s
  | some w =>
    if w.park.next then .next (if s.resident w then s.countNext w else s)
    else match s.resumePoint w with
    | none => .next s
    | some (d, p, from_) =>
      let waiter : Bool := match w.park with
        | .barw _ => decide (w.barwAt ≤ d.t0)
        | _ => true
      if !s.resident w ∨ s.clkOf w.core < from_ ∨ (waiter ∧ s.lowerPhase w d p) then .next s
      else
        let level := match w.park with
          | .ebar _ => 2
          | _ => 1
        .next ((s.acquire w.core level).putWave { w with park := .none, pc := w.pc + 8, backAt := none })

/-! ## Results (R140, R144, R178, R229, R289) -/

/-- DEFERRED_RETURN: every lane has performed or is lost; a result that poison touched is consumed (R140, R334). -/
def execDeferredReturn (wave id : Nat) (s : State) : Host.Outcome State Fault Refusal :=
  match s.wave? wave with
  | none => .next s
  | some w =>
    match w.defs.find? (fun d => d.id == id) with
    | none => .next s
    | some d =>
      if d.returned || s.accs.any (fun a => a.defId == some id) then .next s
      else
        let s := s.putWave { w with defs := modWhere (fun y => y.id == id) (fun y => { y with returned := true }) w.defs }
        .next (if d.got.any (fun g => g.poison) then s.consumePoison w else s)

/-- A scoreboarded result is written: the entries of a stack that an XEV has written lose their poison, and those it left alone
keep what has come over them since (R334). -/
def State.writeSb (s : State) (w : Wave) (b : Sb) : State :=
  let regs := b.vw.map (fun x => x.1)
  let s := s.cleanWords w b.em regs (b.qw.map (fun x => x.1))
  let w := b.vw.foldl (fun w x => w.vput x.1 x.2) w
  let w := b.qw.foldl (fun w x => w.qput x.1 x.2) w
  let gone (p : PoisonUnit) : Bool := match p, b.stk with
    | .stack x l k, some t => x == w.uid && decide (b.kept[l.val] ≤ k) && decide (k < (t[l.val]).length)
    | _, _ => false
  let s := { s with poison := s.poison.filter (fun p => !gone p) }
  let w := { w with stk := (match b.stk with
                      | some t => some (poisonedStacks s.poison w.uid t)
                      | none => w.stk),
                    xst := w.xst ||| b.xst, vst := w.vst ||| b.vst, sb := w.sb.filter (fun x => x.id != b.id),
                    spilled := w.spilled.filter (fun r => !regs.contains r) }
  let (s, w) := spillFit 256 (s.unlatch w regs) (w.touch regs)
  s.putWave w

/-- A completion of one kind: at its time, MMAs of a wave oldest first. -/
def State.completeSb (s : State) (kind : SbKind) (wave id : Nat) : State :=
  match s.wave? wave with
  | none => s
  | some w =>
    match w.sb.find? (fun b => b.id == id) with
    | none => s
    | some b =>
      if b.kind ≠ kind ∨ s.clkOf w.core < b.due ∨
          (kind = .mma ∧ (w.sb.takeWhile (fun x => x.id != id)).any (fun x => x.kind == .mma)) then s
      else s.writeSb w b

/-- SCOREBOARD_COMPLETE: FDIV, FSQRT, VDIV, VREM (R144, R145). -/
def execScoreboardComplete (wave id : Nat) (s : State) : Host.Outcome State Fault Refusal := .next (s.completeSb .long wave id)

/-- XEV_COMPLETE (R178). -/
def execXevComplete (wave id : Nat) (s : State) : Host.Outcome State Fault Refusal := .next (s.completeSb .xev wave id)

/-- VETCH_COMPLETE (R229). -/
def execVetchComplete (wave id : Nat) (s : State) : Host.Outcome State Fault Refusal := .next (s.completeSb .vetch wave id)

/-- MMA_COMPLETE (R289, R290). -/
def execMmaComplete (wave id : Nat) (s : State) : Host.Outcome State Fault Refusal := .next (s.completeSb .mma wave id)

/-! ## The side log (R63) -/

/-- The store or RED step of one lane of an entry, on its page. -/
def SideEntry.access (e : SideEntry) (x : Xlat) (id : Nat) (l : SideLane) : Access :=
  let mt := x.leaf.mt
  { id := id, agent := .wave e.wave, core := e.core, instr := e.instr, kind := if e.rmw.isSome then .rmw else .store,
    place := .mem (x.base + l.va % 65536), size := l.bytes.length, lane := l.lane, data := l.bytes,
    aop := (match e.rmw with
      | some a => a
      | none => .add), opA := BitVec.ofNat 32 (leVal l.bytes), ord := if mt = 3 then .sc else e.ord, level := e.level,
    fill := fillsOn e.evp x.leaf, slot := e.loc.toNat % 32, device := if mt = 2 then some x.base else none, wcomb := mt == 1, isSo := mt == 3,
    key := x.leaf.key, priv := !e.user, va := l.va, asid := e.asid, trans := some x.trans, pc := e.pc, seq := e.seq }

/-- Whether nothing keeps an entry's access from performing (R40, R63): earlier entries of the page, and of the wave for a
release, and the wave's earlier accesses. -/
def State.replayable (s : State) (e : SideEntry) (x : Access) : Bool :=
  let before := s.side.takeWhile (fun y => y.id != e.id)
  let accs := s.accs.filter (fun y => y.agent == x.agent && decide (y.instr < x.instr))
  !before.any (fun y => y.core == e.core && y.asid == e.asid && y.page == e.page) && !before.any (fun y => y.holds x) && !accs.any (fun y => holdsBack y x) &&
    (!x.releases || (!before.any (fun y => y.wave == e.wave) && s.released x x.level')) &&
    !s.nestHolds x && (x.kind != .rmw || s.rmwClear x x.rmwNode)

/-- Replay an entry: each lane in ascending order. -/
def State.replay (s : State) (e : SideEntry) (x : Xlat) : State :=
  let s := { s with side := s.side.filter (fun y => y.id != e.id) }
  e.lanes.foldl (fun s l =>
    let (id, s) := s.fresh
    let a := e.access x id l
    if e.rmw.isSome then s.performRmw a else s.performWrite a) s

/-- SIDE_LOG_REPLAY (R63): the entry's page has been resolved; a page that faults once more holds the entry again. -/
def execSideLogReplay (id : Nat) (s : State) : Host.Outcome State Fault Refusal :=
  match s.side.find? (fun e => e.id == id) with
  | none => .next s
  | some e =>
    if !e.ready then .next s
    else
      match s.translate e.core e.asid (e.page * 65536) (if e.rmw.isSome then .update else .write) (!e.user) with
      | (s, .ok x) => if e.lanes.all (fun l => s.replayable e (e.access x 0 l)) then .next (s.replay e x) else .next s
      | (s, .error _) =>
        let s := { s with side := modWhere (fun y => y.id == id) (fun y => { y with ready := false }) s.side }
        .next (s.retryEntry { e with ready := false })

/-! ## The issue limit, and MWAIT (R147, R203) -/

/-- ISSUE_LIMIT_OVERRIDE (R147): after 16 cycles in which a ready wave of the port did not issue, the limit does not hold
its next issue. -/
def execIssueLimitOverride (c : CoreId) (port : Fin 4) (s : State) : Host.Outcome State Fault Refusal :=
  let k := s.coreOf c
  let p := k.ports[port.val]
  .next (if 16 ≤ p.stall then s.putCore { k with ports := k.ports.set port.val { p with grant := true } } else s)

/-- MWAIT returns to a parked wave. -/
def State.wakeWave (s : State) (w : Wave) (d : SReg) : State :=
  let (s, w) := mwaitReturn s w d
  s.endParked w d (w.sget d) 8

/-- MWAIT_WAKE (R60, R61, R203): a wake or an interrupt is pending. -/
def execMwaitWake (wave : Nat) (s : State) : Host.Outcome State Fault Refusal :=
  match s.wave? wave with
  | none => .next s
  | some w =>
    match w.park with
    | .mwait d _ _ => if s.resident w ∧ (w.wakes ≠ [] ∨ w.intp) then .next (s.wakeWave w d) else .next s
    | _ => .next s

/-- MWAIT_TIMEOUT (R203). -/
def execMwaitTimeout (wave : Nat) (s : State) : Host.Outcome State Fault Refusal :=
  match s.wave? wave with
  | none => .next s
  | some w =>
    match w.park with
    | .mwait d start ticks => if s.resident w ∧ start + ticks ≤ s.clk then .next (s.wakeWave w d) else .next s
    | _ => .next s

end Sys2Proof.Machine
end

