-- ==== Sys2Proof/Machine/Cycle.lean ====
section
/-! DEFINITION. A core cycle: which ready wave a port takes under the current limit (R146, R147), and the end of the cycle:
leaves, counters, ready counts, the current record (R347), what a cycle may not pass, and the samples taken in it (R349). -/

namespace Sys2Proof.Machine

/-- The waves bound to a port of a core (R13). -/
def State.bound (s : State) (c : CoreId) (p : Fin 4) : List Wave := s.waves.filter (fun w => s.resident w && w.core == c && w.port == p)

/-- C of R147: what a cluster's ports have charged in their last 64 core cycles. -/
def State.current (s : State) (d : Fin 8) (k : Fin 12) : Nat :=
  (List.finRange 4).foldl (fun n i => n + (s.coreOf ⟨d, k, i⟩).window.foldl (· + ·) 0) 0

/-- The charge a wave's next instruction would make. -/
def Wave.charge (w : Wave) : Nat :=
  match w.offer with
  | some x => x.1
  | none => 0

/-- The oldest of ready waves: the largest count, a tie to the lowest slot (R146). -/
def oldestReady (l : List Wave) : Option Wave :=
  l.foldl (fun o w => match o with
    | none => some w
    | some b => if b.ready < w.ready ∨ (b.ready = w.ready ∧ w.slot < b.slot) then some w else some b) none

/-- The ready wave a port takes (R146, R147), the offers of its waves standing; none where no charge fits. -/
def State.portChoice (s : State) (c : CoreId) (p : Fin 4) : Option Wave :=
  let ready := (s.bound c p).filter (fun w => w.offer.isSome)
  match oldestReady ready with
  | none => none
  | some o =>
    let limit := s.climit c.die c.clu
    let now := s.current c.die c.clu
    if (s.coreOf c).ports[p.val].grant then some o
    else if now + o.charge ≤ limit then some o
    else
      let fit := ready.filter (fun w => decide (now + w.charge ≤ limit))
      match fit.map Wave.charge with
      | [] => none
      | x :: xs => oldestReady (fit.filter (fun w => w.charge == xs.foldl min x))

/-- Whether R147 holds every ready wave of a port. -/
def State.limited (s : State) (c : CoreId) (p : Fin 4) : Bool :=
  (s.bound c p).any (fun w => w.offer.isSome) && (s.portChoice c p).isNone

/-- The leaf of a port's slot in this cycle (R347). -/
def State.slotLeaf (s : State) (c : CoreId) (p : Fin 4) : Nat :=
  match (s.coreOf c).ports[p.val].issued with
  | some l => l
  | none => (s.bound c p).foldl (fun n w => min n (w.waitLeaf (w.offer.isSome && s.limited c p))) 12

/-- Whether R147 kept a port from issuing in this cycle: by the limit, or, its override granted, by no turn of its own. -/
def State.starved (s : State) (c : CoreId) (p : Fin 4) : Bool :=
  let x := (s.coreOf c).ports[p.val]
  x.issued.isNone && (s.limited c p || (x.grant && (s.bound c p).any (fun w => w.offer.isSome)))

/-- The ports of a core at the end of its cycle: cycles without an issue for the limit's sake are counted, and an override lasts
for its cycle (R147). -/
def State.nextPorts (s : State) (c : CoreId) : Vector PortSt 4 :=
  Vector.ofFn (fun p =>
    let x := (s.coreOf c).ports[p.val]
    { x with issued := none, issuedWave := none, grant := false, stall := if s.starved c p then x.stall + 1 else 0,
             pipeWas := x.pipeFree, sfuWas := x.sfuFree })

/-- A wave's count at the end of its core's cycle (R146): it is 0 where the wave has issued; a ready wave that its port or the
limit passed over waits on; one that the port could have taken counts as not yet fetched. -/
def State.nextReady (s : State) (c : CoreId) (w : Wave) : Wave :=
  let p := (s.coreOf c).ports[w.port.val]
  let passed := w.offer.isSome && p.issuedWave != some w.uid && (p.issued.isSome || s.starved c w.port)
  { w with ready := if passed then w.ready + 1 else 0, offer := none }

/-- A wave that must resume before the cycle ends (R57). -/
def State.mustResume (s : State) (c : CoreId) : Bool :=
  s.waves.any (fun w => w.core == c && s.resident w && (match s.resumePoint w with
    | some (d, p, _) => decide ((phaseWindow d p).2 ≤ s.clkOf c)
    | none => false))

/-- CORE_CYCLE (R347). It does not pass a resumption's last cycle (R57), a sample that is due (R349), or a 16th cycle whose
override has not been granted (R147). -/
def execCoreCycle (c : CoreId) (s : State) : Host.Outcome State Fault Refusal :=
  let k := s.coreOf c
  if s.mustResume c ∨ s.sampleWaits c ∨ k.ports.toList.any (fun p => decide (16 ≤ p.stall) && !p.grant) then .next s
  else
    let leaves := (List.finRange 4).map (s.slotLeaf c)
    let add (i : Nat) (x : Word) : Word := x + BitVec.ofNat 64 (if i = 13 then 4 else (leaves.filter (fun l => l == i)).length)
    let busy := k.ports.toList.any (fun p => p.issued.isSome) || (s.dieOf c.die).queue.isEmpty
    let next : CoreSt :=
      { k with clk := k.clk + 1, ports := s.nextPorts c, window := (0 :: k.window).take 64,
               leaves := Vector.ofFn (fun i => add i.val k.leaves[i.val]), vetchPri := k.vetchPri + 1,
               arrayWas := k.arrayFree, sampled := false,
               idle := if busy then 0 else k.idle + 1 }
    let s := { s with waves := modWhere (fun w => w.core == c) (s.nextReady c) s.waves }
    .next (s.putCore next).hostWork

/-! ## Samples (R349, R350) -/

/-- SAMPLE (R349, R350): the issued wave is the one that issued, though its EXIT has ended it; no wave of the core issues in the
cycle after its sample (log 109). -/
def execSample (c : CoreId) (s : State) : Host.Outcome State Fault Refusal :=
  match s.sampleDue c with
  | none => .next s
  | some a =>
    let k := s.coreOf c
    let x := s.samplerOf c a
    let port : Fin 4 := Fin.ofNat 4 (x.lfsr.extractLsb' 30 2).toNat
    let p := k.ports[port.val]
    let own (w : Wave) : Bool := w.core == c && s.asidOf w == a.asid
    let issued := s.waves.find? (fun w => own w && p.issuedWave == some w.uid)
    let inSlots := (List.finRange 32).filterMap (fun n => s.waves.find? (fun w =>
      own w && s.resident w && w.port == port && p.issuedWave != some w.uid && w.slot == n))
    let stalled := inSlots[(x.lfsr.extractLsb' 25 5).toNat % max 1 inSlots.length]?
    let leaf := match stalled with
      | some w => w.waitLeaf (w.offer.isSome && s.limited c port)
      | none => 0
    let log := field a.eb[0x32] 0 4
    let base := (a.eb[0x32] &&& ~~~0xFFF).toNat
    let ofs := 64 * (a.smpCount % 2 ^ log)
    let valid := (if issued.isSome then 1 else 0) + (if stalled.isSome then 2 else 0)
    let bytes := leOf 4 (a.smpCount + 1) ++ leOf 1 valid ++ leOf 1 leaf ++ leOf 2 (locOf c port.val).toNat ++ leOf 8 k.clk ++
      waveName issued (fun _ => p.issuedPc) ++ waveName stalled (fun w => w.pc) ++ List.replicate 16 (0 : Byte)
    let s := s.storeM [.root] (areaKey a.smpKeys base ofs) (areaPa a.smpPa base ofs) bytes
    let s := s.putSpace { a with smpCount := a.smpCount + 1 }
    let jit := field a.eb[0x31] 48 4
    let per := field a.eb[0x31] 0 32
    let gap := if jit = 0 then per else per + x.lfsr.toNat % 2 ^ jit - 2 ^ (jit - 1)
    let next : Sampler := { x with lfsr := lfsrNext x.lfsr, next := k.clk + gap }
    let k := s.coreOf c
    .next (s.putCore { k with sampled := true, samplers := next :: k.samplers.filter (fun y => y.asid != a.asid) })

end Sys2Proof.Machine
end

