-- ==== Sys2Proof/Machine/Host.lean ====
section
/-! DEFINITION. What the outside world does (chapter 20): host and peer reads and writes (R55, R358 to R361), address spaces
(R360), the management interface, Lanby flits and links (R364 to R366), errors (R333), key slots (R367), SPDM and signed
images (R368, R369), temperature (R370) and bring-up (R371). -/

namespace Sys2Proof.Machine

/-! ## Module registers (R361) -/

/-- MOD.ID (R361). -/
def State.modId (s : State) : Word :=
  place s.mod.cfg.dies.toNat 40 ||| place s.mod.cfg.modno.val 32 ||| s.mod.cfg.version.setWidth 64

/-- MOD.STAT (R361). -/
def State.modStat (s : State) : Word :=
  let bit (b : Bool) (n : Nat) : Word := place (if b then 1 else 0) n
  bit s.mod.ready 0 ||| bit s.mod.recovery 1 ||| bit s.mod.failedOver 2 ||| bit (s.dies.any (fun d => d.over105)) 3 |||
    bit (s.dies.any (fun d => d.over110)) 4 ||| place s.mod.bar4Bad 32

/-- The word at an eight-byte offset of BAR0 (R361). -/
def State.bar0Word (s : State) (off : Nat) : Word :=
  let k := (off - 0x200) / 8
  if off = 0x0000 then s.modId
  else if off = 0x0008 then s.modStat
  else if off = 0x0010 then BitVec.ofNat 64 s.clk
  else if 0x100 ≤ off ∧ off < 0x140 then (s.dieOf (Fin.ofNat 8 ((off - 0x100) / 8))).fp.setWidth 64
  else if 0x200 ≤ off ∧ off < 0x500 then BitVec.ofNat 64 (s.climit (Fin.ofNat 8 (k / 12)) (Fin.ofNat 12 k))
  else if 0x600 ≤ off ∧ off < 0x700 then
    let d := s.dieOf (Fin.ofNat 8 ((off - 0x600) / 32))
    [d.ce, d.ue, d.pois, 0].getD ((off - 0x600) % 32 / 8) 0
  else if 0x800 ≤ off ∧ off < 0x848 then BitVec.ofNat 64 (s.mod.agErr.toList.getD ((off - 0x800) / 8) 0)
  else if off = 0x1008 then s.mod.mgmtRes
  else if 0x2000 ≤ off ∧ off < 0x3000 then s.mod.mgmtBuf.getD ((off - 0x2000) / 8) 0
  else 0

/-! ## Memory accesses of the host and of peers (R55, R358, R363) -/

/-- First-tier memory that BAR4 maps: 384 GiB (R358). -/
def bar4Limit : Nat := 0x006000000000

/-- An access above the first 384 GiB of BAR4 is counted, up to 2^32 − 1 (R358, R361). -/
def State.bar4Miss (s : State) : State := { s with mod := { s.mod with bar4Bad := min (s.mod.bar4Bad + 1) (2 ^ 32 - 1) } }

/-- Where a host access of `n` bytes stands: a physical address, or none above BAR4's memory. DESIGN CHOICE (log 107): a physical
address outside R363's ranges, or above the present bulk tier, is taken as an address of M, for a peer as well. -/
def State.hostPa (s : State) (a : HostAddr) (n : Nat) : Option Nat :=
  match a with
  | .bar4 off => if off + n ≤ bar4Limit then some (s.mod.cfg.modno.val * 2 ^ 46 + off) else none
  | .phys pa => some pa

/-- Bytes written into M by a requester at the root (R55): a peer's under its key (R364, R367), the host's under none (log 54). -/
def State.rootWrite (s : State) (key : Option (BitVec 8)) (l : List (Nat × Byte)) : State :=
  let (id, s) := s.fresh
  s.writeM l key id

/-- A write of bytes from a physical address: into M, or to the registers of this module's BAR2 pages that it covers whole
(R359, R363; log 36). -/
def State.outsideWrite (s : State) (key : Option (BitVec 8)) (pa : Nat) (l : List (Nat × Byte)) : State :=
  if deviceWindow pa then s.barStore l else s.rootWrite key l

/-- HOST_WRITE (R55, R358): it performs at once, so that a relaxed write differs in nothing the machine shows. -/
def execHostWrite (_p : Party) (a : HostAddr) (bytes : List Byte) (_relaxed : Bool) (s : State) : Host.Outcome State Fault Refusal :=
  .next (if !s.mod.ready then s
    else match s.hostPa a bytes.length with
      | some pa => s.outsideWrite none pa (bytesAt pa bytes)
      | none => s.bar4Miss)

/-- Bytes that a requester at the root reads, a peer under its key: free where they are poisoned, as the spec gives such a read
no value. -/
def State.rootRead (s : State) (key : Option (BitVec 8)) (pa n : Nat) : State × List Byte :=
  (List.range n).foldl (fun (acc : State × List Byte) i =>
    if acc.1.poisonAt (.mem (pa + i)) then
      let (x, s) := acc.1.draw
      (s, acc.2 ++ [BitVec.ofNat 8 x])
    else
      match key with
      | some k =>
        let (b, s) := acc.1.readM k (pa + i)
        (s, acc.2 ++ [b])
      | none => (acc.1, acc.2 ++ [acc.1.mem.read (pa + i)])) (s, [])

/-- The eight bytes from an offset of a page of words; none while a word's read has not completed. -/
def wordBytes (word : Nat → Option Word) (off : Nat) : Option (List Byte) :=
  match word (off / 8 * 8), word (off / 8 * 8 + 8) with
  | some a, some b => some ((leOf 16 (a.toNat + 2 ^ 64 * b.toNat)).drop (off % 8) |>.take 8)
  | some a, none => if off % 8 = 0 then some (leOf 8 a.toNat) else none
  | none, _ => none

/-- A completed read's bytes. -/
def State.answer (s : State) (l : List Byte) : State := { s with hostRead := l }

/-- A read at a physical address: of M, or of registers of this module's BAR2 pages; it completes once they can answer. -/
def State.outsideRead (s : State) (key : Option (BitVec 8)) (pa n : Nat) : State :=
  if deviceWindow pa then
    if s.ownWindow pa ∧ pa % 2 ^ 46 - 0x3F0000000000 < 2 ^ 28 then
      let s := s.settle (windowAsid pa)
      match s.barBytes pa n with
      | some l => s.answer l
      | none => s
    else s
  else
    let (s, l) := s.rootRead key pa n
    s.answer l

/-- HOST_READ (R55, R358, R359, R361): a read of memory, or of eight bytes of registers; a result's read completes once its
command has. Above BAR4's memory no bytes come back. -/
def execHostRead (_p : Party) (src : HostSrc) (s : State) : Host.Outcome State Fault Refusal :=
  .next (match src with
    | .bar0 off =>
      if s.mod.ready || s.mod.recovery then (match wordBytes (fun o => some (s.bar0Word o)) off with
        | some l => s.answer l
        | none => s)
      else s
    | .bar2 asid off =>
      if !s.mod.ready then s
      else
        let s := s.settle asid
        (match wordBytes (s.bar2Word asid) off with
          | some l => s.answer l
          | none => s)
    | .mem a n =>
      if !s.mod.ready then s
      else match s.hostPa a n with
        | some pa => s.outsideRead none pa n
        | none => s.bar4Miss.answer [])

/-! ## The management interface (R351, R361) -/

/-- clk.cr seconds. -/
def secondsOf (ticks : Nat) : Word := BitVec.ofNat 64 (ticks / 1000000000)

/-- The reply to a request; none for an invalid one. -/
def State.mgmtReply (s : State) (record index : Nat) : Option (List Word) :=
  let life := s.mod.life
  let at8 (v : Vector Word 8) : Word := v.toList.getD index 0
  let seconds (v : List Nat) : List Word := v.map secondsOf
  match record with
  | 0 => if index < 8 then some [at8 life.ce, at8 life.ue, at8 life.pois] else none
  | 1 => if index < 8 then some [at8 life.hbm] else none
  | 2 => (life.opTicks.toList[index]?).map (fun v => seconds v.toList)
  | 3 => if index = 0 then some [life.ramps] else none
  | 4 => (life.temp.toList[index]?).map (fun v => seconds v.toList)
  | 5 => if index = 0 then some (seconds life.power.toList) else none
  | 6 => if index = 0 then some [life.degraded, life.civ, life.undelivered] else none
  | _ => none

/-- MGMT_REQ. -/
def execMgmtReq (v : Word) (s : State) : Host.Outcome State Fault Refusal :=
  if !s.mod.ready && !s.mod.recovery then .next s
  else
    match s.mgmtReply (field v 0 8) (field v 8 8) with
    | some l => .next { s with mod := { s.mod with mgmtRes := BitVec.ofNat 64 l.length, mgmtBuf := l } }
    | none => .next { s with mod := { s.mod with mgmtRes := 0xFFFFFFFFFFFFFFFF } }

/-! ## Lanby links (R364 to R366) -/

/-- Change a link. -/
def State.putLink (s : State) (l : Fin 12) (f : LinkSt → LinkSt) : State :=
  { s with mod := { s.mod with links := s.mod.links.set l.val (f s.mod.links[l.val]) } }

/-- A flit with a good CRC arrives on a link that is up: it is counted, and ends a run of replays; `k` acts on it. -/
def State.onFlit (s : State) (l : Fin 12) (k : State → State) : Host.Outcome State Fault Refusal :=
  .next (if s.mod.ready && s.mod.links[l.val].up then
    k (s.putLink l (fun x => { x with received := x.received + 1, replays := 0 })) else s)

/-- Whether a physical address is of this module. -/
def State.ownPa (s : State) (pa : Nat) : Bool := pa / 2 ^ 46 == s.mod.cfg.modno.val

/-- LANBY_READ: the peer's read performs in M, under the key that the link carries (R364, R367). -/
def execLanbyRead (link : Fin 12) (src : LanbySrc) (pa n : Nat) (s : State) : Host.Outcome State Fault Refusal :=
  s.onFlit link (fun s => if s.ownPa pa then s.outsideRead (some src.key) pa n else s)

/-- The bytes of a flit that its mask selects. -/
def maskedBytes (pa : Nat) (l : List (Option Byte)) : List (Nat × Byte) :=
  ((List.range l.length).zip l).filterMap (fun x => x.2.map (fun b => (pa + x.1, b)))

/-- LANBY_WRITE: the selected bytes perform in M, or in the registers that they cover whole. -/
def execLanbyWrite (link : Fin 12) (src : LanbySrc) (pa : Nat) (bytes : List (Option Byte)) (_relaxed : Bool)
    (s : State) : Host.Outcome State Fault Refusal :=
  s.onFlit link (fun s =>
    if s.ownPa pa then s.outsideWrite (some src.key) pa (maskedBytes pa bytes) else s)

/-- LANBY_RMW: the indivisible step at the address's home (R48, R366); poison is left as it is (R334). -/
def execLanbyRmw (link : Fin 12) (src : LanbySrc) (pa : Nat) (op : Aop) (x y : W32) (s : State) :
    Host.Outcome State Fault Refusal :=
  s.onFlit link (fun s =>
    if !s.ownPa pa || deviceWindow pa then s
    else
      if (List.range 4).any (fun i => s.poisonAt (.mem (pa + i))) then s.answer (leOf 4 nan32.toNat)
      else
        let (s, old) := s.rootRead (some src.key) pa 4
        (s.rootWrite (some src.key) (bytesAt pa (leOf 4 (rmwNew op (BitVec.ofNat 32 (leVal old)) x y).toNat))).answer old)

/-- LANBY_RESPONSE: the link's acknowledged sequence; what the response carries is part of the access's own step. -/
def execLanbyResponse (link : Fin 12) (ack : BitVec 16) (s : State) : Host.Outcome State Fault Refusal :=
  s.onFlit link (fun s => s.putLink link (fun x => { x with acked := ack }))

/-- An access to a peer comes back poisoned: its data is poison, and it has written nothing (R334, R365). -/
def State.poisonAnswer (s : State) (x : Access) : State :=
  let s := if x.ord = .acq ∨ x.ord = .sc then s.emptyBelow x.path x.level' else s
  let bytes := List.replicate x.size (0 : Byte)
  let s : State := match x.defId, x.agent with
    | some _, _ => s.giveData x bytes true
    | none, .wave u => (match s.wave? u with
      | some w => if x.kind = .rmw then s.consumeOnce w x.instr else s
      | none => s)
    | none, _ => s
  s.popAcc x.id

/-- LANBY_POISON_RESPONSE: the load or read-modify-write of an address of a peer that it answers. -/
def execLanbyPoisonResponse (link : Fin 12) (id : Nat) (s : State) : Host.Outcome State Fault Refusal :=
  s.onFlit link (fun s =>
    match s.accs.find? (fun a => a.id == id) with
    | none => s
    | some a =>
      let peer : Bool := match a.place with
        | .mem pa => !s.ownPa pa
        | _ => false
      if peer && (a.kind == .load || a.kind == .rmw) && s.mayGo a && s.sideClear a then s.poisonAnswer a else s)

/-- LANBY_CREDIT. -/
def execLanbyCredit (link : Fin 12) (s : State) : Host.Outcome State Fault Refusal :=
  s.onFlit link (fun s => s.putLink link (fun x => { x with credits := x.credits + 1 }))

/-- LANBY_BAD_TYPE: types 6 to 15 are dropped and counted. -/
def execLanbyBadType (link : Fin 12) (ty : Fin 16) (s : State) : Host.Outcome State Fault Refusal :=
  s.onFlit link (fun s => if 6 ≤ ty.val then s.putLink link (fun x => { x with dropped := x.dropped + 1 }) else s)

/-- FLIT_REPLAY: a flit fails its CRC and is sent again, which changes only its time. -/
def execFlitReplay (link : Fin 12) (s : State) : Host.Outcome State Fault Refusal :=
  .next (if s.mod.links[link.val].up then s.putLink link (fun x => { x with replays := x.replays + 1 }) else s)

/-- LINK_FAILOVER: after 16 failed replays in a row the link is down; routes go on over what remains (R365). -/
def execLinkFailover (link : Fin 12) (s : State) : Host.Outcome State Fault Refusal :=
  .next (if s.mod.links[link.val].up ∧ 16 ≤ s.mod.links[link.val].replays then
    let s := s.putLink link (fun x => { x with up := false })
    { s with mod := { s.mod with failedOver := true } } else s)

/-! ## Errors (R333, R334, R351) -/

/-- UNCORRECTABLE_ERROR: counted and kept for life; the unit is poisoned, and of a poisoned block of memory no die keeps a
copy. Which HBM4E stack holds a block is not in the spec. -/
def execUncorrectableError (d : Fin 8) (u : PoisonUnit) (s : State) : Host.Outcome State Fault Refusal :=
  let k := s.dieOf d
  let s := s.putDie { k with ue := k.ue + 1 }
  let life := s.mod.life
  let life := { life with ue := life.ue.set d.val (life.ue[d.val] + 1) }
  let s := s.poisonUnit u
  match u with
  | .mem b =>
    let (n, s) := s.draw
    let i : Fin 8 := Fin.ofNat 8 n
    let hbm := if s.firstTier (b * 32) then life.hbm.set i.val (life.hbm[i.val] + 1) else life.hbm
    .next { s with mod := { s.mod with life := { life with hbm := hbm } },
                   caches := s.caches.filter (fun c =>
                     !(nodeLevel c.node == 3 && c.meets ((List.range 32).map (fun i => 32 * b + i)))) }
  | _ => .next { s with mod := { s.mod with life := life } }

/-- CORRECTED_ERROR. -/
def execCorrectedError (d : Fin 8) (s : State) : Host.Outcome State Fault Refusal :=
  let k := s.dieOf d
  let s := s.putDie { k with ce := k.ce + 1 }
  let life := s.mod.life
  let life := { life with ce := life.ce.set d.val (life.ce[d.val] + 1) }
  .next { s with mod := { s.mod with life := life } }

/-! ## Key slots (R367) -/

/-- KEY_SLOT_LOAD: through a secure session, once every entry under the slot is written back; what any cache holds under it is
invalid. -/
def execKeySlotLoad (slot : BitVec 8) (s : State) : Host.Outcome State Fault Refusal :=
  .next (if !s.mod.spdm.session || s.wb.any (fun e => e.key == slot) then s
    else { s with
      caches := s.caches.filter (fun c => c.key != slot),
      mod := { s.mod with keyGen := (slot, s.keyGenOf slot + 1) :: s.mod.keyGen.filter (fun x => x.1 != slot) } })

/-! ## SPDM (R368) -/

/-- Whether the DOE mailbox answers (R369, R371). -/
def State.doe (s : State) : Bool := s.mod.ready || s.mod.recovery

/-- A message whose content the spec does not give. -/
def spdmMessage (kind : Nat) (s : State) : SpdmAnswer × State := (.message (Config.spdmBytes kind s.draw.1), s.draw.2)

/-- A request that the responder's standing allows is answered; another is not. -/
def State.spdmStep (s : State) (allowed : SpdmSt → Bool) (f : SpdmSt → SpdmSt) (reply : State → SpdmAnswer × State) :
    Host.Outcome State Fault Refusal :=
  .next (if s.doe && allowed s.mod.spdm then
    let (a, s) := reply s
    { s with mod := { s.mod with spdm := { f s.mod.spdm with response := a } } } else s)

/-- The four measurement blocks (R368): the 64-byte digests of the boot ROM, the firmware image, the configuration record and
the key-slot policy. -/
def State.measured (s : State) : List (List Byte) :=
  [Config.bootRom, Config.firmwareImage s.mod.imageVersion, Config.recordBytes s.mod.cfg, Config.keyPolicy].map (shakeBytes 64)

/-- Certificate slot 0, from Adeava's root to the module's identity key (R368). -/
def slotZero : List (List Byte) := Config.rootCertificate :: (Config.middleCertificates ++ [Config.identityCertificate])

/-- SPDM_GET_VERSION: a connection begins anew. -/
def execSpdmGetVersion (s : State) : Host.Outcome State Fault Refusal :=
  s.spdmStep (fun _ => true) (fun _ => { version := true }) (spdmMessage 0)

/-- SPDM_GET_CAPABILITIES. -/
def execSpdmGetCapabilities (s : State) : Host.Outcome State Fault Refusal :=
  s.spdmStep (fun x => x.version) (fun x => { x with caps := true }) (spdmMessage 1)

/-- SPDM_NEGOTIATE_ALGORITHMS: Ed448 signs, and SHA3-512 hashes the transcript. -/
def execSpdmNegotiateAlgorithms (s : State) : Host.Outcome State Fault Refusal :=
  s.spdmStep (fun x => x.caps) (fun x => { x with algs := true }) (fun s => (.algorithms .ed448 .sha3_512, s))

/-- SPDM_GET_DIGESTS. -/
def execSpdmGetDigests (s : State) : Host.Outcome State Fault Refusal := s.spdmStep (fun x => x.algs) id (spdmMessage 3)

/-- SPDM_GET_CERTIFICATE. -/
def execSpdmGetCertificate (s : State) : Host.Outcome State Fault Refusal :=
  s.spdmStep (fun x => x.algs) id (fun s => (.certificates 0 slotZero, s))

/-- SPDM_CHALLENGE. -/
def execSpdmChallenge (s : State) : Host.Outcome State Fault Refusal := s.spdmStep (fun x => x.algs) id (spdmMessage 5)

/-- SPDM_GET_MEASUREMENTS. -/
def execSpdmGetMeasurements (s : State) : Host.Outcome State Fault Refusal :=
  s.spdmStep (fun x => x.algs) id (fun s => (.measurements s.measured, s))

/-- SPDM_KEY_EXCHANGE: the handshake of a session begins. -/
def execSpdmKeyExchange (s : State) : Host.Outcome State Fault Refusal :=
  s.spdmStep (fun x => x.algs) (fun x => { x with handshake := true }) (spdmMessage 7)

/-- SPDM_FINISH: the secure session stands. -/
def execSpdmFinish (s : State) : Host.Outcome State Fault Refusal :=
  s.spdmStep (fun x => x.handshake) (fun x => { x with handshake := false, session := true }) (spdmMessage 8)

/-- SPDM_END_SESSION. -/
def execSpdmEndSession (s : State) : Host.Outcome State Fault Refusal :=
  s.spdmStep (fun x => x.session) (fun x => { x with session := false }) (spdmMessage 9)

/-! ## Bring-up and images (R369, R371) -/

/-- BRING_UP: the boot ROM checks the image's signature, which holds or not as a free value says (log 77), and its version
against the monotonic counter; then key slots cleared, dies enabled and clk.cr := 0; or recovery. -/
def execBringUp (s : State) : Host.Outcome State Fault Refusal :=
  if s.mod.ready || s.mod.recovery then .next s
  else
    let (n, s) := s.draw
    let cfg := match s.mod.pendingCfg with
      | some r => r
      | none => s.mod.cfg
    if Config.signatureOk n ∧ s.mod.imageVersion ≤ cfg.version.toNat then
      .next { s with clk := 0, mod := { s.mod with ready := true, cfg := cfg, cfgApplied := true, pendingCfg := none,
                                                   keyGen := [], keyTags := [] } }
    else .next { s with mod := { s.mod with recovery := true } }

/-- SIGNED_IMAGE_ACCEPT: through a secure session, with a good signature and a version above the monotonic counter's; its
record is applied by the next bring-up. -/
def execSignedImageAccept (r : CfgRecord) (s : State) : Host.Outcome State Fault Refusal :=
  if !s.mod.spdm.session then .next s
  else
    let (n, s) := s.draw
    if Config.signatureOk n ∧ s.mod.imageVersion < r.version.toNat then
      .next { s with mod := { s.mod with pendingCfg := some r, imageVersion := r.version.toNat, recovery := false } }
    else .next s

/-! ## Temperature (R370) -/

/-- Change a die, and ramp the rails as its temperature asks. -/
def State.warm (s : State) (d : Fin 8) (f : DieSt → DieSt) : State := (s.putDie (f (s.dieOf d))).retarget

/-- DIE_OVER_105C: Yarrow lowers yar.clim, by a value of its own (R276). -/
def execDieOver105c (d : Fin 8) (s : State) : Host.Outcome State Fault Refusal := .next (s.warm d (fun k => { k with over105 := true }))

/-- DIE_OVER_110C: every rail is held at OP3. -/
def execDieOver110c (d : Fin 8) (s : State) : Host.Outcome State Fault Refusal :=
  .next (s.warm d (fun k => { k with over105 := true, over110 := true }))

/-- DIE_OVER_120C: the module powers down. -/
def execDieOver120c (_d : Fin 8) (s : State) : Host.Outcome State Fault Refusal :=
  .next { s with mod := { s.mod with powered := false, ready := false } }

/-- DIE_BELOW_105C. -/
def execDieBelow105c (d : Fin 8) (s : State) : Host.Outcome State Fault Refusal :=
  .next (s.warm d (fun k => { k with over105 := false, over110 := false }))

/-- DIE_BELOW_110C. -/
def execDieBelow110c (d : Fin 8) (s : State) : Host.Outcome State Fault Refusal := .next (s.warm d (fun k => { k with over110 := false }))

end Sys2Proof.Machine
end

