-- ==== Sys2Proof/Machine/Scalar.lean ====
section
/-! DEFINITION. Scalar arithmetic (R154): each executes once whatever em holds (R128). The immediate forms sign-extend
IMM24 (R73), but for SLUI, which extends it with zeros, and the shifts, which take its low six bits (R74). -/

namespace Sys2Proof.Machine

/-- A scalar instruction of one register source. -/
def scalar1 (h : Head) (opc : Nat) (d a : SReg) (f : Word → Word) : State → Host.Outcome State Fault Refusal :=
  issue { h := h, opc := opc, len := 8, rs := [a], ws := [d] } (fun s w v => .ok s (v.sset d (f (w.sget a))) true)

/-- A scalar instruction of two register sources. -/
def scalar2 (h : Head) (opc : Nat) (d a b : SReg) (f : Word → Word → Word) : State → Host.Outcome State Fault Refusal :=
  issue { h := h, opc := opc, len := 8, rs := [a, b], ws := [d] }
    (fun s w v => .ok s (v.sset d (f (w.sget a) (w.sget b))) true)

/-- The high 64 bits of the signed 128-bit product (R154). -/
def mulHigh (x y : Word) : Word := ((x.signExtend 128 * y.signExtend 128) >>> 64).setWidth 64

/-- The shift amount of a scalar shift: the low six bits (R74). -/
def amount6 {k : Nat} (x : BitVec k) : Nat := x.toNat % 64

/-- SLUI's value (R154): the immediate is zero-extended. -/
def luiValue (x : Word) (imm : BitVec 24) : Word := (x <<< 24) + imm.setWidth 64

/-- SMOV (R154). -/
def execSmov (h : Head) (d a : SReg) : State → Host.Outcome State Fault Refusal :=
  scalar1 h 0x000 d a (fun x => x)

/-- SMOVI (R154). -/
def execSmovi (h : Head) (d : SReg) (imm : BitVec 24) : State → Host.Outcome State Fault Refusal :=
  issue { h := h, opc := 0x001, len := 8, ws := [d] } (fun s _ v => .ok s (v.sset d (imm.signExtend 64)) true)

/-- SLUI (R154). -/
def execSlui (h : Head) (d a : SReg) (imm : BitVec 24) : State → Host.Outcome State Fault Refusal :=
  scalar1 h 0x002 d a (fun x => luiValue x imm)

/-- SADD (R154). -/
def execSadd (h : Head) (d a b : SReg) : State → Host.Outcome State Fault Refusal :=
  scalar2 h 0x003 d a b (fun x y => x + y)

/-- SSUB (R154). -/
def execSsub (h : Head) (d a b : SReg) : State → Host.Outcome State Fault Refusal :=
  scalar2 h 0x004 d a b (fun x y => x - y)

/-- SMUL (R154). -/
def execSmul (h : Head) (d a b : SReg) : State → Host.Outcome State Fault Refusal :=
  scalar2 h 0x005 d a b (fun x y => x * y)

/-- SMULH (R154). -/
def execSmulh (h : Head) (d a b : SReg) : State → Host.Outcome State Fault Refusal :=
  scalar2 h 0x006 d a b (fun x y => mulHigh x y)

/-- SDIV (R154). -/
def execSdiv (h : Head) (d a b : SReg) : State → Host.Outcome State Fault Refusal :=
  scalar2 h 0x007 d a b (fun x y => divTrunc x y)

/-- SREM (R154). -/
def execSrem (h : Head) (d a b : SReg) : State → Host.Outcome State Fault Refusal :=
  scalar2 h 0x008 d a b (fun x y => remTrunc x y)

/-- SAND (R154). -/
def execSand (h : Head) (d a b : SReg) : State → Host.Outcome State Fault Refusal :=
  scalar2 h 0x009 d a b (fun x y => x &&& y)

/-- SOR (R154). -/
def execSor (h : Head) (d a b : SReg) : State → Host.Outcome State Fault Refusal :=
  scalar2 h 0x00A d a b (fun x y => x ||| y)

/-- SXOR (R154). -/
def execSxor (h : Head) (d a b : SReg) : State → Host.Outcome State Fault Refusal :=
  scalar2 h 0x00B d a b (fun x y => x ^^^ y)

/-- SSHL (R154). -/
def execSshl (h : Head) (d a b : SReg) : State → Host.Outcome State Fault Refusal :=
  scalar2 h 0x00C d a b (fun x y => x <<< amount6 y)

/-- SSHR (R154). -/
def execSshr (h : Head) (d a b : SReg) : State → Host.Outcome State Fault Refusal :=
  scalar2 h 0x00D d a b (fun x y => x >>> amount6 y)

/-- SSAR (R154). -/
def execSsar (h : Head) (d a b : SReg) : State → Host.Outcome State Fault Refusal :=
  scalar2 h 0x00E d a b (fun x y => x.sshiftRight (amount6 y))

/-- SMIN (R154). -/
def execSmin (h : Head) (d a b : SReg) : State → Host.Outcome State Fault Refusal :=
  scalar2 h 0x00F d a b (fun x y => minS x y)

/-- SMAX (R154). -/
def execSmax (h : Head) (d a b : SReg) : State → Host.Outcome State Fault Refusal :=
  scalar2 h 0x010 d a b (fun x y => maxS x y)

/-- SCMP (R152 to R154). -/
def execScmp (h : Head) (d a b : SReg) (cc : Cc) : State → Host.Outcome State Fault Refusal :=
  scalar2 h 0x011 d a b (fun x y => boolWord (intCompare cc x y))

/-- SSEL (R154). -/
def execSsel (h : Head) (d a b sc : SReg) : State → Host.Outcome State Fault Refusal :=
  issue { h := h, opc := 0x012, len := 8, rs := [a, b, sc], ws := [d] }
    (fun s w v => .ok s (v.sset d (if w.sget sc ≠ 0 then w.sget a else w.sget b)) true)

/-- SBFX (R154). -/
def execSbfx (h : Head) (d a : SReg) (pos : Fin 64) (wid : Fin 65) : State → Host.Outcome State Fault Refusal :=
  scalar1 h 0x013 d a (fun x => bitField x pos.val wid.val)

/-- SBFI (R154): the other bits of sD are kept. -/
def execSbfi (h : Head) (d a : SReg) (pos : Fin 64) (wid : Fin 65) : State → Host.Outcome State Fault Refusal :=
  scalar2 h 0x014 d a d (fun x old => bitInsert old x pos.val wid.val)

/-- SPOPC (R154). -/
def execSpopc (h : Head) (d a : SReg) : State → Host.Outcome State Fault Refusal :=
  scalar1 h 0x015 d a (fun x => BitVec.ofNat 64 (popCount x))

/-- SCLZ (R154). -/
def execSclz (h : Head) (d a : SReg) : State → Host.Outcome State Fault Refusal :=
  scalar1 h 0x016 d a (fun x => BitVec.ofNat 64 (leadingZeros x 64))

/-- SCTZ (R154). -/
def execSctz (h : Head) (d a : SReg) : State → Host.Outcome State Fault Refusal :=
  scalar1 h 0x017 d a (fun x => BitVec.ofNat 64 (trailingZeros x 0 64))

/-- SADD with an immediate (R74, R154). -/
def execSaddImm (h : Head) (d a : SReg) (imm : BitVec 24) : State → Host.Outcome State Fault Refusal :=
  scalar1 h 0x018 d a (fun x => x + imm.signExtend 64)

/-- SAND with an immediate (R74, R154). -/
def execSandImm (h : Head) (d a : SReg) (imm : BitVec 24) : State → Host.Outcome State Fault Refusal :=
  scalar1 h 0x019 d a (fun x => x &&& imm.signExtend 64)

/-- SOR with an immediate (R74, R154). -/
def execSorImm (h : Head) (d a : SReg) (imm : BitVec 24) : State → Host.Outcome State Fault Refusal :=
  scalar1 h 0x01A d a (fun x => x ||| imm.signExtend 64)

/-- SXOR with an immediate (R74, R154). -/
def execSxorImm (h : Head) (d a : SReg) (imm : BitVec 24) : State → Host.Outcome State Fault Refusal :=
  scalar1 h 0x01B d a (fun x => x ^^^ imm.signExtend 64)

/-- SSHL with an immediate (R74, R154). -/
def execSshlImm (h : Head) (d a : SReg) (imm : BitVec 24) : State → Host.Outcome State Fault Refusal :=
  scalar1 h 0x01C d a (fun x => x <<< amount6 imm)

/-- SSHR with an immediate (R74, R154). -/
def execSshrImm (h : Head) (d a : SReg) (imm : BitVec 24) : State → Host.Outcome State Fault Refusal :=
  scalar1 h 0x01D d a (fun x => x >>> amount6 imm)

/-- SSAR with an immediate (R74, R154). -/
def execSsarImm (h : Head) (d a : SReg) (imm : BitVec 24) : State → Host.Outcome State Fault Refusal :=
  scalar1 h 0x01E d a (fun x => x.sshiftRight (amount6 imm))

end Sys2Proof.Machine
end

