-- ==== Sys2Proof/Machine/Vetch.lean ====
section
/-! DEFINITION. Vetch, the per-lane small matrices (R215 to R230). Rows of a register stand as one list, row-major. -/

namespace Sys2Proof.Machine

/-! ## Shared forms -/

/-- One lane's matrix. -/
def QReg.at (q : QReg) (l : Fin 32) : List W32 := q.elems.map (fun e => e[l.val])

/-- An element of a row-major matrix. -/
def elemAt (m : List W32) (cols i j : Nat) : W32 := m.getD (i * cols + j) 0

/-- A result of r × c: computed once where it is uniform (R218), else in every lane. -/
def buildQ (r c : Nat) (uniform : Bool) (f : Fin 32 → List W32 × QStat) : QReg :=
  let tbl := if uniform then List.replicate 32 (f 0) else (List.finRange 32).map f
  { rows := r, cols := c, general := !uniform,
    elems := (List.range (r * c)).map (fun k => lanesBy (fun l => (tbl.getD l.val ([], .none)).1.getD k 0)),
    status := Vector.ofFn (fun l => (tbl.getD l.val ([], .none)).2) }

/-- Whether R217 lets a result of r × c be written: a partial mask keeps a written destination's dimensions. -/
def dimsOk (em : Mask) (old : QReg) (r c : Nat) : Bool :=
  em == 0 || em == 0xFFFFFFFF || old.rows == 0 || (old.rows == r && old.cols == c)

/-- The q registers a source frees. -/
def qFrees (q : QSrc) : List QNum := if q.last then [q.reg] else []

/-- The request of a Vetch instruction. -/
def qreq (h : Head) (opc : Nat) (wq : List QNum) (src : List QSrc) : Req :=
  { h := h, opc := opc, len := 16, rq := src.map (fun q => q.reg), wq := wq, fq := src.flatMap qFrees }

/-- Groups of 8 lanes with an active lane, at least one (R229). -/
def laneGroups (em : Mask) : Nat := max 1 ((List.range 4).filter (fun g => field (em.setWidth 64) (8 * g) 8 != 0)).length

/-- How many groups an instruction runs: one for a uniform result (R229). -/
def vetchGroups (w : Wave) (uniform : Bool) : Nat := if uniform then 1 else laneGroups w.em

/-- Whether an instruction's result is uniform: a full mask and uniform sources (R217, R218, R229). -/
def Wave.qUni (w : Wave) (qs : List QSrc) (b : VReg) : Bool :=
  w.em == 0xFFFFFFFF && qs.all (fun q => !(w.qreg q.reg).general) && b.isUni

/-- The unit accepts one instruction at a time, once its busy time has run out (R15, R229): `b` cycles for each group. -/
def vetchAccept (s : State) (w : Wave) (b : Nat) (uniform : Bool) (k : State → Res) : Res :=
  let c := s.coreOf w.core
  if c.clk < c.vetchFree then .hold s w .resource
  else
    match k s with
    | .ok s v sp =>
      let c := s.coreOf w.core
      .ok (s.putCore { c with vetchFree := c.clk + max 1 (b * vetchGroups w uniform) }) v sp
    | r => r

/-- An interlocked instruction that writes qD: dimension faults (R217, R220), then the write. A destination that the
instruction's own last use frees counts as unwritten (log 82). -/
def qWrite (s : State) (w v : Wave) (opc : Nat) (d : QNum) (new : QReg) (sp : Bool) : Res :=
  if dimsOk w.em (v.qreg d) new.rows new.cols then
    let x := mergeQ w.em (v.qreg d) new
    .ok s (v.qput d x) (sp && !x.general)
  else .trap s w (w.iil opc 1)

/-- A written register. -/
def QReg.written (q : QReg) : Bool := q.rows != 0

/-- An instruction that finds a q source unwritten, or a destination whose dimensions it keeps: IIL with detail 2, and under em = 0
nothing, since it writes nothing then and the run goes on (R217, R220, R234; log 85). DESIGN CHOICE: of a word that meets two
conditions of R220 at once the model raises detail 2 before 1 (log 103), and what writes nothing charges its weight once
(log 95). -/
def qUnwritten (s : State) (w v : Wave) (opc : Nat) : Res :=
  if w.em = 0 then .ok s v true else .trap s w (w.iil opc 2)

/-! ## Dimensions and element-wise instructions (R221, R223) -/

/-- A uniform matrix of zeros. -/
def zeroQ (r c : Nat) : QReg := { rows := r, cols := c, elems := List.replicate (r * c) (splat 0) }

/-- QDIM (R221): it ignores em. -/
def execQdim (h : Head) (d : QNum) (rows cols : Fin 8) : State → Host.Outcome State Fault Refusal :=
  issue { qreq h 0x280 [d] [] with ignoreEm := true } (fun s w v =>
    vetchAccept s w 1 true (fun s => .ok s (v.qput d (zeroQ rows.val cols.val)) true))

/-- QZERO (R223). -/
def execQzero (h : Head) (d : QNum) : State → Host.Outcome State Fault Refusal :=
  issue { qreq h 0x283 [d] [] with rq := [d], qu := .none } (fun s w v => vetchAccept s w 1 (w.qUni [] (.uni 0)) (fun s =>
    let q := w.qreg d
    if !q.written then qUnwritten s w v 0x283 else qWrite s w v 0x283 d (zeroQ q.rows q.cols) true))

/-- QID (R223). -/
def execQid (h : Head) (d : QNum) : State → Host.Outcome State Fault Refusal :=
  issue { qreq h 0x284 [d] [] with rq := [d], qu := .none } (fun s w v => vetchAccept s w 1 (w.qUni [] (.uni 0)) (fun s =>
    let q := w.qreg d
    if !q.written then qUnwritten s w v 0x284
    else
      let m := (List.range (q.rows * q.cols)).map (fun k => if k / q.cols = k % q.cols then one32 else 0)
      qWrite s w v 0x284 d (buildQ q.rows q.cols true (fun _ => (m, .none))) true))

/-- QMOV (R223): status is copied. -/
def execQmov (h : Head) (d : QNum) (a : QSrc) : State → Host.Outcome State Fault Refusal :=
  issue (qreq h 0x285 [d] [a]) (fun s w v => vetchAccept s w 1 (w.qUni [a] (.uni 0)) (fun s =>
    let q := w.qreg a.reg
    if !q.written then qUnwritten s w v 0x285 else qWrite s w v 0x285 d q (!q.general)))

/-- QTRN (R223). -/
def execQtrn (h : Head) (d : QNum) (a : QSrc) : State → Host.Outcome State Fault Refusal :=
  issue (qreq h 0x286 [d] [a]) (fun s w v => vetchAccept s w 1 (w.qUni [a] (.uni 0)) (fun s =>
    let q := w.qreg a.reg
    if !q.written then qUnwritten s w v 0x286
    else
      let f (l : Fin 32) : List W32 :=
        (List.range (q.rows * q.cols)).map (fun k => elemAt (q.at l) q.cols (k % q.rows) (k / q.rows))
      qWrite s w v 0x286 d (buildQ q.cols q.rows (!q.general) (fun l => (f l, .none))) (!q.general)))

/-- QADD and QSUB (R223). -/
def qElementwise (h : Head) (opc : Nat) (d : QNum) (a b : QSrc) (f : W32 → W32 → W32) :
    State → Host.Outcome State Fault Refusal :=
  issue (qreq h opc [d] [a, b]) (fun s w v => vetchAccept s w 1 (w.qUni [a, b] (.uni 0)) (fun s =>
    let x := w.qreg a.reg
    let y := w.qreg b.reg
    if !x.written || !y.written then qUnwritten s w v opc
    else if x.rows ≠ y.rows ∨ x.cols ≠ y.cols then .trap s w (w.iil opc 1)
    else
      let u := !x.general && !y.general
      qWrite s w v opc d (buildQ x.rows x.cols u (fun l => (List.zipWith f (x.at l) (y.at l), .none))) u))

/-- QADD (R223). -/
def execQadd (h : Head) (d : QNum) (a b : QSrc) : State → Host.Outcome State Fault Refusal := qElementwise h 0x287 d a b fAdd

/-- QSUB (R223). -/
def execQsub (h : Head) (d : QNum) (a b : QSrc) : State → Host.Outcome State Fault Refusal := qElementwise h 0x288 d a b fSub

/-- QSCL (R223): an affine vector source counts as general (R218). -/
def execQscl (h : Head) (d : QNum) (a : QSrc) (b : VSrc) : State → Host.Outcome State Fault Refusal :=
  issue { qreq h 0x28B [d] [a] with rs := srcSregs b, rv := srcRegs b, fv := srcFrees b, uses := [.through b] } (fun s w v =>
    vetchAccept s w 1 (w.qUni [a] (w.src b)) (fun s =>
      let q := w.qreg a.reg
      let y := w.src b
      if !q.written then qUnwritten s w v 0x28B
      else
        let u := !q.general && y.isUni
        qWrite s w v 0x28B d (buildQ q.rows q.cols u (fun l => ((q.at l).map (fun x => fMul x (y.lane l)), .none)))
          (!q.general && y.isUA)))

/-- QGET (R223): uniform where qA is, under a full mask. -/
def execQget (h : Head) (d : VNum) (a : QSrc) (i j : Fin 8) : State → Host.Outcome State Fault Refusal :=
  issue { qreq h 0x28F [] [a] with wv := [d], qu := .only i.val j.val } (fun s w v => vetchAccept s w 1 (w.qUni [a] (.uni 0)) (fun s =>
    let q := w.qreg a.reg
    if !q.written then qUnwritten s w v 0x28F
    else if q.rows ≤ i.val ∨ q.cols ≤ j.val then .trap s w (w.iil 0x28F 3)
    else
      let e := q.elems.getD (i.val * q.cols + j.val) (splat 0)
      let x : VReg := if q.general then .gen e else .uni e[0]
      .ok s (v.vwrite d x) (!q.general && (mergeMask w.em (v.vreg d) x).isUA)))

/-- QPUT (R223): the old qD counts as a source. -/
def execQput (h : Head) (d : QNum) (a : VSrc) (i j : Fin 8) : State → Host.Outcome State Fault Refusal :=
  issue (let r := qreq h 0x290 [d] []
         { r with rq := [d], rs := srcSregs a, rv := srcRegs a, fv := srcFrees a, qu := .but i.val j.val,
                  uses := [.through a] }) (fun s w v =>
    vetchAccept s w 1 (w.qUni [⟨d, false⟩] (w.src a)) (fun s =>
      let q := w.qreg d
      let x := w.src a
      if !q.written then qUnwritten s w v 0x290
      else if q.rows ≤ i.val ∨ q.cols ≤ j.val then .trap s w (w.iil 0x290 3)
      else
        let u := !q.general && x.isUni
        qWrite s w v 0x290 d
          (buildQ q.rows q.cols u (fun l => ((q.at l).set (i.val * q.cols + j.val) (x.lane l), .none)))
          (!q.general && x.isUA)))

/-! ## Products (R224) -/

/-- dot() of R224: the exact sum, and c itself for no products. DESIGN CHOICE: c keeps its bits then, a NaN's payload too
(R111, R124, R224; log 104). -/
def qDot (c : W32) (xs ys : List Num) : W32 :=
  if xs.isEmpty then c else mmaElem c (List.zipWith (fun x y => ((x, 127), (y, 127))) xs ys)

/-- A row segment of a matrix as exact values. -/
def rowSeg (m : List W32) (cols i lo hi : Nat) : List Num :=
  (List.range (hi - lo)).map (fun k => num32 (elemAt m cols i (lo + k)))

/-- A column segment. -/
def colSeg (m : List W32) (cols j lo hi : Nat) : List Num :=
  (List.range (hi - lo)).map (fun k => num32 (elemAt m cols (lo + k) j))

/-- A × B plus a base matrix (R224). -/
def qProduct (a b base : List W32) (r k c : Nat) : List W32 :=
  (List.range (r * c)).map (fun n => qDot (base.getD n 0) (rowSeg a k (n / c) 0 k) (colSeg b c (n % c) 0 k))

/-- QMUL (R224). -/
def execQmul (h : Head) (d : QNum) (a b : QSrc) : State → Host.Outcome State Fault Refusal :=
  issue (qreq h 0x289 [d] [a, b]) (fun s w v => vetchAccept s w 2 (w.qUni [a, b] (.uni 0)) (fun s =>
    let x := w.qreg a.reg
    let y := w.qreg b.reg
    if !x.written || !y.written then qUnwritten s w v 0x289
    else if x.cols ≠ y.rows then .trap s w (w.iil 0x289 1)
    else
      let u := !x.general && !y.general
      qWrite s w v 0x289 d
        (buildQ x.rows y.cols u (fun l => (qProduct (x.at l) (y.at l) [] x.rows x.cols y.cols, .none))) u))

/-- QMAD (R224). DESIGN CHOICE: an unwritten source is detail 2 where the dimensions of the others do not match either (R220;
log 103). -/
def execQmad (h : Head) (d : QNum) (a b c : QSrc) : State → Host.Outcome State Fault Refusal :=
  issue (qreq h 0x28A [d] [a, b, c]) (fun s w v => vetchAccept s w 2 (w.qUni [a, b, c] (.uni 0)) (fun s =>
    let x := w.qreg a.reg
    let y := w.qreg b.reg
    let z := w.qreg c.reg
    if !x.written || !y.written || !z.written then qUnwritten s w v 0x28A
    else if x.cols ≠ y.rows ∨ z.rows ≠ x.rows ∨ z.cols ≠ y.cols then .trap s w (w.iil 0x28A 1)
    else
      let u := !x.general && !y.general && !z.general
      qWrite s w v 0x28A d
        (buildQ x.rows y.cols u (fun l => (qProduct (x.at l) (y.at l) (z.at l) x.rows x.cols y.cols, .none))) u))

/-! ## Factorisations (R225, R226) -/

/-- The lane result of a flagged factorisation. -/
def flagged (n : Nat) (k : QStat) : List W32 × QStat := (List.replicate n 0, k)

/-- One column j of QCHOL's working factor (R225); none flags the lane. -/
def cholColumn (a w : List W32) (n j : Nat) : Option (List W32) :=
  let d := qDot (elemAt a n j j) ((rowSeg w n j 0 j).map negNum) (rowSeg w n j 0 j)
  if fCompare d 0 = some .gt then
    let r := fSqrt d
    let w := w.set (j * n + j) r
    some ((List.range (n - j - 1)).foldl (fun w k =>
      let i := j + 1 + k
      let t := qDot (elemAt a n i j) ((rowSeg w n i 0 j).map negNum) (rowSeg w n j 0 j)
      w.set (i * n + j) (fDiv t r)) w)
  else none

/-- QCHOL's body for one lane (R225). -/
def cholLane (a : List W32) (n : Nat) : List W32 × QStat :=
  match (List.range n).foldl (fun (w : Option (List W32)) j => match w with
    | some w => cholColumn a w n j
    | none => none) (some (List.replicate (n * n) 0)) with
  | some w => (w, .none)
  | none => flagged (n * n) .npd

/-- The magnitude QLU compares: a NaN counts as largest (R226). -/
def pivotKey (x : W32) : Nat := if (num32 x).isNan then 2 ^ 32 else (x &&& 0x7FFFFFFF).toNat

/-- Swap rows of a row-major matrix. -/
def swapRows (m : List W32) (n k p : Nat) : List W32 :=
  (List.range (n * n)).map (fun t => elemAt m n (if t / n = k then p else if t / n = p then k else t / n) (t % n))

/-- One step k of QLU (R226); none flags the lane. -/
def luStep (w : List W32) (perm : List Nat) (n k : Nat) : Option (List W32 × List Nat) :=
  let w := (List.range (n - k)).foldl (fun w t =>
    let i := k + t
    w.set (i * n + k) (qDot (elemAt w n i k) ((rowSeg w n i 0 k).map negNum) (colSeg w n k 0 k))) w
  let p := (List.range (n - k)).foldl (fun p t =>
    if pivotKey (elemAt w n p k) < pivotKey (elemAt w n (k + t) k) then k + t else p) k
  if elemAt w n p k &&& 0x7FFFFFFF = 0 then none
  else
    let w := swapRows w n k p
    let perm := (perm.set k (perm.getD p 0)).set p (perm.getD k 0)
    let w := (List.range (n - k - 1)).foldl (fun w t =>
      let i := k + 1 + t
      w.set (i * n + k) (fDiv (elemAt w n i k) (elemAt w n k k))) w
    let w := (List.range (n - k - 1)).foldl (fun w t =>
      let j := k + 1 + t
      w.set (k * n + j) (qDot (elemAt w n k j) ((rowSeg w n k 0 k).map negNum) (colSeg w n j 0 k))) w
    some (w, perm)

/-- The permutation word (R226). -/
def permWord (perm : List Nat) : W32 :=
  BitVec.ofNat 32 ((List.range 6).foldl (fun t i => t + perm.getD i i % 8 * 8 ^ i) 0)

/-- The identity permutation. -/
def permId : List Nat := [0, 1, 2, 3, 4, 5]

/-- QLU's body for one lane: the factor, its status and the permutation word (R226). -/
def luLane (a : List W32) (n : Nat) : (List W32 × QStat) × W32 :=
  match (List.range n).foldl (fun (x : Option (List W32 × List Nat)) k => match x with
    | some x => luStep x.1 x.2 n k
    | none => none) (some (a, permId)) with
  | some x => ((x.1, .none), permWord x.2)
  | none => (flagged (n * n) .sing, permWord permId)

/-- A scoreboarded result of Vetch: qD, and for QLU a vector register, and the vst bits of active flagged lanes
(R219, R229), ready after `r` cycles and 3 more for each group of a general result. -/
def vetchSb (s : State) (w v : Wave) (opc : Nat) (d : QNum) (new : QReg) (vw : List (VNum × VReg)) (sp : Bool)
    (r : Nat) (uniform : Bool) : Res :=
  if dimsOk w.em (v.qreg d) new.rows new.cols then
    let x := mergeQ w.em (v.qreg d) new
    let (id, s) := s.fresh
    let bits := maskOf (fun l => w.em.getLsbD l.val && new.status[l.val] != .none)
    let due := s.clkOf w.core + (if uniform then r else r + 3 * laneGroups w.em)
    let b : Sb := { id := id, kind := .vetch, vw := vw, qw := [(d, x)], vst := bits, due := due, em := w.em }
    .ok s (if w.em = 0 then v else { v with sb := v.sb ++ [b] }) (sp && !x.general)
  else .trap s w (w.iil opc 1)

/-- QCHOL (R225). -/
def execQchol (h : Head) (d : QNum) (a : QSrc) : State → Host.Outcome State Fault Refusal :=
  issue { qreq h 0x28C [d] [a] with vst := true } (fun s w v =>
    let n := (w.qreg a.reg).rows
    vetchAccept s w (2 * n) (w.qUni [a] (.uni 0)) (fun s =>
    let q := w.qreg a.reg
    if !q.written then qUnwritten s w v 0x28C
    else if q.rows ≠ q.cols then .trap s w (w.iil 0x28C 1)
    else vetchSb s w v 0x28C d (buildQ q.rows q.rows (!q.general) (fun l => cholLane (q.at l) q.rows)) [] (!q.general)
      (12 * n + 8) (w.qUni [a] (.uni 0))))

/-- QLU (R226). -/
def execQlu (h : Head) (d : QNum) (p : VNum) (a : QSrc) : State → Host.Outcome State Fault Refusal :=
  issue { qreq h 0x28D [d] [a] with wv := [p], vst := true } (fun s w v =>
    let n := (w.qreg a.reg).rows
    vetchAccept s w (3 * n) (w.qUni [a] (.uni 0)) (fun s =>
    let q := w.qreg a.reg
    if !q.written then qUnwritten s w v 0x28D
    else if q.rows ≠ q.cols then .trap s w (w.iil 0x28D 1)
    else
      let f (l : Fin 32) : (List W32 × QStat) × W32 := luLane (q.at l) q.rows
      let x : VReg := if q.general then .gen (lanesBy (fun l => (f l).2)) else .uni (f 0).2
      let x := mergeMask w.em (v.vreg p) x
      vetchSb s w v 0x28D d (buildQ q.rows q.rows (!q.general) (fun l => (f l).1)) [(p, x)] (!q.general && x.isUA)
        (14 * n + 8) (w.qUni [a] (.uni 0))))

/-- Substitution down: y[i] from the rows above it (R227); `divide` divides by the diagonal. -/
def solveDown (f b : List W32) (n : Nat) (divide : Bool) : List W32 :=
  (List.range n).foldl (fun y i =>
    let t := qDot (b.getD i 0) ((rowSeg f n i 0 i).map negNum) ((y.take i).map num32)
    y ++ [if divide then fDiv t (elemAt f n i i) else t]) []

/-- Substitution up: x[i] from the rows below it, the factor read by `seg` (R227). -/
def solveUp (f y : List W32) (n : Nat) (seg : Nat → List Num) : List W32 :=
  (List.range n).foldl (fun x k =>
    let i := n - 1 - k
    let t := qDot (y.getD i 0) ((seg i).map negNum) (x.map num32)
    fDiv t (elemAt f n i i) :: x) []

/-- One column's solution (R227); `perm` in mode 1. -/
def solveColumn (f b : List W32) (n m j : Nat) (perm : Option W32) : List W32 :=
  match perm with
  | none => solveUp f (solveDown f ((List.range n).map (fun i => elemAt b m i j)) n true) n (fun i => colSeg f n i (i + 1) n)
  | some p =>
    let bp := (List.range n).map (fun i =>
      let q := (p.extractLsb' (3 * i) 3).toNat
      if q < n then elemAt b m q j else 0)
    solveUp f (solveDown f bp n false) n (fun i => rowSeg f n i (i + 1) n)

/-- QSOLV's body for one lane (R227). -/
def solveLane (f b : List W32) (sf sb : QStat) (n m : Nat) (perm : Option W32) : List W32 × QStat :=
  if sf ≠ .none then flagged (n * m) sf
  else if sb ≠ .none then flagged (n * m) sb
  else
    let cols := (List.range m).map (fun j => solveColumn f b n m j perm)
    ((List.range (n * m)).map (fun k => (cols.getD (k % m) []).getD (k / m) 0), .none)

/-- QSOLV of either mode (R227). -/
def qsolv (d : QNum) (f b : QSrc) (perm : Wave → Option VReg) (s : State) (w v : Wave) : Res :=
  let uni := w.qUni [f, b] (match perm w with
    | some r => r
    | none => .uni 0)
  vetchAccept s w ((w.qreg f.reg).rows + (w.qreg b.reg).cols) uni (fun s =>
    let x := w.qreg f.reg
    let y := w.qreg b.reg
    if !x.written || !y.written then qUnwritten s w v 0x28E
    else if x.rows ≠ x.cols ∨ y.rows ≠ x.rows then .trap s w (w.iil 0x28E 1)
    else
      let p := perm w
      let u := !x.general && !y.general && (match p with
        | some r => r.isUni
        | none => true)
      let lane (l : Fin 32) : List W32 × QStat :=
        solveLane (x.at l) (y.at l) x.status[l.val] y.status[l.val] x.rows y.cols (p.map (fun r => r.lane l))
      vetchSb s w v 0x28E d (buildQ x.rows y.cols u lane) [] (!x.general && !y.general && (match p with
        | some r => r.isUA
        | none => true)) (8 * x.rows + 2 * y.cols + 8) uni)

/-- QSOLV, Cholesky (R227). -/
def execQsolvCholesky (h : Head) (d : QNum) (f b : QSrc) : State → Host.Outcome State Fault Refusal :=
  issue { qreq h 0x28E [d] [f, b] with vst := true } (qsolv d f b (fun _ => none))

/-- QSOLV, LU (R227). -/
def execQsolvLu (h : Head) (d : QNum) (f b : QSrc) (p : VSrc) : State → Host.Outcome State Fault Refusal :=
  issue (let r := qreq h 0x28E [d] [f, b]
         { r with vst := true, rs := srcSregs p, rv := srcRegs p, fv := srcFrees p, uses := [.through p] })
    (qsolv d f b (fun w => some (w.src p)))

/-! ## Status (R228) -/

/-- QSTAT of selector 0 (R228). -/
def execQstatVst (h : Head) (d : SReg) : State → Host.Outcome State Fault Refusal :=
  issue { qreq h 0x291 [] [] with vst := true, ws := [d] } (fun s w v => vetchAccept s w 1 true (fun s =>
    .ok s (v.sset d (w.vst.setWidth 64)) true))

/-- The mask of lanes with a status, by a selector that needs qA written (R228). -/
def qstatMask (h : Head) (d : SReg) (a : QSrc) (k : QStat) : State → Host.Outcome State Fault Refusal :=
  issue { qreq h 0x291 [] [a] with ws := [d], qu := .none } (fun s w v => vetchAccept s w 1 true (fun s =>
    let q := w.qreg a.reg
    if !q.written then .trap s w (w.iil 0x291 2)
    else .ok s (v.sset d ((maskOf (fun l => q.status[l.val] == k)).setWidth 64)) (!q.general)))

/-- QSTAT of selector 1 (R228). -/
def execQstatNpd (h : Head) (d : SReg) (a : QSrc) : State → Host.Outcome State Fault Refusal := qstatMask h d a .npd

/-- QSTAT of selector 2 (R228). -/
def execQstatSing (h : Head) (d : SReg) (a : QSrc) : State → Host.Outcome State Fault Refusal := qstatMask h d a .sing

/-- QSTAT of selector 3: vst is read and cleared (R228). -/
def execQstatClear (h : Head) (d : SReg) : State → Host.Outcome State Fault Refusal :=
  issue { qreq h 0x291 [] [] with vst := true, ws := [d] } (fun s w v => vetchAccept s w 1 true (fun s =>
    .ok s { v.sset d (w.vst.setWidth 64) with vst := 0 } true))

/-- QSTAT of selector 4 (R228). -/
def execQstatShape (h : Head) (d : SReg) (a : QSrc) : State → Host.Outcome State Fault Refusal :=
  issue { qreq h 0x291 [] [a] with ws := [d], qu := .none } (fun s w v => vetchAccept s w 1 true (fun s =>
    let q := w.qreg a.reg
    if !q.written then .trap s w (w.iil 0x291 2)
    else .ok s (v.sset d (BitVec.ofNat 64 (q.rows + 16 * q.cols + 256 * (if q.general then 2 else 0)))) (!q.general)))

/-! ## Load and store (R222) -/

/-- One want for each element of each active lane, row-major (R222). -/
def qWants (w : Wave) (m : MemOp) (q : QReg) : List Want :=
  (wantsOf w m 1 4 (fun _ => [])).flatMap (fun x =>
    (List.range (q.rows * q.cols)).map (fun k =>
      { x with part := k, va := (BitVec.ofNat 64 (x.va + 4 * k)).toNat,
               data := leOf 4 ((q.elems.getD k (splat 0)).toList.getD x.lane 0).toNat }))

/-- QLD (R222): deferred; it keeps qD's dimensions, captured at issue. Under em = 0 it makes no access and writes nothing, written or
not (R217; log 85). -/
def execQld (h : Head) (d : QNum) (m : MemOp) (o : MMod) : State → Host.Outcome State Fault Refusal :=
  issue { mreq h 0x281 m.base m.index o.ord with dq := [d] } (fun s w v =>
    let q := w.qreg d
    if !q.written && w.em != 0 then .trap s w (w.iil 0x281 2)
    else
      let xs := qWants w m q
      memGate s w 0x281 (.virtual false) .read true false xs 4 (fun s =>
        vetchAccept s w 1 (w.em == 0xFFFFFFFF && w.sameAddr m.index) (fun s =>
          let (n, s) := s.position
          let k : Shared := { kind := .load, need := .read, ord := o.ord, level := o.scope.val, evp := o.evp.val, instr := n }
          let same := w.sameAddr m.index
          let (s, v) := loadIssue s w v k 0x281 (.virtual false) xs (.qload d q.rows q.cols same)
          .ok s v (same && (w.em == 0xFFFFFFFF || w.em == 0)))))

/-- QST (R222); under em = 0 it makes no access, its source written or not (log 85). -/
def execQst (h : Head) (m : MemOp) (c : QSrc) (o : MMod) : State → Host.Outcome State Fault Refusal :=
  issue (let r := mreq h 0x282 m.base m.index o.ord
         { r with rq := [c.reg], fq := qFrees c }) (fun s w v =>
    let q := w.qreg c.reg
    if !q.written && w.em != 0 then .trap s w (w.iil 0x282 2)
    else
      let xs := qWants w m q
      memGate s w 0x282 (.virtual false) .write false true xs 4 (fun s =>
        if s.sideRoom w .write (.virtual false) xs then
          vetchAccept s w 1 (w.em == 0xFFFFFFFF && w.sameAddr m.index && !q.general) (fun s =>
            let (n, s) := s.position
            let k : Shared := { kind := .store, need := .write, ord := o.ord, level := o.scope.val, evp := o.evp.val,
                                instr := n }
            let (s, v) := storeIssue s w v k 0x282 (.virtual false) none xs
            .ok s v (w.oneAddr m.index && !q.general))
        else .hold s w .sideLog))

end Sys2Proof.Machine
end

