-- ==== Sys2Proof/Machine/Xev.lean ====
section
/-! DEFINITION. The execute-vector family (R174 to R181): lane-opcode words, operand stacks, XEV and its traps. -/

namespace Sys2Proof.Machine

/-- A lane's outcome under XEV: a fault with its detail code (R179), or its new stack and whether it divided by zero. -/
inductive LaneRes where
  | fault (detail : Nat)
  | ok (stack : List W32) (zdiv : Bool)
  deriving DecidableEq, Repr

/-- Codes that read their operand as FP32, for selector 2 (R175). -/
def lopFloat (code : Nat) : Bool := (decide (0x20 ≤ code) && decide (code ≤ 0x30)) || code == 0x32

/-- IMM8 as a code reads it (R175). -/
def lopImm (code : Nat) (imm : BitVec 8) : W32 :=
  if lopFloat code then to32 (.fin (decide (imm.toInt < 0)) imm.toInt.natAbs 0) else imm.signExtend 32

/-- Fetch by a selector: the value and the stack after it, or a fault's detail (R175). -/
def lopFetch (code sel : Nat) (imm : BitVec 8) (reg : Nat → W32) (st : List W32) : Except Nat (W32 × List W32) :=
  if sel = 0 then
    match st with
    | x :: st => .ok (x, st)
    | [] => .error 3
  else if sel = 1 then
    match st with
    | x :: _ => .ok (x, st)
    | [] => .error 3
  else if sel = 2 then .ok (lopImm code imm, st)
  else if sel < 8 then .error 1
  else .ok (reg (sel - 8), st)

/-- Codes of R176 that read B and A and push one value; the value, and whether it divided by zero. -/
def lopBinary (code : Nat) (a b : W32) : Option (W32 × Bool) :=
  match code with
  | 0x10 => some (a + b, false)
  | 0x11 => some (a - b, false)
  | 0x12 => some (a * b, false)
  | 0x13 => some (divTrunc a b, b == 0)
  | 0x14 => some (if b = 0 then 0 else remTrunc a b, b == 0)
  | 0x15 => some (minS a b, false)
  | 0x16 => some (maxS a b, false)
  | 0x19 => some (a &&& b, false)
  | 0x1A => some (a ||| b, false)
  | 0x1B => some (a ^^^ b, false)
  | 0x1C => some (a <<< amount5 b, false)
  | 0x1D => some (a.sshiftRight (amount5 b), false)
  | 0x1E => some (if a.slt b then 0xFFFFFFFF else if a = b then 0 else 1, false)
  | 0x20 => some (fAdd a b, false)
  | 0x21 => some (fSub a b, false)
  | 0x22 => some (fMul a b, false)
  | 0x24 => some (fDiv a b, false)
  | 0x26 => some (fMin a b, false)
  | 0x27 => some (fMax a b, false)
  | 0x33 => some (a >>> amount5 b, false)
  | _ => none

/-- frelu (R176). -/
def fRelu (a : W32) : W32 := if (num32 a).isNan then nan32 else if fCompare a 0 = some .gt then a else 0

/-- Codes of R176 that read A and push one value. -/
def lopUnary (code : Nat) (a : W32) : Option W32 :=
  match code with
  | 0x01 => some a
  | 0x17 => some (-a)
  | 0x18 => some (if a.slt 0 then -a else a)
  | 0x25 => some (fSqrt a)
  | 0x28 => some (fRelu a)
  | 0x29 => some (special .exp2 a)
  | 0x2A => some (special .log2 a)
  | 0x2B => some (special .rcp a)
  | 0x2C => some (special .rsq a)
  | 0x2D => some (special .tanh a)
  | 0x2E => some (special .sigm a)
  | 0x2F => some (fNeg a)
  | 0x30 => some (fAbs a)
  | 0x31 => some (fOfInt a)
  | 0x32 => some (fToInt a)
  | _ => none

/-- Push a value; a ninth entry overflows (R177). -/
def lopPush (x : W32) (st : List W32) (zdiv : Bool) : LaneRes := if 8 ≤ st.length then .fault 2 else .ok (x :: st) zdiv

/-- xev_lane() of R177: the lane's opcode word, its stack and the group's eight values in the lane. -/
def xevLane (word : W32) (st : List W32) (reg : Nat → W32) : LaneRes :=
  let code := (word.extractLsb' 0 8).toNat
  let sela := (word.extractLsb' 8 4).toNat
  let selb := (word.extractLsb' 12 4).toNat
  let imm := word.extractLsb' 16 8
  let fetch := fun sel st => lopFetch code sel imm reg st
  if word.extractLsb' 24 8 ≠ 0 then .fault 1
  else
    match code with
    | 0x00 => .ok st false
    | 0x02 => match st with
      | x :: _ => lopPush x st false
      | [] => .fault 3
    | 0x03 => match st with
      | _ :: st => .ok st false
      | [] => .fault 3
    | 0x04 => match st with
      | x :: y :: st => .ok (y :: x :: st) false
      | _ => .fault 3
    | 0x23 =>
      match fetch selb st with
      | .error e => .fault e
      | .ok (b, st) =>
        match fetch sela st with
        | .error e => .fault e
        | .ok (a, st) =>
          match st with
          | c :: st => lopPush (fFma a b c) st false
          | [] => .fault 3
    | code =>
      match lopUnary code 0, lopBinary code 0 0 with
      | some _, _ =>
        match fetch sela st with
        | .error e => .fault e
        | .ok (a, st) => match lopUnary code a with
          | some x => lopPush x st false
          | none => .fault 1
      | none, some _ =>
        match fetch selb st with
        | .error e => .fault e
        | .ok (b, st) =>
          match fetch sela st with
          | .error e => .fault e
          | .ok (a, st) => match lopBinary code a b with
            | some (x, z) => lopPush x st z
            | none => .fault 1
      | none, none => .fault 1

/-- The detail code of a bad outcome; none if the lane is neither faulted nor divided by zero (R179). -/
def LaneRes.bad : LaneRes → Option Nat
  | .fault e => some e
  | .ok _ z => if z then some 4 else none

/-- The cycles of the class of a lane opcode's code: D 24, S 8, F 4 (R176, R178); a word that is reserved for its bits [31:24]
counts F whatever its code (log 80). -/
def codeLatency (x : W32) : Nat :=
  let code := x.toNat % 256
  if x.toNat / 2 ^ 24 = 0 ∧ [0x13, 0x14, 0x24, 0x25].contains code then 24
  else if x.toNat / 2 ^ 24 = 0 ∧ 0x29 ≤ code ∧ code ≤ 0x2E then 8
  else 4

/-- A wave's stacks, allocated empty at the first instruction of the family (R149). -/
def Wave.stacksOf (w : Wave) : Stacks :=
  match w.stk with
  | some x => x
  | none => Vector.replicate 32 []

/-- The request of a member of the family. -/
def xreq (h : Head) (opc : Nat) (src : List VSrc) : Req :=
  { h := h, opc := opc, len := 16, rs := src.flatMap srcSregs, rv := src.flatMap srcRegs, fv := src.flatMap srcFrees,
    stk := true, uses := src.map .through }

/-- XEV (R177 to R179): every lane's outcome is decided from values that stand at issue; the stacks and xst are written
at XEV_COMPLETE. Under .t a bad lane traps and nothing but xst and the allocation changes, where the ILX is what is taken (R313).
-/
def execXev (h : Head) (op : VSrc) (w : VGrp) (t : Bool) : State → Host.Outcome State Fault Refusal :=
  issue (let r := xreq h 0x198 [op]
         { r with rv := r.rv ++ groupRegs w.reg 8, fv := r.fv ++ grpFrees w 8, su := .word op }) (fun s u v =>
    let st := u.stacksOf
    let out (l : Fin 32) : LaneRes := xevLane ((u.src op).lane l) st[l.val] (fun k => (u.vreg (groupReg w.reg k)).lane l)
    let bad := maskOf (fun l => u.em.getLsbD l.val && (out l).bad.isSome)
    if t && bad != 0 then
      let detail := match lanesOf bad with
        | l :: _ => (out l).bad.getD 0
        | [] => 0
      .stopped ((s.atBoundary u (fun s u =>
        s.deliver { u with stk := some u.stacksOf, xst := u.xst ||| bad } { u.trapInfo 10 detail with mask := bad })).fitWave u.uid)
    else
      let new : Stacks := Vector.ofFn (fun l => if u.em.getLsbD l.val then (match out l with
        | .ok x _ => x
        | .fault _ => st[l.val]) else st[l.val])
      let kept : Vector Nat 32 := Vector.ofFn (fun l => match u.em.getLsbD l.val, out l with
        | true, .ok _ _ => (st[l.val]).length - (lopReads ((u.src op).lane l)).2
        | _, _ => (st[l.val]).length)
      let (id, s) := s.fresh
      let late := (lanesOf u.em).foldl (fun n l => max n (codeLatency ((u.src op).lane l))) 4
      .ok s { v with stk := some st, sb := v.sb ++ [{ id := id, kind := .xev, stk := some new, xst := bad, kept := kept,
                                                      due := s.clkOf u.core + late }] }
        (u.src op).isUni)

/-- Every active lane's stack by a function that answers the new stack and whether xst is set. -/
def Wave.mapStacks (w : Wave) (f : Fin 32 → List W32 → List W32 × Bool) : Wave :=
  let st := w.stacksOf
  { w with stk := some (Vector.ofFn (fun l => if w.em.getLsbD l.val then (f l st[l.val]).1 else st[l.val])),
           xst := w.xst ||| maskOf (fun l => w.em.getLsbD l.val && (f l st[l.val]).2) }

/-- XPUSH (R181): the entry it writes loses its poison (R334). -/
def execXpush (h : Head) (a : VSrc) : State → Host.Outcome State Fault Refusal :=
  issue (xreq h 0x199 [a]) (fun s w v =>
    let written (u : PoisonUnit) : Bool := match u with
      | .stack x l k => x == w.uid && w.em.getLsbD l.val && decide (k = w.depth l)
      | _ => false
    .ok { s with poison := s.poison.filter (fun u => !written u) }
      (v.mapStacks (fun l st => if st.length = 8 then (st, true) else ((w.src a).lane l :: st, false)))
      (w.src a).isUA)

/-- The lane values XPOP and XTOP write (R181). -/
def topLanes (w : Wave) : VReg := .gen (lanesBy (fun l => (w.stacksOf[l.val]).headD 0))

/-- XPOP (R181). -/
def execXpop (h : Head) (d : VNum) : State → Host.Outcome State Fault Refusal :=
  issue { xreq h 0x19A [] with wv := [d], su := .top } (fun s w v =>
    let u := v.mapStacks (fun _ st => match st with
      | [] => ([], true)
      | _ :: st => (st, false))
    .ok s (u.vwrite d (topLanes w)) false)

/-- XTOP (R181). -/
def execXtop (h : Head) (d : VNum) : State → Host.Outcome State Fault Refusal :=
  issue { xreq h 0x19B [] with wv := [d], su := .top } (fun s w v =>
    let u := v.mapStacks (fun _ st => (st, st.isEmpty))
    .ok s (u.vwrite d (topLanes w)) false)

/-- XCLR (R181). -/
def execXclr (h : Head) : State → Host.Outcome State Fault Refusal :=
  issue (xreq h 0x19C []) (fun s w v =>
    let u := v.mapStacks (fun _ _ => ([], false))
    .ok s { u with xst := w.xst &&& ~~~w.em } true)

/-- XDEPTH (R181). -/
def execXdepth (h : Head) (d : VNum) : State → Host.Outcome State Fault Refusal :=
  issue { xreq h 0x19D [] with wv := [d] } (fun s w v =>
    .ok s ((v.mapStacks (fun _ st => (st, false))).vwrite d
      (.gen (lanesBy (fun l => BitVec.ofNat 32 (w.stacksOf[l.val]).length)))) false)

end Sys2Proof.Machine
end

