-- ==== Sys2Proof/Machine/Dispatch.lean ====
section
/-! DEFINITION. One arm for each constructor of Instr, in the order of spec/opcode_table.json: one direct call of the
instruction's meaning. -/

namespace Sys2Proof.Machine

def exec (i : Instr) (s : State) : Host.Outcome State Fault Refusal :=
  match i with
  | .smov h d a => Sys2Proof.Machine.execSmov h d a s
  | .smovi h d imm => Sys2Proof.Machine.execSmovi h d imm s
  | .slui h d a imm => Sys2Proof.Machine.execSlui h d a imm s
  | .sadd h d a b => Sys2Proof.Machine.execSadd h d a b s
  | .saddImm h d a imm => Sys2Proof.Machine.execSaddImm h d a imm s
  | .ssub h d a b => Sys2Proof.Machine.execSsub h d a b s
  | .smul h d a b => Sys2Proof.Machine.execSmul h d a b s
  | .smulh h d a b => Sys2Proof.Machine.execSmulh h d a b s
  | .sdiv h d a b => Sys2Proof.Machine.execSdiv h d a b s
  | .srem h d a b => Sys2Proof.Machine.execSrem h d a b s
  | .sand h d a b => Sys2Proof.Machine.execSand h d a b s
  | .sandImm h d a imm => Sys2Proof.Machine.execSandImm h d a imm s
  | .sor h d a b => Sys2Proof.Machine.execSor h d a b s
  | .sorImm h d a imm => Sys2Proof.Machine.execSorImm h d a imm s
  | .sxor h d a b => Sys2Proof.Machine.execSxor h d a b s
  | .sxorImm h d a imm => Sys2Proof.Machine.execSxorImm h d a imm s
  | .sshl h d a b => Sys2Proof.Machine.execSshl h d a b s
  | .sshlImm h d a imm => Sys2Proof.Machine.execSshlImm h d a imm s
  | .sshr h d a b => Sys2Proof.Machine.execSshr h d a b s
  | .sshrImm h d a imm => Sys2Proof.Machine.execSshrImm h d a imm s
  | .ssar h d a b => Sys2Proof.Machine.execSsar h d a b s
  | .ssarImm h d a imm => Sys2Proof.Machine.execSsarImm h d a imm s
  | .smin h d a b => Sys2Proof.Machine.execSmin h d a b s
  | .smax h d a b => Sys2Proof.Machine.execSmax h d a b s
  | .scmp h d a b cc => Sys2Proof.Machine.execScmp h d a b cc s
  | .ssel h d a b sc => Sys2Proof.Machine.execSsel h d a b sc s
  | .sbfx h d a pos wid => Sys2Proof.Machine.execSbfx h d a pos wid s
  | .sbfi h d a pos wid => Sys2Proof.Machine.execSbfi h d a pos wid s
  | .spopc h d a => Sys2Proof.Machine.execSpopc h d a s
  | .sclz h d a => Sys2Proof.Machine.execSclz h d a s
  | .sctz h d a => Sys2Proof.Machine.execSctz h d a s
  | .br h ofs => Sys2Proof.Machine.execBr h ofs s
  | .brz h a ofs => Sys2Proof.Machine.execBrz h a ofs s
  | .brnz h a ofs => Sys2Proof.Machine.execBrnz h a ofs s
  | .brb h a n ofs => Sys2Proof.Machine.execBrb h a n ofs s
  | .brm h n ofs => Sys2Proof.Machine.execBrm h n ofs s
  | .call h ofs => Sys2Proof.Machine.execCall h ofs s
  | .ret h => Sys2Proof.Machine.execRet h s
  | .jmpr h a => Sys2Proof.Machine.execJmpr h a s
  | .sloop h d ofs => Sys2Proof.Machine.execSloop h d ofs s
  | .exit h => Sys2Proof.Machine.execExit h s
  | .wsleep h a => Sys2Proof.Machine.execWsleep h a s
  | .nopw h => Sys2Proof.Machine.execNopw h s
  | .vmov h d a => Sys2Proof.Machine.execVmov h d a s
  | .vmovi h d imm => Sys2Proof.Machine.execVmovi h d imm s
  | .vadd h d a b => Sys2Proof.Machine.execVadd h d a b s
  | .vadds h d a b => Sys2Proof.Machine.execVadds h d a b s
  | .vsub h d a b => Sys2Proof.Machine.execVsub h d a b s
  | .vmul h d a b => Sys2Proof.Machine.execVmul h d a b s
  | .vmulh h d a b => Sys2Proof.Machine.execVmulh h d a b s
  | .vmad h d a b c => Sys2Proof.Machine.execVmad h d a b c s
  | .vdiv h d a b => Sys2Proof.Machine.execVdiv h d a b s
  | .vrem h d a b => Sys2Proof.Machine.execVrem h d a b s
  | .vand h d a b => Sys2Proof.Machine.execVand h d a b s
  | .vor h d a b => Sys2Proof.Machine.execVor h d a b s
  | .vxor h d a b => Sys2Proof.Machine.execVxor h d a b s
  | .vnot h d a => Sys2Proof.Machine.execVnot h d a s
  | .vshl h d a b => Sys2Proof.Machine.execVshl h d a b s
  | .vshr h d a b => Sys2Proof.Machine.execVshr h d a b s
  | .vsar h d a b => Sys2Proof.Machine.execVsar h d a b s
  | .vmin h d a b => Sys2Proof.Machine.execVmin h d a b s
  | .vmax h d a b => Sys2Proof.Machine.execVmax h d a b s
  | .vabs h d a => Sys2Proof.Machine.execVabs h d a s
  | .vneg h d a => Sys2Proof.Machine.execVneg h d a s
  | .vcmp h d a b cc => Sys2Proof.Machine.execVcmp h d a b cc s
  | .vsel h d a b c => Sys2Proof.Machine.execVsel h d a b c s
  | .vbfx h d a pos wid => Sys2Proof.Machine.execVbfx h d a pos wid s
  | .vbfi h d a pos wid => Sys2Proof.Machine.execVbfi h d a pos wid s
  | .vpopc h d a => Sys2Proof.Machine.execVpopc h d a s
  | .vclz h d a => Sys2Proof.Machine.execVclz h d a s
  | .vlane h d => Sys2Proof.Machine.execVlane h d s
  | .vdot4 h d a b c => Sys2Proof.Machine.execVdot4 h d a b c s
  | .vdot8 h d a b c => Sys2Proof.Machine.execVdot8 h d a b c s
  | .fadd h d a b => Sys2Proof.Machine.execFadd h d a b s
  | .fsub h d a b => Sys2Proof.Machine.execFsub h d a b s
  | .fmul h d a b => Sys2Proof.Machine.execFmul h d a b s
  | .ffma h d a b c => Sys2Proof.Machine.execFfma h d a b c s
  | .fdiv h d a b => Sys2Proof.Machine.execFdiv h d a b s
  | .fsqrt h d a => Sys2Proof.Machine.execFsqrt h d a s
  | .fmin h d a b => Sys2Proof.Machine.execFmin h d a b s
  | .fmax h d a b => Sys2Proof.Machine.execFmax h d a b s
  | .fabs h d a => Sys2Proof.Machine.execFabs h d a s
  | .fneg h d a => Sys2Proof.Machine.execFneg h d a s
  | .fcmp h d a b cc => Sys2Proof.Machine.execFcmp h d a b cc s
  | .fclass h d a => Sys2Proof.Machine.execFclass h d a s
  | .ftrunc h d a => Sys2Proof.Machine.execFtrunc h d a s
  | .ffloor h d a => Sys2Proof.Machine.execFfloor h d a s
  | .fceil h d a => Sys2Proof.Machine.execFceil h d a s
  | .fdot2 h d a b c => Sys2Proof.Machine.execFdot2 h d a b c s
  | .fdot4 h d a b c => Sys2Proof.Machine.execFdot4 h d a b c s
  | .fexp2 h d a => Sys2Proof.Machine.execFexp2 h d a s
  | .flog2 h d a => Sys2Proof.Machine.execFlog2 h d a s
  | .frcp h d a => Sys2Proof.Machine.execFrcp h d a s
  | .frsq h d a => Sys2Proof.Machine.execFrsq h d a s
  | .fsin h d a => Sys2Proof.Machine.execFsin h d a s
  | .fcos h d a => Sys2Proof.Machine.execFcos h d a s
  | .ftanh h d a => Sys2Proof.Machine.execFtanh h d a s
  | .fsigm h d a => Sys2Proof.Machine.execFsigm h d a s
  | .ferf h d a => Sys2Proof.Machine.execFerf h d a s
  | .cvt h d a f => Sys2Proof.Machine.execCvt h d a f s
  | .pack h d a f => Sys2Proof.Machine.execPack h d a f s
  | .unpk h d a f k => Sys2Proof.Machine.execUnpk h d a f k s
  | .qnt h d a fs => Sys2Proof.Machine.execQnt h d a fs s
  | .vtag h d a => Sys2Proof.Machine.execVtag h d a s
  | .vsqz h d a => Sys2Proof.Machine.execVsqz h d a s
  | .vperm h d a b => Sys2Proof.Machine.execVperm h d a b s
  | .redu h d a op => Sys2Proof.Machine.execRedu h d a op s
  | .scan h d a op => Sys2Proof.Machine.execScan h d a op s
  | .mset h a => Sys2Proof.Machine.execMset h a s
  | .mget h d => Sys2Proof.Machine.execMget h d s
  | .mand h a => Sys2Proof.Machine.execMand h a s
  | .mandn h a => Sys2Proof.Machine.execMandn h a s
  | .mor h a => Sys2Proof.Machine.execMor h a s
  | .mnot h => Sys2Proof.Machine.execMnot h s
  | .xev h op w t => Sys2Proof.Machine.execXev h op w t s
  | .xpush h a => Sys2Proof.Machine.execXpush h a s
  | .xpop h d => Sys2Proof.Machine.execXpop h d s
  | .xtop h d => Sys2Proof.Machine.execXtop h d s
  | .xclr h => Sys2Proof.Machine.execXclr h s
  | .xdepth h d => Sys2Proof.Machine.execXdepth h d s
  | .ld h d m sz o => Sys2Proof.Machine.execLd h d m sz o s
  | .st h m c sz o => Sys2Proof.Machine.execSt h m c sz o s
  | .lds h d m sz o => Sys2Proof.Machine.execLds h d m sz o s
  | .sts h m c sz o => Sys2Proof.Machine.execSts h m c sz o s
  | .ldb h d m sz o => Sys2Proof.Machine.execLdb h d m sz o s
  | .stb h m c sz o => Sys2Proof.Machine.execStb h m c sz o s
  | .atom h d m c op o => Sys2Proof.Machine.execAtom h d m c op o s
  | .red h m c op o => Sys2Proof.Machine.execRed h m c op o s
  | .fence h ord scope => Sys2Proof.Machine.execFence h ord scope s
  | .pref h m scope evp => Sys2Proof.Machine.execPref h m scope evp s
  | .tres h base ofs c evp scope => Sys2Proof.Machine.execTres h base ofs c evp scope s
  | .mon h m scope evp => Sys2Proof.Machine.execMon h m scope evp s
  | .mwait h d a => Sys2Proof.Machine.execMwait h d a s
  | .bar h b => Sys2Proof.Machine.execBar h b s
  | .bara h b => Sys2Proof.Machine.execBara h b s
  | .barw h b => Sys2Proof.Machine.execBarw h b s
  | .ebar h e => Sys2Proof.Machine.execEbar h e s
  | .nest h n => Sys2Proof.Machine.execNest h n s
  | .qdim h d rows cols => Sys2Proof.Machine.execQdim h d rows cols s
  | .qld h d m o => Sys2Proof.Machine.execQld h d m o s
  | .qst h m c o => Sys2Proof.Machine.execQst h m c o s
  | .qzero h d => Sys2Proof.Machine.execQzero h d s
  | .qid h d => Sys2Proof.Machine.execQid h d s
  | .qmov h d a => Sys2Proof.Machine.execQmov h d a s
  | .qtrn h d a => Sys2Proof.Machine.execQtrn h d a s
  | .qadd h d a b => Sys2Proof.Machine.execQadd h d a b s
  | .qsub h d a b => Sys2Proof.Machine.execQsub h d a b s
  | .qmul h d a b => Sys2Proof.Machine.execQmul h d a b s
  | .qmad h d a b c => Sys2Proof.Machine.execQmad h d a b c s
  | .qscl h d a b => Sys2Proof.Machine.execQscl h d a b s
  | .qchol h d a => Sys2Proof.Machine.execQchol h d a s
  | .qlu h d p a => Sys2Proof.Machine.execQlu h d p a s
  | .qsolvCholesky h d f b => Sys2Proof.Machine.execQsolvCholesky h d f b s
  | .qsolvLu h d f b p => Sys2Proof.Machine.execQsolvLu h d f b p s
  | .qget h d a row col => Sys2Proof.Machine.execQget h d a row col s
  | .qput h d a row col => Sys2Proof.Machine.execQput h d a row col s
  | .qstatVst h d => Sys2Proof.Machine.execQstatVst h d s
  | .qstatNpd h d a => Sys2Proof.Machine.execQstatNpd h d a s
  | .qstatSing h d a => Sys2Proof.Machine.execQstatSing h d a s
  | .qstatClear h d => Sys2Proof.Machine.execQstatClear h d s
  | .qstatShape h d a => Sys2Proof.Machine.execQstatShape h d a s
  | .mma h d a b c fs ra => Sys2Proof.Machine.execMma h d a b c fs ra s
  | .tld h d m => Sys2Proof.Machine.execTld h d m s
  | .tst h m c => Sys2Proof.Machine.execTst h m c s
  | .lrec h d a b => Sys2Proof.Machine.execLrec h d a b s
  | .cpyq h d q b => Sys2Proof.Machine.execCpyq h d q b s
  | .cpyp h d a => Sys2Proof.Machine.execCpyp h d a s
  | .cpyxSt h d q => Sys2Proof.Machine.execCpyxSt h d q s
  | .cpyxStop h d q => Sys2Proof.Machine.execCpyxStop h d q s
  | .cpyxSkip h d q => Sys2Proof.Machine.execCpyxSkip h d q s
  | .cpyxRetry h d q => Sys2Proof.Machine.execCpyxRetry h d q s
  | .tskl h d a => Sys2Proof.Machine.execTskl h d a s
  | .tsks h a b scope => Sys2Proof.Machine.execTsks h a b scope s
  | .tskq h d a => Sys2Proof.Machine.execTskq h d a s
  | .trapi h code => Sys2Proof.Machine.execTrapi h code s
  | .eret h => Sys2Proof.Machine.execEret h s
  | .srd h d reg => Sys2Proof.Machine.execSrd h d reg s
  | .swr h reg a => Sys2Proof.Machine.execSwr h reg a s
  | .wsave h d a b => Sys2Proof.Machine.execWsave h d a b s
  | .wrest h d a => Sys2Proof.Machine.execWrest h d a s
  | .tlbi h d a b => Sys2Proof.Machine.execTlbi h d a b s
  | .clkrCr h d => Sys2Proof.Machine.execClkrCr h d s
  | .clkrCore h d => Sys2Proof.Machine.execClkrCore h d s
  | .brk h code => Sys2Proof.Machine.execBrk h code s
  | .dbgmRead h d reg => Sys2Proof.Machine.execDbgmRead h d reg s
  | .dbgmWrite h d reg a => Sys2Proof.Machine.execDbgmWrite h d reg a s
  | .haltHalt h d a b => Sys2Proof.Machine.execHaltHalt h d a b s
  | .haltGo h d a b => Sys2Proof.Machine.execHaltGo h d a b s
  | .haltStep h d a b => Sys2Proof.Machine.execHaltStep h d a b s
  | .haltQuery h d a b => Sys2Proof.Machine.execHaltQuery h d a b s
  | .perfsRead h d sel => Sys2Proof.Machine.execPerfsRead h d sel s
  | .perfsSnapshot h d => Sys2Proof.Machine.execPerfsSnapshot h d s
  | .perfsShadowRead h d sel => Sys2Proof.Machine.execPerfsShadowRead h d sel s
  | .performLoad x => Sys2Proof.Machine.execPerformLoad x s
  | .performStore x => Sys2Proof.Machine.execPerformStore x s
  | .drain entry => Sys2Proof.Machine.execDrain entry s
  | .evict n pa => Sys2Proof.Machine.execEvict n pa s
  | .rmwPerform id => Sys2Proof.Machine.execRmwPerform id s
  | .fencePerform id => Sys2Proof.Machine.execFencePerform id s
  | .barrierArrival id => Sys2Proof.Machine.execBarrierArrival id s
  | .barrierResume wave => Sys2Proof.Machine.execBarrierResume wave s
  | .deferredReturn wave id => Sys2Proof.Machine.execDeferredReturn wave id s
  | .scoreboardComplete wave id => Sys2Proof.Machine.execScoreboardComplete wave id s
  | .xevComplete wave id => Sys2Proof.Machine.execXevComplete wave id s
  | .vetchComplete wave id => Sys2Proof.Machine.execVetchComplete wave id s
  | .mmaComplete wave id => Sys2Proof.Machine.execMmaComplete wave id s
  | .nestIteration wave id => Sys2Proof.Machine.execNestIteration wave id s
  | .sideLogReplay id => Sys2Proof.Machine.execSideLogReplay id s
  | .coreCycle c => Sys2Proof.Machine.execCoreCycle c s
  | .issueLimitOverride c port => Sys2Proof.Machine.execIssueLimitOverride c port s
  | .mwaitWake wave => Sys2Proof.Machine.execMwaitWake wave s
  | .mwaitTimeout wave => Sys2Proof.Machine.execMwaitTimeout wave s
  | .wsleepWake wave => Sys2Proof.Machine.execWsleepWake wave s
  | .cpyqSlotWrite wave => Sys2Proof.Machine.execCpyqSlotWrite wave s
  | .channelFetch queue => Sys2Proof.Machine.execChannelFetch queue s
  | .copyStart pkt => Sys2Proof.Machine.execCopyStart pkt s
  | .copyCompletion pkt => Sys2Proof.Machine.execCopyCompletion pkt s
  | .queueAttach asid ch hdr => Sys2Proof.Machine.execQueueAttach asid ch hdr s
  | .queueDetach asid ch hdr => Sys2Proof.Machine.execQueueDetach asid ch hdr s
  | .submit asid agent addr => Sys2Proof.Machine.execSubmit asid agent addr s
  | .taskStart agent entry => Sys2Proof.Machine.execTaskStart agent entry s
  | .copyBatchAppend agent entry => Sys2Proof.Machine.execCopyBatchAppend agent entry s
  | .taskCompletion agent entry => Sys2Proof.Machine.execTaskCompletion agent entry s
  | .cohortPlace d seats => Sys2Proof.Machine.execCohortPlace d seats s
  | .migration cohort seat => Sys2Proof.Machine.execMigration cohort seat s
  | .forwardProgressSwap c => Sys2Proof.Machine.execForwardProgressSwap c s
  | .reservationRelease cohort => Sys2Proof.Machine.execReservationRelease cohort s
  | .rampComplete r => Sys2Proof.Machine.execRampComplete r s
  | .faultPost id => Sys2Proof.Machine.execFaultPost id s
  | .fltResRetry asid rid => Sys2Proof.Machine.execFltResRetry asid rid s
  | .fltResUnmappable asid rid => Sys2Proof.Machine.execFltResUnmappable asid rid s
  | .leaseExpiry id => Sys2Proof.Machine.execLeaseExpiry id s
  | .intSend asid loc => Sys2Proof.Machine.execIntSend asid loc s
  | .waveStWrite wave v => Sys2Proof.Machine.execWaveStWrite wave v s
  | .fltCfgWrite asid v => Sys2Proof.Machine.execFltCfgWrite asid v s
  | .mftBaseWrite asid v => Sys2Proof.Machine.execMftBaseWrite asid v s
  | .dbgMbxWrite asid v => Sys2Proof.Machine.execDbgMbxWrite asid v s
  | .mailboxEventPost asid => Sys2Proof.Machine.execMailboxEventPost asid s
  | .stepEnd wave => Sys2Proof.Machine.execStepEnd wave s
  | .sample c => Sys2Proof.Machine.execSample c s
  | .hostWrite p a bytes relaxed => Sys2Proof.Machine.execHostWrite p a bytes relaxed s
  | .hostRead p src => Sys2Proof.Machine.execHostRead p src s
  | .registerWrite r v => Sys2Proof.Machine.execRegisterWrite r v s
  | .haltCmdHalt asid loc pass mbx => Sys2Proof.Machine.execHaltCmdHalt asid loc pass mbx s
  | .haltCmdGo asid loc pass mbx => Sys2Proof.Machine.execHaltCmdGo asid loc pass mbx s
  | .haltCmdStep asid loc pass mbx => Sys2Proof.Machine.execHaltCmdStep asid loc pass mbx s
  | .haltCmdQuery asid loc pass mbx => Sys2Proof.Machine.execHaltCmdQuery asid loc pass mbx s
  | .saveCmd asid loc addr => Sys2Proof.Machine.execSaveCmd asid loc addr s
  | .restCmd asid addr => Sys2Proof.Machine.execRestCmd asid addr s
  | .tlbiN asid n => Sys2Proof.Machine.execTlbiN asid n s
  | .asCreate asid => Sys2Proof.Machine.execAsCreate asid s
  | .asDestroy asid => Sys2Proof.Machine.execAsDestroy asid s
  | .mgmtReq v => Sys2Proof.Machine.execMgmtReq v s
  | .lanbyRead link src pa n => Sys2Proof.Machine.execLanbyRead link src pa n s
  | .lanbyWrite link src pa bytes relaxed => Sys2Proof.Machine.execLanbyWrite link src pa bytes relaxed s
  | .lanbyRmw link src pa op x y => Sys2Proof.Machine.execLanbyRmw link src pa op x y s
  | .lanbyResponse link ack => Sys2Proof.Machine.execLanbyResponse link ack s
  | .lanbyPoisonResponse link id => Sys2Proof.Machine.execLanbyPoisonResponse link id s
  | .lanbyCredit link => Sys2Proof.Machine.execLanbyCredit link s
  | .lanbyBadType link ty => Sys2Proof.Machine.execLanbyBadType link ty s
  | .flitReplay link => Sys2Proof.Machine.execFlitReplay link s
  | .linkFailover link => Sys2Proof.Machine.execLinkFailover link s
  | .uncorrectableError d u => Sys2Proof.Machine.execUncorrectableError d u s
  | .correctedError d => Sys2Proof.Machine.execCorrectedError d s
  | .keySlotLoad slot => Sys2Proof.Machine.execKeySlotLoad slot s
  | .spdmGetVersion => Sys2Proof.Machine.execSpdmGetVersion s
  | .spdmGetCapabilities => Sys2Proof.Machine.execSpdmGetCapabilities s
  | .spdmNegotiateAlgorithms => Sys2Proof.Machine.execSpdmNegotiateAlgorithms s
  | .spdmGetDigests => Sys2Proof.Machine.execSpdmGetDigests s
  | .spdmGetCertificate => Sys2Proof.Machine.execSpdmGetCertificate s
  | .spdmChallenge => Sys2Proof.Machine.execSpdmChallenge s
  | .spdmGetMeasurements => Sys2Proof.Machine.execSpdmGetMeasurements s
  | .spdmKeyExchange => Sys2Proof.Machine.execSpdmKeyExchange s
  | .spdmFinish => Sys2Proof.Machine.execSpdmFinish s
  | .spdmEndSession => Sys2Proof.Machine.execSpdmEndSession s
  | .bringUp => Sys2Proof.Machine.execBringUp s
  | .dieOver105c d => Sys2Proof.Machine.execDieOver105c d s
  | .dieOver110c d => Sys2Proof.Machine.execDieOver110c d s
  | .dieOver120c d => Sys2Proof.Machine.execDieOver120c d s
  | .illegalEncoding => Sys2Proof.Machine.execIllegalEncoding s
  | .fetchFault => Sys2Proof.Machine.execFetchFault s
  | .dieBelow105c d => Sys2Proof.Machine.execDieBelow105c d s
  | .dieBelow110c d => Sys2Proof.Machine.execDieBelow110c d s
  | .signedImageAccept r => Sys2Proof.Machine.execSignedImageAccept r s

end Sys2Proof.Machine
end

