-- ==== Sys2Proof/Machine/Turn.lean ====
section
/-! DEFINITION. A turn (R38; log 2): the passing of clk.cr, an event, or a wave's turn to issue, under the choice its port
makes (R146, R147). What is not enabled leaves the machine as it is. -/

namespace Sys2Proof.Machine

/-- The turn at the head of the schedule, or the free one. -/
def State.nextTurn (s : State) : Turn × State :=
  match s.sched with
  | t :: ts => (t, { s with sched := ts })
  | [] => (Config.nextTurn s.turnNo, { s with turnNo := s.turnNo + 1 })

/-- Whether `n` more ticks would pass the last tick of a parked MWAIT (R203) or of a ramp (R318). -/
def State.overdue (s : State) (n : Nat) : Bool :=
  n != 0 && (s.waves.any (fun w => s.resident w && (match w.park with
      | .mwait _ start ticks => decide (start + ticks + 64 < s.clk + n)
      | _ => false)) ||
    s.mod.rails.toList.any (fun r => match r.ramp with
      | some (_, t) => decide (t < s.clk + n)
      | none => false))

/-- The state whose time is about to pass: its rails follow the requests (R277). -/
def State.passing (s : State) (n : Nat) : State := if n = 0 then s else s.retarget

/-- Add ticks to a rail's time at its point. -/
def addTicks (v : Vector Nat 4) (p : Fin 4) (n : Nat) : Vector Nat 4 := v.set p.val (v[p.val] + n)

/-- The temperature bin of a die now: bin 10 holds 100 to 108 °C, bin 11 108 to 116 °C (R351, R370). -/
def State.tempBin (s : State) (d : Fin 8) : Fin 16 :=
  let b := Config.tempBin d.val s.clk % 16
  let k := s.dieOf d
  Fin.ofNat 16 (if k.over110 then max 11 b else if k.over105 then max 10 (min 11 b) else min 10 b)

/-- Ticks passed in a bin. -/
def addBin (v : Vector Nat 16) (b : Fin 16) (n : Nat) : Vector Nat 16 := v.set b.val (v[b.val] + n)

/-- clk.cr advances, and with it each rail's time at its operating point and the time in the bins of temperature and power
(R351); the rails follow what the running tasks request before and after (R277; log 10). -/
def State.tick (s : State) (n : Nat) : State :=
  if n = 0 then s
  else
    let s := s.retarget
    let life := s.mod.life
    let temp : Vector (Vector Nat 16) 8 := Vector.ofFn (fun d => addBin life.temp[d.val] (s.tempBin d) n)
    let power := addBin life.power (Fin.ofNat 16 (Config.powerBin s.clk)) n
    let ticks : Vector (Vector Nat 4) 4 := Vector.ofFn (fun i => addTicks life.opTicks[i.val] s.mod.rails[i.val].point n)
    { s with clk := s.clk + n, mod := { s.mod with life := { life with opTicks := ticks, temp := temp, power := power } } }.retarget

/-- A wave's turn, its port's choice apart. -/
def State.attempt (s : State) (w : Wave) : Host.Outcome State Fault Refusal :=
  match s.turn w with
  | .stop t => .next t
  | .run t i => exec i t

/-- A wave as its next issue finds it: what it would issue now, and what it waits for if it would not. -/
def State.markWave (s : State) (w : Wave) : Wave :=
  if s.eligible w then
    match s.attempt w with
    | .next t =>
      let c := s.coreOf w.core
      let k := t.coreOf w.core
      let charge := k.window.headD 0 - c.window.headD 0
      (match t.wave? w.uid with
        | some x =>
          if x.hold ≠ .none ∨ x.fetch ≠ .free then { w with offer := none, hold := x.hold }
          else { w with offer := some (charge, k.vetchFree != c.vetchFree), hold := .none }
        | none => { w with offer := some (charge, false), hold := .none })
    | _ => { w with offer := none }
  else { w with offer := none }

/-- Note what every wave of a core would do in this cycle. -/
def State.mark (s : State) (c : CoreId) : State :=
  { s with waves := s.waves.map (fun w => if s.resident w && w.core == c then s.markWave w else w) }

/-- A core as its cycle began: what this cycle's own issues have taken of its ports and arrays is free again. -/
def State.atStart (s : State) (c : CoreId) : State :=
  let k := s.coreOf c
  s.putCore { k with arrayFree := k.arrayWas, ports := k.ports.map (fun p => { p with pipeFree := p.pipeWas, sfuFree := p.sfuWas }) }

/-- Note what every wave of a core would do as its cycle ends. A wave is judged ready by the resources as the cycle began: the
issue that its port took instead of it takes nothing from its readiness (R146; log 108). -/
def State.markCycle (s : State) (c : CoreId) : State :=
  let began := s.atStart c
  { s with waves := s.waves.map (fun w => if s.resident w && w.core == c then
      let b := began.markWave w
      if b.offer.isSome then { b with hold := .none } else s.markWave w
    else w) }

/-- No other wave of the core contends for the port or the Vetch unit, and any charge fits the limit. -/
def State.alone (s : State) (w : Wave) : Bool :=
  !s.waves.any (fun x => x.uid != w.uid && x.core == w.core && s.eligible x) &&
    decide (s.current w.core.die w.core.clu + 2048 ≤ s.climit w.core.die w.core.clu)

/-- A port that comes before another in this cycle's order of the Vetch unit (R15). -/
def vetchBefore (first p q : Fin 4) : Bool := decide (p - first < q - first)

/-- Whether another port, ahead in this cycle's order, takes the Vetch unit (R15). -/
def State.vetchTaken (s : State) (c : CoreId) (q : Fin 4) : Bool :=
  (List.finRange 4).any (fun p => vetchBefore (s.coreOf c).vetchPri p q && (s.coreOf c).ports[p.val].issued.isNone &&
    (match s.portChoice c p with
      | some w => (match w.offer with
        | some x => x.2
        | none => false)
      | none => false))

/-- A wave's turn to issue (R146, R147): at most one issue for each port and core cycle. -/
def State.issueTurn (s : State) (u : Nat) : Host.Outcome State Fault Refusal :=
  match s.wave? u with
  | none => .next s
  | some w =>
    if w.haltReq ∧ w.inProg = .none then .next (s.tryHalt u)
    else if !s.eligible w || (s.coreOf w.core).sampled || (s.coreOf w.core).ports[w.port.val].issued.isSome then .next s
    else if s.alone w then s.attempt w
    else
      let m := s.mark w.core
      match (m.wave? u).bind (fun x => x.offer) with
      | none => s.attempt w
      | some (_, vetch) =>
        if (m.portChoice w.core w.port).map (fun x => x.uid) ≠ some u ∨ (vetch ∧ m.vetchTaken w.core w.port) then .next s
        else s.attempt w

/-- Whether an instruction is an event of its own: no word of a wave, and neither of the two ways a fetch ends. -/
def isEvent (e : Instr) : Bool :=
  match e with
  | .illegalEncoding => false
  | .fetchFault => false
  | e => e.raw.isNone

/-- An event's turn; a core's cycle ends, and is sampled, with what its waves would have issued noted. -/
def State.eventTurn (s : State) (e : Instr) : Host.Outcome State Fault Refusal :=
  if isEvent e then
    (match e with
      | .coreCycle c => exec (.coreCycle c) (s.markCycle c)
      | .sample c => exec (.sample c) (s.markCycle c)
      | e => exec e s)
  else .next s

/-- What a turn comes to. -/
def State.take (s : State) (t : Turn) : Host.Outcome State Fault Refusal :=
  if (s.passing t.ticks).overdue t.ticks then .next s
  else
    match t.act with
    | .issue u => (s.tick t.ticks).issueTurn u
    | .event e => (s.tick t.ticks).eventTurn e

/-! ## A program placed from outside -/

/-- Where withFetchWord places the program: the virtual address of its first instruction. -/
def placedPc : Word := 0x10000

/-- The physical addresses of the root table, the level-1 table and the 32 MiB page of the placed program. -/
def placedRoot : Nat := 0x2000000
def placedTable : Nat := 0x2020000
def placedFrame : Nat := 0x4000000

/-- The bytes of the placed program and its page table: a table pointer, a leaf (V, leaf, R, W, X, U), and the words. -/
def placedBytes (l : List Byte) : List (Nat × Byte) :=
  bytesAt placedRoot (leOf 8 (placedTable + 1)) ++ bytesAt placedTable (leOf 8 (placedFrame + 0x3F)) ++
    bytesAt (placedFrame + placedPc.toNat) l

/-- The wave that runs the placed program. -/
def placedWave (uid cohort : Nat) : Wave :=
  { uid := uid, cohort := cohort, widx := 0, core := ⟨0, 0, 0⟩, pc := placedPc }

/-- The machine with a program of one instruction running in one wave of one grid (log 40). -/
def State.placeProgram (s : State) (l : List Byte) : State :=
  let n := s.nextUid
  let launch : LaunchRec := { entry := placedPc, waves := 1, ens := 1, ncoh := 1, regs := 16384, dies := 1,
                              spad := 0x100000000, rwin := 0x200000000 }
  let grid : Grid := { uid := n, asid := 0, agent := 0, entry := 0, launch := launch }
  let cohort : Cohort := { uid := n + 1, grid := n, cid := 0, ens := n + 2, core := ⟨0, 0, 0⟩, place := .resident, nwaves := 1,
                           spadBytes := 4096, started := true }
  let ens : Ensemble := { uid := n + 2, cohorts := [n + 1] }
  { s with
    sched := [{ act := .issue (n + 3) }], nextUid := n + 4, mem := s.mem.writeAll (placedBytes l),
    spaces := { asid := 0, ptb := BitVec.ofNat 64 placedRoot } :: s.spaces, grids := grid :: s.grids,
    cohorts := cohort :: s.cohorts, ensembles := ens :: s.ensembles, waves := placedWave (n + 3) (n + 1) :: s.waves }

end Sys2Proof.Machine
end

