-- ==== Sys2Proof/Machine/Step.lean ====
section
/-! DEFINITION. One step of the machine: the next turn takes place (R38; log 2). After DIE_OVER_120C nothing does (R370). -/

namespace Sys2Proof.Machine

def step (s : State) : Host.Outcome State Fault Refusal :=
  if s.mod.powered then s.nextTurn.2.take s.nextTurn.1 else .fault .poweredDown

/-- The machine with the instruction whose bits are `w` in the memory that the next step fetches from (log 40). -/
def State.withFetchWord (s : State) (nbits w : Nat) : State := s.placeProgram (leOf 32 (w % 2 ^ nbits))

end Sys2Proof.Machine
end

