-- ==== Sys2Proof/Safety.lean ====
section
/-! DEFINITION. The terms the statements use: a safe step, when a wave's instruction is ready to execute (R70, R90,
R140, R144, R337), and what completing it may touch: its wave, its core's accounting, and its wave's spill area (R130,
R147). -/

namespace Sys2Proof.Machine

/-- A step that neither faults nor refuses. -/
def safeStep (s : State) : Prop := ∃ t, step s = .next t

/-! ## Ready to execute -/

/-- The wave in whose registers, stacks or control state a poisoned unit lies (R334). -/
def unitWave : PoisonUnit → Option Nat
  | .mem _ => none
  | .spad _ _ => none
  | .vreg u _ _ => some u
  | .qelem u _ _ _ => some u
  | .stack u _ _ => some u
  | .sreg u _ => some u
  | .control u => some u

/-- An instruction with this head executes now on wave `w`: it is the wave's turn, the guard passes (R70), no register of
the wave is poisoned (R334), no breakpoint hits, by name or by PC (R337), the instruction has not begun before, a `.y` finds
nothing to commit (R140), and its port's vector pipe and special-function unit are free (R146). -/
structure Ready (h : Head) (s : State) (w : Wave) : Prop where
  current : s.wave? s.cur = some w
  guard : guardPasses h.guard w = true
  clean : ∀ u ∈ s.poison, unitWave u ≠ some w.uid
  unhit : s.breakpoint w true = none
  unhitPc : s.breakpoint w false = none
  begins : w.inProg = .none
  marked : h.y = true → w.defs = [] ∧ w.pends = []
  pipe : (s.coreOf w.core).ports[w.port.val].pipeFree ≤ s.clkOf w.core
  sfu : (s.coreOf w.core).ports[w.port.val].sfuFree ≤ s.clkOf w.core

/-- Ready, with no scoreboarded result outstanding (R144) and no register spilled (R130). -/
structure Open (h : Head) (s : State) (w : Wave) : Prop extends Ready h s w where
  board : w.sb = []
  whole : w.spilled = []

/-- Ready, with nothing of the wave's earlier instructions outstanding at all. -/
structure Calm (h : Head) (s : State) (w : Wave) : Prop extends Open h s w where
  defs : w.defs = []
  pends : w.pends = []
  nests : w.nests = []
  queue : ∀ a ∈ s.accs, a.agent ≠ .wave w.uid

/-! ## What completing an instruction may touch -/

/-- An address of the wave's spill area: 256 registers of 128 bytes (R131). -/
def inSpill (w : Wave) (a : Nat) : Prop := ∃ p, w.spillPa = some p ∧ p ≤ a ∧ a < p + 32768

/-- `t` differs from `s` at most in wave `w`, in the issue accounting of its core (R147, R275, R347) and latches (R288), and in
bytes of the wave's spill area and their poison. -/
structure Only (s t : State) (w : Wave) : Prop where
  rest : t = { s with waves := t.waves, cores := t.cores, mem := t.mem, poison := t.poison }
  marks : ∀ u, (∀ b, u = .mem b → ¬inSpill w (32 * b)) → (u ∈ t.poison ↔ u ∈ s.poison)
  others : ∀ u, u ≠ w.uid → t.wave? u = s.wave? u
  bytes : ∀ a, ¬inSpill w a → t.mem.read a = s.mem.read a
  far : ∀ c, c ≠ w.core → t.coreOf c = s.coreOf c
  near : t.coreOf w.core =
    { s.coreOf w.core with ports := (t.coreOf w.core).ports, window := (t.coreOf w.core).window,
                              idle := (t.coreOf w.core).idle }

/-- Two waves agree in everything but the bookkeeping of issue: what it waits for, its ready count, the weights of its last
instructions (R208), a used-up exemption (R341), its step (R345), the order of use of its registers and which of them
are spilled (R130). -/
def Wave.same (w x : Wave) : Prop :=
  w = { x with hold := w.hold, ready := w.ready, weights := w.weights, exempt := w.exempt, step := w.step, lru := w.lru,
               spilled := w.spilled }

/-- Instruction `i` completes on wave `w` of state `s`: a next state in which the wave is `x`, and everything else is as in
`s'`. -/
def RunsIn (i : Instr) (s s' : State) (w x : Wave) : Prop :=
  ∃ t w', exec i s = .next t ∧ t.wave? s.cur = some w' ∧ w'.same x ∧ Only s' t w

/-- The same of an instruction that touches nothing outside its wave. -/
def Runs (i : Instr) (s : State) (w x : Wave) : Prop := RunsIn i s s w x

/-! ## Vector operands and results -/

/-- The value lane `l` reads of a vector operand: of the register's lane that the permutation names, 0 where it names none
(R77), or the low 32 bits of a scalar (R78). -/
def Wave.laneOf (w : Wave) (x : VSrc) (l : Fin 32) : W32 :=
  match x with
  | .vec r p _ => match permSrc p l with
    | some j => (w.vreg r).lane j
    | none => 0
  | .sca r => low32 (w.sget r)

/-- The registers a list of sources frees (R79, R129). -/
def frees (src : List VSrc) : List VNum := src.flatMap srcFrees

/-- The wave after an instruction that frees the registers `l`, puts `r` into vD, and discards what earlier deferred
instructions would still write there (R141); nothing is written under em = 0 (R135). -/
def Wave.wrote (w : Wave) (l : List VNum) (d : VNum) (r : VReg) : Wave :=
  { ((w.freeV l).vput d r).killDefs w.defs.length (if w.em = 0 then [] else [d]) [] with pc := w.pc + 16 }

/-- What a register holds after a write under a partial mask, lane by lane: `f` in active lanes, and in the others what it
held once the sources were freed (R135, R79). -/
def Wave.merged (w : Wave) (l : List VNum) (d : VNum) (f : Fin 32 → W32) (k : Fin 32) : W32 :=
  if w.em.getLsbD k.val then f k else ((w.freeV l).vreg d).lane k

end Sys2Proof.Machine
end

