-- ==== Sys2Proof/Certificates/Slice0/Obligations.lean ====
section
/-! DEFINITION. The statements. Each concludes what a step of the machine does: that an instruction completes, the wave it
leaves (`Runs`: every field of the wave, and that nothing else changes but accounting), or the state an event leaves.
The tables beside them give results in the spec's own arithmetic, on integers. -/

namespace Sys2Proof.Machine

/-! ## Scalar results (R154) -/

/-- The compare codes on integers (R152). -/
def ccHolds (cc : Cc) (a b : Word) : Bool :=
  match cc with
  | .eq => decide (a.toNat = b.toNat)
  | .ne => decide (a.toNat ≠ b.toNat)
  | .lt => decide (a.toInt < b.toInt)
  | .le => decide (a.toInt ≤ b.toInt)
  | .gt => decide (b.toInt < a.toInt)
  | .ge => decide (b.toInt ≤ a.toInt)
  | .ltu => decide (a.toNat < b.toNat)
  | .leu => decide (a.toNat ≤ b.toNat)
  | .gtu => decide (b.toNat < a.toNat)
  | .geu => decide (b.toNat ≤ a.toNat)
  | .un => false

/-- The destination and value of each scalar instruction, modulo 2^64. -/
def scalarResult (w : Wave) : Instr → Option (Head × SReg × Word)
  | .smov h d a => some (h, d, w.sget a)
  | .smovi h d imm => some (h, d, BitVec.ofInt 64 imm.toInt)
  | .slui h d a imm => some (h, d, BitVec.ofNat 64 ((w.sget a).toNat * 2 ^ 24 + imm.toNat))
  | .sadd h d a b => some (h, d, BitVec.ofInt 64 ((w.sget a).toInt + (w.sget b).toInt))
  | .saddImm h d a imm => some (h, d, BitVec.ofInt 64 ((w.sget a).toInt + imm.toInt))
  | .ssub h d a b => some (h, d, BitVec.ofInt 64 ((w.sget a).toInt - (w.sget b).toInt))
  | .smul h d a b => some (h, d, BitVec.ofInt 64 ((w.sget a).toInt * (w.sget b).toInt))
  | .smulh h d a b => some (h, d, BitVec.ofInt 64 ((w.sget a).toInt * (w.sget b).toInt / 2 ^ 64))
  | .sdiv h d a b => some (h, d, BitVec.ofInt 64 (Int.tdiv (w.sget a).toInt (w.sget b).toInt))
  | .srem h d a b => some (h, d, BitVec.ofInt 64 (Int.tmod (w.sget a).toInt (w.sget b).toInt))
  | .sand h d a b => some (h, d, w.sget a &&& w.sget b)
  | .sandImm h d a imm => some (h, d, w.sget a &&& BitVec.ofInt 64 imm.toInt)
  | .sor h d a b => some (h, d, w.sget a ||| w.sget b)
  | .sorImm h d a imm => some (h, d, w.sget a ||| BitVec.ofInt 64 imm.toInt)
  | .sxor h d a b => some (h, d, w.sget a ^^^ w.sget b)
  | .sxorImm h d a imm => some (h, d, w.sget a ^^^ BitVec.ofInt 64 imm.toInt)
  | .sshl h d a b => some (h, d, BitVec.ofNat 64 ((w.sget a).toNat * 2 ^ ((w.sget b).toNat % 64)))
  | .sshlImm h d a imm => some (h, d, BitVec.ofNat 64 ((w.sget a).toNat * 2 ^ (imm.toNat % 64)))
  | .sshr h d a b => some (h, d, BitVec.ofNat 64 ((w.sget a).toNat / 2 ^ ((w.sget b).toNat % 64)))
  | .sshrImm h d a imm => some (h, d, BitVec.ofNat 64 ((w.sget a).toNat / 2 ^ (imm.toNat % 64)))
  | .ssar h d a b => some (h, d, BitVec.ofInt 64 ((w.sget a).toInt / 2 ^ ((w.sget b).toNat % 64)))
  | .ssarImm h d a imm => some (h, d, BitVec.ofInt 64 ((w.sget a).toInt / 2 ^ (imm.toNat % 64)))
  | .smin h d a b => some (h, d, BitVec.ofInt 64 (min (w.sget a).toInt (w.sget b).toInt))
  | .smax h d a b => some (h, d, BitVec.ofInt 64 (max (w.sget a).toInt (w.sget b).toInt))
  | .scmp h d a b cc => some (h, d, if ccHolds cc (w.sget a) (w.sget b) then 1 else 0)
  | .ssel h d a b sc => some (h, d, if w.sget sc = 0 then w.sget b else w.sget a)
  | .sbfx h d a pos wid => some (h, d, BitVec.ofNat 64 ((w.sget a).toNat / 2 ^ pos.val % 2 ^ wid.val))
  | .sbfi h d a pos wid =>
    some (h, d, BitVec.ofFnLE (fun i : Fin 64 =>
      if pos.val ≤ i.val ∧ i.val < pos.val + wid.val then (w.sget a).getLsbD (i.val - pos.val) else (w.sget d).getLsbD i.val))
  | .spopc h d a => some (h, d, BitVec.ofNat 64 ((List.range 64).countP (fun i => (w.sget a).getLsbD i)))
  | .sclz h d a => some (h, d, BitVec.ofNat 64 (((List.range 64).find? (fun i => (w.sget a).getLsbD (63 - i))).getD 64))
  | .sctz h d a => some (h, d, BitVec.ofNat 64 (((List.range 64).find? (fun i => (w.sget a).getLsbD i)).getD 64))
  | _ => none


/-! ## Vector results (R159 to R169) -/

/-- Of the values of active lanes from lane 0 up to lane `l`, combined in that order; none if no lane among them is active
(R169). -/
def runTo (op : Aop) (em : Mask) (x : Fin 32 → W32) (l : Nat) : Option W32 :=
  (List.finRange 32).foldl (fun r k =>
    if em.getLsbD k.val && decide (k.val ≤ l) then
      match r with
      | none => some (x k)
      | some y => some (aopValue op y (x k))
    else r) none

/-- The sum of an accumulator and products of the signed n-bit elements of two words (R159). -/
def dotSum (n : Nat) (x y c : W32) : Int :=
  c.toInt + ((List.range (32 / n)).map (fun k => (x.extractLsb' (n * k) n).toInt * (y.extractLsb' (n * k) n).toInt)).sum

/-- Of each instruction with one vector destination that holds a value for each lane: the registers it frees, its
destination, and lane l's value. -/
def laneResult (w : Wave) : Instr → Option (Head × List VNum × VNum × (Fin 32 → W32))
  | .vmov h d a => some (h, frees [a], d, fun l => w.laneOf a l)
  | .vmovi h d imm => some (h, [], d, fun _ => imm)
  | .vadd h d a b => some (h, frees [a, b], d, fun l => BitVec.ofInt 32 ((w.laneOf a l).toInt + (w.laneOf b l).toInt))
  | .vadds h d a b => some (h, frees [a, b], d, fun l =>
      BitVec.ofInt 32 (max (-2 ^ 31) (min (2 ^ 31 - 1) ((w.laneOf a l).toInt + (w.laneOf b l).toInt))))
  | .vsub h d a b => some (h, frees [a, b], d, fun l => BitVec.ofInt 32 ((w.laneOf a l).toInt - (w.laneOf b l).toInt))
  | .vmul h d a b => some (h, frees [a, b], d, fun l => BitVec.ofInt 32 ((w.laneOf a l).toInt * (w.laneOf b l).toInt))
  | .vmulh h d a b => some (h, frees [a, b], d, fun l =>
      BitVec.ofInt 32 ((w.laneOf a l).toInt * (w.laneOf b l).toInt / 2 ^ 32))
  | .vmad h d a b c => some (h, frees [a, b, c], d, fun l =>
      BitVec.ofInt 32 ((w.laneOf a l).toInt * (w.laneOf b l).toInt + (w.laneOf c l).toInt))
  | .vand h d a b => some (h, frees [a, b], d, fun l => w.laneOf a l &&& w.laneOf b l)
  | .vor h d a b => some (h, frees [a, b], d, fun l => w.laneOf a l ||| w.laneOf b l)
  | .vxor h d a b => some (h, frees [a, b], d, fun l => w.laneOf a l ^^^ w.laneOf b l)
  | .vnot h d a => some (h, frees [a], d, fun l => ~~~w.laneOf a l)
  | .vshl h d a b => some (h, frees [a, b], d, fun l => BitVec.ofNat 32 ((w.laneOf a l).toNat * 2 ^ ((w.laneOf b l).toNat % 32)))
  | .vshr h d a b => some (h, frees [a, b], d, fun l => BitVec.ofNat 32 ((w.laneOf a l).toNat / 2 ^ ((w.laneOf b l).toNat % 32)))
  | .vsar h d a b => some (h, frees [a, b], d, fun l => BitVec.ofInt 32 ((w.laneOf a l).toInt / 2 ^ ((w.laneOf b l).toNat % 32)))
  | .vmin h d a b => some (h, frees [a, b], d, fun l => BitVec.ofInt 32 (min (w.laneOf a l).toInt (w.laneOf b l).toInt))
  | .vmax h d a b => some (h, frees [a, b], d, fun l => BitVec.ofInt 32 (max (w.laneOf a l).toInt (w.laneOf b l).toInt))
  | .vabs h d a => some (h, frees [a], d, fun l => BitVec.ofNat 32 (w.laneOf a l).toInt.natAbs)
  | .vneg h d a => some (h, frees [a], d, fun l => BitVec.ofInt 32 (-(w.laneOf a l).toInt))
  | .vsel h d a b c => some (h, frees [a, b, c], d, fun l => if w.laneOf c l = 0 then w.laneOf b l else w.laneOf a l)
  | .vbfx h d a pos wid => some (h, frees [a], d, fun l => BitVec.ofNat 32 ((w.laneOf a l).toNat / 2 ^ pos.val % 2 ^ wid.val))
  | .vbfi h d a pos wid => some (h, frees [a], d, fun l => BitVec.ofFnLE (fun i : Fin 32 =>
      if pos.val ≤ i.val ∧ i.val < pos.val + wid.val then (w.laneOf a l).getLsbD (i.val - pos.val)
      else ((w.vreg d).lane l).getLsbD i.val))
  | .vpopc h d a => some (h, frees [a], d, fun l => BitVec.ofNat 32 ((List.range 32).countP (fun i => (w.laneOf a l).getLsbD i)))
  | .vclz h d a => some (h, frees [a], d, fun l =>
      BitVec.ofNat 32 (((List.range 32).find? (fun i => (w.laneOf a l).getLsbD (31 - i))).getD 32))
  | .vlane h d => some (h, [], d, fun l => BitVec.ofNat 32 l.val)
  | .vdot4 h d a b c => some (h, frees [a, b, c], d, fun l => BitVec.ofInt 32 (dotSum 8 (w.laneOf a l) (w.laneOf b l) (w.laneOf c l)))
  | .vdot8 h d a b c => some (h, frees [a, b, c], d, fun l => BitVec.ofInt 32 (dotSum 4 (w.laneOf a l) (w.laneOf b l) (w.laneOf c l)))
  | .fadd h d a b => some (h, frees [a, b], d, fun l => fAdd (w.laneOf a l) (w.laneOf b l))
  | .fsub h d a b => some (h, frees [a, b], d, fun l => fSub (w.laneOf a l) (w.laneOf b l))
  | .fmul h d a b => some (h, frees [a, b], d, fun l => fMul (w.laneOf a l) (w.laneOf b l))
  | .ffma h d a b c => some (h, frees [a, b, c], d, fun l => fFma (w.laneOf a l) (w.laneOf b l) (w.laneOf c l))
  | .fmin h d a b => some (h, frees [a, b], d, fun l => fMin (w.laneOf a l) (w.laneOf b l))
  | .fmax h d a b => some (h, frees [a, b], d, fun l => fMax (w.laneOf a l) (w.laneOf b l))
  | .fabs h d a => some (h, frees [a], d, fun l => fAbs (w.laneOf a l))
  | .fneg h d a => some (h, frees [a], d, fun l => fNeg (w.laneOf a l))
  | .fclass h d a => some (h, frees [a], d, fun l => fClass (w.laneOf a l))
  | .ftrunc h d a => some (h, frees [a], d, fun l => fIntegral .zero (w.laneOf a l))
  | .ffloor h d a => some (h, frees [a], d, fun l => fIntegral .down (w.laneOf a l))
  | .fceil h d a => some (h, frees [a], d, fun l => fIntegral .up (w.laneOf a l))
  | .fdot2 h d a b c => some (h, frees [a, b, c], d, fun l => dotElems .bf16 (w.laneOf a l) (w.laneOf b l) (w.laneOf c l))
  | .fdot4 h d a b c => some (h, frees [a, b, c], d, fun l => dotElems .e4m3 (w.laneOf a l) (w.laneOf b l) (w.laneOf c l))
  | .fexp2 h d a => some (h, frees [a], d, fun l => special .exp2 (w.laneOf a l))
  | .flog2 h d a => some (h, frees [a], d, fun l => special .log2 (w.laneOf a l))
  | .frcp h d a => some (h, frees [a], d, fun l => special .rcp (w.laneOf a l))
  | .frsq h d a => some (h, frees [a], d, fun l => special .rsq (w.laneOf a l))
  | .fsin h d a => some (h, frees [a], d, fun l => special .sin (w.laneOf a l))
  | .fcos h d a => some (h, frees [a], d, fun l => special .cos (w.laneOf a l))
  | .ftanh h d a => some (h, frees [a], d, fun l => special .tanh (w.laneOf a l))
  | .fsigm h d a => some (h, frees [a], d, fun l => special .sigm (w.laneOf a l))
  | .ferf h d a => some (h, frees [a], d, fun l => special .erf (w.laneOf a l))
  | .cvt h d a f => some (h, frees [a], d, fun l => cvtValue f (w.laneOf a l))
  | .pack h d a f => some (h, grpFrees a f.perWord, d, fun l =>
      packValue f ((groupRegs a.reg f.perWord).map (fun r => (w.vreg r).lane l)))
  | .unpk h d a f k => some (h, frees [a], d, fun l => unpkValue f k.val (w.laneOf a l))
  | .vperm h d a b => some (h, frees [a, b], d, fun l =>
      if i : (w.laneOf b l).toNat < 32 then w.laneOf a ⟨(w.laneOf b l).toNat, i⟩ else 0)
  | .redu h d a op => some (h, frees [a], d, fun _ => reduValue op w.em (.gen (lanesBy (w.laneOf a))))
  | .scan h d a op => some (h, frees [a], d, fun l => aopCanon op ((runTo op w.em (w.laneOf a) l.val).getD 0))
  | _ => none

/-- The results under a full mask of R134's rows for an affine source, of REDU, of VPERM by a uniform index (R168), and of SCAN of a
uniform register (R169). -/
def affineResult (w : Wave) : Instr → Option (Head × List VNum × VNum × VReg)
  | .vlane h d => some (h, [], d, .aff 0 1)
  | .vmov h d a => match w.src a with
    | .aff x t => some (h, frees [a], d, .aff x t)
    | _ => none
  | .vadd h d a b => match w.src a, w.src b with
    | .aff x t, .uni u => some (h, frees [a, b], d, .aff (x + u) t)
    | .uni u, .aff x t => some (h, frees [a, b], d, .aff (x + u) t)
    | .aff x t, .aff y u => some (h, frees [a, b], d, .aff (x + y) (t + u))
    | _, _ => none
  | .vsub h d a b => match w.src a, w.src b with
    | .aff x t, .uni u => some (h, frees [a, b], d, .aff (x - u) t)
    | .uni u, .aff x t => some (h, frees [a, b], d, .aff (u - x) (-t))
    | .aff x t, .aff y u => some (h, frees [a, b], d, .aff (x - y) (t - u))
    | _, _ => none
  | .vneg h d a => match w.src a with
    | .aff x t => some (h, frees [a], d, .aff (-x) (-t))
    | _ => none
  | .vmul h d a b => match w.src a, w.src b with
    | .aff x t, .uni u => some (h, frees [a, b], d, .aff (x * u) (t * u))
    | .uni u, .aff x t => some (h, frees [a, b], d, .aff (x * u) (t * u))
    | _, _ => none
  | .vmad h d a b c => match w.src a, w.src b, w.src c with
    | .aff x t, .uni u, .uni v => some (h, frees [a, b, c], d, .aff (x * u + v) (t * u))
    | .uni u, .aff x t, .uni v => some (h, frees [a, b, c], d, .aff (x * u + v) (t * u))
    | _, _, _ => none
  | .vshl h d a b => match w.src a, w.src b with
    | .aff x t, .uni k => some (h, frees [a, b], d, .aff (x <<< (k.toNat % 32)) (t <<< (k.toNat % 32)))
    | _, _ => none
  | .redu h d a op => some (h, frees [a], d, .uni (reduValue op w.em (w.src a)))
  | .vperm h d a b => match w.src b with
    | .uni u => some (h, frees [a, b], d, .uni (if k : u.toNat < 32 then w.laneOf a ⟨u.toNat, k⟩ else 0))
    | _ => none
  | .scan h d a op => match w.src a, op with
    | .uni u, .add => some (h, frees [a], d, .aff u u)
    | .uni u, .band | .uni u, .bor | .uni u, .mins | .uni u, .maxs | .uni u, .minu | .uni u, .maxu => some (h, frees [a], d, .uni u)
    | .uni u, .fmin | .uni u, .fmax => some (h, frees [a], d, .uni (canon u))
    | _, _ => none
  | _ => none

/-- Every source of an instruction of R134's row 'every source U' is uniform, an unwritten register counting as uniform zero (R133):
VMOVI has none, PACK reads its group, and VBFI its destination. -/
def uniformSources (w : Wave) : Instr → Prop
  | .vmovi _ _ _ => True
  | .vmov _ _ a | .vnot _ _ a | .vabs _ _ a | .vneg _ _ a | .vpopc _ _ a | .vclz _ _ a | .vbfx _ _ a _ _ | .fabs _ _ a
  | .fneg _ _ a | .fclass _ _ a | .ftrunc _ _ a | .ffloor _ _ a | .fceil _ _ a | .fexp2 _ _ a | .flog2 _ _ a | .frcp _ _ a
  | .frsq _ _ a | .fsin _ _ a | .fcos _ _ a | .ftanh _ _ a | .fsigm _ _ a | .ferf _ _ a | .fsqrt _ _ a | .cvt _ _ a _
  | .unpk _ _ a _ _ => (w.src a).tag = 0
  | .vadd _ _ a b | .vadds _ _ a b | .vsub _ _ a b | .vmul _ _ a b | .vmulh _ _ a b | .vand _ _ a b | .vor _ _ a b
  | .vxor _ _ a b | .vshl _ _ a b | .vshr _ _ a b | .vsar _ _ a b | .vmin _ _ a b | .vmax _ _ a b | .fadd _ _ a b
  | .fsub _ _ a b | .fmul _ _ a b | .fmin _ _ a b | .fmax _ _ a b | .vdiv _ _ a b | .vrem _ _ a b | .fdiv _ _ a b =>
    (w.src a).tag = 0 ∧ (w.src b).tag = 0
  | .vmad _ _ a b c | .vsel _ _ a b c | .vdot4 _ _ a b c | .vdot8 _ _ a b c | .ffma _ _ a b c | .fdot2 _ _ a b c
  | .fdot4 _ _ a b c => (w.src a).tag = 0 ∧ (w.src b).tag = 0 ∧ (w.src c).tag = 0
  | .vbfi _ d a _ _ => (w.src a).tag = 0 ∧ (w.vreg d).tag = 0
  | .pack _ _ a f => ∀ r ∈ groupRegs a.reg f.perWord, (w.vreg r).tag = 0
  | _ => False

/-- The freed registers, destination, sources and value in every lane of the scoreboarded arithmetic (R144, R159, R161). -/
def longResult (w : Wave) : Instr → Option (Head × List VNum × VNum × (Fin 32 → W32))
  | .vdiv h d a b => some (h, frees [a, b], d, fun l => BitVec.ofInt 32 (Int.tdiv (w.laneOf a l).toInt (w.laneOf b l).toInt))
  | .vrem h d a b => some (h, frees [a, b], d, fun l =>
      if w.laneOf b l = 0 then w.laneOf a l else BitVec.ofInt 32 (Int.tmod (w.laneOf a l).toInt (w.laneOf b l).toInt))
  | .fdiv h d a b => some (h, frees [a, b], d, fun l => fDiv (w.laneOf a l) (w.laneOf b l))
  | .fsqrt h d a => some (h, frees [a], d, fun l => fSqrt (w.laneOf a l))
  | _ => none

/-- The comparisons: destination, frees, and the relation lane by lane (R160, R152). -/
def compareResult (w : Wave) : Instr → Option (Head × List VNum × SReg × (Fin 32 → Bool))
  | .vcmp h d a b cc => some (h, frees [a, b], d, fun l => match cc with
      | .eq => decide ((w.laneOf a l).toNat = (w.laneOf b l).toNat)
      | .ne => decide ((w.laneOf a l).toNat ≠ (w.laneOf b l).toNat)
      | .lt => decide ((w.laneOf a l).toInt < (w.laneOf b l).toInt)
      | .le => decide ((w.laneOf a l).toInt ≤ (w.laneOf b l).toInt)
      | .gt => decide ((w.laneOf b l).toInt < (w.laneOf a l).toInt)
      | .ge => decide ((w.laneOf b l).toInt ≤ (w.laneOf a l).toInt)
      | .ltu => decide ((w.laneOf a l).toNat < (w.laneOf b l).toNat)
      | .leu => decide ((w.laneOf a l).toNat ≤ (w.laneOf b l).toNat)
      | .gtu => decide ((w.laneOf b l).toNat < (w.laneOf a l).toNat)
      | .geu => decide ((w.laneOf b l).toNat ≤ (w.laneOf a l).toNat)
      | .un => false)
  | .fcmp h d a b cc => some (h, frees [a, b], d, fun l => floatCompare cc (w.laneOf a l) (w.laneOf b l))
  | _ => none

/-! ## Control, masks, shape, stacks (R155 to R158, R171 to R181) -/

/-- A branch's target: IMM24 counts words of eight bytes, signed (R155). -/
def targetOf (w : Wave) (ofs : BitVec 24) : Word := BitVec.ofInt 64 ((w.pc.toNat : Int) + 8 * ofs.toInt)

/-- The wave after a branch that is taken or not. -/
def branched (w : Wave) (taken : Bool) (ofs : BitVec 24) : Wave := { w with pc := if taken then targetOf w ofs else w.pc + 8 }

/-- The wave after each control instruction that ends within its wave (R155, R158). -/
def controlResult (w : Wave) : Instr → Option (Head × Wave)
  | .br h ofs => some (h, branched w true ofs)
  | .brz h a ofs => some (h, branched w (w.sget a = 0) ofs)
  | .brnz h a ofs => some (h, branched w (w.sget a ≠ 0) ofs)
  | .brb h a n ofs => some (h, branched w ((w.sget a).toNat / 2 ^ n.val % 2 = 1) ofs)
  | .brm h n ofs => some (h, branched w (match n with
      | 0 => w.em = 0
      | 1 => w.em ≠ 0
      | 2 => w.em = 0xFFFFFFFF
      | 3 => w.em ≠ 0xFFFFFFFF) ofs)
  | .call h ofs => some (h, { w.sset 62 (w.pc + 8) with pc := targetOf w ofs })
  | .ret h => some (h, { w with pc := BitVec.ofNat 64 ((w.sget 62).toNat / 8 * 8) })
  | .jmpr h a => some (h, { w with pc := BitVec.ofNat 64 ((w.sget a).toNat / 8 * 8) })
  | .sloop h d ofs => some (h, branched (w.sset d (w.sget d - 1)) (d ≠ 0 ∧ w.sget d ≠ 1) ofs)
  | .nopw h => some (h, { w with pc := w.pc + 8 })
  | _ => none

/-- The wave after each mask instruction and VTAG: registers freed, and the wave (R171, R172). -/
def maskResult (w : Wave) : Instr → Option (Head × Wave)
  | .mset h a => some (h, { w with em := (w.sget a).setWidth 32, pc := w.pc + 16 })
  | .mget h d => some (h, { w.sset d (w.em.setWidth 64) with pc := w.pc + 16 })
  | .mand h a => some (h, { w with em := w.em &&& (w.sget a).setWidth 32, pc := w.pc + 16 })
  | .mandn h a => some (h, { w with em := w.em &&& ~~~(w.sget a).setWidth 32, pc := w.pc + 16 })
  | .mor h a => some (h, { w with em := w.em ||| (w.sget a).setWidth 32, pc := w.pc + 16 })
  | .mnot h => some (h, { w with em := ~~~w.em, pc := w.pc + 16 })
  | .vtag h d a => some (h, { (w.freeV (if a.last then [a.reg] else [])).sset d (match w.vreg a.reg with
      | .none | .uni _ => 0
      | .aff _ _ => 1
      | .gen _ => 2) with pc := w.pc + 16 })
  | _ => none

/-- What an instruction on the operand stacks does in an active lane: the registers it frees, lane l's new stack, the lane's
bit of xst after it, and the register it writes with lane l's value (R181). -/
def stackResult (w : Wave) : Instr → Option (Head × List VNum × (Fin 32 → List W32) × (Fin 32 → Bool) × Option (VNum × (Fin 32 → W32)))
  | .xpush h a => some (h, frees [a], fun l => if (w.stacksOf[l.val]).length = 8 then w.stacksOf[l.val] else w.laneOf a l :: w.stacksOf[l.val],
      fun l => w.xst.getLsbD l.val || decide ((w.stacksOf[l.val]).length = 8), none)
  | .xpop h d => some (h, [], fun l => (w.stacksOf[l.val]).tail, fun l => w.xst.getLsbD l.val || (w.stacksOf[l.val]).isEmpty,
      some (d, fun l => (w.stacksOf[l.val]).headD 0))
  | .xtop h d => some (h, [], fun l => w.stacksOf[l.val], fun l => w.xst.getLsbD l.val || (w.stacksOf[l.val]).isEmpty,
      some (d, fun l => (w.stacksOf[l.val]).headD 0))
  | .xclr h => some (h, [], fun _ => [], fun _ => false, none)
  | .xdepth h d => some (h, [], fun l => w.stacksOf[l.val], fun l => w.xst.getLsbD l.val,
      some (d, fun l => BitVec.ofNat 32 (w.stacksOf[l.val]).length))
  | _ => none

/-- The outcome of lane l of an XEV whose lane-opcode words stand in `op` and whose values stand in the eight registers from
`g` on (R177). -/
def xevOutcome (w : Wave) (op : VSrc) (g : VGrp) (l : Fin 32) : LaneRes :=
  xevLane (w.laneOf op l) w.stacksOf[l.val] (fun k => (w.vreg (groupReg g.reg k)).lane l)

/-- The lanes of an XEV whose outcome is bad, of those that are active. -/
def xevBad (w : Wave) (op : VSrc) (g : VGrp) (l : Fin 32) : Bool :=
  w.em.getLsbD l.val && (match xevOutcome w op g l with
    | .fault _ => true
    | .ok _ z => z)

/-! ## Memory instructions (R182 to R195) -/

/-- A memory instruction as its lanes ask for it: the registers it frees, how it reaches memory, one want for each active lane,
the alignment of R184, its kind of access, and the pending result of a deferred one. -/
structure Call where
  head : Head
  fv : List VNum
  reach : Reach
  wants : List Want
  align : Nat
  ord : MOrd
  level : Nat
  kind : AccKind
  need : Need
  aop : Aop := .add
  dest : Option DefDest := none

/-- The accesses of a call: a want of 16 bytes is two accesses of 8 (R37). -/
def Call.parts (c : Call) : List Want := splitWants c.wants

/-- A load (R192). -/
def loadCall (w : Wave) (h : Head) (d : VNum) (m : MemOp) (sz : Szt) (o : MMod) (r : Reach) (scale : Nat) : Call :=
  { head := h, fv := frees [m.index], reach := r, wants := wantsOf w m scale (sztBytes sz) (fun _ => []), align := sztBytes sz,
    ord := o.ord, level := o.scope.val, kind := .load, need := .read, dest := some (.vload d sz (w.sameAddr m.index)) }

/-- A store (R193). -/
def storeCall (w : Wave) (h : Head) (m : MemOp) (c : VSrc) (sz : Szt) (o : MMod) (r : Reach) (scale : Nat) : Call :=
  { head := h, fv := frees [m.index] ++ dataFrees c sz.regs, reach := r,
    wants := wantsOf w m scale (sztBytes sz) (storeData w c sz), align := sztBytes sz, ord := o.ord, level := o.scope.val,
    kind := .store, need := .write }

/-- The calls that ask for accesses lane by lane. -/
def callOf (w : Wave) : Instr → Option Call
  | .ld h d m sz o => some (loadCall w h d m sz o (.virtual true) 1)
  | .lds h d m sz o => some (loadCall w h d m sz o .offset 1)
  | .ldb h d m sz o => some (loadCall w h d m sz o (.virtual true) (sztBytes sz))
  | .st h m c sz o => some (storeCall w h m c sz o (.virtual true) 1)
  | .sts h m c sz o => some (storeCall w h m c sz o .offset 1)
  | .stb h m c sz o => some (storeCall w h m c sz o (.virtual true) (sztBytes sz))
  | .atom h d m c op o => some
    { head := h, fv := frees [m.index] ++ dataFrees c (if op = .cas then 2 else 1), reach := .virtual true,
      wants := rmwWants w m c op, align := 4, ord := o.ord, level := o.scope.val, kind := .rmw, need := .update, aop := op,
      dest := some (.vatom d) }
  | .red h m c op o => some
    { head := h, fv := frees [m.index] ++ frees [c], reach := .virtual true, wants := rmwWants w m c op,
      align := 4, ord := o.ord, level := o.scope.val, kind := .rmw, need := .update, aop := op }
  | _ => none

/-- A want's address error, if it has one: misaligned 1, or what its region says (R184). -/
def wantError (s : State) (w : Wave) (c : Call) (x : Want) : Option Nat :=
  if x.va % c.align ≠ 0 then some 1
  else match s.region w c.reach (BitVec.ofNat 64 x.va) with
    | .err d => some d
    | _ => none

/-- Whether a watchpoint slot of the wave's address space hits a want. -/
def wantWatched (s : State) (w : Wave) (c : Call) (x : Want) : Prop :=
  ∃ a, s.spaceOf w = some a ∧ w.exempt = false ∧
    ∃ n : Fin 8, s.wpHit w a n c.reach (decide (c.kind ≠ .store)) (decide (c.kind ≠ .load)) false x = true

/-- A leaf that translates a virtual address for a wave: a live TLB entry of its die, or a walk (R185, R319), whatever free
values stand for bytes that the walk cannot read. -/
def Leads (s : State) (w : Wave) (va : Nat) (l : Leaf) : Prop :=
  (∃ e ∈ s.tlb, e.leaf = l ∧ e.asid = s.asidOf w ∧ e.core.die = w.core.die ∧ s.clk < e.expiry ∧
    if l.big then e.vpage / 512 = va / 2 ^ 25 else e.vpage = va / 65536) ∨
  ∃ a n, s.spaceOf w = some a ∧ (({ s with drawn := n } : State).walk (corePath w.core) a.ptb.toNat va).2 = .ok l

/-- The wave's side log lets an instruction go on (R40, R49): where an entry of the wave stands it is not SC, the instruction is no
release and not SC, and none of its pages is strongly ordered. -/
def Unheld (s : State) (w : Wave) (ord : MOrd) (reach : Reach) (xs : List Want) : Prop :=
  ∀ e ∈ s.side, e.wave = w.uid → e.ord ≠ .sc ∧ ord ≠ .rel ∧ ord ≠ .sc ∧
    ∀ x ∈ xs, s.region w reach (BitVec.ofNat 64 x.va) = .page → ∀ l, Leads s w x.va l → l.mt ≠ 3

/-- `t` is `s` but for what looking pages up leaves: translations, cached lines, and the counts of identities and of free values
drawn. -/
def LooksUp (s t : State) : Prop := t = { s with nextUid := t.nextUid, drawn := t.drawn, tlb := t.tlb, caches := t.caches }

/-- Nothing keeps a call from issuing: no address error, no watchpoint, a space whose faults are logged (R320), no pending
fault or full return buffer, a side log that lets it go on and has room (R62). -/
structure Clear (s : State) (w : Wave) (c : Call) : Prop where
  addrs : ∀ x ∈ c.wants, wantError s w c x = none
  halves : ∀ x ∈ c.parts, ∀ d, s.region w c.reach (BitVec.ofNat 64 x.va) ≠ .err d
  free : ∀ x ∈ c.wants, ¬wantWatched s w c x
  logged : ∃ a, s.spaceOf w = some a ∧ field a.fltCfg 0 4 ≠ 0
  pends : w.pends = []
  defs : w.defs.length < 64
  room : (s.side.filter (fun e => e.core == w.core)).length + c.wants.length ≤ 256
  side : Unheld s w c.ord c.reach c.wants

/-- Access `a` is what want `x` of a call asks for: at its home (R183), at the translated address of a page that admits it, or,
of a load whose page faults, held by that fault's record (R189). -/
structure Asks (s t : State) (w : Wave) (c : Call) (instr : Nat) (dest : Option Nat) (x : Want) (a : Access) : Prop where
  form : a = { a with agent := .wave w.uid, core := w.core, instr := instr, kind := c.kind, size := x.size, lane := x.lane,
                      part := x.part, data := x.data, aop := c.aop, opA := x.opA, opB := x.opB, level := c.level,
                      priv := w.priv, defId := dest, va := x.va, asid := s.asidOf w, pc := w.pc, seq := w.seq + 1,
                      slot := w.slot.val, gen := false, sub := 0, nest := none }
  place : match s.region w c.reach (BitVec.ofNat 64 x.va) with
    | .home p => a.place = p ∧ a.held = none ∧ a.ord = c.ord
    | _ => match a.held with
      | some f => c.dest.isSome ∧ ∃ y ∈ t.faults, y.id = f ∧ y.asid = s.asidOf w ∧ y.page = x.va / 65536 ∧ y.kind = c.need.kind
      | none => ∃ l, Leads s w x.va l ∧ l.allows c.need w.priv = true ∧ a.place = .mem (l.page x.va + x.va % 65536) ∧
          a.ord = (if l.mt = 3 then .sc else c.ord) ∧ a.key = l.key

/-- A side-log entry holds want `x` of a call, its page faulting (R62, R190). -/
structure Logs (s t : State) (w : Wave) (c : Call) (instr : Nat) (x : Want) (e : SideEntry) : Prop where
  form : e = { e with wave := w.uid, core := w.core, loc := w.loc, grid := s.gridUid w, pc := w.pc, seq := w.seq + 1, instr := instr, asid := s.asidOf w,
                      page := x.va / 65536, user := !w.priv, ord := c.ord, level := c.level,
                      rmw := if c.kind = .rmw then some c.aop else none, ready := false }
  lane : SideLane.mk x.lane x.va x.data ∈ e.lanes
  fault : ∃ y ∈ t.faults, y.id = e.fault ∧ y.asid = s.asidOf w ∧ y.page = x.va / 65536 ∧ y.kind = c.need.kind

/-! ## The ordering machine (R36 to R58) -/

/-- The byte at `a` as a search of an aligned piece finds it (R37, R39): at each node upward the newest entry of the write
buffer, then a cache entry that holds all of `rest`, the bytes of the piece that nothing lower held; at last M. -/
def pieceByte (s : State) (a : Nat) : List NodeId → List Nat → Byte
  | [], _ => s.mem.read a
  | n :: ns, rest =>
    match wbByte s.wb n a with
    | some b => b.1
    | none =>
      let rest := rest.filter (fun x => (wbByte s.wb n x).isNone)
      match s.cacheHit n rest with
      | some c => c.at a
      | none => pieceByte s a ns rest

/-- Byte `i` of the `n` that an access reads at a place: the newest on its path to M, or the single copy of a core-homed place
(R36, R37, R39). -/
def byteSeen (s : State) (path : List NodeId) (p : Place) (n i : Nat) : Byte :=
  match placeAt p i with
  | .mem a => pieceByte s a path ((List.range n).filterMap (fun j => match placeAt p j with
      | .mem b => if b / 8 = a / 8 then some b else none
      | _ => none))
  | q => (s.homeByte q).1

/-- `n` bytes at a place can be read as they stand: no register window of a module, no other key (R367), no poison (R334), a
route (R365), no spilled register (R131). -/
structure Readable (s : State) (key : BitVec 8) (p : Place) (n : Nat) : Prop where
  plain : ∀ a, p = .mem a → deviceWindow a = false
  keys : ∀ i < n, ∀ a, placeAt p i = .mem a → s.keyDiffers key (a / 128) = false ∧ s.reachable a = true
  clean : s.poison = [] ∧ ∀ e ∈ s.wb, e.poison = false
  home : ∀ u o v, p = .win u o → s.wave? u = some v → v.spilled = []

/-- An access stands in its queue and may perform (R37, R40, R63). -/
structure Enabled (s : State) (x : Access) : Prop where
  queued : s.accs.find? (fun a => a.id == x.id) = some x
  may : s.mayGo x = true
  side : s.sideClear x = true

/-- The state with an access out of its queue. -/
def without (s : State) (x : Access) : List Access := s.accs.filter (fun a => a.id != x.id)

/-- A wave's pending result, with no byte of an access's place read before by another of its lanes. -/
def awaits (w : Wave) (x : Access) (d : Def) : Prop :=
  x.defId = some d.id ∧ d ∈ w.defs ∧ (∀ e ∈ w.defs, e.id = d.id → e = d) ∧
    ∀ i < x.size, ∀ y ∈ d.seen, y.1 ≠ placeKey (placeAt x.place i)

/-! ## Fences, barriers, monitors (R47, R56 to R61, R196 to R208) -/

/-- The access that a fence or an arrival queues: release ordered, at a level, naming its barrier. -/
def barCall (w : Wave) (id : Nat) (kind : AccKind) (ord : MOrd) (level n : Nat) : Access :=
  { id := id, agent := .wave w.uid, core := w.core, instr := id + 1, kind := kind, place := .mem 0, ord := ord, level := level,
    lane := n, pc := w.pc, seq := w.seq, slot := w.slot.val }

/-- Whether an arrival of the wave on barrier n of a kind waits in its queue, or its last arrival there was in generation g. -/
def fresher (s : State) (w : Wave) (kind : AccKind) (n : Nat) (last g : Nat) : Prop :=
  (∀ a ∈ s.accs, ¬(a.agent = .wave w.uid ∧ a.kind = kind ∧ a.lane = n)) ∧ last ≠ g

/-- MWAIT's result: the reason in bits [3:0], first of 1, 5, 2, 3, 4 that stands, and the lowest slot of it in bits [5:4]
(R203). -/
def mwaitWord (w : Wave) : Word :=
  let has (n : Nat) : Bool := w.wakes.any (fun x => x.why == n)
  let why := if has 1 then 1 else if w.intp then 5 else if has 2 then 2 else if has 3 then 3 else 4
  let slot := if why = 1 ∨ why = 2 then (((List.range 4).find? (fun k => w.wakes.any (fun x => x.why == why && x.slot == k))).getD 3) else 0
  BitVec.ofNat 64 (why + 16 * slot)

/-- The wave after MWAIT returns: its result written, its lines disarmed, no wake pending (R203). -/
def afterMwait (w : Wave) (d : SReg) : Wave :=
  { w.sset d (mwaitWord w) with mons := Vector.replicate 4 none, wakes := [], wakeLevel := 0, park := .none, pc := w.pc + 8 }

/-- The level at which MWAIT's return acquires: the highest of the lines armed, and of those that were disarmed since (R61). -/
def mwaitLevel (w : Wave) : Nat :=
  w.mons.foldl (fun n m => match m with
    | some x => max n x.level
    | none => n) w.wakeLevel

/-- The caches of a wave's path below a level are empty, and no other cache has changed: what an acquire does (R39). -/
def Acquired (s : State) (w : Wave) (level : Nat) (l : List CacheEntry) : Prop :=
  ∀ c, c ∈ l ↔ c ∈ s.caches ∧ ¬(c.node ∈ corePath w.core ∧ nodeLevel c.node < level)

/-- The record of a generation among a barrier's completions. -/
def recordOf (l : List BDone) (gen : Nat) (d : BDone) : Prop := l.find? (fun x => x.gen == gen) = some d

/-- The completed generation that a parked wave waits for, and its phase (R57, R207). -/
def waitsFor (s : State) (w : Wave) (d : BDone) (phase : Nat) : Prop :=
  ∃ c, s.cohort? w.cohort = some c ∧ match w.park with
    | .bar b => recordOf c.bdone[b.val] w.arrB[b.val] d ∧ phase = phaseOf d.cfg w.widx w.clsB[b.val] ∧
        ∀ a ∈ s.accs, ¬(a.agent = .wave w.uid ∧ a.kind = .arriveB ∧ a.lane = b.val)
    | .barw b => recordOf c.bdone[b.val] w.arrB[b.val] d ∧ phase = phaseOf d.cfg w.widx w.clsB[b.val]
    | .ebar e => recordOf c.edone[e.val] w.arrE[e.val] d ∧ phase = phaseOf d.cfg c.ensIdx w.clsE[e.val] ∧
        ∀ a ∈ s.accs, ¬(a.agent = .wave w.uid ∧ a.kind = .arriveE ∧ a.lane = e.val)
    | _ => False

/-- Whether a wave arrived in the generation g that is open still (R206). -/
def again (s : State) (w : Wave) (kind : AccKind) (n : Nat) (last g : Nat) : Prop :=
  (∀ a ∈ s.accs, ¬(a.agent = .wave w.uid ∧ a.kind = kind ∧ a.lane = n)) ∧ last = g

/-- The level at which a barrier's resumption acquires (R58). -/
def resumeLevel (p : Park) : Nat := match p with
  | .ebar _ => 2
  | _ => 1

/-! ## Vetch (R215 to R229) -/

/-- Lane l's matrix of a q register, row-major. -/
def laneMatrix (q : QReg) (l : Fin 32) : List W32 := q.elems.map (fun e => e[l.val])

/-- A uniform register holds one matrix and one status for all lanes (R218). -/
def QReg.flat (q : QReg) : Prop :=
  q.general = false → ∀ l : Fin 32, laneMatrix q l = laneMatrix q 0 ∧ q.status[l.val] = q.status[0]

/-- An instruction with a q destination: what it frees, its sources, its destination and dimensions, what the sources must be,
and each lane's matrix and status. -/
structure QCall where
  head : Head
  fv : List VNum := []
  fq : List QNum
  src : List QNum
  dst : QNum
  rows : Nat
  cols : Nat
  fits : Prop
  lane : Fin 32 → List W32
  status : Fin 32 → QStat := fun _ => .none

/-- Interlocked instructions that write qD under the mask (R223, R224). -/
def qResult (w : Wave) : Instr → Option QCall
  | .qzero h d => some { head := h, fq := [], src := [d], dst := d, rows := (w.qreg d).rows, cols := (w.qreg d).cols, fits := True,
                         lane := fun _ => List.replicate ((w.qreg d).rows * (w.qreg d).cols) 0 }
  | .qid h d => some { head := h, fq := [], src := [d], dst := d, rows := (w.qreg d).rows, cols := (w.qreg d).cols, fits := True,
                       lane := fun _ => (List.range ((w.qreg d).rows * (w.qreg d).cols)).map (fun k =>
                         if k / (w.qreg d).cols = k % (w.qreg d).cols then 0x3F800000 else 0) }
  | .qmov h d a => some { head := h, fq := qFrees a, src := [a.reg], dst := d, rows := (w.qreg a.reg).rows,
                          cols := (w.qreg a.reg).cols, fits := True, lane := laneMatrix (w.qreg a.reg),
                          status := fun l => (w.qreg a.reg).status[l.val] }
  | .qtrn h d a => some { head := h, fq := qFrees a, src := [a.reg], dst := d, rows := (w.qreg a.reg).cols,
                          cols := (w.qreg a.reg).rows, fits := True,
                          lane := fun l => (List.range ((w.qreg a.reg).rows * (w.qreg a.reg).cols)).map (fun k =>
                            (laneMatrix (w.qreg a.reg) l).getD
                              (k % (w.qreg a.reg).rows * (w.qreg a.reg).cols + k / (w.qreg a.reg).rows) 0) }
  | .qadd h d a b => some { head := h, fq := qFrees a ++ qFrees b, src := [a.reg, b.reg], dst := d, rows := (w.qreg a.reg).rows,
                            cols := (w.qreg a.reg).cols,
                            fits := (w.qreg a.reg).rows = (w.qreg b.reg).rows ∧ (w.qreg a.reg).cols = (w.qreg b.reg).cols,
                            lane := fun l => List.zipWith fAdd (laneMatrix (w.qreg a.reg) l) (laneMatrix (w.qreg b.reg) l) }
  | .qsub h d a b => some { head := h, fq := qFrees a ++ qFrees b, src := [a.reg, b.reg], dst := d, rows := (w.qreg a.reg).rows,
                            cols := (w.qreg a.reg).cols,
                            fits := (w.qreg a.reg).rows = (w.qreg b.reg).rows ∧ (w.qreg a.reg).cols = (w.qreg b.reg).cols,
                            lane := fun l => List.zipWith fSub (laneMatrix (w.qreg a.reg) l) (laneMatrix (w.qreg b.reg) l) }
  | .qscl h d a b => some { head := h, fv := frees [b], fq := qFrees a, src := [a.reg], dst := d, rows := (w.qreg a.reg).rows,
                            cols := (w.qreg a.reg).cols, fits := True,
                            lane := fun l => (laneMatrix (w.qreg a.reg) l).map (fun x => fMul x (w.laneOf b l)) }
  | .qput h d a i j => some { head := h, fv := frees [a], fq := [], src := [d], dst := d, rows := (w.qreg d).rows,
                              cols := (w.qreg d).cols, fits := i.val < (w.qreg d).rows ∧ j.val < (w.qreg d).cols,
                              lane := fun l => (laneMatrix (w.qreg d) l).set (i.val * (w.qreg d).cols + j.val) (w.laneOf a l) }
  | .qmul h d a b => some { head := h, fq := qFrees a ++ qFrees b, src := [a.reg, b.reg], dst := d, rows := (w.qreg a.reg).rows,
                            cols := (w.qreg b.reg).cols, fits := (w.qreg a.reg).cols = (w.qreg b.reg).rows,
                            lane := fun l => qProduct (laneMatrix (w.qreg a.reg) l) (laneMatrix (w.qreg b.reg) l) []
                              (w.qreg a.reg).rows (w.qreg a.reg).cols (w.qreg b.reg).cols }
  | .qmad h d a b c => some { head := h, fq := qFrees a ++ qFrees b ++ qFrees c, src := [a.reg, b.reg, c.reg], dst := d,
                              rows := (w.qreg a.reg).rows, cols := (w.qreg b.reg).cols,
                              fits := (w.qreg a.reg).cols = (w.qreg b.reg).rows ∧ (w.qreg c.reg).rows = (w.qreg a.reg).rows ∧
                                (w.qreg c.reg).cols = (w.qreg b.reg).cols,
                              lane := fun l => qProduct (laneMatrix (w.qreg a.reg) l) (laneMatrix (w.qreg b.reg) l)
                                (laneMatrix (w.qreg c.reg) l) (w.qreg a.reg).rows (w.qreg a.reg).cols (w.qreg b.reg).cols }
  | _ => none

/-- Scoreboarded instructions (R225 to R227): what they ask, and lane l's matrix and status. -/
def qLong (w : Wave) : Instr → Option QCall
  | .qchol h d a => some { head := h, fq := qFrees a, src := [a.reg], dst := d, rows := (w.qreg a.reg).rows,
                           cols := (w.qreg a.reg).rows, fits := (w.qreg a.reg).rows = (w.qreg a.reg).cols,
                           lane := fun l => (cholLane (laneMatrix (w.qreg a.reg) l) (w.qreg a.reg).rows).1,
                           status := fun l => (cholLane (laneMatrix (w.qreg a.reg) l) (w.qreg a.reg).rows).2 }
  | .qlu h d _ a => some { head := h, fq := qFrees a, src := [a.reg], dst := d, rows := (w.qreg a.reg).rows,
                           cols := (w.qreg a.reg).rows, fits := (w.qreg a.reg).rows = (w.qreg a.reg).cols,
                           lane := fun l => (luLane (laneMatrix (w.qreg a.reg) l) (w.qreg a.reg).rows).1.1,
                           status := fun l => (luLane (laneMatrix (w.qreg a.reg) l) (w.qreg a.reg).rows).1.2 }
  | .qsolvCholesky h d f b => some
    { head := h, fq := qFrees f ++ qFrees b, src := [f.reg, b.reg], dst := d,
      rows := (w.qreg f.reg).rows, cols := (w.qreg b.reg).cols,
      fits := (w.qreg f.reg).rows = (w.qreg f.reg).cols ∧ (w.qreg b.reg).rows = (w.qreg f.reg).rows,
      lane := fun l => (solveLane (laneMatrix (w.qreg f.reg) l) (laneMatrix (w.qreg b.reg) l) (w.qreg f.reg).status[l.val]
        (w.qreg b.reg).status[l.val] (w.qreg f.reg).rows (w.qreg b.reg).cols none).1,
      status := fun l => (solveLane (laneMatrix (w.qreg f.reg) l) (laneMatrix (w.qreg b.reg) l) (w.qreg f.reg).status[l.val]
        (w.qreg b.reg).status[l.val] (w.qreg f.reg).rows (w.qreg b.reg).cols none).2 }
  | .qsolvLu h d f b p => some
    { head := h, fv := frees [p], fq := qFrees f ++ qFrees b, src := [f.reg, b.reg], dst := d,
      rows := (w.qreg f.reg).rows, cols := (w.qreg b.reg).cols,
      fits := (w.qreg f.reg).rows = (w.qreg f.reg).cols ∧ (w.qreg b.reg).rows = (w.qreg f.reg).rows,
      lane := fun l => (solveLane (laneMatrix (w.qreg f.reg) l) (laneMatrix (w.qreg b.reg) l) (w.qreg f.reg).status[l.val]
        (w.qreg b.reg).status[l.val] (w.qreg f.reg).rows (w.qreg b.reg).cols (some (w.laneOf p l))).1,
      status := fun l => (solveLane (laneMatrix (w.qreg f.reg) l) (laneMatrix (w.qreg b.reg) l) (w.qreg f.reg).status[l.val]
        (w.qreg b.reg).status[l.val] (w.qreg f.reg).rows (w.qreg b.reg).cols (some (w.laneOf p l))).2 }
  | _ => none

/-- A call's sources are written and have its shapes, its destination takes its dimensions under a partial mask (R217, R220),
and the unit is free (R229). -/
structure QCall.Takes (c : QCall) (s : State) (w : Wave) : Prop where
  written : ∀ r ∈ c.src, (w.qreg r).rows ≠ 0
  fits : c.fits
  dims : w.em = 0 ∨ w.em = 0xFFFFFFFF ∨ ((w.freeQ c.fq).qreg c.dst).rows = 0 ∨
    ((w.freeQ c.fq).qreg c.dst).rows = c.rows ∧ ((w.freeQ c.fq).qreg c.dst).cols = c.cols
  free : (s.coreOf w.core).vetchFree ≤ s.clkOf w.core
  flat : ∀ r ∈ c.src, (w.qreg r).flat
  sized : ∀ r ∈ c.src, (w.qreg r).elems.length = (w.qreg r).rows * (w.qreg r).cols

/-- What register q holds where a call's result has been merged into `old` (R217, R218): the call's lanes under the mask; in
the others what they held, or zeros and no status where the register was unwritten. -/
structure QCall.Merged (c : QCall) (em : Mask) (old q : QReg) : Prop where
  none : em = 0 → q = old
  dims : em ≠ 0 → q.rows = c.rows ∧ q.cols = c.cols
  active : ∀ l : Fin 32, em.getLsbD l.val = true → q.status[l.val] = c.status l ∧
    ∀ k < c.rows * c.cols, (laneMatrix q l).getD k 0 = (c.lane l).getD k 0
  others : em ≠ 0 → ∀ l : Fin 32, em.getLsbD l.val = false →
    q.status[l.val] = (if old.rows = 0 then .none else old.status[l.val]) ∧
    ∀ k < c.rows * c.cols, (laneMatrix q l).getD k 0 = (if old.rows = 0 then 0 else (laneMatrix old l).getD k 0)

/-- The state in which a wave's Vetch unit is busy until a cycle. -/
def vetchBusy (s : State) (w : Wave) (b : Nat) : State := s.putCore { s.coreOf w.core with vetchFree := b }

/-- QSTAT's results (R228): registers freed, the value's bits, the wave's vst after it. -/
def qstatResult (w : Wave) : Instr → Option (Head × List QNum × List QNum × SReg × (Nat → Bool) × Mask)
  | .qstatVst h d => some (h, [], [], d, fun k => w.vst.getLsbD k, w.vst)
  | .qstatClear h d => some (h, [], [], d, fun k => w.vst.getLsbD k, 0)
  | .qstatNpd h d a => some (h, qFrees a, [a.reg], d, fun k => if c : k < 32 then (w.qreg a.reg).status[k] == .npd else false, w.vst)
  | .qstatSing h d a => some (h, qFrees a, [a.reg], d, fun k => if c : k < 32 then (w.qreg a.reg).status[k] == .sing else false, w.vst)
  | .qstatShape h d a => some (h, qFrees a, [a.reg], d, fun k => (BitVec.ofNat 64 ((w.qreg a.reg).rows + 16 * (w.qreg a.reg).cols +
      256 * (if (w.qreg a.reg).general then 2 else 0))).getLsbD k, w.vst)
  | _ => none

/-- QLD and QST: one 4-byte want for each element of each active lane, row by row (R222). -/
def qCallOf (w : Wave) : Instr → Option (Call × List QNum × QNum)
  | .qld h d m o => some
    ({ head := h, fv := frees [m.index], reach := .virtual false, wants := qWants w m (w.qreg d), align := 4, ord := o.ord,
       level := o.scope.val, kind := .load, need := .read,
       dest := some (.qload d (w.qreg d).rows (w.qreg d).cols (w.sameAddr m.index)) }, [], d)
  | .qst h m c o => some
    ({ head := h, fv := frees [m.index], reach := .virtual false, wants := qWants w m (w.qreg c.reg), align := 4,
       ord := o.ord, level := o.scope.val, kind := .store, need := .write }, qFrees c, c.reg)
  | _ => none

/-! ## Sorrel, NEST, results and traps (R139 to R145, R199 to R201, R282 to R298, R311 to R315) -/

/-- Every call that asks for accesses lane by lane, Vetch's included. -/
def asksAll (w : Wave) (i : Instr) : Option Call :=
  match callOf w i with
  | some c => some c
  | none => (qCallOf w i).map (fun x => x.1)

/-- An index operand that is the same in every active lane (R186). -/
def oneValue (w : Wave) (x : VSrc) : Prop :=
  match x with
  | .sca _ => True
  | .vec _ _ _ => ∃ v, checkUniform w.em (w.src x) = .ok v

/-- Nothing of a list of wants is watched (R188, R338). -/
def Unwatched (s : State) (w : Wave) (r : Reach) (rd wr lane0 : Bool) (xs : List Want) : Prop :=
  ∀ a, s.spaceOf w = some a → w.exempt = true ∨ ∀ x ∈ xs, ∀ n : Fin 8, s.wpHit w a n r rd wr lane0 x = false

/-- Element (l, j) of D of an MMA: the old element and the exact products of row l of A with row j of B (R124, R286). -/
def mmaCell (w : Wave) (d a b c : VNum) (f : Fmt) (k : Nat) (scaled : Bool) (l j : Fin 32) : W32 :=
  mmaElem ((w.vreg (groupReg d j.val)).lane l)
    (List.zip (scaledElems w (tileElems w a f k l) (if scaled then some c else none) l)
      (scaledElems w (tileElems w b f k j) (if scaled then some (groupReg c 1) else none) j))

/-- The byte offset of word t of a tile (R295). -/
def tileOffset (w : Wave) (c : Cohort) (m : TileOp) (t : Nat) : Int := lrWalk c.lr[m.lr.val] (w.sget m.base) (w.sget m.index) m.ofs t

/-- A tile word's error (R296): 1 misaligned, 3 outside the scratchpad. -/
def wordError (c : Cohort) (x : Int) : Option Nat :=
  if x % 4 ≠ 0 then some 1 else if x < 0 ∨ (c.spadBytes : Int) < x + 4 then some 3 else none

/-- A watchpoint slot of the wave's space hits word t of a tile (R188, R296). -/
def wordWatched (s : State) (w : Wave) (c : Cohort) (m : TileOp) (read : Bool) (t : Nat) : Prop :=
  ∃ a, s.spaceOf w = some a ∧ w.exempt = false ∧ ∃ n : Fin 8, s.wpHit w a n .offset read (!read) false
    { lane := t % 32, va := (tileOffset w c m t).toNat, size := 4 } = true

/-- An access of a nest's iteration in error (R184, R201). -/
def askError (s : State) (w : Wave) (x : Want) : Option Nat :=
  if x.va % x.size ≠ 0 then some 1
  else match s.region w (.virtual false) (BitVec.ofNat 64 x.va) with
    | .err d => some d
    | _ => none

/-- Slot k of the wave's space hits an access of a nest's iteration, as one of lane 0 (R188, R338). -/
def askWatched (s : State) (w : Wave) (k : Fin 8) (x : Want) : Prop :=
  ∃ a, s.spaceOf w = some a ∧ s.wpHit w a k (.virtual false) (x.part != 5) (x.part == 5) true x = true

/-- A tile's record covers its registers exactly, every word lies aligned within the scratchpad, and none is watched (R294,
R296). -/
structure TileFits (s : State) (w : Wave) (c : Cohort) (m : TileOp) (read : Bool) : Prop where
  cohort : s.cohort? w.cohort = some c
  covers : lrExt c.lr[m.lr.val] 0 * lrExt c.lr[m.lr.val] 1 * lrExt c.lr[m.lr.val] 2 * lrExt c.lr[m.lr.val] 3 = 32 * 2 ^ m.cnt.val
  inside : ∀ t < 32 * 2 ^ m.cnt.val, tileOffset w c m t % 4 = 0 ∧ 0 ≤ tileOffset w c m t ∧ tileOffset w c m t + 4 ≤ c.spadBytes
  free : Unwatched s w .offset read (!read) false ((List.range (32 * 2 ^ m.cnt.val)).map (fun t =>
    { lane := t % 32, va := (tileOffset w c m t).toNat, size := 4 }))

/-- Access `a` is word t of a tile's load or store, on the cohort's single copy (R297). -/
def IsWord (w : Wave) (c : Cohort) (m : TileOp) (kind : AccKind) (d : Option Nat) (t : Nat) (a : Access) : Prop :=
  a.agent = .wave w.uid ∧ a.kind = kind ∧ a.place = .spad c.uid (tileOffset w c m t).toNat ∧ a.size = 4 ∧ a.lane = t % 32 ∧
    a.part = t / 32 ∧ a.defId = d ∧ a.held = none ∧ a.ord = .plain

/-- The accesses of a nest's next iteration: reads, then its store (R200). -/
def Nest.asks (n : Nest) : List Want := n.reads n.pos ++ [n.write n.pos]

/-- Access `a` is what an iteration asks for with a want on a scratchpad: a plain access of the wave that issued the nest, in
the nest's place in program order (R200). -/
structure IsPart (s : State) (w : Wave) (n : Nest) (x : Want) (a : Access) : Prop where
  home : s.region w (.virtual false) (BitVec.ofNat 64 x.va) = .home a.place
  agent : a.agent = .wave w.uid
  kind : a.kind = if x.part = 5 then .store else .load
  shape : a.size = x.size ∧ a.part = x.part ∧ a.lane = 0
  order : a.instr = n.instr ∧ a.sub = 6 * n.pos + x.part ∧ a.ord = .plain ∧ a.held = none
  nest : a.nest = some (n.id, n.pos)

/-- The vector registers of a pending result's destination, in order (R79, R192, R297). -/
def DefDest.regs : DefDest → List VNum
  | .vload r sz _ => groupRegs r sz.regs
  | .vatom r => [r]
  | .qload _ _ _ _ => []
  | .tile r n => groupRegs r n

/-- What came back for part p of a lane, as a little-endian word. -/
def Def.came (d : Def) (l : Fin 32) (p : Nat) : W32 :=
  BitVec.ofNat 32 (leVal ((d.got.filter (fun x => x.lane == l.val && x.part == p)).flatMap (fun x => x.bytes)))

/-- The lowest lane of a pending result's captured mask. -/
def Def.lead (d : Def) : Fin 32 := (lanesOf d.mask).headD 0

/-- Word j of a load's value x by its size: narrow ones extended, wide ones cut (R192). -/
def loadWord (sz : Szt) (x j : Nat) : W32 :=
  match sz with
  | .i8 => BitVec.ofInt 32 (BitVec.ofNat 8 x).toInt
  | .z8 => BitVec.ofNat 32 (x % 2 ^ 8)
  | .i16 => BitVec.ofInt 32 (BitVec.ofNat 16 x).toInt
  | .z16 => BitVec.ofNat 32 (x % 2 ^ 16)
  | .w => BitVec.ofNat 32 x
  | .dw | .qw => BitVec.ofNat 32 (x / 2 ^ (32 * j))

/-- What lane l of register j of a pending result's destination takes. -/
def Def.gives (d : Def) (j : Nat) (l : Fin 32) : W32 :=
  match d.dest with
  | .vload _ sz same => loadWord sz (leVal (d.bytesOf (if same then d.lead else l).val)) j
  | _ => d.came l j

/-- The events that write a scoreboarded result of each kind (R144). -/
def completion (k : SbKind) (wave id : Nat) : Instr :=
  match k with
  | .long => .scoreboardComplete wave id
  | .xev => .xevComplete wave id
  | .vetch => .vetchComplete wave id
  | .mma => .mmaComplete wave id

/-- The wave a trap leaves at its handler (R311, R312): the frame saved, privileged, at 64 bytes a class from the base. -/
def trapped (s : State) (w : Wave) (t : TrapInfo) : Wave :=
  { w with cause := BitVec.ofNat 64 (t.detail % 65536 * 65536 + t.aux % 256 * 256 + t.cls), tpc := t.rpc,
           tseq := t.seq.setWidth 64, tmask := t.mask.setWidth 64, taddr := t.addr, tem := w.em.setWidth 64, priv := true,
           pc := s.trapBase w + BitVec.ofNat 64 (64 * t.cls), exempt := false, hold := .none, inProg := .none, fetch := .free }

/-- The classes that a trap is delivered with (R311): all but 9, which is never delivered. -/
def trapClasses : List Nat := [1, 2, 3, 4, 5, 6, 7, 8, 10, 11, 12]

/-- A trap of class c can be delivered to the handler: nothing outstanding, user state, and a handler base (R312, R314). -/
structure Deliverable (s : State) (w : Wave) : Prop where
  defs : w.defs = []
  pends : w.pends = []
  board : w.sb = []
  nests : w.nests = []
  queue : ∀ a ∈ s.accs, a.agent ≠ .wave w.uid
  user : w.priv = false
  base : s.trapBase w ≠ 0
  step : w.step = none


/-! ## Special registers (R27, R28, R308 to R311, R335 to R338) -/

/-- A wave stands in its cohort, ensemble, grid and address space. -/
structure Stands (s : State) (w : Wave) (c : Cohort) (e : Ensemble) (g : Grid) (a : Space) : Prop where
  cohort : s.cohort? w.cohort = some c
  ens : s.ens? c.ens = some e
  grid : s.grid? c.grid = some g
  space : s.space? g.asid = some a

/-- Whether a view shows a register (R308, R309). -/
def shows (priv : Bool) (n : Nat) : Bool := decide (n < 0x100) || n == 0x120 || (priv && n != 0x125 && n != 0x170)

/-- Whether a view takes an SWR without PRV (R308, R309). -/
def takesSwr (priv : Bool) (n : Nat) : Bool :=
  [0x003, 0x00B, 0x00C].contains n || (decide (0x010 ≤ n) && decide (n ≤ 0x023)) ||
    (priv && decide (0x100 ≤ n) && decide (n ≤ 0x170) && n != 0x120 && n != 0x121)

/-- The value of a register (R309, R310). -/
def regValue (s : State) (w : Wave) (c : Cohort) (e : Ensemble) (g : Grid) (a : Space) (n : Nat) : Word :=
  if n = 0x000 then place w.loc.toNat 16 ||| place c.ensIdx 8 ||| place w.widx 0
  else if n = 0x001 then w.seq.setWidth 64
  else if n = 0x002 then BitVec.ofNat 64 (g.launch.rwin + 1048576 * c.cid + 65536 * w.widx)
  else if n = 0x003 then (if w.priv then 1 else 0) + (if w.intp then 256 else 0)
  else if n = 0x004 then BitVec.ofNat 64 c.cid
  else if n = 0x005 then BitVec.ofNat 64 (g.launch.spad + 4194304 * c.cid)
  else if n = 0x006 then place g.launch.geomLow.toNat 32 ||| place g.launch.ncoh 0
  else if n = 0x007 then w.xst.setWidth 64
  else if n = 0x008 then w.vst.setWidth 64
  else if n = 0x009 then BitVec.ofNat 64 s.clk
  else if n = 0x00A then BitVec.ofNat 64 (s.clkOf w.core)
  else if n = 0x00B then w.bconf
  else if n = 0x00C then w.lmiss
  else if n < 0x020 then c.bcfg.toList.getD (n - 0x010) 0
  else if n < 0x024 then e.ecfg.toList.getD (n - 0x020) 0
  else if n < 0x040 then (let r := c.lr.toList.getD ((n - 0x030) / 2) 0
    if n % 2 = 0 then r.extractLsb' 0 64 else r.extractLsb' 64 64)
  else if n < 0x048 then (g.launch.fs.toList.getD (n - 0x040) 0).setWidth 64
  else if n = 0x100 then w.cause
  else if n = 0x101 then w.tpc
  else if n = 0x102 then w.tseq
  else if n = 0x103 then w.tmask
  else if n = 0x104 then w.taddr
  else if n = 0x105 then w.tem
  else if n = 0x106 then a.trapBase
  else if n < 0x10B then w.sv.toList.getD (n - 0x107) 0
  else if n = 0x120 then BitVec.ofNat 64 g.asid
  else if n = 0x121 then a.ptb
  else if n = 0x122 then BitVec.ofNat 64 a.tlbLease
  else if n = 0x123 then a.fltCfg
  else if n = 0x124 then a.fltSvc
  else if n = 0x126 then a.mftBase
  else if n = 0x127 then a.mftN
  else if n < 0x144 then s.chqRead g.asid (w.chan (n - 0x140))
  else if n = 0x160 then (s.dieOf w.core.die).fp.setWidth 64
  else if n = 0x161 then BitVec.ofNat 64 (s.climit w.core.die w.core.clu)
  else if n = 0x180 then (s.dieOf w.core.die).ce
  else if n = 0x181 then (s.dieOf w.core.die).ue
  else (s.dieOf w.core.die).pois

/-- A wave after an SWR of one of its own registers (R309 to R311). -/
def wroteReg (w : Wave) (n : Nat) (v : Word) : Wave :=
  let low : Word := (v.setWidth 32).setWidth 64
  if n = 0x003 then { w with intp := w.intp && !v.getLsbD 8 }
  else if n = 0x00B then { w with bconf := v }
  else if n = 0x00C then { w with lmiss := v }
  else if n = 0x100 then { w with cause := low }
  else if n = 0x101 then { w with tpc := v }
  else if n = 0x102 then { w with tseq := v }
  else if n = 0x103 then { w with tmask := low }
  else if n = 0x104 then { w with taddr := v }
  else if n = 0x105 then { w with tem := low }
  else if h : 0x107 ≤ n ∧ n < 0x10B then { w with sv := w.sv.set (n - 0x107) v }
  else w

/-- The reserved field of bcfg and ecfg reads 0 (R207). -/
def cfgKept (v : Word) : Word := v &&& 0xFFF0FFFFFFFFFFFF

/-- The machine after an SWR of a register that several waves share, the wave apart (R207, R275, R276, R309, R322, R331). -/
def wroteShared (s : State) (w : Wave) (c : Cohort) (e : Ensemble) (a : Space) (n : Nat) (v : Word) : State :=
  if h : 0x010 ≤ n ∧ n < 0x020 then s.putCohort { c with bcfg := c.bcfg.set (n - 0x010) (cfgKept v) }
  else if h : 0x020 ≤ n ∧ n < 0x024 then s.putEns { e with ecfg := e.ecfg.set (n - 0x020) (cfgKept v) }
  else if n = 0x106 then s.putSpace { a with trapBase := v &&& 0x000FFFFFFFFFF000 }
  else if n = 0x122 then s.putSpace { a with tlbLease := min 1000000 (max 1000 (v.toNat % 2 ^ 20)) }
  else if n = 0x124 then s.putSpace { a with fltSvc := v &&& 0x8000000000003FFF }
  else if n = 0x126 then s.putSpace { a with mftBase := v, barObj := [], barPage := [] }
  else if n = 0x127 then s.putSpace { a with mftN := v }
  else if n = 0x160 then s.putDie { s.dieOf w.core.die with fp := v.setWidth 32 }
  else if n = 0x161 then s.putClu { s.cluOf w.core.die w.core.clu with clim := v.setWidth 22 }
  else s

/-- The registers that an SWR writes with no operation of their own: all but flt.cfg, flt.res, chq.att and int.send. -/
def plainReg (n : Nat) : Bool := n != 0x123 && n != 0x125 && n != 0x170 && !(decide (0x140 ≤ n) && decide (n < 0x144))

/-- The stored bits of an Eyebright register that no page stands behind (R335 to R338, R349). -/
def ebStored (i : Nat) (v : Word) : Word :=
  if i < 0x10 then v &&& 0xE00FFFFFFFFFFFF8
  else if i < 0x20 then v &&& 0x800FFFFFFFFFFFFF
  else if i < 0x28 then v &&& 0xF9FFFFFFFFFFFFFF
  else v &&& 0xFFFFFFFF

/-! ## Halts (R344) -/

/-- What HALT answers for a wave that stands at its location: bit 2 where it is parked, at an instruction that parks (but for a
CPYQ that waits for its slot, R241), at a switch point, or on the side log (R62, R140). -/
def haltSays (t : Wave) : Word :=
  BitVec.ofNat 64 (1 + 2 * t.halted.toNat +
    4 * (if t.park ≠ .none ∧ t.park ≠ .cpyq ∨ t.hold = .returns ∨ t.hold = .sideLog then 1 else 0))

/-- Wave t stands at a location in the address space of number `asid`. -/
structure Target (s : State) (asid : Nat) (loc : BitVec 14) (t : Wave) : Prop where
  here : s.waveAt loc = some t
  known : s.wave? t.uid = some t
  space : s.asidOf t = asid
  live : t.exited = false

/-- A wave stands at a boundary with nothing on its way, and nobody waits for its halt. -/
structure AtBoundary (s : State) (t : Wave) : Prop where
  defs : t.defs = []
  board : t.sb = []
  nests : t.nests = []
  queue : ∀ a ∈ s.accs, a.agent ≠ .wave t.uid
  begins : t.inProg = .none
  park : t.park ≠ .cpyq
  mute : s.mbxOn t = false
  alone : ∀ x ∈ s.waves, x.inProg ≠ .haltWait t.uid
  host : ∀ a ∈ s.spaces, a.haltWait ≠ some t.uid

/-- A wave halted as `AtBoundary` lets it. -/
def stood (t : Wave) : Wave := { t with halted := true, haltReq := false, hold := .none, step := none }

/-- A halted wave that goes on: its stopped nests run again; PASS exempts, beside an exemption not used yet (R201, R341, R344). -/
def wentOn (t : Wave) (pass : Bool) (step : Option StepSt) : Wave :=
  { t with halted := false, exempt := t.exempt || pass, step := step,
           nests := t.nests.map (fun n => if n.state = .stopped then { n with state := .running, exempt := n.exempt || pass } else n) }

/-- No event of a wave waits for room in the mailbox (R342). -/
def Posted (s : State) (t : Wave) : Prop := ∀ a, s.spaceOf t = some a → ∀ e ∈ a.mbxQueue, e.loc ≠ t.loc

/-- No write of chq.att of a space has still to take effect (R237). -/
structure ChqQuiet (s : State) (a : Space) : Prop where
  queues : ∀ q ∈ s.queues, q.asid = a.asid → q.detaching = false ∧ ∀ x ∈ s.accs, x.id ≠ q.acc
  cmds : a.cmds = []

/-- The wave's space takes host commands: none of it is unfinished (R359). -/
structure Idle (a : Space) : Prop where
  halt : a.haltWait = none
  save : a.saveWait = none
  tlbi : a.tlbiWait = none
  cmds : a.cmds = []

/-- No translation of a space that a TLBI begun now waits for: leases have run out, and nothing translated stands (R322). -/
structure Unleased (s : State) (asid : Nat) : Prop where
  tlb : ∀ e ∈ s.tlb, e.asid = asid → e.expiry ≤ s.clk
  leases : ∀ l ∈ s.leases, l.asid ≠ asid
  accs : ∀ x ∈ s.accs, ∀ t, x.trans = some t → t.asid ≠ asid
  wb : ∀ e ∈ s.wb, ∀ t, e.trans = some t → t.asid ≠ asid
  packets : s.packets = []

/-! ## Images (R325 to R328) -/

/-- The waves of a cohort fit its image: one at each WIDX below 16 at the most, with at most 16 promises (R20, R244, R325). -/
structure Imaged (s : State) (c : Cohort) : Prop where
  fits : ∀ y ∈ s.liveWaves c.uid, y.widx < 16 ∧ y.promises.length ≤ 16
  one : ((s.liveWaves c.uid).map (fun y => y.widx)).Nodup

/-- Bytes 0 to n − 1 from a virtual address lie at the physical addresses `pa`, writable, reached and all distinct, whatever
free values stand for bytes that a walk cannot read (R319). -/
structure MapsTo (s : State) (path : List NodeId) (asid va n : Nat) (pa : Nat → Nat) : Prop where
  walks : ∀ i < n, ∀ k, ∃ x, (({ s with drawn := k } : State).probe path asid ((va + i) / 65536 * 65536) .write false).2 = .ok x ∧
    pa i = x.base + (va + i) % 65536
  reached : ∀ i < n, s.reachable (pa i) = true
  apart : ∀ i < n, ∀ j < n, pa i = pa j → i = j

/-- An image's version, cohort number, token, size, and scratchpad bytes (R325). -/
def imageHead (img : List Byte) (c : Cohort) (k : Word) : Prop :=
  let at_ (o n : Nat) : Nat := leVal ((img.drop o).take n)
  at_ 0x000 4 = 1 ∧ at_ 0x00C 4 = c.cid % 2 ^ 32 ∧ at_ 0x010 8 = k.toNat ∧ at_ 0x020 8 = img.length % 2 ^ 64 ∧
    (img.drop 0x240).take c.spadBytes = c.spad.readN 0 c.spadBytes


/-! ## Teasel (chapter 12) -/

/-- A header operand names an attached queue, by its address or through another mapping of the header, and breaks no rule of R241
or R247; `s1` is the machine after the walk that another mapping takes. -/
structure Names (s s1 : State) (w : Wave) (opc : Nat) (x : VSrc) (qa : Word) (t : TQueue) : Prop where
  uniform : w.uniform64 x = .ok qa
  sound : s.headerTrap w opc qa = none
  named : s.queueNamed (corePath w.core) (s.asidOf w) qa.toNat = (s1, some t)
  held : s.queue? t.id = some t

/-- Lanes 0 to 14 of a packet register (R239, R241). -/
def packetOf (w : Wave) (x : VSrc) : List W32 := (List.finRange 15).map (fun i => w.laneOf x (i.castLE (by omega)))

/-- Nothing of a wave stands in a write buffer, a nest or the side log: a release has nothing to wait for (R40). -/
structure Drained (s : State) (w : Wave) : Prop where
  wb : ∀ e ∈ s.wb, e.agent ≠ .wave w.uid
  side : ∀ e ∈ s.side, e.wave ≠ w.uid

/-- No write buffer holds one of the bytes `n` from `a`. -/
def bufferFree (s : State) (a n : Nat) : Prop := ∀ e ∈ s.wb, ∀ y ∈ e.bytes, y.1 < a ∨ a + n ≤ y.1

/-- The promise of R242 for a packet admitted now. -/
def promiseOf (s : State) (p : Packet) : Nat :=
  max s.clk (s.horizon p.chan) + 200 + (boxBytes p.words + s.pktRate p - 1) / s.pktRate p

/-- A wave but for the wakes that a write to a line it has armed makes pending (R59, R60). -/
def Wave.woken (v w : Wave) : Prop := v = { w with wakes := v.wakes }

/-- The highest completion scope of linked promises (R245, R246). -/
def scopeOf (l : List Promise) : Nat := l.foldl (fun n e => max n e.scope) 0

/-- Every byte of a packet's box has been moved and drained to its completion scope, and no access of its channel is queued (R40,
R51, R249). -/
structure Moved (s : State) (p : Packet) : Prop where
  known : s.pkt? p.id = some p
  queue : ∀ x ∈ s.accs, x.agent ≠ .channel p.chan
  started : p.state = .started
  all : p.stored.length = boxBytes p.words
  drained : ∀ e ∈ s.wb, e.agent ≠ .channel p.chan

/-- A queue attached to a channel as an attachment makes it, the write of its STAT on its way under an identity (R237). -/
def newQueue (id asid : Nat) (ch : ChanId) (hdr : Nat) (page : Xlat) (ring cfg : Nat) (frames : List Xlat) (acc : Nat) : TQueue :=
  { id := id, asid := asid, chan := ch, hdr := hdr, hdrPa := page.base + hdr % 65536, hdrKey := page.leaf.key, ring := ring,
    ringPa := frames.map (fun x => x.base), ringKeys := frames.map (fun x => x.leaf.key), logcap := cfg, acc := acc }

/-- The write of a header word by its channel: a release at level 5 (R40, R248). -/
def headerWrite (q : TQueue) (id ofs v : Nat) : Access :=
  { id := id, agent := .channel q.chan, core := ⟨q.chan.die, q.chan.clu, 0⟩, instr := id, kind := .store,
    place := .mem (q.hdrPa + ofs), size := 8, data := leOf 8 v, ord := .rel, level := 5, key := q.hdrKey }

/-- STAT of a queue's header (R236). -/
def statWord (q : TQueue) : Nat := 16 * q.cause + q.state

/-- The machine with a queue's record changed and the write of its STAT on its way. -/
def statQueued (s : State) (q : TQueue) : State :=
  { s.putQueue q with nextUid := s.nextUid + 1, accs := s.accs ++ [headerWrite q s.nextUid 0x98 (statWord q)] }

/-- Bytes that an access of an engine under a leaf's key reaches as they stand: a route stands, no register window takes them, and
their line stands under no other key (R363, R365, R367). -/
def InM (s : State) (key : BitVec 8) (a n : Nat) : Prop :=
  ∀ k < n, s.reachable (a + k) = true ∧ deviceWindow (a + k) = false ∧ s.keyDiffers key ((a + k) / 128) = false

/-- An instruction that waits at its address has begun, and the wave's turn finds nothing in its way (R90, R144, R146). -/
structure Begun (h : Head) (s : State) (w : Wave) : Prop where
  current : s.wave? s.cur = some w
  guard : guardPasses h.guard w = true
  clean : ∀ u ∈ s.poison, unitWave u ≠ some w.uid
  marked : h.y = true → w.defs = [] ∧ w.pends = []
  board : w.sb = []
  whole : w.spilled = []

/-- The entry of the promise table that an admission makes (R244). -/
def entryOf (w : Wave) (q : TQueue) (c : CpyqPend) (p : Packet) (x o : Nat) : Promise :=
  { promise := BitVec.ofNat 64 x, pkt := p.id, queue := q.id, slot := c.slot, scope := p.scope, pc := w.pc, seq := w.seq,
    order := o }

/-! ## Yarrow (chapter 13) -/

/-- The 256 bytes of a task record as an agent reads them, an acquire at a level, once its page translates (R257, R266, R269). -/
def recordRead (s : State) (a : Fin 9) (asid addr level : Nat) : State × Option TaskRec :=
  match s.recordPage a asid addr with
  | (t, .ok p) =>
    let x := (t.emptyBelow (agentPath a) level).readHomes (agentPath a) p.1 256 (some p.2)
    (x.2, some (parseTask x.1))
  | (t, .error _) => (t, none)

/-- A task as its submission makes it in a free entry (R256, R257, R270, R271). -/
def newTask (s : State) (a : Fin 9) (asid : Nat) (r : TaskRec) (e level order : Nat) : Task :=
  { agent := a, entry := e, gen := s.genOf a.val e, asid := asid, trec := r, counter := r.depc, edges := s.edgesFor a r,
    order := order, acquire := level }

/-- A task id (R255). -/
def idWord (t : Task) : W32 := BitVec.ofNat 32 (t.gen * 65536 + t.agent.val * 4096 + t.entry)

/-- A submission accepted: the task takes a free entry of the agent's table, and nothing else changes but caches that its reads
empty, and the count of free values drawn. -/
def Accepted (s t : State) (a : Fin 9) (asid : Nat) (r : TaskRec) (level : Nat) (x : Task) : Prop :=
  (∃ e < 4096, s.task? a e = none ∧ x = newTask s a asid r e level s.nextUid) ∧
    t = { s with tasks := s.tasks ++ [x], drawn := t.drawn, nextUid := s.nextUid + 1, caches := t.caches }

/-- The task of an agent's table is ready, the oldest such, and fewer than 256 of the agent run (R271). -/
structure Startable (s : State) (t : Task) : Prop where
  known : s.task? t.agent t.entry = some t
  ready : t.state = .waiting ∧ t.counter = 0 ∧ t.edges = []
  oldest : ∀ x ∈ s.tasks, x.agent = t.agent → x.state = .waiting → x.counter = 0 → x.edges = [] → t.order ≤ x.order
  room : (s.tasks.filter (fun x => x.agent == t.agent && x.state == .running && !s.workDone x)).length < 256

/-- The machine as a task's start, an acquire, finds it (R51). -/
def startAcquired (s : State) (t : Task) : State := s.emptyBelow (agentPath t.agent) t.acquire

/-- The queue that a copy batch names, and the page of its next packet, both translated; `s1` is the machine after the walks. -/
def batchNext (s s1 : State) (t : Task) (q : TQueue) (x : Xlat) : Prop :=
  ∃ s0, s.batchQueue t = (s0, some q) ∧ s0.batchPage t t.appended = (s1, .ok x)

/-- A copy batch that runs and has packets left (R272). -/
structure Appending (s : State) (t : Task) : Prop where
  known : s.task? t.agent t.entry = some t
  runs : t.state = .running
  batch : t.trec.kind = 1
  sound : t.refused = none
  left : t.appended < t.trec.npkt

/-- A wave as its cohort's first placement makes it (R13, R127, R261). -/
def freshWave (s : State) (g : Grid) (c : Cohort) (k : CoreId) (slots : List (Fin 32)) (i : Nat) (w : Wave) : Prop :=
  w.cohort = c.uid ∧ w.widx = i ∧ w.core = k ∧ w.slot = slots.getD i 0 ∧ w.port = (s.coreOf k).portPtr + Fin.ofNat 4 i ∧
    w.pc = g.launch.entry ∧ w.em = 0xFFFFFFFF ∧ w.priv = false ∧ w.seq = 0 ∧ w.budget = g.launch.regs ∧ w.exited = false ∧
    w.v = Vector.replicate 256 .none ∧
    ∀ r : SReg, w.s[r.val] = if 1 ≤ r.val ∧ r.val ≤ 8 then g.launch.args.toList.getD (r.val - 1) 0 else 0

/-- Nothing that a cohort's leaving waits for (R35, R63, R143, R252, R274). -/
structure AtRest (s : State) (c : Cohort) : Prop where
  packets : s.packets = []
  accs : ∀ a ∈ s.accs, ∀ w ∈ s.waves, w.cohort = c.uid → a.agent ≠ .wave w.uid
  wb : ∀ e ∈ s.wb, ∀ w ∈ s.waves, w.cohort = c.uid → e.agent ≠ .wave w.uid
  side : ∀ e ∈ s.side, ∀ w ∈ s.waves, w.cohort = c.uid → e.wave ≠ w.uid
  waves : ∀ w ∈ s.waves, w.cohort = c.uid → w.defs = [] ∧ w.sb = [] ∧ w.nests = [] ∧ w.inProg = .none ∧ w.halted = false ∧
    w.spilled = []

/-! ## Faults, the host and the module (chapters 17 to 20) -/

/-- The 32 bytes of a fault record (R27, R320). -/
def recordBytes (f : FaultRec) (rid : Nat) : List Byte :=
  leOf 8 (f.page * 65536) ++ leOf 8 (rid % 2 ^ 32 * 2 ^ 32 + f.kind * 2 ^ 20 + f.why * 2 ^ 16) ++ leOf 8 (f.pc.toNat % 2 ^ 52) ++
    leOf 8 (nameHigh f.loc f.seq).toNat

/-- The pages that hold `n` bytes from `va` translate as a register write needs them: normal, readable and writable, at these
frames and under these keys, whatever free values stand for bytes that a walk cannot read (R320, R342, R349, R367). -/
def TranslatesTo (s : State) (path : List NodeId) (asid va n : Nat) (frames : List Nat) (keys : List (BitVec 8)) : Prop :=
  frames.length = (va + n - 1) / 65536 - va / 65536 + 1 ∧ keys.length = frames.length ∧
    ∀ k (hk : k < frames.length), ∀ m, ∃ x,
      (({ s with drawn := m } : State).probe path asid ((va / 65536 + k) * 65536) .update true).2 = .ok x ∧ x.base = frames[k] ∧
        x.leaf.key = keys.getD k 0

/-- A grid of a space runs: from its task's start until its completion step (R360). -/
def GridRuns (s : State) (n : Nat) : Prop :=
  (∃ g ∈ s.grids, g.asid = n ∧ g.finished = false) ∨ ∃ t ∈ s.tasks, t.asid = n ∧ t.state = .running ∧ t.trec.kind = 0

/-- Bytes 0x04 to 0x3F of a mailbox slot (R343): what happened, where, the trap's cause, name and masks, its address, the
task, the cohort and WIDX, and clk.cr. -/
def eventSlot (e : MbxEvent) (clk : Nat) : List Byte :=
  leOf 2 e.evt ++ leOf 2 e.loc.toNat ++ leOf 8 e.cause.toNat ++ leOf 8 (e.pc.toNat % 2 ^ 52) ++ leOf 8 (nameHigh e.name e.seq).toNat ++
    leOf 4 e.mask.toNat ++ leOf 4 e.em.toNat ++ leOf 8 e.addr.toNat ++ leOf 4 e.task.toNat ++ leOf 4 e.coh.toNat ++ leOf 8 clk

/-- The leases of a register's pages. -/
def pageLeases (s : State) (asid va : Nat) (n : Nat) (h : LeaseHolder) : List Lease :=
  (List.range n).map (fun k => ⟨asid, va / 65536 + k, h, s.clk⟩)

/-- A host register of an address space after a write (R308, R359): its field map's bits. -/
def Space.wrote (a : Space) (r : HostReg) (v : Word) : Space :=
  match r with
  | .asPtb _ => { a with ptb := v }
  | .fltVec _ => { a with fltVec := v &&& 0x80000000000007FF }
  | .trapBase _ => { a with trapBase := v &&& 0x000FFFFFFFFFF000 }
  | .fltSvc _ => { a with fltSvc := v &&& 0x8000000000003FFF }
  | .mftN _ => { a with mftN := v }
  | .tlbLease _ => { a with tlbLease := min 1000000 (max 1000 (v.toNat % 2 ^ 20)) }
  | .tlbiVa _ => { a with tlbiVa := v }
  | .eyebright _ i => if h : i < 48 then { a with eb := a.eb.set i (ebStored i v) } else a
  | .chqNone _ _ => a
  | .yarFp _ => a
  | .yarClim _ _ => a

/-- The space a host register belongs to, where it is one of those that Space.wrote tells. -/
def regSpace : HostReg → Option Nat
  | .asPtb a => some a
  | .fltVec a => some a
  | .trapBase a => some a
  | .fltSvc a => some a
  | .mftN a => some a
  | .tlbLease a => some a
  | .tlbiVa a => some a
  | .eyebright a i => if i < 48 then some a else none
  | .chqNone _ _ => none
  | .yarFp _ => none
  | .yarClim _ _ => none

/-- The SPDM requests, what the responder must stand at to answer them, and where it then stands (R368; the order is the model's, log 42). -/
def spdmTable : List (Instr × (SpdmSt → Bool) × (SpdmSt → SpdmSt)) :=
  [(.spdmGetVersion, fun _ => true, fun _ => { version := true }),
   (.spdmGetCapabilities, fun x => x.version, fun x => { x with caps := true }),
   (.spdmNegotiateAlgorithms, fun x => x.caps, fun x => { x with algs := true }),
   (.spdmGetDigests, fun x => x.algs, fun x => x), (.spdmGetCertificate, fun x => x.algs, fun x => x),
   (.spdmChallenge, fun x => x.algs, fun x => x), (.spdmGetMeasurements, fun x => x.algs, fun x => x),
   (.spdmKeyExchange, fun x => x.algs, fun x => { x with handshake := true }),
   (.spdmFinish, fun x => x.handshake, fun x => { x with handshake := false, session := true }),
   (.spdmEndSession, fun x => x.session, fun x => { x with session := false })]

/-- What R368 says of an answer: Ed448 and SHA3-512; four measurement blocks, each the 64-byte SHAKE256 digest of the boot ROM,
the firmware image, the configuration record or the key-slot policy; certificate slot 0, from the root to the identity key. Of
another request's answer it says nothing. -/
def spdmSays (s : State) (i : Instr) (a : SpdmAnswer) : Prop :=
  match i with
  | .spdmNegotiateAlgorithms => a = .algorithms .ed448 .sha3_512
  | .spdmGetMeasurements => a = .measurements [shakeBytes 64 Config.bootRom, shakeBytes 64 (Config.firmwareImage s.mod.imageVersion),
      shakeBytes 64 (Config.recordBytes s.mod.cfg), shakeBytes 64 Config.keyPolicy]
  | .spdmGetCertificate => ∃ l, a = .certificates 0 l ∧ l.head? = some Config.rootCertificate ∧
      l.getLast? = some Config.identityCertificate
  | _ => ∃ l, a = .message l

/-- A link that takes flits. -/
structure LinkUp (s : State) (l : Fin 12) : Prop where
  ready : s.mod.ready = true
  up : s.mod.links[l.val].up = true

/-- The machine after a flit with a good CRC has arrived: counted, and a run of replays is over (R364, R365). -/
def received (s : State) (l : Fin 12) (f : LinkSt → LinkSt) : State :=
  let x := s.mod.links[l.val]
  { s with mod := { s.mod with links := s.mod.links.set l.val (f { x with received := x.received + 1, replays := 0 }) } }

/-- Plain memory of the module (R363): not a device window, not poisoned. -/
structure PlainMem (s : State) (pa n : Nat) : Prop where
  own : pa / 2 ^ 46 = s.mod.cfg.modno.val
  mem : deviceWindow pa = false
  clean : s.poison = []

/-! ## Instructions as words (R65, R69 to R71, R84, R88, R90) -/

/-- The guard of an instruction's word. -/
def guardOf (r : Raw) : Option Guard :=
  match r with
  | .s r => decGuard r.gc r.gs r.gb
  | .v r => decGuard r.gc r.gs r.gb
  | .n r => decGuard r.gc r.gs r.gb

/-- The mark bit of an instruction's word. -/
def markOf (r : Raw) : Bool :=
  match r with
  | .s r => r.y == 1
  | .v r => r.y == 1
  | .n r => r.y == 1

/-- The opcode of an instruction's word. -/
def opcOf (r : Raw) : Nat :=
  match r with
  | .s r => r.opc.toNat
  | .v r => r.opc.toNat
  | .n r => r.opc.toNat

/-- The opcodes that R84 marks privileged: ERET, WSAVE, WREST, TLBI, DBGM, HALT and PERFS. -/
def privileged (o : Nat) : Bool := [0x381, 0x384, 0x385, 0x386, 0x388, 0x389, 0x38B].contains o

/-! ## Steps (R38, R68, R90) -/

/-- The schedule's next turn is wave w's, no other wave contends with it, and nothing stops it before its instruction: it
is at a boundary, not parked, halted or saved, its gang is resident, its port is free, and no fault is pending for now. -/
structure HasTurn (s : State) (w : Wave) (ts : List Turn) : Prop where
  powered : s.mod.powered = true
  sched : s.sched = ⟨0, .issue w.uid⟩ :: ts
  known : s.wave? w.uid = some w
  begins : w.inProg = .none
  asked : w.haltReq = false
  eligible : s.eligible w = true
  free : (s.coreOf w.core).ports[w.port.val].issued = none
  alone : s.alone w = true
  unsampled : (s.coreOf w.core).sampled = false
  sound : PoisonUnit.control w.uid ∉ s.poison
  later : ∀ p ∈ w.pends, p.now = false

/-- The state in which wave w's turn begins: the schedule behind it, and the wave current. -/
def begun (s : State) (w : Wave) (ts : List Turn) : State := { s with sched := ts, cur := w.uid }

/-- Every memory of the machine has its canonical form: M, the scratchpads, and the code pages of the grids. -/
def Canonical (s : State) : Prop :=
  s.mem.wf = true ∧ (∀ c ∈ s.cohorts, c.spad.wf = true) ∧ ∀ g ∈ s.grids, ∀ p ∈ g.code, p.bytes.wf = true

/-- Words of spec/ written out, with what they stand for. -/
def specWords : List (Nat × Nat × Instr) :=
  let h : Head := ⟨.always, false⟩
  [ (64, 0x0000051030000018, .sadd h 3 4 5),
    (64, 0x0000892070001C48, .haltStep h 7 8 9),
    (64, 0x00000500_00001C38, .brk h 5),
    (64, 0x0041C07800001C18, .swr h 0x107 30),
    (64, 0x00400001E0001C10, .srd h 30 0x100),
    (64, 0x1C08, .eret h),
    (64, 0x0000120000001C00, .trapi h 0x12),
    (64, 0x0000002070001060, .mwait h 7 8),
    (64, 0x0000030000001080, .bar h 3) ]

end Sys2Proof.Machine

open Sys2Proof Sys2Proof.Machine

/-- R154, R128: every scalar instruction completes, writes its result to sD (a write to s0 is discarded), goes on at pc + 8,
and leaves every other register of the wave, every other wave and all memory as they were, whatever em holds. -/
def Obligations.ScalarResults : Prop :=
  ∀ (i : Instr) (s : State) (w : Wave) (h : Head) (d : SReg) (x : Word), i.wf = true → scalarResult w i = some (h, d, x) →
    Ready h s w → Runs i s w { w.sset d x with pc := w.pc + 8 }

/-- R159 to R169, R135, R79: every instruction with one vector destination completes; in each active lane vD holds the lane's
result and in every other lane what it held; the sources marked last use are freed; the wave goes on at pc + 16 and nothing
else changes. That an inactive lane of a destination which the instruction frees itself reads as freed (log 25), and that it is
freed under an em of 0 too (log 78), are the model's choices. -/
def Obligations.VectorLanes : Prop :=
  ∀ (i : Instr) (s : State) (w : Wave) (h : Head) (l : List VNum) (d : VNum) (f : Fin 32 → W32), i.wf = true →
    laneResult w i = some (h, l, d, f) → Open h s w → ∃ r, Runs i s w (w.wrote l d r) ∧ ∀ k, r.lane k = w.merged l d f k

/-- R134, R168, R169: under a full mask the rows of R134 that keep an affine shape give exactly that shape, REDU and a VPERM by a
uniform index a uniform register, and SCAN of a uniform register the shape of its operation's row. -/
def Sys2Proof.Machine.AffineForms : Prop :=
  ∀ (i : Instr) (s : State) (w : Wave) (h : Head) (l : List VNum) (d : VNum) (r : VReg), i.wf = true → w.em = 0xFFFFFFFF →
    affineResult w i = some (h, l, d, r) → Open h s w → Runs i s w (w.wrote l d r)

/-- R133, R134: under a full mask, where every source is uniform (of VMOVI, which has none, always), vD becomes the uniform register
of the one value; of VDIV, VREM, FDIV and FSQRT the outstanding result is that register. -/
def Sys2Proof.Machine.UniformShapes : Prop :=
  (∀ (i : Instr) (s : State) (w : Wave) (h : Head) (l : List VNum) (d : VNum) (f : Fin 32 → W32), i.wf = true → w.em = 0xFFFFFFFF →
    laneResult w i = some (h, l, d, f) → uniformSources w i → Open h s w → Runs i s w (w.wrote l d (.uni (f 0)))) ∧
  ∀ (i : Instr) (s : State) (w : Wave) (h : Head) (l : List VNum) (d : VNum) (f : Fin 32 → W32), i.wf = true → w.em = 0xFFFFFFFF →
    longResult w i = some (h, l, d, f) → uniformSources w i → Open h s w →
    RunsIn i s { s with nextUid := s.nextUid + 1 } w { (w.wrote l d ((w.freeV l).vreg d)) with
      sb := [{ id := s.nextUid, kind := .long, vw := [(d, .uni (f 0))], due := s.clkOf w.core + 24, em := w.em }] }

/-- R135: under a mask that is neither 0 nor full the result is general; under an em of 0 nothing is written, so that the destination
keeps its value, tag and slots, and of VDIV, VREM, FDIV and FSQRT nothing is outstanding. That the sources marked last use are freed
under an em of 0 too is the model's choice (log 78). -/
def Sys2Proof.Machine.MaskedShapes : Prop :=
  (∀ (i : Instr) (s : State) (w : Wave) (h : Head) (l : List VNum) (d : VNum) (f : Fin 32 → W32), i.wf = true →
    laneResult w i = some (h, l, d, f) → Open h s w →
    (w.em = 0 → Runs i s w { w.freeV l with pc := w.pc + 16 }) ∧
    (w.em ≠ 0 → w.em ≠ 0xFFFFFFFF → ∃ r : VReg, r.tag = 2 ∧ Runs i s w (w.wrote l d r))) ∧
  ∀ (i : Instr) (s : State) (w : Wave) (h : Head) (l : List VNum) (d : VNum) (f : Fin 32 → W32), i.wf = true →
    longResult w i = some (h, l, d, f) → Open h s w →
    (w.em = 0 → RunsIn i s { s with nextUid := s.nextUid + 1 } w { w.freeV l with pc := w.pc + 16 }) ∧
    (w.em ≠ 0 → w.em ≠ 0xFFFFFFFF → ∃ r : VReg, r.tag = 2 ∧ RunsIn i s { s with nextUid := s.nextUid + 1 } w
      { (w.wrote l d ((w.freeV l).vreg d)) with
        sb := [{ id := s.nextUid, kind := .long, vw := [(d, r)], due := s.clkOf w.core + 24, em := w.em }] })

/-- R133 to R135, R168, R169: the shapes of results under a full mask, a partial one and none. -/
def Obligations.AffineShapes : Prop := AffineForms ∧ UniformShapes ∧ MaskedShapes

/-- R144, R145, R159, R161: VDIV, VREM, FDIV and FSQRT complete with their result outstanding for 24 core cycles: vD is not
yet written, and the record of the result names the value it will hold. What inactive lanes of a destination that the
instruction frees itself will hold is the model's choice (log 25, 78). -/
def Obligations.LongResults : Prop :=
  ∀ (i : Instr) (s : State) (w : Wave) (h : Head) (l : List VNum) (d : VNum) (f : Fin 32 → W32), i.wf = true →
    longResult w i = some (h, l, d, f) → Open h s w → w.em ≠ 0 →
    ∃ r, RunsIn i s { s with nextUid := s.nextUid + 1 } w
        { (w.wrote l d ((w.freeV l).vreg d)) with
          sb := [{ id := s.nextUid, kind := .long, vw := [(d, r)], due := s.clkOf w.core + 24, em := w.em }] } ∧
      ∀ k, r.lane k = w.merged l d f k

/-- R160, R161: VCMP and FCMP write a mask to sD: bit k is 1 exactly where lane k is active and the relation holds. -/
def Sys2Proof.Machine.CompareMasks : Prop :=
  ∀ (i : Instr) (s : State) (w : Wave) (h : Head) (l : List VNum) (d : SReg) (f : Fin 32 → Bool), i.wf = true →
    compareResult w i = some (h, l, d, f) → Open h s w →
    ∃ m : Mask, Runs i s w { (w.freeV l).sset d (m.setWidth 64) with pc := w.pc + 16 } ∧
      ∀ k : Fin 32, m.getLsbD k.val = (w.em.getLsbD k.val && f k)

/-- R155, R158: branches, CALL, RET, JMPR, SLOOP and NOPW complete with the pc they name; CALL writes s62, SLOOP its counter
(none for s0), and nothing else changes. -/
def Obligations.ControlFlow : Prop :=
  ∀ (i : Instr) (s : State) (w x : Wave) (h : Head), i.wf = true → controlResult w i = some (h, x) → Ready h s w → Runs i s w x

/-- R171, R172: the mask instructions set em as they say and MGET and VTAG their scalar register, whatever em holds. -/
def Sys2Proof.Machine.MaskInstructions : Prop :=
  ∀ (i : Instr) (s : State) (w x : Wave) (h : Head), i.wf = true → maskResult w i = some (h, x) → Open h s w → Runs i s w x

/-- R160, R161, R171, R172: the mask instructions, MGET, VTAG, VCMP and FCMP. -/
def Obligations.MasksAndCompares : Prop := CompareMasks ∧ MaskInstructions

/-- R136, R173: VSQZ gives vD the source's 32 lanes with the most compact tag that holds them, whatever em holds. -/
def Sys2Proof.Machine.SqueezeCompact : Prop :=
  ∀ (s : State) (w : Wave) (h : Head) (d : VNum) (a : VSrc), (Instr.vsqz h d a).wf = true → Open h s w →
    ∃ r, Runs (.vsqz h d a) s w { ((w.freeV (frees [a])).vput d r).killDefs w.defs.length [d] [] with pc := w.pc + 16 } ∧
      (∀ k, r.lane k = w.laneOf a k) ∧ ∀ q : VReg, (∀ k, q.lane k = w.laneOf a k) → r.tag ≤ q.tag

/-- R149, R181: XPUSH, XPOP, XTOP, XCLR and XDEPTH complete; each active lane's stack, its bit of xst and the lane of the
register written are as R181 says, and inactive lanes keep theirs. -/
def Obligations.StackInstructions : Prop :=
  ∀ (i : Instr) (s : State) (w : Wave) (h : Head) (l : List VNum) (f : Fin 32 → List W32) (b : Fin 32 → Bool)
    (o : Option (VNum × (Fin 32 → W32))), i.wf = true → stackResult w i = some (h, l, f, b, o) → Open h s w →
    ∃ (st : Stacks) (xst : Mask) (x : Wave), Runs i s w { x with stk := some st, xst := xst } ∧
      (∀ k : Fin 32, st[k.val] = if w.em.getLsbD k.val then f k else w.stacksOf[k.val]) ∧
      (∀ k : Fin 32, xst.getLsbD k.val = if w.em.getLsbD k.val then b k else w.xst.getLsbD k.val) ∧
      match o with
      | none => x = { w.freeV l with pc := w.pc + 16 }
      | some (d, v) => ∃ r, x = w.wrote l d r ∧ ∀ k, r.lane k = w.merged l d v k

/-- R177, R178: XEV completes with every lane's outcome decided; the new stacks and the bad lanes of xst are outstanding for
at least 4 core cycles, and the sources marked last use are freed. -/
def Sys2Proof.Machine.XevIssues : Prop :=
  ∀ (s : State) (w : Wave) (h : Head) (op : VSrc) (g : VGrp) (t : Bool), (Instr.xev h op g t).wf = true → Open h s w →
    (t = true → ∀ l, xevBad w op g l = false) →
    ∃ (new : Stacks) (bad : Mask) (due : Nat) (kept : Vector Nat 32),
      RunsIn (.xev h op g t) s { s with nextUid := s.nextUid + 1 } w
        { w.freeV (frees [op] ++ grpFrees g 8) with
          stk := some w.stacksOf, pc := w.pc + 16,
          sb := [{ id := s.nextUid, kind := .xev, stk := some new, xst := bad, due := due, kept := kept }] } ∧
      s.clkOf w.core + 4 ≤ due ∧ due ≤ s.clkOf w.core + 24 ∧ (∀ l : Fin 32, bad.getLsbD l.val = xevBad w op g l) ∧
      ∀ l : Fin 32, new[l.val] = if w.em.getLsbD l.val then (match xevOutcome w op g l with
        | .ok st _ => st
        | .fault _ => w.stacksOf[l.val]) else w.stacksOf[l.val]

/-- R179, R313: XEV.t with a bad lane meets the waits of a boundary, and where no earlier command's fault is pending there it
traps with class 10, the bad lanes in its mask and the lowest such lane's detail; the stacks are allocated and xst gathers the bad
lanes, and nothing else of the instruction happens but that spilling makes room for them (R24, R130). -/
def Sys2Proof.Machine.XevTraps : Prop :=
  ∀ (s : State) (w : Wave) (h : Head) (op : VSrc) (g : VGrp) (l : Fin 32), (Instr.xev h op g true).wf = true → Open h s w →
    xevBad w op g l = true → (∀ k, k < l → xevBad w op g k = false) →
    ∃ (bad : Mask) (d : Nat), (∀ k : Fin 32, bad.getLsbD k.val = xevBad w op g k) ∧
      (match xevOutcome w op g l with
        | .fault e => d = e
        | .ok _ _ => d = 4) ∧
      exec (.xev h op g true) s = .next ((s.atBoundary w (fun t u =>
        t.deliver { u with stk := some u.stacksOf, xst := u.xst ||| bad }
          { cls := 10, detail := d, mask := bad, seq := u.seq, rpc := u.pc })).fitWave w.uid)

/-- R177 to R179, R313: XEV, and XEV.t where a lane is bad. -/
def Obligations.XevForms : Prop := XevIssues ∧ XevTraps

/-- R139, R185, R189, R192, R194: LD, LDS, LDB and ATOM complete: one access for each part of each active lane joins the wave's
queue at the address R182 gives it, the result is pending under the captured mask, wave.seq rises by one, vD keeps its value,
and no byte of memory changes. -/
def Obligations.DeferredIssue : Prop :=
  ∀ (i : Instr) (s : State) (w : Wave) (c : Call) (d : DefDest), i.wf = true → callOf w i = some c → c.dest = some d →
    Open c.head s w → Clear s w c → ∃ (n k : Nat) (l : List Access) (tl : List TlbEntry) (fl : List FaultRec) (cl : List CacheEntry),
      let s' : State := { s with nextUid := n, drawn := k, accs := s.accs ++ l, tlb := tl, faults := fl, caches := cl }
      RunsIn i s s' w { w.freeV c.fv with
          defs := w.defs ++ [{ id := s.nextUid + 1, seq := w.seq + 1, pc := w.pc, dest := d, mask := w.em }],
          seq := w.seq + 1, pc := w.pc + 16 } ∧
        List.Forall₂ (Asks s s' w c s.nextUid (some (s.nextUid + 1))) c.parts l

/-- R62, R190, R193, R195: ST, STS, STB and RED complete: each part of each active lane joins the wave's queue with the bytes
it stores, or, where its page faults, stands in the side log; wave.seq rises by one, and no byte of memory changes until the
store performs. -/
def Obligations.StoreIssue : Prop :=
  ∀ (i : Instr) (s : State) (w : Wave) (c : Call), i.wf = true → callOf w i = some c → c.dest = none →
    Open c.head s w → Clear s w c → ∃ (n k : Nat) (l : List Access) (tl : List TlbEntry) (fl : List FaultRec) (cl : List CacheEntry)
      (e : List SideEntry),
      let s' : State := { s with nextUid := n, drawn := k, accs := s.accs ++ l, tlb := tl, faults := fl, caches := cl, side := s.side ++ e }
      RunsIn i s s' w { w.freeV c.fv with seq := w.seq + 1, pc := w.pc + 16 } ∧
        (∀ x ∈ c.parts, (∃ a ∈ l, Asks s s' w c s.nextUid none x a) ∨ ∃ y ∈ e, Logs s s' w c s.nextUid x y) ∧
        (∀ a ∈ l, ∃ x ∈ c.parts, Asks s s' w c s.nextUid none x a) ∧
        ∀ y ∈ e, ∃ x ∈ c.parts, Logs s s' w c s.nextUid x y

/-- R184: a memory instruction with an address error in an active lane takes a page fault trap precise at it, with the
lowest detail of the lowest such lane, its address, and the mask of every such lane, and has none of its effect. That the address
is that of the lane's first access in that error is the model's choice (log 83). -/
def Sys2Proof.Machine.AddressErrors : Prop :=
  ∀ (i : Instr) (s : State) (w : Wave) (c : Call) (a b : List Want) (x : Want) (d : Nat), i.wf = true → asksAll w i = some c →
    Open c.head s w → w.pends = [] → w.defs.length < 64 → Unheld s w c.ord c.reach c.wants → c.wants = a ++ x :: b →
    (∀ y ∈ a, ∀ e, wantError s w c y = some e → y.lane = x.lane ∧ d < e) →
    (∀ y ∈ b, ∀ e, wantError s w c y = some e → y.lane = x.lane → d ≤ e) →
    wantError s w c x = some d → ∃ (m : Mask) (t : State), LooksUp s t ∧
      exec i s = .next (t.takeTrap w { cls := 4, detail := d, mask := m, addr := BitVec.ofNat 64 x.va, seq := w.seq + 1, rpc := w.pc }) ∧
      ∀ k : Fin 32, m.getLsbD k.val = c.wants.any (fun y => y.lane == k.val && (wantError s w c y).isSome)

/-- R188, R338: a memory instruction whose access a watchpoint slot hits takes WCH precise at it, before any of its effect; the
mask gathers the hitting lanes and the address is the lowest such lane's. That it is that of the lane's first access that hits is
the model's choice (log 97). -/
def Sys2Proof.Machine.WatchTraps : Prop :=
  ∀ (i : Instr) (s : State) (w : Wave) (c : Call) (a b : List Want) (x : Want), i.wf = true → asksAll w i = some c →
    Open c.head s w → w.pends = [] → w.defs.length < 64 → Unheld s w c.ord c.reach c.wants →
    (∀ y ∈ c.wants, wantError s w c y = none) → c.wants = a ++ x :: b →
    (∀ y ∈ a, ¬wantWatched s w c y) → wantWatched s w c x → ∃ (m : Mask) (n : Nat) (f : Bool) (t : State), LooksUp s t ∧
      exec i s = .next (t.takeTrap w { cls := 6, detail := n, mask := m, addr := BitVec.ofNat 64 x.va, seq := w.seq + 1, rpc := w.pc, mbx := f }) ∧
      n < 8 ∧ ∀ k : Fin 32, (m.getLsbD k.val = true ↔ ∃ y ∈ c.wants, y.lane = k.val ∧ wantWatched s w c y)

/-- R184, R188, R202, R338: MON takes the page fault trap of its address's error precise at it, and, the address sound, WCH of the
lowest slot that hits its byte as an access of lane 0. -/
def Sys2Proof.Machine.MonTraps : Prop :=
  ∀ (s : State) (w : Wave) (h : Head) (m : MemOp) (k : Fin 6) (e : Fin 8) (l : Fin 32),
    let x : Want := { lane := 0, va := (w.laneAddr m.base m.index (m.ofs.signExtend 64) 1 l).toNat, size := 1 }
    let where_ := s.region w (.virtual true) (BitVec.ofNat 64 x.va)
    let hits (n : Fin 8) : Prop := ∃ a, s.spaceOf w = some a ∧ s.wpHit w a n (.virtual true) true false true x = true
    (Instr.mon h m k e).wf = true → Open h s w → w.pends = [] → l = (lanesOf w.em).headD 0 → oneValue w m.index →
    Unheld s w .plain (.virtual true) [x] →
    (∀ d, where_ = .err d → ∃ t, LooksUp s t ∧ exec (.mon h m k e) s = .next (t.takeTrap w
      { cls := 4, detail := d, mask := w.em, addr := BitVec.ofNat 64 x.va, seq := w.seq + 1, rpc := w.pc })) ∧
    ∀ n, (∀ d, where_ ≠ .err d) → w.exempt = false → hits n → (∀ j < n, ¬hits j) → ∃ (f : Bool) (t : State), LooksUp s t ∧
      exec (.mon h m k e) s = .next (t.takeTrap w
        { cls := 6, detail := n.val, mask := 1, addr := BitVec.ofNat 64 x.va, seq := w.seq + 1, rpc := w.pc, mbx := f })

/-- R188, R296, R338: TLD and TST of a record that covers the group take the page fault trap of the lowest word that is in error,
with its detail and offset and the lanes of every such word in the mask; no word in error, WCH where a slot hits some word, the lowest
hitting lane's offset in trap.addr. That it is that of the lane's lowest word that hits is the model's choice (log 97). -/
def Sys2Proof.Machine.TileTraps : Prop :=
  ∀ (s : State) (w : Wave) (h : Head) (m : TileOp) (c : Cohort) (i : Instr) (read : Bool), Open h s w → w.pends = [] →
    w.defs.length < 64 → s.cohort? w.cohort = some c → i.wf = true →
    (read = true ∧ (∃ d, i = .tld h d m) ∨ read = false ∧ ∃ g, i = .tst h m g) →
    lrExt c.lr[m.lr.val] 0 * lrExt c.lr[m.lr.val] 1 * lrExt c.lr[m.lr.val] 2 * lrExt c.lr[m.lr.val] 3 = 32 * 2 ^ m.cnt.val →
    (∀ t d, t < 32 * 2 ^ m.cnt.val → wordError c (tileOffset w c m t) = some d → (∀ u < t, wordError c (tileOffset w c m u) = none) →
      ∃ b : Mask, exec i s = .next (s.takeTrap w { cls := 4, detail := d, mask := b, addr := BitVec.ofInt 64 (tileOffset w c m t),
                                                   seq := w.seq + 1, rpc := w.pc }) ∧
        ∀ k : Fin 32, (b.getLsbD k.val = true ↔
          ∃ u < 32 * 2 ^ m.cnt.val, u % 32 = k.val ∧ wordError c (tileOffset w c m u) ≠ none)) ∧
    ∀ t < 32 * 2 ^ m.cnt.val, (∀ u < 32 * 2 ^ m.cnt.val, wordError c (tileOffset w c m u) = none) →
      (∀ e ∈ s.side, e.wave = w.uid → e.ord ≠ .sc) → wordWatched s w c m read t →
      (∀ u < 32 * 2 ^ m.cnt.val, wordWatched s w c m read u → t % 32 < u % 32 ∨ t % 32 = u % 32 ∧ t ≤ u) →
      ∃ (b : Mask) (n : Nat) (f : Bool) (v : State), LooksUp s v ∧ exec i s = .next (v.takeTrap w
        { cls := 6, detail := n, mask := b, addr := BitVec.ofInt 64 (tileOffset w c m t), seq := w.seq + 1, rpc := w.pc, mbx := f }) ∧
        n < 8 ∧ ∀ k : Fin 32, (b.getLsbD k.val = true ↔
          ∃ u < 32 * 2 ^ m.cnt.val, u % 32 = k.val ∧ wordWatched s w c m read u)

/-- R188, R201, R338: a nest whose next iteration has an access in error, or else one that a watchpoint slot hits, stops before that
iteration with the fault to take at the wave's next boundary, named for the NEST; no access of it is placed. -/
def Sys2Proof.Machine.NestStops : Prop :=
  ∀ (s : State) (w : Wave) (n : Nest) (f g : List Want) (x : Want), s.wave? w.uid = some w → w.nests = [n] → n.state = .running →
    n.pos < n.total → n.asks = f ++ x :: g →
    let stops (p : PendFault) : Prop := exec (.nestIteration w.uid n.id) s =
      .next (s.putWave { w with nests := [{ n with state := .stopped }], pends := w.pends ++ [p] })
    (∀ d, (∀ y ∈ f, askError s w y = none) → askError s w x = some d →
      stops { seq := n.seq, cls := 4, detail := d, aux := 0, mask := w.em, addr := BitVec.ofNat 64 x.va, now := true, loc := some n.loc }) ∧
    ∀ k : Fin 8, (∀ y ∈ n.asks, askError s w y = none) → n.exempt = false → n.stepped = false → (∀ y ∈ f, ∀ j, ¬askWatched s w j y) →
      (∃ j, askWatched s w j x) → (∃ y ∈ n.asks, askWatched s w k y) → (∀ j < k, ∀ y ∈ n.asks, ¬askWatched s w j y) →
      ∃ b, stops { seq := n.seq, cls := 6, detail := k.val, aux := 0, mask := 1, addr := BitVec.ofNat 64 x.va, now := true, mbx := b,
                   loc := some n.loc }

/-- R184, R188, R201, R202, R296, R338: the precise traps of memory instructions. -/
def Obligations.AccessTraps : Prop := AddressErrors ∧ WatchTraps ∧ MonTraps ∧ TileTraps ∧ NestStops

/-- R37, R38, R39: PERFORM_LOAD of a wave's load (an aligned one, of memory: R37) gives the lane of its pending result the
newest bytes on the wave's path, after a strongly ordered one has emptied the caches below its level; the access leaves its queue, no register is written, and
memory, write buffers and scratchpads stay. -/
def Obligations.LoadPerforms : Prop :=
  ∀ (s : State) (w : Wave) (x : Access) (d : Def), Enabled s x → x.kind = .load → x.agent = .wave w.uid →
    s.wave? w.uid = some w → awaits w x d → Readable s x.key x.place x.size → (∀ a, x.place = .mem a → a % 8 + x.size ≤ 8) →
    let s0 := if x.ord = .sc then s.emptyBelow x.path x.level' else s
    ∃ (t : State) (w' : Wave) (d' : Def), exec (.performLoad (.acc x.id)) s = .next t ∧
      t = { s with accs := without s x, waves := t.waves, caches := t.caches } ∧ t.wave? w.uid = some w' ∧
      w' = { w with defs := w'.defs } ∧ d' ∈ w'.defs ∧ d'.id = d.id ∧
      d'.got = d.got ++ [⟨x.lane, x.part, (List.range x.size).map (byteSeen s0 x.path x.place x.size), false⟩] ∧
      ∀ u, u ≠ w.uid → t.wave? u = s.wave? u

/-- R36, R38, R39: PERFORM_STORE of a plain store to memory puts its bytes at the end of the write buffer of the node its agent
attaches to; memory keeps every byte until they drain. -/
def Sys2Proof.Machine.StorePerforms : Prop :=
  ∀ (s : State) (x : Access) (a : Nat), Enabled s x → x.kind = .store → x.nest = none → x.place = .mem a → x.releases = false →
    x.wcomb = false → (∀ e ∈ s.wb, e.id ≠ s.nextUid) →
    ∃ (t : State) (e : WbEntry), exec (.performStore (.acc x.id)) s = .next t ∧ t.wb = s.wb ++ [e] ∧
      e.node = x.path.headD .root ∧ e.agent = x.agent ∧ e.bytes = bytesAt a x.data ∧ t.accs = without s x ∧ t.mem = s.mem ∧
      t.cohorts = s.cohorts ∧ t.grids = s.grids ∧ t.cores = s.cores

/-- R39, R47: PERFORM_STORE of a release or strongly ordered store at a level of 2 to 4 puts its bytes into the write buffer of
the level's node directly, and drops them from the caches below it. -/
def Sys2Proof.Machine.ReleaseStorePerforms : Prop :=
  ∀ (s : State) (x : Access) (a : Nat), Enabled s x → x.kind = .store → x.nest = none → x.place = .mem a → x.releases = true →
    levelNode x.path x.level' ≠ .root →
    ∃ (t : State) (e : WbEntry), exec (.performStore (.acc x.id)) s = .next t ∧ t.wb = s.wb ++ [e] ∧
      e.node = levelNode x.path x.level' ∧ e.bytes = bytesAt a x.data ∧ t.accs = without s x ∧ t.mem = s.mem ∧
      ∀ c ∈ t.caches, c.node ∈ x.path → nodeLevel c.node < x.level' → nodeLevel c.node < nodeLevel (levelNode x.path x.level') →
        ∀ i < x.data.length, c.has (a + i) = false

/-- R36, R183: PERFORM_STORE to a cohort's scratchpad writes the single copy at once: the bytes stored read back, every other
byte of the scratchpad and all of memory stay. -/
def Sys2Proof.Machine.ScratchpadStore : Prop :=
  ∀ (s : State) (x : Access) (c o : Nat) (k : Cohort), Enabled s x → x.kind = .store → x.nest = none → x.place = .spad c o → s.cohort? c = some k →
    ∃ (t : State) (k' : Cohort), exec (.performStore (.acc x.id)) s = .next t ∧ t.cohort? c = some k' ∧ t.accs = without s x ∧
      k' = { k with spad := k'.spad } ∧ t.mem = s.mem ∧ t.wb = s.wb ∧
      (∀ i, (h : i < x.data.length) → k'.spad.read (o + i) = x.data[i]) ∧
      ∀ p, (p < o ∨ o + x.data.length ≤ p) → k'.spad.read p = k.spad.read p

/-- R36, R38, R39, R47, R183: PERFORM_STORE of a plain store, of a release, and to a scratchpad. -/
def Obligations.StoresPerform : Prop := StorePerforms ∧ ReleaseStorePerforms ∧ ScratchpadStore

/-- R39: DRAIN moves the oldest entry that holds a byte of its node's buffer to the parent's buffer; memory stays. -/
def Sys2Proof.Machine.DrainMoves : Prop :=
  ∀ (s : State) (e : WbEntry) (a b : List WbEntry), s.wb = a ++ e :: b → (∀ y ∈ a, y.id ≠ e.id) → (∀ y ∈ b, y.id ≠ e.id) →
    (∀ y ∈ a, y.node = e.node → ∀ p ∈ y.bytes, ∀ q ∈ e.bytes, p.1 ≠ q.1) → parentOf e.node ≠ .root →
    ∃ t, exec (.drain e.id) s = .next t ∧ t.wb = a ++ b ++ [{ e with node := parentOf e.node }] ∧ t.mem = s.mem ∧
      t.accs = s.accs ∧ t.cohorts = s.cohorts

/-- R39, R36: DRAIN of an entry of the package's buffer writes its bytes to M, and no other byte changes; memory keeps its
canonical form. -/
def Sys2Proof.Machine.DrainToMemory : Prop :=
  ∀ (s : State) (e : WbEntry) (a b : List WbEntry), s.wb = a ++ e :: b → (∀ y ∈ a, y.id ≠ e.id) → (∀ y ∈ b, y.id ≠ e.id) →
    (∀ y ∈ a, y.node = e.node → ∀ p ∈ y.bytes, ∀ q ∈ e.bytes, p.1 ≠ q.1) → parentOf e.node = .root → s.mem.wf = true →
    (∀ p ∈ e.bytes, s.reachable p.1 = true ∧ deviceWindow p.1 = false ∧ s.keyDiffers e.key (p.1 / 128) = false) →
    (e.bytes.map (fun p => p.1)).Nodup →
    ∃ t, exec (.drain e.id) s = .next t ∧ t.wb = a ++ b ∧ t.mem.wf = true ∧ (∀ p ∈ e.bytes, t.mem.read p.1 = p.2) ∧
      (∀ p, p ∉ e.bytes.map (fun q => q.1) → t.mem.read p = s.mem.read p) ∧ t.accs = s.accs ∧ t.cohorts = s.cohorts

/-- R39: EVICT removes from one node's cache what it holds of one byte's entry and changes nothing else. -/
def Sys2Proof.Machine.EvictDrops : Prop :=
  ∀ (s : State) (n : NodeId) (pa : Nat), ∃ l, exec (.evict n pa) s = .next { s with caches := l } ∧
    ∀ c, c ∈ l ↔ c ∈ s.caches ∧ ¬(c.node = n ∧ c.has pa = true)

/-- R36, R39: DRAIN below the package and into M, and EVICT. -/
def Obligations.WritesMove : Prop := DrainMoves ∧ DrainToMemory ∧ EvictDrops

/-- R48, R194: RMW_PERFORM of an ATOM on memory, at a node below the root, reads the newest word on the path from the node and
writes the operation's word into the node's buffer in one step; the old word is the lane's result. -/
def Sys2Proof.Machine.RmwPerforms : Prop :=
  ∀ (s : State) (w : Wave) (x : Access) (d : Def) (a : Nat), Enabled s x → x.kind = .rmw → x.agent = .wave w.uid →
    s.wave? w.uid = some w → awaits w x d → x.size = 4 → x.place = .mem a → Readable s x.key x.place 4 →
    s.rmwClear x x.rmwNode = true → x.rmwNode ≠ .root →
    let old := (List.range 4).map (byteSeen s (pathOf x.rmwNode) x.place 4)
    ∃ (t : State) (w' : Wave) (d' : Def) (e : WbEntry), exec (.rmwPerform x.id) s = .next t ∧ t.wb = s.wb ++ [e] ∧
      e.node = x.rmwNode ∧ e.bytes = bytesAt a (leOf 4 (rmwNew x.aop (BitVec.ofNat 32 (leVal old)) x.opA x.opB).toNat) ∧
      t.mem = s.mem ∧ t.accs = without s x ∧ t.wave? w.uid = some w' ∧ d' ∈ w'.defs ∧ d'.id = d.id ∧ w'.v = w.v ∧
      d'.got = d.got ++ [⟨x.lane, x.part, old, false⟩]

/-- R47: FENCE_PERFORM takes the fence out of its queue; an acquire or strongly ordered one empties every cache of the wave's
path below its level, and a release one leaves the caches alone. -/
def Sys2Proof.Machine.FencePerforms : Prop :=
  ∀ (s : State) (x : Access), Enabled s x → x.kind = .fence → ∃ l,
    exec (.fencePerform x.id) s = .next { s with accs := without s x, caches := l } ∧
    ∀ c, c ∈ l ↔ c ∈ s.caches ∧ ¬(x.ord ≠ .rel ∧ c.node ∈ x.path ∧ nodeLevel c.node < x.level)

/-- R47, R48, R194: RMW_PERFORM and FENCE_PERFORM. -/
def Obligations.RmwAndFence : Prop := RmwPerforms ∧ FencePerforms

/-- R40, R47, R196: FENCE completes at once where no side-log entry of the wave holds it: a fence of its order and scope joins the
wave's queue, to perform later. That it waits for such an entry before it issues is the model's choice (log 94). -/
def Sys2Proof.Machine.FenceIssues : Prop :=
  ∀ (s : State) (w : Wave) (h : Head) (o : MOrd) (k : Fin 6), (Instr.fence h o k).wf = true → Open h s w → w.pends = [] →
    (∀ e ∈ s.side, e.wave = w.uid → o = .acq ∧ e.rmw = none ∧ e.ord ≠ .sc) →
    RunsIn (.fence h o k) s
      { s with nextUid := s.nextUid + 2, accs := s.accs ++ [barCall w s.nextUid .fence o k.val 0] } w { w with pc := w.pc + 16 }

/-- R56, R205, R206: BAR and EBAR queue an arrival and park the wave at the barrier; BARA queues it and the wave goes on; of a
wave that has arrived in the open generation already, each parks without arriving. That a parked wave's pc stands at the
instruction is the model's choice (log 16). -/
def Sys2Proof.Machine.BarrierIssues : Prop :=
  (∀ (s : State) (w : Wave) (h : Head) (b : Fin 16) (c : Cohort), Calm h s w → (∀ e ∈ s.side, e.wave ≠ w.uid) →
    s.cohort? w.cohort = some c → fresher s w .arriveB b.val w.arrB[b.val] c.bars[b.val].gen →
    let s' : State := { s with nextUid := s.nextUid + 2, accs := s.accs ++ [barCall w s.nextUid .arriveB .rel 1 b.val] }
    RunsIn (.bar h b) s s' w { w with park := .bar b, parkOrder := s.clkOf w.core } ∧
      RunsIn (.bara h b) s s' w { w with pc := w.pc + 8 }) ∧
  (∀ (s : State) (w : Wave) (h : Head) (b : Fin 16) (c : Cohort), Calm h s w → (∀ e ∈ s.side, e.wave ≠ w.uid) →
    s.cohort? w.cohort = some c → again s w .arriveB b.val w.arrB[b.val] c.bars[b.val].gen →
    RunsIn (.bar h b) s s w { w with park := .barNext b, parkOrder := s.clkOf w.core } ∧
      RunsIn (.bara h b) s s w { w with park := .baraNext b, parkOrder := s.clkOf w.core }) ∧
  (∀ (s : State) (w : Wave) (h : Head) (e : Fin 4) (c : Cohort) (x : Ensemble), Calm h s w → (∀ y ∈ s.side, y.wave ≠ w.uid) →
    s.cohort? w.cohort = some c → s.ens? c.ens = some x → again s w .arriveE e.val w.arrE[e.val] x.bars[e.val].gen →
    RunsIn (.ebar h e) s s w { w with park := .ebarNext e, parkOrder := s.clkOf w.core }) ∧
  ∀ (s : State) (w : Wave) (h : Head) (e : Fin 4) (c : Cohort) (x : Ensemble), Calm h s w → (∀ y ∈ s.side, y.wave ≠ w.uid) →
    s.cohort? w.cohort = some c → s.ens? c.ens = some x → fresher s w .arriveE e.val w.arrE[e.val] x.bars[e.val].gen →
    RunsIn (.ebar h e) s
      { s with nextUid := s.nextUid + 2, accs := s.accs ++ [barCall w s.nextUid .arriveE .rel 2 e.val] } w
      { w with park := .ebar e, parkOrder := s.clkOf w.core }

/-- R57, R205: BARW of a barrier on which the wave has never arrived completes with the acquire of its level, and so does one
that its phase's window has passed; while the generation of its arrival is open, or the window still stands, it parks. That a
parked wave's pc stands at the instruction is the model's choice (log 16). -/
def Sys2Proof.Machine.BarwIssues : Prop :=
  ∀ (s : State) (w : Wave) (h : Head) (b : Fin 16) (c : Cohort), Calm h s w → s.cohort? w.cohort = some c →
    (w.arrB[b.val] = 0 → ∃ l, RunsIn (.barw h b) s { s with caches := l } w { w with pc := w.pc + 8 } ∧ Acquired s w 1 l) ∧
    (w.arrB[b.val] ≠ 0 → w.arrB[b.val] = c.bars[b.val].gen →
      RunsIn (.barw h b) s s w { w with park := .barw b, barwAt := s.clkOf w.core, parkOrder := s.clkOf w.core }) ∧
    ∀ d, w.arrB[b.val] ≠ 0 → w.arrB[b.val] ≠ c.bars[b.val].gen → recordOf c.bdone[b.val] w.arrB[b.val] d →
      if d.t0 + phaseOf d.cfg w.widx w.clsB[b.val] * field d.cfg 52 8 + 64 < s.clkOf w.core then
        ∃ l, RunsIn (.barw h b) s { s with caches := l } w { w with pc := w.pc + 8 } ∧ Acquired s w 1 l
      else RunsIn (.barw h b) s s w { w with park := .barw b, barwAt := s.clkOf w.core, parkOrder := s.clkOf w.core }

/-- R56, R57, R205, R206: BAR, BARA, EBAR and BARW at issue. -/
def Obligations.BarriersIssue : Prop := BarrierIssues ∧ BarwIssues

/-- R56, R206: BARRIER_ARRIVAL on a cohort barrier counts the wave into the open generation; if every live wave of the cohort
has then arrived, the generation completes: the count returns to 0, the next one opens, and the completion is recorded with
the clock of the cohort's core and the barrier's configuration, beside older ones that are still a wave's last arrival. -/
def Sys2Proof.Machine.ArrivalCounts : Prop :=
  ∀ (s : State) (w : Wave) (x : Access) (c : Cohort) (b : Fin 16), Enabled s x → x.kind = .arriveB → x.agent = .wave w.uid →
    s.wave? w.uid = some w → (s.waves.map (fun y => y.uid)).Nodup → x.lane = b.val → s.cohort? w.cohort = some c →
    ∃ (t : State) (w' : Wave) (c' : Cohort), exec (.barrierArrival x.id) s = .next t ∧ t.accs = without s x ∧
      t.wave? w.uid = some w' ∧ w'.arrB[b.val] = c.bars[b.val].gen ∧ w'.pc = w.pc ∧ w'.park = w.park ∧ w'.v = w.v ∧
      t.cohort? w.cohort = some c' ∧ t.mem = s.mem ∧ c'.spad = c.spad ∧
      (if c.bars[b.val].arrived + 1 = (s.waves.filter (fun y => y.cohort == w.cohort && !y.exited)).length then
        c'.bars[b.val] = ⟨0, c.bars[b.val].gen + 1⟩ ∧
          ∃ l, c'.bdone[b.val] = ⟨c.bars[b.val].gen, s.clkOf c.core, c.bcfg[b.val], decide (c.place ≠ .resident)⟩ :: l ∧
            ∀ d ∈ l, d ∈ c.bdone[b.val]
      else c'.bars[b.val] = ⟨c.bars[b.val].arrived + 1, c.bars[b.val].gen⟩ ∧ c'.bdone = c.bdone) ∧
      ∀ k : Fin 16, k ≠ b → c'.bars[k.val] = c.bars[k.val]

/-- R57, R58, R206, R209: BARRIER_RESUME of a resident wave parked at a barrier whose generation has completed, from the first
cycle of its phase on (counted from its cohort's return where it waited as it came) and with no wave of a lower phase waiting
there, performs the acquire of the barrier's level and lets the wave go on; of a wave that parked without arriving, once its
generation has completed, it queues the arrival that the next one counts. That the wave's pc moves on only then is the model's
choice (log 16). -/
def Sys2Proof.Machine.BarrierResumes : Prop :=
  (∀ (s : State) (w : Wave) (d : BDone) (p : Nat), s.wave? w.uid = some w → s.resident w = true → waitsFor s w d p →
    max d.t0 (w.backAt.getD 0) + p * field d.cfg 52 8 ≤ s.clkOf w.core →
    (∀ b, w.park = .barw b → w.barwAt ≤ s.clkOf w.core) →
    (p ≠ 0 → ∀ y ∈ s.waves, y.uid ≠ w.uid → sameBar y.park w.park = false) →
    ∃ l, exec (.barrierResume w.uid) s =
        .next ({ s with caches := l }.putWave { w with park := .none, pc := w.pc + 8, backAt := none }) ∧
      Acquired s w (resumeLevel w.park) l) ∧
  ∀ (s : State) (w : Wave) (c : Cohort) (b : Fin 16), s.wave? w.uid = some w → s.resident w = true → w.pends = [] →
    s.cohort? w.cohort = some c → w.arrB[b.val] < c.bars[b.val].gen →
    let s' : State := { s with nextUid := s.nextUid + 2, accs := s.accs ++ [barCall w s.nextUid .arriveB .rel 1 b.val] }
    (w.park = .barNext b → exec (.barrierResume w.uid) s = .next (s'.putWave { w with park := .bar b })) ∧
      (w.park = .baraNext b → exec (.barrierResume w.uid) s = .next (s'.putWave { w with park := .none, pc := w.pc + 8 }))

/-- R56 to R58, R206, R209: BARRIER_ARRIVAL and BARRIER_RESUME. -/
def Obligations.BarriersComplete : Prop := ArrivalCounts ∧ BarrierResumes

/-- R202, R182: MON completes: the wave's load of one byte at the address, the same in every lane, joins its queue to arm the
line when it performs, at its home or on the page that a walk gives; wave.seq rises by one. -/
def Sys2Proof.Machine.MonIssues : Prop :=
  ∀ (s : State) (w : Wave) (h : Head) (base : SReg) (x : SReg) (ofs : BitVec 26) (k : Fin 6) (e : Fin 8) (p : Place),
    let m : MemOp := { base := base, index := .sca x, ofs := ofs }
    let va := w.sget base + w.sget x + ofs.signExtend 64
    (Instr.mon h m k e).wf = true → Open h s w → w.pends = [] → (∀ y ∈ s.side, y.wave ≠ w.uid) →
    (s.region w (.virtual true) va = .home p ∨ s.region w (.virtual true) va = .page ∧ (∀ y ∈ s.tlb, y.asid ≠ s.asidOf w) ∧
      ∃ a l, s.spaceOf w = some a ∧ (s.walk (corePath w.core) a.ptb.toNat va.toNat).2 = .ok l ∧ l.allows .read w.priv = true ∧
        p = .mem (l.page va.toNat + va.toNat % 65536)) →
    (∀ a, s.spaceOf w = some a → w.exempt = true ∨ ∀ n : Fin 8,
      s.wpHit w a n (.virtual true) true false true { lane := 0, va := va.toNat, size := 1 } = false) →
    ∃ (n q : Nat) (a : Access) (tl : List TlbEntry) (cl : List CacheEntry),
      RunsIn (.mon h m k e) s { s with nextUid := n, drawn := q, accs := s.accs ++ [a], tlb := s.tlb ++ tl, caches := cl } w
        { w with seq := w.seq + 1, pc := w.pc + 16 } ∧
      a.kind = .mon ∧ a.agent = .wave w.uid ∧ a.place = p ∧ a.size = 1 ∧ a.level = k.val ∧ a.held = none ∧ a.defId = none

/-- R59, R202: PERFORM_LOAD of a MON's access arms its 128-byte line in the lowest free slot where no slot holds it
yet and its set has room; no register of the wave changes. -/
def Sys2Proof.Machine.MonArms : Prop :=
  ∀ (s : State) (w : Wave) (x : Access) (k : Fin 4), Enabled s x → x.kind = .mon → x.agent = .wave w.uid →
    s.wave? w.uid = some w → (s.waves.map (fun y => y.uid)).Nodup → Readable s x.key x.place x.size →
    (∀ n, lineOf x.place = .mem n → (s.monSetEntries (monSetOf n)).length < 8) → w.mons[k.val] = none →
    (∀ j : Fin 4, j < k → ∃ m, w.mons[j.val] = some m) → (∀ (j : Fin 4) (m : MonSlot), w.mons[j.val] = some m → m.line ≠ lineOf x.place) →
    ∃ (t : State) (w' : Wave), exec (.performLoad (.acc x.id)) s = .next t ∧ t.accs = without s x ∧ t.mem = s.mem ∧
      t.wave? w.uid = some w' ∧ w' = { w with mons := w'.mons } ∧
      w'.mons[k.val] = some ⟨lineOf x.place, x.level, s.nextUid⟩ ∧ ∀ j : Fin 4, j ≠ k → w'.mons[j.val] = w.mons[j.val]

/-- R60, R59: when a write enters M, every wave that has armed the line it touches has a wake of reason 1 pending. -/
def Sys2Proof.Machine.MonitorWakes : Prop :=
  ∀ (s : State) (e : WbEntry) (a b : List WbEntry) (w : Wave) (k : Fin 4) (m : MonSlot) (n : Nat), s.wb = a ++ e :: b →
    (∀ y ∈ a, y.id ≠ e.id) → (∀ y ∈ a, y.node = e.node → ∀ p ∈ y.bytes, ∀ q ∈ e.bytes, p.1 ≠ q.1) →
    parentOf e.node = .root → (∀ p ∈ e.bytes, s.reachable p.1 = true ∧ deviceWindow p.1 = false) →
    s.wave? w.uid = some w → w.mons[k.val] = some m →
    m.line = .mem n → (∃ p ∈ e.bytes, p.1 / 128 = n) →
    ∃ t w', exec (.drain e.id) s = .next t ∧ t.wave? w.uid = some w' ∧ ⟨1, k.val⟩ ∈ w'.wakes

/-- R59, R60, R182, R202: MON at issue, its arm point, and the wake a write into M makes pending. -/
def Obligations.Monitors : Prop := MonIssues ∧ MonArms ∧ MonitorWakes

/-- R61, R203: MWAIT returns at once where a wake or an interrupt is pending or its ticks are 0: with its result, the lines
disarmed, the wakes taken, and the acquire of the highest level armed; otherwise it parks with the ticks it may wait. That a
parked wave's pc stands at the instruction is the model's choice (log 16). -/
def Sys2Proof.Machine.MwaitIssues : Prop :=
  ∀ (s : State) (w : Wave) (h : Head) (d a : SReg), Calm h s w →
    if w.intp = true ∨ w.wakes ≠ [] ∨ w.sget a = 0 then
      ∃ l, RunsIn (.mwait h d a) s { s with caches := l } w (afterMwait w d) ∧ Acquired s w (mwaitLevel w) l
    else RunsIn (.mwait h d a) s s w { w with park := .mwait d s.clk (w.sget a).toNat, parkOrder := s.clkOf w.core }

/-- R60, R61, R203: MWAIT_WAKE of a resident parked wave with a wake or an interrupt pending, and MWAIT_TIMEOUT of one whose
ticks have passed, end the wait: the result, no line armed, no wake pending, and the acquire. That the wave's pc moves on only
then is the model's choice (log 16). -/
def Sys2Proof.Machine.MwaitReturns : Prop :=
  ∀ (i : Instr) (s : State) (w : Wave) (d : SReg) (start ticks : Nat), s.wave? w.uid = some w → s.resident w = true →
    w.park = .mwait d start ticks → (∀ u ∈ s.poison, unitWave u ≠ some w.uid) →
    (i = .mwaitWake w.uid ∧ (w.wakes ≠ [] ∨ w.intp = true) ∨ i = .mwaitTimeout w.uid ∧ start + ticks ≤ s.clk) →
    ∃ l, exec i s = .next ({ s with caches := l }.putWave (afterMwait w d)) ∧ Acquired s w (mwaitLevel w) l

/-- R60, R61, R203: MWAIT, MWAIT_WAKE and MWAIT_TIMEOUT. -/
def Obligations.Mwait : Prop := MwaitIssues ∧ MwaitReturns

/-- R197: PREF completes; it names itself, asks for lines to enter one cache, and no register or byte of memory changes. -/
def Sys2Proof.Machine.PrefIssues : Prop :=
  ∀ (s : State) (w : Wave) (h : Head) (m : MemOp) (k : Fin 6) (e : Fin 8), (Instr.pref h m k e).wf = true → Open h s w →
    w.pends = [] → Unheld s w .plain (.virtual true) (wantsOf w m 1 1 (fun _ => [])) → ∃ (n q : Nat) (l : List Access) (tl : List TlbEntry) (cl : List CacheEntry),
      RunsIn (.pref h m k e) s { s with nextUid := n, drawn := q, accs := s.accs ++ l, tlb := tl, caches := cl } w
        { w.freeV (frees [m.index]) with seq := w.seq + 1, pc := w.pc + 16 } ∧
      ∀ a ∈ l, a.kind = .pref ∧ a.agent = .wave w.uid ∧ a.size = 128 ∧ a.va % 128 = 0 ∧ a.held = none ∧ a.defId = none ∧
        a.level = (if k.val ≤ 1 then 1 else if k.val = 2 then 2 else 3)

/-- R198: TRES with a handle that is the same in every active lane completes: the wave's die, or every die of the package above
scope die, then gives the handle the tensor named, or no tensor for priority 0; other handles and other dies stay. -/
def Sys2Proof.Machine.TresIssues : Prop :=
  ∀ (s : State) (w : Wave) (h : Head) (base : SReg) (ofs : BitVec 26) (c : VSrc) (e : Fin 8) (k : Fin 6) (v : W32),
    (Instr.tres h base ofs c e k).wf = true → Open h s w → checkUniform w.em (w.src c) = .ok v →
    ∃ l : List DieSt, let s' : State := { s with dies := l }
      RunsIn (.tres h base ofs c e k) s s' w { w.freeV (frees [c]) with pc := w.pc + 16 } ∧
      ∀ d : Fin 8, if (if k = 3 then d = w.core.die else s.mod.cfg.dies.getLsbD d.val = true) then
          s'.dieOf d = { s.dieOf d with tensors := (s'.dieOf d).tensors } ∧
          (∀ y ∈ (s'.dieOf d).tensors, y.handle = v.toNat / 2 ^ 24 → e ≠ 0 ∧ y =
            { handle := v.toNat / 2 ^ 24, asid := s.asidOf w,
              base := (w.sget base + ofs.signExtend 64).toNat / 65536 * 65536, pages := v.toNat % 2 ^ 24, evp := e.val }) ∧
          (e ≠ 0 → ∃ y ∈ (s'.dieOf d).tensors, y.handle = v.toNat / 2 ^ 24) ∧
          ∀ y : Tensor, y.handle ≠ v.toNat / 2 ^ 24 → (y ∈ (s'.dieOf d).tensors ↔ y ∈ (s.dieOf d).tensors)
        else s'.dieOf d = s.dieOf d

/-- R40, R47, R196 to R198: FENCE, PREF and TRES at issue. -/
def Obligations.HintsIssue : Prop := FenceIssues ∧ PrefIssues ∧ TresIssues

/-- R221: QDIM completes: qD is a uniform matrix of zeros of its dimensions, whatever em holds, and carries no status. -/
def Sys2Proof.Machine.QdimAllocates : Prop :=
  ∀ (s : State) (w : Wave) (h : Head) (d : QNum) (r c : Fin 8), (Instr.qdim h d r c).wf = true → Open h s w →
    (s.coreOf w.core).vetchFree ≤ s.clkOf w.core → ∃ b, s.clkOf w.core < b ∧
      RunsIn (.qdim h d r c) s (vetchBusy s w b) w
        { (w.qput d { rows := r.val, cols := c.val, elems := List.replicate (r.val * c.val) (Vector.replicate 32 0) }).killDefs
            w.defs.length [] [d] with pc := w.pc + 16 }

/-- R221: QDIM. -/
def Obligations.VetchWrites : Prop := QdimAllocates

/-- R217, R218, R223, R224: QZERO, QID, QMOV, QTRN, QADD, QSUB, QSCL, QPUT, QMUL and QMAD complete where their sources are
written and their dimensions agree: each active lane of qD holds its matrix and status, other lanes keep theirs, and the
unit is busy for at least a cycle. That the lanes and dimensions of a destination which the instruction frees itself count as
unwritten, and that it is freed under an em of 0, are the model's choices (log 25, 78, 82). -/
def Sys2Proof.Machine.VetchResults : Prop :=
  ∀ (i : Instr) (s : State) (w : Wave) (c : QCall), i.wf = true → qResult w i = some c → Open c.head s w → c.Takes s w →
    ∃ (q : QReg) (b : Nat), s.clkOf w.core < b ∧
      RunsIn i s (vetchBusy s w b) w
        { ((((w.freeV c.fv).freeQ c.fq).qput c.dst q).killDefs w.defs.length [] (if w.em = 0 then [] else [c.dst])) with
          pc := w.pc + 16 } ∧
      c.Merged w.em ((w.freeQ c.fq).qreg c.dst) q

/-- R217, R219, R225 to R227, R229: QCHOL, QLU and QSOLV complete with qD outstanding: the record of the result holds each lane's
factor or solution and its status, and the bits that vst will gather; under an em of 0 nothing is outstanding. That the lanes and dimensions of a destination which the
instruction frees itself count as unwritten is the model's choice (log 25, 82). -/
def Sys2Proof.Machine.VetchFactors : Prop :=
  ∀ (i : Instr) (s : State) (w : Wave) (c : QCall), i.wf = true → qLong w i = some c → Open c.head s w → c.Takes s w →
    (w.em = 0 → ∃ b, s.clkOf w.core < b ∧ RunsIn i s (vetchBusy { s with nextUid := s.nextUid + 1 } w b) w
      { (((w.freeV c.fv).freeQ c.fq).killDefs w.defs.length [] []) with pc := w.pc + 16 }) ∧
    (w.em ≠ 0 → ∃ (q : QReg) (b due : Nat) (bits : Mask) (vw : List (VNum × VReg)), s.clkOf w.core < b ∧ s.clkOf w.core < due ∧
      RunsIn i s (vetchBusy { s with nextUid := s.nextUid + 1 } w b) w
        { (((w.freeV c.fv).freeQ c.fq).killDefs w.defs.length (vw.map (fun x => x.1)) [c.dst]) with
          pc := w.pc + 16,
          sb := [{ id := s.nextUid, kind := .vetch, vw := vw, qw := [(c.dst, q)], vst := bits, due := due, em := w.em }] } ∧
      c.Merged w.em ((w.freeQ c.fq).qreg c.dst) q ∧
      (∀ l : Fin 32, bits.getLsbD l.val = (w.em.getLsbD l.val && c.status l != .none)) ∧
      match i with
      | .qlu _ _ p a => ∃ r, vw = [(p, r)] ∧ ∀ l : Fin 32, r.lane l = if w.em.getLsbD l.val
          then (luLane (laneMatrix (w.qreg a.reg) l) (w.qreg a.reg).rows).2 else (w.vreg p).lane l
      | _ => vw = [])

/-- R223: QGET completes: vD holds element (i, j) of each active lane's matrix. -/
def Sys2Proof.Machine.QgetReads : Prop :=
  ∀ (s : State) (w : Wave) (h : Head) (d : VNum) (a : QSrc) (i j : Fin 8), (Instr.qget h d a i j).wf = true → Open h s w →
    (w.qreg a.reg).rows ≠ 0 → i.val < (w.qreg a.reg).rows → j.val < (w.qreg a.reg).cols → (w.qreg a.reg).flat →
    (s.coreOf w.core).vetchFree ≤ s.clkOf w.core →
    ∃ (r : VReg) (b : Nat), s.clkOf w.core < b ∧
      RunsIn (.qget h d a i j) s (vetchBusy s w b) w ((w.freeQ (qFrees a)).wrote [] d r) ∧
      ∀ k, r.lane k = if w.em.getLsbD k.val
        then (laneMatrix (w.qreg a.reg) k).getD (i.val * (w.qreg a.reg).cols + j.val) 0 else (w.vreg d).lane k

/-- R219, R228: QSTAT of every selector completes with its status, statuses of lanes or shape in sD, and only selector 3 clears
vst. -/
def Sys2Proof.Machine.QstatReads : Prop :=
  ∀ (i : Instr) (s : State) (w : Wave) (h : Head) (l src : List QNum) (d : SReg) (f : Nat → Bool) (v : Mask), i.wf = true →
    qstatResult w i = some (h, l, src, d, f, v) → Open h s w → (∀ r ∈ src, (w.qreg r).rows ≠ 0) →
    (s.coreOf w.core).vetchFree ≤ s.clkOf w.core →
    ∃ (x : Word) (b : Nat), s.clkOf w.core < b ∧
      RunsIn i s (vetchBusy s w b) w { (w.freeQ l).sset d x with vst := v, pc := w.pc + 16 } ∧ ∀ k < 64, x.getLsbD k = f k

/-- R219, R223, R228: QGET and QSTAT. -/
def Obligations.VetchReads : Prop := QgetReads ∧ QstatReads

/-- R217, R222: QLD and QST complete: one access for each element of each active lane, as a load's or a store's at issue, or, of QST
where its page faults, a place in the side log; QLD's result is pending under the captured mask and dimensions, and no byte of memory
changes. That an unwritten register does not matter under an em of 0 is the model's reading (log 85). -/
def Obligations.VetchMemory : Prop :=
  ∀ (i : Instr) (s : State) (w : Wave) (c : Call) (fq : List QNum) (r : QNum), i.wf = true → qCallOf w i = some (c, fq, r) →
    Open c.head s w → Clear s w c → ((w.qreg r).rows ≠ 0 ∨ w.em = 0) → (s.coreOf w.core).vetchFree ≤ s.clkOf w.core →
    ∃ (n k b : Nat) (l : List Access) (tl : List TlbEntry) (fl : List FaultRec) (cl : List CacheEntry) (e : List SideEntry),
      s.clkOf w.core < b ∧
      let s' : State := { s with nextUid := n, drawn := k, accs := s.accs ++ l, tlb := tl, faults := fl, caches := cl, side := s.side ++ e }
      match c.dest with
      | some d => e = [] ∧ RunsIn i s (vetchBusy s' w b) w { w.freeV c.fv with
            defs := w.defs ++ [{ id := s.nextUid + 1, seq := w.seq + 1, pc := w.pc, dest := d, mask := w.em }],
            seq := w.seq + 1, pc := w.pc + 16 } ∧
          List.Forall₂ (Asks s s' w c s.nextUid (some (s.nextUid + 1))) c.wants l
      | none => RunsIn i s (vetchBusy s' w b) w { (w.freeV c.fv).freeQ fq with seq := w.seq + 1, pc := w.pc + 16 } ∧
          (∀ x ∈ c.wants, (∃ a ∈ l, Asks s s' w c s.nextUid none x a) ∨ ∃ y ∈ e, Logs s s' w c s.nextUid x y) ∧
          (∀ a ∈ l, ∃ x ∈ c.wants, Asks s s' w c s.nextUid none x a) ∧ ∀ y ∈ e, ∃ x ∈ c.wants, Logs s s' w c s.nextUid x y

/-- R217, R220, R234: a Vetch instruction with an unwritten source raises IIL with detail 2 precise at it, and writes nothing; under an
em of 0 one that writes qD or vD under the mask writes nothing and goes on. That it raises nothing then is the model's reading (log
85), and that detail 2 comes before detail 1 is its choice (log 103). -/
def Sys2Proof.Machine.VetchUnwritten : Prop :=
  (∀ (i : Instr) (s : State) (w : Wave) (c : QCall), i.wf = true → (qResult w i = some c ∨ qLong w i = some c) → Open c.head s w →
    (s.coreOf w.core).vetchFree ≤ s.clkOf w.core → (∃ r ∈ c.src, (w.qreg r).rows = 0) →
    (w.em ≠ 0 → exec i s = .next (s.takeTrap w { cls := 1, detail := 2, mask := w.em, seq := w.seq, rpc := w.pc })) ∧
    (w.em = 0 → ∃ b, s.clkOf w.core < b ∧
      RunsIn i s (vetchBusy s w b) w { ((w.freeV c.fv).freeQ c.fq) with pc := w.pc + 16 })) ∧
  (∀ (s : State) (w : Wave) (h : Head) (d : VNum) (a : QSrc) (i j : Fin 8), (Instr.qget h d a i j).wf = true → Open h s w →
    (s.coreOf w.core).vetchFree ≤ s.clkOf w.core → (w.qreg a.reg).rows = 0 →
    (w.em ≠ 0 → exec (.qget h d a i j) s = .next (s.takeTrap w { cls := 1, detail := 2, mask := w.em, seq := w.seq, rpc := w.pc })) ∧
    (w.em = 0 → ∃ b, s.clkOf w.core < b ∧ RunsIn (.qget h d a i j) s (vetchBusy s w b) w { w.freeQ (qFrees a) with pc := w.pc + 16 })) ∧
  (∀ (i : Instr) (s : State) (w : Wave) (h : Head) (l src : List QNum) (d : SReg) (f : Nat → Bool) (v : Mask), i.wf = true →
    qstatResult w i = some (h, l, src, d, f, v) → Open h s w → (s.coreOf w.core).vetchFree ≤ s.clkOf w.core →
    (∃ r ∈ src, (w.qreg r).rows = 0) →
    exec i s = .next (s.takeTrap w { cls := 1, detail := 2, mask := w.em, seq := w.seq, rpc := w.pc })) ∧
  ∀ (i : Instr) (s : State) (w : Wave) (c : Call) (fq : List QNum) (r : QNum), i.wf = true → qCallOf w i = some (c, fq, r) →
    Open c.head s w → w.pends = [] → w.defs.length < 64 → (∀ e ∈ s.side, e.wave ≠ w.uid) → w.em ≠ 0 → (w.qreg r).rows = 0 →
    exec i s = .next (s.takeTrap w { cls := 1, detail := 2, mask := w.em, seq := w.seq + 1, rpc := w.pc })

/-- R217 to R220, R223 to R227, R229, R234: the Vetch instructions that write qD, at once or later, and their trap on an unwritten source. -/
def Obligations.VetchComputes : Prop := VetchResults ∧ VetchFactors ∧ VetchUnwritten

/-- R285, R286, R289: MMA of a bound slot completes: its 32 results are outstanding, element (l, j) the exact sum of R124 rounded
once; D's registers are allocated with the values they had; its sources marked last use are freed. -/
def Obligations.MmaIssues : Prop :=
  ∀ (s : State) (w : Wave) (h : Head) (d : VNum) (a b c : VGrp) (fs : Fin 8) (ra : Bool) (k : Nat),
    let slot := s.slotOf w fs
    let sc := slotScaled slot
    let l := grpFrees a 16 ++ grpFrees b 16 ++ (if sc then grpFrees c 2 else [])
    (Instr.mma h d a b c fs ra).wf = true → Open h s w → slotBound slot = true → mmaK (slotElem slot) = some k →
    (sc = false → c = ⟨0, false⟩) → (s.coreOf w.core).arrayFree[w.port.val % 2] ≤ s.clkOf w.core →
    ∃ (x : Wave) (e : Sb) (f : Vector Nat 2),
      RunsIn (.mma h d a b c fs ra) s
        ({ s with nextUid := s.nextUid + 1 }.putCore { s.coreOf w.core with arrayFree := f }) w x ∧
      x = { w with v := x.v, sb := [e], lmiss := x.lmiss, defs := x.defs, pc := w.pc + 16 } ∧ e.id = s.nextUid ∧ e.kind = .mma ∧
      s.clkOf w.core + 12 ≤ e.due ∧ s.clkOf w.core + 8 ≤ f[w.port.val % 2] ∧
      (∀ r, r ∉ groupRegs d 32 → x.vreg r = (w.freeV l).vreg r) ∧
      (∀ r ∈ groupRegs d 32, ∀ k, (x.vreg r).lane k = ((w.freeV l).vreg r).lane k) ∧
      e.vw.map (fun y => y.1) = groupRegs d 32 ∧
      ∀ (i j : Fin 32), ∃ r, (groupReg d j.val, r) ∈ e.vw ∧
        r.lane i = mmaCell w d a.reg b.reg c.reg (slotElem slot) k sc i j

/-- R291, R292: LREC completes: the cohort's record holds the low 46 bits of sA below the 64 bits of sB. -/
def Sys2Proof.Machine.LrecWrites : Prop :=
  ∀ (s : State) (w : Wave) (h : Head) (d : Fin 8) (a b : SReg) (c : Cohort), Open h s w → s.cohort? w.cohort = some c →
    let x : BitVec 128 := BitVec.ofNat 128 ((w.sget a).toNat % 2 ^ 46 + 2 ^ 64 * (w.sget b).toNat)
    RunsIn (.lrec h d a b) s (s.putCohort { c with lr := c.lr.set d.val x }) w { w with pc := w.pc + 16 }

/-- R294 to R298: TLD and TST of a record that fits complete: one access for each word of the tile, in the order of the walk, on
the cohort's scratchpad; TLD's result is pending for all 32 lanes and TST carries the words of its group. -/
def Sys2Proof.Machine.TileIssues : Prop :=
  (∀ (s : State) (w : Wave) (h : Head) (d : VNum) (m : TileOp) (c : Cohort), (Instr.tld h d m).wf = true → Open h s w →
    w.defs.length < 64 → w.pends = [] → (∀ e ∈ s.side, e.wave = w.uid → e.ord ≠ .sc) → TileFits s w c m true → ∃ (n : Nat) (l : List Access) (x : Word),
      RunsIn (.tld h d m) s { s with nextUid := n, accs := s.accs ++ l } w { w with
          defs := w.defs ++ [{ id := s.nextUid + 1, seq := w.seq + 1, pc := w.pc, dest := .tile d (2 ^ m.cnt.val), mask := 0xFFFFFFFF }],
          bconf := x, seq := w.seq + 1, pc := w.pc + 16 } ∧
      l.length = 32 * 2 ^ m.cnt.val ∧ ∀ t, (ht : t < l.length) → IsWord w c m .load (some (s.nextUid + 1)) t l[t]) ∧
  ∀ (s : State) (w : Wave) (h : Head) (m : TileOp) (g : VGrp) (c : Cohort), (Instr.tst h m g).wf = true → Open h s w →
    w.pends = [] → (∀ e ∈ s.side, e.wave = w.uid → e.ord ≠ .sc) → TileFits s w c m false → ∃ (n : Nat) (l : List Access) (x : Word),
      RunsIn (.tst h m g) s { s with nextUid := n, accs := s.accs ++ l } w
        { w.freeV (grpFrees g (2 ^ m.cnt.val)) with bconf := x, seq := w.seq + 1, pc := w.pc + 16 } ∧
      l.length = 32 * 2 ^ m.cnt.val ∧ ∀ t, (ht : t < l.length) → IsWord w c m .store none t l[t] ∧
        l[t].data = leOf 4 ((w.vreg (groupReg g.reg (t / 32))).lane ⟨t % 32, Nat.mod_lt _ (by omega)⟩).toNat

/-- R291, R292, R294 to R298: LREC, TLD and TST. -/
def Obligations.TilesIssue : Prop := LrecWrites ∧ TileIssues

/-- R199, R200, R201: NEST of a bound slot completes: with no extent of 0 the nest is outstanding from its first iteration, its
bases and scale bases read now; with one, it does nothing; either way it names itself. That a stopped nest is one of the four
outstanding is the model's choice (log 101). -/
def Sys2Proof.Machine.NestIssues : Prop :=
  ∀ (s : State) (w : Wave) (h : Head) (n : NestArgs), (Instr.nest h n).wf = true → Open h s w →
    slotBound (s.slotOf w n.fs) = true → w.pends = [] →
    (slotScaled (s.slotOf w n.fs) = true → n.bs1.val ≤ 62 ∧ (n.eop ≠ .copy → n.eop ≠ .relu → n.bs2.val ≤ 62)) →
    w.nests.length < 4 → (∀ e ∈ s.side, e.wave ≠ w.uid) →
    if n.ext.toList.any (fun e => e == 0) then RunsIn (.nest h n) s s w { w with seq := w.seq + 1, pc := w.pc + 32 }
    else RunsIn (.nest h n) s { s with nextUid := s.nextUid + 2 } w { w with
      nests := w.nests ++ [{ id := s.nextUid, head := h, args := n, base0 := w.sget n.bs0, base1 := w.sget n.bs1, base2 := w.sget n.bs2,
                             scale1 := w.sget (n.bs1 + 1), scale2 := w.sget (n.bs2 + 1), fmt := slotElem (s.slotOf w n.fs),
                             scaled := slotScaled (s.slotOf w n.fs), loc := w.loc, pc := w.pc, seq := w.seq + 1,
                             instr := s.nextUid + 1, priv := w.priv, stepped := w.exempt }],
      seq := w.seq + 1, pc := w.pc + 32 }

/-- R199, R200: NEST_ITERATION of a nest whose next iteration lies in the wave's scratchpad, no address in error and none
watched, places the iteration's loads and its store in the wave's queue, in the order R200 writes them, and the nest goes on to
the next position. PERFORM_STORE of a copy's store then stores the FP32 word that its load returned (a NaN as the canonical one),
and after the last iteration's the nest has ended; no other byte of the scratchpad and no byte of memory changes. -/
def Sys2Proof.Machine.NestCopies : Prop :=
  (∀ (s : State) (w : Wave) (n : Nest), s.wave? w.uid = some w → w.nests = [n] → n.state = .running → n.pos < n.total →
    (∀ a ∈ s.accs, a.agent = .wave w.uid → a.instr ≤ n.instr) →
    (∀ x ∈ n.asks, x.va % x.size = 0 ∧ ∃ p, s.region w (.virtual false) (BitVec.ofNat 64 x.va) = .home p) →
    Unwatched s { w with exempt := n.exempt || n.stepped } (.virtual false) true false true (n.reads n.pos) →
    Unwatched s { w with exempt := n.exempt || n.stepped } (.virtual false) false true true [n.write n.pos] →
    ∃ (q : Nat) (l : List Access), exec (.nestIteration w.uid n.id) s =
        .next ({ s with nextUid := q, accs := s.accs ++ l }.putWave { w with nests := [{ n with pos := n.pos + 1, exempt := false }] }) ∧
      List.Forall₂ (IsPart s w n) n.asks l) ∧
  ∀ (s : State) (w : Wave) (n : Nest) (c : Cohort) (x : Access) (k o : Nat) (l : List Byte), Enabled s x → x.kind = .store →
    s.wave? w.uid = some w → s.cohort? c.uid = some c → w.nests = [n] → x.agent = .wave w.uid → x.nest = some (n.id, k) →
    x.place = .spad c.uid o → n.fmt = .fp32 → n.scaled = false → n.args.eop = .copy → n.args.red = false → s.poison = [] →
    n.got.filter (fun g => g.pos == k) = [⟨k, 0, l, false⟩] →
    ∃ (t : State) (w' : Wave) (c' : Cohort), exec (.performStore (.acc x.id)) s = .next t ∧ t.accs = without s x ∧
      t.wave? w.uid = some w' ∧ w' = { w with nests := w'.nests, wakes := w'.wakes } ∧ t.cohort? c.uid = some c' ∧
      c' = { c with spad := c'.spad } ∧ t.mem = s.mem ∧
      c'.spad.readN o 4 = leOf 4 (to32 (num32 (BitVec.ofNat 32 (leVal l)))).toNat ∧
      (∀ p, (p < o ∨ o + 4 ≤ p) → c'.spad.read p = c.spad.read p) ∧
      let last : Prop := n.total ≤ n.pos ∧ ∀ a ∈ without s x, ¬(a.agent = .wave w.uid ∧ ∃ q, a.nest = some (n.id, q))
      (last → w'.nests = []) ∧ (¬last → w'.nests = [{ n with got := n.got.filter (fun g => g.pos != k) }])

/-- R199 to R201: NEST at issue, and an iteration. -/
def Obligations.Nests : Prop := NestIssues ∧ NestCopies

/-- R144, R145, R178, R229, R289, R290: SCOREBOARD_COMPLETE, XEV_COMPLETE, VETCH_COMPLETE and MMA_COMPLETE of an outstanding
result of their kind, at its time and of MMAs oldest first, write the registers it names and gather its bits of xst and vst;
no other register of the wave changes. -/
def Obligations.ResultsComplete : Prop :=
  ∀ (s : State) (w : Wave) (b : Sb) (f g : List Sb), s.wave? w.uid = some w → w.sb = f ++ b :: g → (∀ x ∈ f, x.id ≠ b.id) →
    (∀ x ∈ g, x.id ≠ b.id) → b.due ≤ s.clkOf w.core → (b.kind = .mma → ∀ x ∈ f, x.kind ≠ .mma) →
    (b.vw.map (fun x => x.1)).Nodup → (b.qw.map (fun x => x.1)).Nodup → (∀ u ∈ s.poison, unitWave u ≠ some w.uid) →
    ∃ (t : State) (w' : Wave), exec (completion b.kind w.uid b.id) s = .next t ∧ t.wave? w.uid = some w' ∧ Only s t w ∧
      w' = { w with v := w'.v, q := w'.q, stk := w'.stk, xst := w.xst ||| b.xst, vst := w.vst ||| b.vst, sb := f ++ g,
                    lru := w'.lru, spilled := w'.spilled } ∧
      w'.stk = (if b.stk.isSome then b.stk else w.stk) ∧ (∀ x ∈ b.vw, w'.vreg x.1 = x.2) ∧ (∀ x ∈ b.qw, w'.qreg x.1 = x.2) ∧
      (∀ r, r ∉ b.vw.map (fun x => x.1) → w'.vreg r = w.vreg r) ∧ ∀ r, r ∉ b.qw.map (fun x => x.1) → w'.qreg r = w.qreg r

/-- R140: DEFERRED_RETURN of a result that waits for no access any more puts it into the return buffer; registers keep their
values until it commits. -/
def Sys2Proof.Machine.DeferredReturns : Prop :=
  ∀ (s : State) (w : Wave) (d : Def) (f g : List Def), s.wave? w.uid = some w → w.defs = f ++ d :: g → (∀ x ∈ f, x.id ≠ d.id) →
    (∀ x ∈ g, x.id ≠ d.id) → d.returned = false → (∀ a ∈ s.accs, a.defId ≠ some d.id) → (∀ x ∈ d.got, x.poison = false) →
    exec (.deferredReturn w.uid d.id) s = .next (s.putWave { w with defs := f ++ { d with returned := true } :: g })

/-- R71, R140, R141, R192, R194, R217, R222, R297: at a switch point (here NOPW.y) a returned load, ATOM, QLD or TLD commits: each lane
of its captured mask of its destination takes what came back, of a load by its size and register by register, of a TLD the word of
each register, of a QLD the matrix in the captured dimensions, whatever em holds; other lanes and registers keep their values, and
nothing is pending. Where every lane's address is the same, each takes what the lowest active lane's access brought. -/
def Sys2Proof.Machine.SwitchCommits : Prop :=
  ∀ (s : State) (w : Wave) (h : Head) (d : Def), s.wave? s.cur = some w → h.y = true →
    guardPasses h.guard w = true → (∀ u ∈ s.poison, unitWave u ≠ some w.uid) → s.breakpoint w true = none →
    s.breakpoint w false = none → w.inProg = .none → w.sb = [] → w.spilled = [] → w.pends = [] → w.defs = [d] → d.returned = true →
    d.lost = 0 → d.deadV = [] → d.deadQ = false → (∀ x ∈ d.got, x.poison = false) →
    d.got.Pairwise (fun x y => (x.lane, x.part) ≠ (y.lane, y.part)) → d.dest.regs.length ≤ 256 →
    ∃ (t : State) (w' : Wave), exec (.nopw h) s = .next t ∧ t.wave? s.cur = some w' ∧ Only s t w ∧
      w'.same { w with v := w'.v, q := w'.q, defs := [], pc := w.pc + 8 } ∧ (∀ r, r ∉ d.dest.regs → w'.vreg r = w.vreg r) ∧
      (∀ j < d.dest.regs.length, ∀ k : Fin 32, (w'.vreg (d.dest.regs.getD j 0)).lane k =
        if d.mask.getLsbD k.val then d.gives j k else (w.vreg (d.dest.regs.getD j 0)).lane k) ∧
      (∀ q, (∀ r c f, d.dest ≠ .qload q r c f) → w'.qreg q = w.qreg q) ∧
      ∀ q r c f, d.dest = .qload q r c f → QCall.Merged
        { head := h, fq := [], src := [], dst := q, rows := r, cols := c, fits := True,
          lane := fun l => (List.range (r * c)).map (fun k => d.came (if f then d.lead else l) k) } d.mask (w.qreg q) (w'.qreg q)

/-- R71, R140, R141, R192, R194, R217, R222, R297: a deferred result returns and commits. -/
def Obligations.DeferredCommit : Prop := DeferredReturns ∧ SwitchCommits

/-- R311, R312: taking a trap saves the cause, the address to resume at, the name, the mask, the address and em in the frame,
enters privileged state and goes to the class's entry; nothing else changes. CIV, class 9, is never delivered. -/
def Sys2Proof.Machine.TrapEntry : Prop :=
  ∀ (s : State) (w : Wave) (t : TrapInfo), Deliverable s w → t.mbx = false → t.cls ∈ trapClasses →
    s.takeTrap w t = s.putWave (trapped s w t)

/-- R314: a trap taken in privileged state or with no handler, where the mailbox is off, ends the wave as EXIT does: it leaves
its core, and its grid records the class. -/
def Sys2Proof.Machine.TrapUndelivered : Prop :=
  ∀ (s : State) (w : Wave) (t : TrapInfo) (g : Grid), s.wave? w.uid = some w → w.defs = [] → w.pends = [] → w.sb = [] → w.nests = [] →
    (∀ a ∈ s.accs, a.agent ≠ .wave w.uid) → w.step = none → s.mbxOn w = false → (w.priv = true ∨ s.trapBase w = 0) →
    t.cls ∈ trapClasses → s.gridOf w = some g → g.undelivered = none → ∃ w' g', (s.takeTrap w t).wave? w.uid = some w' ∧ w'.exited = true ∧
      (s.takeTrap w t).grid? g.uid = some g' ∧ g' = { g with undelivered := some t.cls } ∧ (s.takeTrap w t).mem = s.mem

/-- R311, R312, R315: TRAPI with a deliverable wave enters the handler of class 12: its code in the cause, trap.pc the next
instruction. -/
def Sys2Proof.Machine.TrapiEnters : Prop :=
  ∀ (s : State) (w : Wave) (h : Head) (code : BitVec 24), Ready h s w → Deliverable s w →
    exec (.trapi h code) s = .next (s.putWave (trapped s w
      { cls := 12, detail := code.toNat % 65536, aux := code.toNat / 65536, mask := w.em, seq := w.seq, rpc := w.pc + 8 }))

/-- R201, R315, R341: ERET returns to user state at trap.pc with its low three bits cleared and em from trap.em; stopped nests
run on; a return from a watchpoint, or from a breakpoint that hit (AUX not 0), exempts the next instruction and the next access
of a stopped nest, and any other return exempts neither. -/
def Sys2Proof.Machine.EretReturns : Prop :=
  ∀ (s : State) (w : Wave) (h : Head), Ready h s w → w.priv = true →
    let hit : Bool := w.cause.toNat % 256 == 6 || (w.cause.toNat % 256 == 7 && w.cause.toNat / 256 % 256 != 0)
    ∃ t w', exec (.eret h) s = .next t ∧ t.wave? s.cur = some w' ∧ Only s t w ∧
      w'.same { w with pc := BitVec.ofNat 64 (w.tpc.toNat / 8 * 8), em := w.tem.setWidth 32, priv := false,
                       nests := w.nests.map (fun n => if n.state = .stopped then { n with state := .running, exempt := hit } else n) } ∧
      w'.exempt = hit

/-- R308, R309, R310: SRD of a numbered register completes: sD takes the register's value where the wave's view shows it, and 0
where it does not; chq.att waits for an operation that has still to take effect, and wave.xst and wave.vst for an outstanding
result that writes them (R144, R237). -/
def Sys2Proof.Machine.SrdReads : Prop :=
  ∀ (s : State) (w : Wave) (h : Head) (d : SReg) (reg : BitVec 12) (c : Cohort) (e : Ensemble) (g : Grid) (a : Space),
    Ready h s w → Stands s w c e g a → (Instr.srd h d reg).wf = true →
    ChqQuiet s a → (∀ b ∈ w.sb, (reg = 0x007 → b.kind ≠ .xev) ∧ (reg = 0x008 → b.kind ≠ .vetch)) →
    Runs (.srd h d reg) s w
      { w.sset d (if shows w.priv reg.toNat then regValue s w c e g a reg.toNat else 0) with pc := w.pc + 8 }

/-- R207, R308 to R311, R322, R331: SWR of a register that the view takes completes: the wave's own registers and those it shares
hold the bits their field maps store; nothing else changes. -/
def Sys2Proof.Machine.SwrWrites : Prop :=
  ∀ (s : State) (w : Wave) (h : Head) (reg : BitVec 12) (r : SReg) (c : Cohort) (e : Ensemble) (g : Grid) (a : Space),
    Ready h s w → Stands s w c e g a → (Instr.swr h reg r).wf = true → takesSwr w.priv reg.toNat = true →
    plainReg reg.toNat = true →
    RunsIn (.swr h reg r) s (wroteShared s w c e a reg.toNat (w.sget r)) w
      { wroteReg w reg.toNat (w.sget r) with pc := w.pc + 8 }

/-- R308, R320, R237, R321, in privileged state: SWR of flt.cfg, flt.res and chq.att completes. The first stores base and LOG and leases
the ring, its frames kept, or stores LOG 0; the second resolves the record of its RID as the host's command does; the third attaches
or detaches as the host's does, and completes once the operation has taken effect, in which the wave waits at the SWR. -/
def Sys2Proof.Machine.SwrOperates : Prop :=
  (∀ (s : State) (w : Wave) (h : Head) (r : SReg) (c : Cohort) (e : Ensemble) (g : Grid) (a : Space),
    Ready h s w → Stands s w c e g a → w.priv = true →
    let base := w.sget r &&& 0x000FFFFFFFFFF000
    let log := (w.sget r).toNat % 16
    (log < 4 ∨ 12 < log → RunsIn (.swr h 0x123 r) s
      ((s.unlease g.asid .faultRing).putSpace { a with fltCfg := base, ringPa := [], ringKeys := [], posted := 0 }) w
      { w with pc := w.pc + 8 }) ∧
    ∀ frames keys, 4 ≤ log → log ≤ 12 → TranslatesTo s (corePath w.core) g.asid base.toNat (32 * 2 ^ log) frames keys →
      ∃ u : State, RunsIn (.swr h 0x123 r) s u w { w with pc := w.pc + 8 } ∧
        u = { s with spaces := u.spaces, leases := u.leases, caches := u.caches, drawn := u.drawn } ∧
        u.space? g.asid = some { a with fltCfg := base ||| BitVec.ofNat 64 log, ringPa := frames, ringKeys := keys, posted := 0 } ∧
        (∀ b, b ≠ g.asid → u.space? b = s.space? b) ∧
        u.leases = (s.unlease g.asid .faultRing).leases ++ pageLeases s g.asid base.toNat frames.length .faultRing) ∧
  (∀ (s t : State) (w : Wave) (h : Head) (r : SReg), Calm h s w → w.priv = true → (∀ e ∈ s.side, e.wave ≠ w.uid) →
    (s.waves.map (fun y => y.uid)).Nodup → t.wave? w.uid = some w →
    exec (if (w.sget r).getLsbD 32 then .fltResUnmappable (s.asidOf w) ((w.sget r).setWidth 32)
      else .fltResRetry (s.asidOf w) ((w.sget r).setWidth 32)) s = .next t →
    RunsIn (.swr h 0x125 r) s t w { w with pc := w.pc + 8 }) ∧
  (∀ (s : State) (w : Wave) (h : Head) (r : SReg) (k : Fin 4) (c : Cohort) (e : Ensemble) (g : Grid) (a : Space),
    let ch : ChanId := ⟨w.core.die, w.core.clu, k⟩
    let hdr := (w.sget r).toNat / 256 % 2 ^ 44 * 256
    let i : Instr := .swr h (BitVec.ofNat 12 (0x140 + k.val)) r
    Ready h s w → Stands s w c e g a → w.priv = true → ChqQuiet s a →
    (2 ≤ (w.sget r).toNat % 4 → ∃ u : State, RunsIn i s u w { w with pc := w.pc + 8 } ∧ u = { s with chqRes := u.chqRes } ∧
      u.chqRead g.asid ch = 0 ∧ ∀ b d, (b, d) ≠ (g.asid, ch) → u.chqRead b d = s.chqRead b d) ∧
    ∀ u, ((w.sget r).toNat % 4 = 0 ∧ exec (.queueAttach g.asid ch hdr) s = .next u ∨
        (w.sget r).toNat % 4 = 1 ∧ exec (.queueDetach g.asid ch hdr) s = .next u) →
      if u.chqPending g.asid ch then exec i s = .next (u.putWave { w with inProg := .chq ch, hold := .order })
      else RunsIn i s u w { w with pc := w.pc + 8 }) ∧
  ∀ (s : State) (w : Wave) (h : Head) (r : SReg) (k : Fin 4) (a : Space), Begun h s w → w.priv = true → s.space? (s.asidOf w) = some a →
    w.inProg = .chq ⟨w.core.die, w.core.clu, k⟩ → ChqQuiet s a →
    Runs (.swr h (BitVec.ofNat 12 (0x140 + k.val)) r) s w { w with inProg := .none, pc := w.pc + 8 }

/-- R207, R237, R308 to R311, R320 to R322, R331: SRD and SWR. -/
def Obligations.SystemRegisters : Prop := SrdReads ∧ SwrWrites ∧ SwrOperates

/-- R316: SWR of int.send completes: INTP of the wave that stands at the location in the sender's space is set, and with none
there nothing happens. -/
def Sys2Proof.Machine.IntSendSets : Prop :=
  (∀ (s : State) (w t : Wave) (h : Head) (r : SReg), Ready h s w → w.priv = true → t.uid ≠ w.uid →
    Target s (s.asidOf w) ((w.sget r).setWidth 14) t →
    RunsIn (.swr h 0x170 r) s (s.putWave { t with intp := true }) w { w with pc := w.pc + 8 }) ∧
  (∀ (s : State) (w : Wave) (h : Head) (r : SReg), Ready h s w → w.priv = true →
    s.waveAt ((w.sget r).setWidth 14) = none → Runs (.swr h 0x170 r) s w { w with pc := w.pc + 8 }) ∧
  ∀ (s : State) (asid : Nat) (loc : BitVec 14) (t : Wave) (a : Space), s.space? asid = some a → Target s asid loc t →
    exec (.intSend asid loc) s = .next (s.putWave { t with intp := true })

/-- R87, R90, R308, R313: SWR of a register that the view does not take raises PRV and writes nothing, its guard untested, where no
register of the wave is poisoned and no breakpoint by PC comes first. -/
def Sys2Proof.Machine.SwrTraps : Prop :=
  ∀ (s : State) (w : Wave) (h : Head) (reg : BitVec 12) (r : SReg), s.wave? s.cur = some w → Deliverable s w →
    (∀ u ∈ s.poison, unitWave u ≠ some w.uid) → s.breakpoint w false = none → (Instr.swr h reg r).wf = true → takesSwr w.priv reg.toNat = false →
    exec (.swr h reg r) s =
      .next (s.putWave (trapped s w { cls := 2, mask := w.em, seq := w.seq, rpc := w.pc }))

/-- R317: CLKR completes once nothing of the wave is outstanding: sD takes clk.cr or clk.core. -/
def Sys2Proof.Machine.ClkrReads : Prop :=
  ∀ (s : State) (w : Wave) (h : Head) (d : SReg), Calm h s w →
    (∀ e ∈ s.side, e.wave ≠ w.uid) →
    Runs (.clkrCr h d) s w { w.sset d (BitVec.ofNat 64 s.clk) with pc := w.pc + 8 } ∧
    Runs (.clkrCore h d) s w { w.sset d (BitVec.ofNat 64 (s.clkOf w.core)) with pc := w.pc + 8 }

/-- R335 to R338, R346, R348, in privileged state: DBGM completes with the register in sD; DBGM.w stores sA's bits of a
breakpoint, watchpoint or lane-mask register; PERFS reads a live or a shadow counter, or copies all fourteen. (That DBGM.w
returns the old value is the model's reading, log 50.) -/
def Sys2Proof.Machine.DebugRegisters : Prop :=
  (∀ (s : State) (w : Wave) (h : Head) (d : SReg) (reg : BitVec 10) (a : Space), Ready h s w → w.priv = true →
    s.spaceOf w = some a → (Instr.dbgmRead h d reg).wf = true →
    Runs (.dbgmRead h d reg) s w { w.sset d (a.eb.toList.getD reg.toNat 0) with pc := w.pc + 8 }) ∧
  (∀ (s : State) (w : Wave) (h : Head) (d : SReg) (r : SReg) (i : Fin 48) (a : Space), Ready h s w → w.priv = true →
    s.spaceOf w = some a →
    RunsIn (.dbgmWrite h d (BitVec.ofNat 10 i.val) r) s (s.putSpace { a with eb := a.eb.set i.val (ebStored i.val (w.sget r)) }) w
      { w.sset d a.eb[i.val] with pc := w.pc + 8 }) ∧
  (∀ (s : State) (w : Wave) (h : Head) (d : SReg) (sel : Fin 14), Ready h s w → w.priv = true →
    Runs (.perfsRead h d sel) s w { w.sset d (s.coreOf w.core).leaves[sel.val] with pc := w.pc + 8 } ∧
    Runs (.perfsShadowRead h d sel) s w { w.sset d (s.coreOf w.core).shadow[sel.val] with pc := w.pc + 8 }) ∧
  ∀ (s : State) (w : Wave) (h : Head) (d : SReg), Ready h s w → w.priv = true →
    RunsIn (.perfsSnapshot h d) s (s.putCore { s.coreOf w.core with shadow := (s.coreOf w.core).leaves }) w
      { w.sset d 0 with pc := w.pc + 8 }

/-- R317, R335 to R338, R346, R348: CLKR, DBGM and PERFS. -/
def Obligations.EyebrightRegisters : Prop := ClkrReads ∧ DebugRegisters

/-- R339, R346: BRK with a deliverable wave enters the handler of BKP: the code in DETAIL, the instruction in trap.addr, the next
one in trap.pc. -/
def Sys2Proof.Machine.BrkEnters : Prop :=
  ∀ (s : State) (w : Wave) (h : Head) (code : BitVec 16), Ready h s w → Deliverable s w →
    exec (.brk h code) s = .next (s.putWave (trapped s w
      { cls := 7, detail := code.toNat, mask := w.em, addr := w.pc, seq := w.seq, rpc := w.pc + 8 }))

/-- R201, R311, R312, R315, R339, R341, R346: taking a trap, TRAPI, BRK and ERET. -/
def Obligations.TrapsAndReturn : Prop := TrapEntry ∧ TrapiEnters ∧ EretReturns ∧ BrkEnters

/-- R344, in privileged state: each HALT of a wave that stands at its location completes, sD telling how the wave then stands:
`.query` changes nothing, `.halt` halts a wave at a boundary where it stands, `.go` and `.step` let a halted one go on whose
events have been posted. With no wave there sD is 0, and a wave that halts itself is asked to. That `.go` and `.step` leave a
parked wave parked is the model's choice (log 46). -/
def Sys2Proof.Machine.HaltForms : Prop :=
  (∀ (s : State) (w t : Wave) (h : Head) (d x y : SReg), Ready h s w → w.priv = true → t.uid ≠ w.uid →
    Target s (s.asidOf w) ((w.sget x).setWidth 14) t →
    Runs (.haltQuery h d x y) s w { w.sset d (haltSays t) with pc := w.pc + 8 } ∧
    (AtBoundary s t → t.halted = false →
      RunsIn (.haltHalt h d x y) s (s.putWave (stood t)) w { w.sset d (haltSays (stood t)) with pc := w.pc + 8 }) ∧
    (t.halted = true → t.fatal = none → Posted s t →
      RunsIn (.haltGo h d x y) s (s.putWave (wentOn t ((w.sget y).getLsbD 0) none)) w
        { w.sset d (haltSays { t with halted := false }) with pc := w.pc + 8 } ∧
      RunsIn (.haltStep h d x y) s (s.putWave (wentOn t ((w.sget y).getLsbD 0) (some { mbx := (w.sget y).getLsbD 1 }))) w
        { w.sset d (haltSays { t with halted := false }) with pc := w.pc + 8 })) ∧
  (∀ (s : State) (w : Wave) (h : Head) (d x y : SReg), Ready h s w → w.priv = true →
    s.waveAt ((w.sget x).setWidth 14) = none → ∀ i ∈ [Instr.haltHalt h d x y, .haltGo h d x y, .haltStep h d x y, .haltQuery h d x y],
      Runs i s w { w.sset d 0 with pc := w.pc + 8 }) ∧
  ∀ (s : State) (w : Wave) (h : Head) (d x y : SReg), Ready h s w → w.priv = true →
    Target s (s.asidOf w) ((w.sget x).setWidth 14) w →
      Runs (.haltHalt h d x y) s w { w.sset d 1 with pc := w.pc + 8, haltReq := true }

/-- R344, R359: the four HALT.CMD of an idle space act on the wave at the location as HALT does, and HALT.RES tells how it then
stands; with no wave there it is 0. That go and step leave a parked wave parked is the model's choice (log 46). -/
def Sys2Proof.Machine.HaltCommands : Prop :=
  (∀ (s : State) (asid : Nat) (loc : BitVec 14) (pass mbx : Bool) (a : Space) (t : Wave), s.space? asid = some a →
    Idle a → Target s asid loc t →
    exec (.haltCmdQuery asid loc pass mbx) s = .next (s.putSpace { a with haltRes := haltSays t }) ∧
    (AtBoundary s t → t.halted = false → exec (.haltCmdHalt asid loc pass mbx) s =
      .next ((s.putWave (stood t)).putSpace { a with haltRes := haltSays (stood t) })) ∧
    (t.halted = true → t.fatal = none → Posted s t →
      exec (.haltCmdGo asid loc pass mbx) s =
        .next ((s.putWave (wentOn t pass none)).putSpace { a with haltRes := haltSays { t with halted := false } }) ∧
      exec (.haltCmdStep asid loc pass mbx) s = .next ((s.putWave (wentOn t pass (some { mbx := mbx }))).putSpace
        { a with haltRes := haltSays { t with halted := false } }))) ∧
  ∀ (s : State) (asid : Nat) (loc : BitVec 14) (pass mbx : Bool) (a : Space), s.space? asid = some a → Idle a →
    s.waveAt loc = none →
    ∀ i ∈ [Instr.haltCmdHalt asid loc pass mbx, .haltCmdGo asid loc pass mbx, .haltCmdStep asid loc pass mbx,
        .haltCmdQuery asid loc pass mbx], exec i s = .next (s.putSpace { a with haltRes := 0 })

/-- R345: STEP_END of a stepped instruction that is complete, in user state with a handler and the mailbox off: STP is delivered
for the next instruction, the stepped one in trap.addr; in privileged state the wave stands halted. That a step with MBX set
does so too where the mailbox is off is the model's choice (log 74). -/
def Sys2Proof.Machine.StepEnds : Prop :=
  (∀ (s : State) (w : Wave) (b : Bool) (x : Word), s.wave? w.uid = some w → Deliverable s { w with step := none } →
    w.step = some ⟨b, true, x⟩ → w.park = .none → w.inProg = .none → w.halted = false → w.exited = false → s.mbxOn w = false →
    exec (.stepEnd w.uid) s = .next (s.putWave (trapped s { w with step := none }
      { cls := 8, mask := w.em, addr := x, seq := w.seq, rpc := w.pc }))) ∧
  ∀ (s : State) (w : Wave) (b : Bool) (x : Word), s.wave? w.uid = some w → w.step = some ⟨b, true, x⟩ → w.park = .none →
    w.halted = false → w.exited = false → w.priv = true → AtBoundary s w → exec (.stepEnd w.uid) s = .next (s.putWave (stood w))

/-- R344, R345, R359: HALT, the host's commands, STEP_END. -/
def Obligations.Halts : Prop := HaltForms ∧ HaltCommands ∧ StepEnds

/-- R322, R359: TLBI of a privileged wave with nothing outstanding, and the host's TLBI.N, complete at once where no lease of the
space still runs: sD and TLBI.RES take clk.cr. Where a lease stands on a page of the range, the host's invalidation waits. -/
def Sys2Proof.Machine.Invalidations : Prop :=
  (∀ (s : State) (w : Wave) (h : Head) (d x y : SReg), Calm h s w → w.priv = true → Unleased s (s.asidOf w) →
    (∀ e ∈ s.wb, e.agent ≠ .wave w.uid) → (∀ e ∈ s.side, e.wave ≠ w.uid) →
    Runs (.tlbi h d x y) s w { w.sset d (BitVec.ofNat 64 s.clk) with pc := w.pc + 8 }) ∧
  (∀ (s : State) (asid : Nat) (n : Word) (a : Space), s.space? asid = some a → Idle a → Unleased s asid →
    exec (.tlbiN asid n) s = .next (s.putSpace { a with tlbiRes := BitVec.ofNat 64 s.clk })) ∧
  ∀ (s : State) (asid : Nat) (n : Word) (a : Space) (l : Lease), s.space? asid = some a → Idle a →
    s.packets = [] → l ∈ s.leases → l.asid = asid → l.granted ≤ s.clk → a.tlbiVa.toNat / 65536 ≤ l.vpage →
    l.vpage < a.tlbiVa.toNat / 65536 + n.toNat → l.vpage < 2 ^ 36 →
    ∃ w, exec (.tlbiN asid n) s = .next (s.putSpace { a with tlbiWait := some w }) ∧ w.t1 = s.clk ∧
      w.lo = a.tlbiVa.toNat / 65536

/-- R325, R327, R359: a WSAVE of a cohort that is ready, onto pages that do not fault, completes: the cohort is saved under a
token that its grid now holds, sD is the number of the image's bytes, and the image stands in memory at the address the
instruction gives; SAVE.CMD does the same with PRE.RES. -/
def Sys2Proof.Machine.SavesComplete : Prop :=
  (∀ (s s' : State) (w : Wave) (h : Head) (d x y : SReg) (c : Cohort) (n : Word), Calm h s w → w.priv = true →
    (s.waves.map (fun z => z.uid)).Nodup → (∀ e ∈ s.wb, e.agent ≠ .wave w.uid) → (∀ e ∈ s.side, e.wave ≠ w.uid) →
    s.saveTarget (s.asidOf w) (some w.cohort) ((w.sget y).setWidth 14) (w.sget x).toNat = some c → s.saveReady c = true →
    s.saveNow (corePath w.core) (some w.uid) (s.asidOf w) c (w.sget x).toNat = (s', n) →
    ∃ v, s'.wave? w.uid = some v ∧ v = { w with wakes := v.wakes } ∧
      RunsIn (.wsave h d x y) s s' w { v.sset d n with pc := w.pc + 8 }) ∧
  (∀ (s s' : State) (asid addr : Nat) (loc : BitVec 14) (a : Space) (c : Cohort) (n : Word), s.space? asid = some a → Idle a →
    let dst := addr / 65536 % 2 ^ 36 * 65536
    let cmd : Word := BitVec.ofNat 64 (loc.toNat + dst)
    s.saveTarget asid none loc dst = some c → s.saveReady c = true →
    (s.putSpace { a with saveWait := some (c.uid, dst), cmds := [(0x080, cmd)] }).saveNow [.root] none asid c dst = (s', n) →
    exec (.saveCmd asid loc addr) s = .next (s'.inSpace asid (fun b => { b with saveWait := none, preRes := n, cmds := [] }))) ∧
  ∀ (s s' : State) (path : List NodeId) (wave : Option Nat) (asid addr : Nat) (c : Cohort) (g : Grid) (n : Word), s.cohort? c.uid = some c →
    s.grid? c.grid = some g → Imaged s c → addr % 256 = 0 → s.saveNow path wave asid c addr = (s', n) → n ≠ 0 →
    ∃ (k : Word) (c' : Cohort) (g' : Grid) (img : List Byte), s'.cohort? c.uid = some c' ∧ c'.place = .saved k ∧
      c'.spad = c.spad ∧ c'.bars = c.bars ∧ s'.grid? g.uid = some g' ∧ g'.tokens = g.tokens ++ [(k, c.uid)] ∧
      n = BitVec.ofNat 64 img.length ∧ img.length = s'.imageSize c ∧ imageHead img c k ∧
      ∀ pa, (∀ y ∈ s.liveWaves c.uid, y.defs = []) → MapsTo s path asid addr img.length pa →
        ∀ i, (h : i < img.length) → s'.mem.read (pa i) = img[i]

/-- R328, R359: WREST and REST.CMD of an image that restores complete with 1: the token is consumed, and the cohort waits at the
head of the placement queue of its die. -/
def Sys2Proof.Machine.RestoresComplete : Prop :=
  (∀ (s s' : State) (w : Wave) (h : Head) (d x : SReg) (n : Word), Calm h s w → w.priv = true →
    s.restore (corePath w.core) (some w.uid) (s.asidOf w) (w.sget x).toNat = (s', n) → s'.wave? w.uid = some w →
    RunsIn (.wrest h d x) s s' w { w.sset d n with pc := w.pc + 8 }) ∧
  (∀ (s s' : State) (asid addr : Nat) (a : Space) (n : Word), s.space? asid = some a → Idle a → addr < 2 ^ 64 →
    (s.putSpace { a with cmds := [(0x088, BitVec.ofNat 64 addr)] }).restore [.root] none asid addr = (s', n) →
    exec (.restCmd asid addr) s = .next (s'.inSpace asid (fun b => { b with preRes := n, cmds := [] }))) ∧
  ∀ (s s' : State) (path : List NodeId) (wave : Option Nat) (asid addr : Nat), s.restore path wave asid addr = (s', 1) →
    ∃ (g g' : Grid) (c c' : Cohort) (k : Word) (u : Nat) (es : List PlaceEntry), g ∈ s.grids ∧ g.asid = asid ∧
      (k, u) ∈ g.tokens ∧ c ∈ s.cohorts ∧ c.place = .saved k ∧ s'.cohort? c.uid = some c' ∧ c'.place = .queued ∧
      s'.grid? g.uid = some g' ∧ g'.tokens = g.tokens.filter (fun t => t.1 != k) ∧
      (s'.dieOf c'.core.die).queue = ⟨[c.uid]⟩ :: es ∧ es = (s.dieOf c'.core.die).queue

/-- R325, R327, R328, R359: WSAVE, WREST and the host's commands. -/
def Obligations.CohortImages : Prop := SavesComplete ∧ RestoresComplete

/-- R238, R239, R241, R251: a CPYQ of a valid packet whose probes succeed, naming a running queue, claims a slot: WIDX in M rises by
1, the pages are leased, the command counts in wave.seq (R26), and the wave waits at the CPYQ for its slot. That its pc stands there is
the model's choice (log 16). -/
def Sys2Proof.Machine.CpyqClaims : Prop :=
  ∀ (s s1 s2 : State) (w : Wave) (h : Head) (d : SReg) (x b : VSrc) (qa : Word) (t : TQueue) (maps : List PageMap),
    let i := leVal (s.mem.readN t.hdrPa 8)
    Calm h s w → Drained s w → (Instr.cpyq h d x b).wf = true → Names s s1 w 0x308 x qa t → t.state = 1 →
    pktValid (packetOf w b) = true → s1.probePacket (s.asidOf w) t.chan (packetOf w b) = (s2, .ok maps) → bufferFree s t.hdrPa 8 →
    InM s t.hdrKey t.hdrPa 8 →
    ∃ u w', exec (.cpyq h d x b) s = .next u ∧ u.wave? s.cur = some w' ∧ w'.park = .cpyq ∧ w'.pc = w.pc ∧ w'.seq = w.seq + 1 ∧
      w'.cpyq = some ⟨t.id, i, packetOf w b, d, s.nextUid⟩ ∧ u.mem = s.mem.writeAll (bytesAt t.hdrPa (leOf 8 (i + 1))) ∧
      u.leases = s.leases ++ maps.map (fun m => ⟨s.asidOf w, m.vpage, .packet s.nextUid, s.clk⟩) ∧
      u.packets = s.packets ++ [{ id := s.nextUid, queue := t.id, chan := t.chan, asid := t.asid, slot := i, words := packetOf w b,
                                  wave := some w.uid, scope := max (((packetOf w b).getD 0 0).toNat % 8) (commonLevel t.chan w.core),
                                  order := s.nextUid, state := .claimed, maps := maps }]

/-- R238, R241, R242, R244: CPYQ_SLOT_WRITE with room in the ring, and nothing of the wave that STAMP's release at level 5 waits
for, writes the packet and its STAMP into the slot, admits the packet with its promise, records it in the promise table, and the
CPYQ completes with the promise in sD. -/
def Sys2Proof.Machine.CpyqAdmits : Prop :=
  ∀ (s : State) (w : Wave) (c : CpyqPend) (q : TQueue) (p : Packet), s.wave? w.uid = some w → w.cpyq = some c →
    s.queue? c.queue = some q → s.pkt? c.pkt = some p → q.detaching = false →
    c.slot < leVal (s.mem.readN (q.hdrPa + 0x80) 8) + 2 ^ q.logcap → s.poison = [] → Drained s w →
    (∀ a ∈ s.accs, a.agent ≠ .wave w.uid) → w.nests = [] → w.pends = [] → bufferFree s (q.slotPa c.slot) 64 →
    (∀ k < 8, s.keyDiffers q.hdrKey ((q.hdrPa + 0x80 + k) / 128) = false) → InM s (q.slotKey c.slot) (q.slotPa c.slot) 64 →
    ∃ (u : State) (w' : Wave) (o : Nat), exec (.cpyqSlotWrite w.uid) s = .next u ∧ u.wave? w.uid = some w' ∧
      w'.woken { w.sset c.dest (BitVec.ofNat 64 (promiseOf s p)) with
        park := .none, cpyq := none, pc := w.pc + 16,
        promises := (if w.promises.length < 16 then w.promises else w.promises.drop 1) ++ [entryOf w q c p (promiseOf s p) o] } ∧
      u.pkt? p.id = some { p with state := .admitted, promise := some (promiseOf s p), order := o } ∧
      u.mem = s.mem.writeAll (bytesAt (q.slotPa c.slot) (c.words.flatMap (fun x => leOf 4 x.toNat) ++ leOf 4 (c.slot + 1)))

/-- R238, R239, R241, R242, R244, R251: CPYQ and CPYQ_SLOT_WRITE. -/
def Obligations.CopiesIssue : Prop := CpyqClaims ∧ CpyqAdmits

/-- R157, R245: WSLEEP to a tick that has passed completes, with an acquire and its entries consumed where every linked copy is
complete, and as a plain sleep where none is linked; to a later tick it parks, and WSLEEP_WAKE completes it so from that tick on. That a parked wave's pc stands at the WSLEEP is the
model's choice (log 16). -/
def Sys2Proof.Machine.Sleeps : Prop :=
  (∀ (s : State) (w : Wave) (h : Head) (a : SReg), Calm h s w → (w.sget a).toNat ≤ s.clk →
    let l := w.promises.filter (fun e => e.promise == w.sget a)
    (∀ e ∈ l, e.complete = true) → RunsIn (.wsleep h a) s (if l = [] then s else s.acquire w.core (scopeOf l)) w
      { w with promises := w.promises.filter (fun e => e.promise != w.sget a), pc := w.pc + 8 }) ∧
  (∀ (s : State) (w : Wave) (h : Head) (a : SReg), Calm h s w → s.clk < (w.sget a).toNat →
    ∃ t w', exec (.wsleep h a) s = .next t ∧ t.wave? s.cur = some w' ∧ Only s t w ∧
      w' = { w with park := .wsleep (w.sget a).toNat, hold := .none, ready := 0, weights := w'.weights, exempt := false,
                    step := w'.step, parkOrder := s.clkOf w.core }) ∧
  ∀ (s : State) (w : Wave) (x : Word), s.wave? w.uid = some w → w.park = .wsleep x.toNat → x.toNat ≤ s.clk → s.resident w = true →
    let l := w.promises.filter (fun e => e.promise == x)
    (∀ e ∈ l, e.complete = true) →
    exec (.wsleepWake w.uid) s = .next ((if l = [] then s else s.acquire w.core (scopeOf l)).putWave
      { w with park := .none, promises := w.promises.filter (fun e => e.promise != x), pc := w.pc + 8 })

/-- R245, R312: WSLEEP_WAKE of a sleep linked to an incomplete copy raises PRM at the WSLEEP: trap.addr and trap.seq name the oldest
such copy, and no entry changes. -/
def Sys2Proof.Machine.SleepTraps : Prop :=
  ∀ (s : State) (w : Wave) (x : Word) (e : Promise) (f g : List Promise), s.wave? w.uid = some w → w.park = .wsleep x.toNat →
    x.toNat ≤ s.clk → s.resident w = true → w.halted = false → Deliverable s w → w.promises = f ++ e :: g →
    (∀ y ∈ f, y.promise = x → y.complete = true) → e.promise = x → e.complete = false →
    exec (.wsleepWake w.uid) s = .next (s.putWave (trapped s { w with park := .none }
      { cls := 5, mask := w.em, addr := e.pc, seq := e.seq, rpc := w.pc }))

/-- R246: CPYP completes: 1 where no entry holds the promise; 0, with an acquire and the entries consumed, where every copy is
complete; all ones where a queue of them is stopped; else the revised promise, which the entries then hold. -/
def Sys2Proof.Machine.CpypReads : Prop :=
  ∀ (s : State) (w : Wave) (h : Head) (d a : SReg), Open h s w →
    let l := w.promises.filter (fun e => e.promise == w.sget a)
    let stopped := l.any (fun e => match s.queue? e.queue with
      | some q => q.state != 1
      | none => true)
    let new : Word := BitVec.ofNat 64 (l.foldl (fun n e => match s.queue? e.queue with
      | some q => max n (s.revised q.chan e.order)
      | none => n) 0)
    let go (w : Wave) : Wave := { w with pc := w.pc + 16, seq := w.seq + 1 }
    if l = [] then Runs (.cpyp h d a) s w (go (w.sset d 1))
    else if l.all (fun e => e.complete) then RunsIn (.cpyp h d a) s (s.acquire w.core (scopeOf l)) w
      (go { w.sset d 0 with promises := w.promises.filter (fun e => e.promise != w.sget a) })
    else if stopped then Runs (.cpyp h d a) s w (go (w.sset d 0xFFFFFFFFFFFFFFFF))
    else Runs (.cpyp h d a) s w (go { w.sset d new with
      promises := w.promises.map (fun e => if e.promise = w.sget a then { e with promise := new } else e) })

/-- R157, R245, R246, R312: WSLEEP, its wake and its trap, CPYP. -/
def Obligations.Sleeping : Prop := Sleeps ∧ SleepTraps ∧ CpypReads

/-- R247: CPYX of an attached queue completes with STAT as it then stands in sD. `.st` changes nothing, and so does an op that finds
nothing to change. `.stop` of a running queue, and `.skip` and `.retry` of a stopped one, change STATE at once and write STAT; the
CPYX then waits at its address for that write, and `.stop` for every fetched packet too, and completes once they have performed. -/
def Sys2Proof.Machine.CpyxForms : Prop :=
  (∀ (s s1 : State) (w : Wave) (h : Head) (d : SReg) (x : VSrc) (qa : Word) (t : TQueue), Open h s w → Names s s1 w 0x30A x qa t →
    (s.waves.map (fun y => y.uid)).Nodup → (∀ a ∈ s.accs, a.id ≠ 0) →
    let completes (i : Instr) : Prop := RunsIn i s s1 w
      { (w.freeV (srcFrees x)).sset d (BitVec.ofNat 64 (statWord t)) with pc := w.pc + 16, seq := w.seq + 1 }
    let begins (i : Instr) (n : Nat) (drain : Bool) : Prop :=
      exec i s = .next ((statQueued s1 { t with state := n }).putWave
        { w with inProg := .cpyx t.id t.hdrPa s.nextUid t.hdrKey drain, hold := .order })
    completes (.cpyxSt h d x) ∧
    (t.state ≠ 1 → s.inFlight t.id = [] → completes (.cpyxStop h d x)) ∧
    (t.state ≠ 2 → t.state ≠ 3 → completes (.cpyxSkip h d x) ∧ completes (.cpyxRetry h d x)) ∧
    (t.state = 1 → begins (.cpyxStop h d x) 2 true) ∧
    (t.state = 2 → begins (.cpyxSkip h d x) 1 false ∧ begins (.cpyxRetry h d x) 1 false)) ∧
  ∀ (s : State) (w : Wave) (h : Head) (d : SReg) (x : VSrc) (id hdr acc : Nat) (key : BitVec 8) (drain : Bool), Begun h s w →
    w.inProg = .cpyx id hdr acc key drain → (∀ a ∈ s.accs, a.id ≠ acc) → (drain = true → s.inFlight id = []) →
    (∀ k < 8, s.keyDiffers key ((hdr + 0x98 + k) / 128) = false) →
    ∀ i ∈ [Instr.cpyxSt h d x, .cpyxStop h d x, .cpyxSkip h d x, .cpyxRetry h d x], RunsIn i s s w
      { (w.freeV (srcFrees x)).sset d (match s.queue? id with
          | some q => BitVec.ofNat 64 (statWord q)
          | none => BitVec.ofNat 64 (leVal (s.mem.readN (hdr + 0x98) 8))) with
        inProg := .none, pc := w.pc + 16, seq := w.seq + 1 }

/-- R40, R51, R247, R248, R249: CPYX.skip of a faulted queue sets RIDX past the faulted slot and lets the queue run, the faulted packet
skipped; once the channel's header writes have performed, COPY_COMPLETION completes that packet with its promises. CPYX.retry probes the faulted packet again, and with its probes successful and room in the channel the
packet is fetched and the queue runs. The wave waits at the CPYX until the header's writes have performed. -/
def Sys2Proof.Machine.CpyxResumes : Prop :=
  ∀ (s s1 : State) (w : Wave) (h : Head) (d : SReg) (x : VSrc) (qa : Word) (t : TQueue) (p : Packet), Open h s w →
    Names s s1 w 0x30A x qa t → t.state = 3 → t.detaching = false → s.faultedPkt t = some p → s.pkt? p.id = some p →
    p.queue = t.id → p.chan = t.chan → (s.packets.map (fun y => y.id)).Nodup → (s.waves.map (fun y => y.uid)).Nodup →
    (pktCmpv p.words = false →
      ∃ (u : State) (w' : Wave) (n : Nat), exec (.cpyxSkip h d x) s = .next u ∧ u.wave? s.cur = some w' ∧ w'.pc = w.pc ∧
        w'.inProg = .cpyx t.id t.hdrPa n t.hdrKey false ∧
        u.queue? t.id = some { t with ridx := t.fidx + 1, state := 1 } ∧
        u.accs = s.accs ++ [headerWrite t s.nextUid 0x80 (t.fidx + 1), headerWrite t n 0x98 (16 * t.cause + 1)] ∧
        u.pkt? p.id = some { p with state := .skipped, cause := t.cause, cmp := none } ∧
        ∀ s' : State, s'.pkt? p.id = some { p with state := .skipped, cause := t.cause, cmp := none } →
          (s'.packets.map (fun y => y.id)).Nodup → (∀ a ∈ s'.accs, a.agent ≠ .channel p.chan) →
          (∀ e ∈ s'.wb, e.agent ≠ .channel p.chan) → ∃ v, exec (.copyCompletion p.id) s' = .next v ∧ v.mem = s'.mem ∧
            (∀ y ∈ v.waves, ∀ e ∈ y.promises, e.pkt = p.id → e.complete = true) ∧
            match p.promise with
            | some y => if s'.clk < y then v.pkt? p.id = some { p with state := .done, cause := t.cause, cmp := none }
              else v.pkt? p.id = none
            | none => v.pkt? p.id = none) ∧
    ∀ (s2 : State) (maps : List PageMap), pktValid p.words = true → s.chanFlight t.chan < 4 →
      (statQueued s1 { t with state := 1 }).probePacket p.asid p.chan p.words = (s2, .ok maps) →
      ∃ (u : State) (w' : Wave), exec (.cpyxRetry h d x) s = .next u ∧ u.wave? s.cur = some w' ∧ w'.pc = w.pc ∧
        w'.inProg = .cpyx t.id t.hdrPa s.nextUid t.hdrKey false ∧ u.queue? t.id = some { t with state := 1 } ∧
        u.accs = s.accs ++ [headerWrite t s.nextUid 0x98 (16 * t.cause + 1)] ∧
        u.pkt? p.id = some { p with state := .fetched, maps := maps, withdrawn := false } ∧
        ∀ m ∈ maps, ⟨p.asid, m.vpage, .packet p.id, s.clk⟩ ∈ u.leases

/-- R40, R238, R248: CHANNEL_FETCH of the queue whose turn it is, none of whose packets has stopped it, fetches the next slot, whose
STAMP stands there: RIDX rises by 1, and its write joins the channel's accesses; an admitted packet is fetched as it is, another is
probed, and an invalid one stops the queue with CAUSE 5. That an admitted packet keeps the words of its CPYQ is the model's choice
(log 31). -/
def Sys2Proof.Machine.ChannelFetches : Prop :=
  ∀ (s : State) (q : TQueue), s.queue? q.id = some q → s.nextQueue q.chan = some q → s.chanFlight q.chan < 4 →
    s.faultedPkt q = none → (∀ p ∈ s.packets, p.id < s.nextUid) →
    let words := (s.slotWords q q.ridx).1.take 15
    ∃ (u : State) (v : TQueue), exec (.channelFetch q.id) s = .next u ∧ u.queue? q.id = some v ∧ v.ridx = q.ridx + 1 ∧
      u.mem = s.mem ∧ (∃ l, u.accs = s.accs ++ headerWrite q s.nextUid 0x80 (q.ridx + 1) :: l) ∧
      (∀ p, s.packets.find? (fun p => p.queue == q.id && p.slot == q.ridx && p.state == .admitted) = some p → s.pkt? p.id = some p →
        v = { q with ridx := q.ridx + 1 } ∧ u.pkt? p.id = some { p with state := .fetched }) ∧
      ((∀ p ∈ s.packets, ¬(p.queue = q.id ∧ p.slot = q.ridx ∧ p.state = .admitted)) →
        ∃ p, u.packets = s.packets ++ [p] ∧ p.queue = q.id ∧ p.slot = q.ridx ∧ p.words = words ∧
          (pktValid words = false → p.state = .faulted ∧ v.state = 3 ∧ v.cause = 5 ∧ v.fidx = q.ridx) ∧
          (pktValid words = true → p.state = .fetched ∨ (p.state = .faulted ∧ v.state = 3)))

/-- R248, R249, R53: COPY_START of a fetched packet with none before it starts it; a started copy's PERFORM_LOAD reads a byte of the
source box, and its PERFORM_STORE writes the byte into the destination box. -/
def Sys2Proof.Machine.CopiesMove : Prop :=
  (∀ (s : State) (p : Packet) (q : TQueue), s.pkt? p.id = some p → s.queue? p.queue = some q → p.state = .fetched → p.withdrawn = false →
    s.earlier p = [] → ∃ u, exec (.copyStart p.id) s = .next u ∧ u.pkt? p.id = some { p with state := .started } ∧ u.mem = s.mem ∧
      u.waves = s.waves) ∧
  (∀ (s : State) (p : Packet) (k : Nat) (a : Place) (key : BitVec 8), s.pkt? p.id = some p → p.state = .started → k < boxBytes p.words →
    (∀ y ∈ p.loaded, y.1 ≠ k) → s.boxPlace p (boxAddr p.words false k) = some (a, key) → Readable s key a 1 → s.homeReady a = true →
    ∃ u, exec (.performLoad (.copy p.id k)) s = .next u ∧ u.mem = s.mem ∧ u.waves = s.waves ∧
      u.pkt? p.id = some { p with loaded := p.loaded ++ [(k, byteSeen s (chanPath p.chan) a 1 0, false)] }) ∧
  ∀ (s : State) (p : Packet) (k a : Nat) (b : Byte) (key : BitVec 8), s.pkt? p.id = some p → p.state = .started → k ∉ p.stored →
    p.loaded.find? (fun y => y.1 == k) = some (k, b, false) → s.boxPlace p (boxAddr p.words true k) = some (.mem a, key) →
    ∃ (u : State) (e : WbEntry), exec (.performStore (.copy p.id k)) s = .next u ∧ u.wb = s.wb ++ [e] ∧ e.bytes = [(a, b)] ∧
      e.node = .cluster p.chan.die p.chan.clu ∧ e.agent = .channel p.chan ∧ u.mem = s.mem ∧
      u.pkt? p.id = some { p with stored := p.stored ++ [k] }

/-- R51, R242, R249, R251: COPY_COMPLETION of a packet that has moved takes its effects: the promises linked to it are complete, the
task it names counts down, the completion word stands at CMPA, and the packet is gone with its leases, or done, its leases kept, where its promise is yet to
come. -/
def Sys2Proof.Machine.CopiesComplete : Prop :=
  ∀ (s : State) (p : Packet), Moved s p → (∀ q ∈ s.queues, q.detaching = false) → (s.packets.map (fun x => x.id)).Nodup →
    (pktCmpv p.words = true → ∃ a key, s.boxPlace p (pktCmpa p.words) = some (.mem a, key) ∧ bufferFree s a 8) →
    ∃ u, exec (.copyCompletion p.id) s = .next u ∧
      (∀ w ∈ u.waves, ∀ e ∈ w.promises, e.pkt = p.id → e.complete = true) ∧
      (match p.promise with
        | some x => if s.clk < x then u.pkt? p.id = some { p with state := .done } ∧ u.leases = s.leases
          else u.pkt? p.id = none ∧ u.leases = s.leases.filter (fun l => l.holder != .packet p.id)
        | none => u.pkt? p.id = none ∧ u.leases = s.leases.filter (fun l => l.holder != .packet p.id)) ∧
      (pktTaskv p.words = false → u.tasks = s.tasks) ∧
      (pktTaskv p.words = true → ∀ t, s.taskNamed (((p.words.getD 14 0) &&& 0xFFFF)) = some t →
        ∃ t', u.task? t.agent t.entry = some t' ∧ t'.counter = t.counter - 1) ∧
      (pktCmpv p.words = false → u.mem = s.mem ∧ u.wb = s.wb) ∧
      ∀ a key, pktCmpv p.words = true → s.boxPlace p (pktCmpa p.words) = some (.mem a, key) → p.scope < 5 → 2 ≤ p.scope →
        ∃ e, u.wb = s.wb ++ [e] ∧ e.node = levelNode (chanPath p.chan) p.scope ∧
          e.bytes = bytesAt a (leOf 8 ((p.words.getD 13 0).toNat + 2 ^ 32 * (if p.poisoned then 3 else 0)))

/-- R40, R51, R53, R238, R242, R248, R249, R251: CHANNEL_FETCH, COPY_START, the copy's accesses, COPY_COMPLETION. -/
def Obligations.Channels : Prop := ChannelFetches ∧ CopiesMove ∧ CopiesComplete

/-- R3, R236, R237, R359: an attachment that no condition refuses, to a channel of an enabled die, binds the queue: its record runs
with its counters 0, the channel's writes of its header say so, its pages are leased, and chq.att reads RES 1. A detachment sets STATE
to 0 and writes STAT; once that write has performed, with nothing in flight, the queue is unbound, its leases are gone, and chq.att
reads RES 2 beside the address that the detachment named. -/
def Sys2Proof.Machine.QueuesAttach : Prop :=
  (∀ (s s1 s2 s3 s4 : State) (asid hdr ring cfg : Nat) (ch : ChanId) (a : Space) (page : Xlat) (frames : List Xlat),
    let pa := page.base + hdr % 65536
    let q := newQueue s.nextUid asid ch hdr page ring cfg frames (s.nextUid + 4)
    s.space? asid = some a → ChqQuiet s a → hdr % 256 = 0 → hdr < 2 ^ 52 → (∀ q ∈ s.queues, q.id < s.nextUid) →
    s.mod.cfg.dies.getLsbD ch.die.val = true → s.queuePage (chanPath ch) asid hdr = (s1, some page) →
    s1.readEntry (chanPath ch) (pa + 0x88) (some page.leaf.key) = (ring, s2) →
    s2.readEntry (chanPath ch) (pa + 0x90) (some page.leaf.key) = (cfg, s3) →
    ring < 2 ^ 52 → ring % 4096 = 0 → 4 ≤ cfg → cfg ≤ 15 →
    (s.queues.filter (fun q => q.chan == ch)).length < 16 → (∀ q ∈ s.queues, q.hdrPa ≠ pa) →
    s3.queuePages (chanPath ch) asid (ringPages ring cfg) = (s4, frames.map some) →
    ∃ u, exec (.queueAttach asid ch hdr) s = .next u ∧ u.queues = s.queues ++ [q] ∧ u.chqRead asid ch = BitVec.ofNat 64 (hdr + 1) ∧
      u.mem = s.mem ∧ u.accs = s.accs ++ [headerWrite q (s.nextUid + 1) 0x00 0, headerWrite q (s.nextUid + 2) 0x80 0,
        headerWrite q (s.nextUid + 3) 0xA0 0, headerWrite q (s.nextUid + 4) 0x98 1] ∧
      ∀ v ∈ hdr :: ringPages ring cfg, ⟨asid, v / 65536, .queue s.nextUid, s.clk⟩ ∈ u.leases) ∧
  (∀ (s : State) (q : TQueue) (a : Space), s.space? q.asid = some a → ChqQuiet s a → q.hdr % 256 = 0 → q.hdr < 2 ^ 52 →
    q ∈ s.queues → (∀ x ∈ s.queues, x.asid = q.asid → x.hdr = q.hdr → x = q) → s.queue? q.id = some q →
    ∃ u, exec (.queueDetach q.asid q.chan q.hdr) s = .next u ∧ u.mem = s.mem ∧
      u.queue? q.id = some { q with state := 0, detaching := true, left := q.hdr, acc := s.nextUid } ∧
      u.accs = s.accs ++ [headerWrite q s.nextUid 0x98 (16 * q.cause)]) ∧
  ∀ (s : State) (q : TQueue) (v : Nat), let x := headerWrite q q.acc 0x98 v
    Enabled s x → s.queues.filter (fun y => y.detaching) = [q] → (s.queues.map (fun y => y.id)).Nodup → s.inFlight q.id = [] →
    InM s q.hdrKey (q.hdrPa + 0x98) 8 →
    ∃ u, exec (.performStore (.acc q.acc)) s = .next u ∧ u.queues = s.queues.filter (fun y => y.id != q.id) ∧
      u.chqRead q.asid q.chan = BitVec.ofNat 64 (q.left + 2) ∧ (∀ l ∈ u.leases, l.holder ≠ .queue q.id) ∧
      u.mem = s.mem.writeAll (bytesAt (q.hdrPa + 0x98) (leOf 8 v))

/-- R3, R40, R51, R236, R237, R247 to R249, R359: CPYX and its resumes, and the attachment and detachment of queues. -/
def Obligations.QueueOperations : Prop := CpyxForms ∧ CpyxResumes ∧ QueuesAttach

/-- R255, R266, R270: TSKL of a valid record that translates completes: the task waits in a free entry of the agent, with DEPC in
its counter and its edges, and sD is its id. -/
def Sys2Proof.Machine.TsklSubmits : Prop :=
  ∀ (s : State) (w : Wave) (h : Head) (d a : SReg) (r : TaskRec), Calm h s w → Drained s w → s.recordTrap w (w.sget a) = none →
    let own := dieAgent w.core.die
    let read := recordRead s own (s.asidOf w) (w.sget a).toNat 4
    let taker := (read.1.agentFor (s.asidOf w) own r).2
    read.2 = some r → r.valid = true → s.freeEntries taker ≠ [] →
    ∃ (t : State) (x : Task), Accepted s t taker (s.asidOf w) r 4 x ∧
      RunsIn (.tskl h d a) s t w { w.sset d ((idWord x).setWidth 64) with pc := w.pc + 16, seq := w.seq + 1 }

/-- R267: TSKS completes: the named task's counter falls by the amount, stopping at 0; for a free entry, another generation or no
agent nothing happens. -/
def Sys2Proof.Machine.TsksSignals : Prop :=
  ∀ (s : State) (w : Wave) (h : Head) (a b : VSrc) (scope : Fin 6) (x n : Word), Calm h s w → Drained s w →
    (Instr.tsks h a b scope).wf = true → w.uniform64 a = .ok x → w.uniform64 b = .ok n →
    let agent := x.toNat % 2 ^ 32 / 4096 % 16
    let level := if agent < 9 ∧ agent ≠ w.core.die.val then max scope.val 4 else scope.val
    let end_ : Wave := { w.freeV (srcFrees a ++ srcFrees b) with pc := w.pc + 16, seq := w.seq + 1 }
    match s.taskNamed (x.setWidth 32) with
    | none => RunsIn (.tsks h a b scope) s s w end_
    | some t => RunsIn (.tsks h a b scope) s (s.putTask { t with counter := t.counter - n.toNat % 65536,
                                                                 acquire := if t.state = .waiting then max t.acquire level else t.acquire }) w end_

/-- R256, R268: TSKQ completes: the counter, the edges and the state of the named task in sD, 0 for a discarded id. -/
def Sys2Proof.Machine.TskqReads : Prop :=
  ∀ (s : State) (w : Wave) (h : Head) (d : SReg) (a : VSrc) (x : Word), Open h s w → w.uniform64 a = .ok x →
    Runs (.tskq h d a) s w { (w.freeV (srcFrees a)).sset d (match s.taskNamed (x.setWidth 32) with
      | none => 0
      | some t => place t.counter 32 ||| place (min t.edges.length 255) 24 |||
          (if t.state = .waiting then (if t.counter = 0 ∧ t.edges = [] then 2 else 1)
           else if s.workDone t then 4 else 3)) with pc := w.pc + 16, seq := w.seq + 1 }

/-- R269, R359: SUBMIT of a valid record that translates takes an entry of the agent it names or of the coordinator; an invalid one
is dropped and counted. -/
def Sys2Proof.Machine.SubmitsAccept : Prop :=
  ∀ (s : State) (asid addr : Nat) (agent : Fin 9) (a : Space) (r : TaskRec), s.mod.ready = true → s.space? asid = some a →
    (agent.val = 8 ∨ s.mod.cfg.dies.getLsbD agent.val = true) → addr % 256 = 0 → (∀ g ∈ s.grids, g.asid = asid → g.finished = false → g.inRange addr = false) →
    let read := recordRead s agent asid addr 5
    let taker := (read.1.agentFor asid agent r).2
    read.2 = some r →
    (r.valid = true → s.freeEntries taker ≠ [] →
      ∃ t x, exec (.submit asid agent addr) s = .next t ∧ Accepted s t taker asid r 5 x) ∧
    (r.valid = false → ∃ t, exec (.submit asid agent addr) s = .next t ∧
      t.mod = { s.mod with agErr := s.mod.agErr.set agent.val (s.mod.agErr[agent.val] + 1) } ∧ t.tasks = s.tasks)

/-- R255, R256, R266 to R270, R359: TSKL, TSKS, TSKQ and SUBMIT. -/
def Obligations.TasksSubmit : Prop := TsklSubmits ∧ TsksSignals ∧ TskqReads ∧ SubmitsAccept

/-- R51, R260 to R262, R271, R273: TASK_START of a ready task: a grid whose launch record is sound runs, and each of its cohorts
stands, never placed yet, in an entry that has joined the tail of the queue of one of its dies; one whose launch record does not
read is refused with CAUSE 6. -/
def Sys2Proof.Machine.GridsStart : Prop :=
  (∀ (s : State) (t : Task) (b : List Byte), Startable s t → t.trec.kind = 0 →
    ((startAcquired s t).launchBytes t.agent t.asid t.trec.work).2 = some b →
    (parseLaunch b).refusal s.mod.cfg.dies = none → (parseLaunch b).ncoh ≠ 0 → (∀ c ∈ s.cohorts, c.grid < s.nextUid) →
    let l := parseLaunch b
    ∃ (u : State) (g : Grid) (t' : Task), exec (.taskStart t.agent t.entry) s = .next u ∧ u.grids = s.grids ++ [g] ∧ g.asid = t.asid ∧
      g.launch = { l with spad := g.launch.spad, rwin := g.launch.rwin, dies := g.launch.dies } ∧
      (l.spad ≠ 0 → g.launch.spad = l.spad) ∧ (l.rwin ≠ 0 → g.launch.rwin = l.rwin) ∧ (l.dies ≠ 0 → g.launch.dies = l.dies) ∧
      u.task? t.agent t.entry = some t' ∧ t' = { t with state := .running, grid := some g.uid } ∧
      (u.gridCohorts g.uid).length = l.ncoh * l.ens ∧
      (∀ c ∈ u.gridCohorts g.uid, c.place = .queued ∧ c.started = false ∧ c.nwaves = l.waves ∧ c.spadBytes = l.scratch ∧
        g.launch.dies.getLsbD c.core.die.val = true) ∧
      ∀ d, ∃ es, (u.dieOf d).queue = (s.dieOf d).queue ++ es ∧
        ∀ c ∈ u.gridCohorts g.uid, c.core.die = d → ∃ e ∈ es, c.uid ∈ e.cohorts) ∧
  ∀ (s : State) (t : Task), Startable s t → t.trec.kind = 0 →
    ((startAcquired s t).launchBytes t.agent t.asid t.trec.work).2 = none →
    ∃ u, exec (.taskStart t.agent t.entry) s = .next u ∧ u.task? t.agent t.entry = some { t with state := .running, refused := some 6 } ∧
      u.grids = s.grids

/-- R40, R48, R238, R272: a copy batch starts with its counter at NPKT. COPY_BATCH_APPEND then works in two steps: it claims a slot,
WIDX in M rising by 1, once no buffer holds WIDX; and with room in the ring and nothing of the agent below M it writes the next
packet of the array, as the agent's path reads it, into the slot with its STAMP, TASKV and TASK naming the batch. -/
def Sys2Proof.Machine.BatchesAppend : Prop :=
  (∀ (s s1 s2 : State) (t : Task) (q : TQueue), Startable s t → t.trec.kind = 1 →
    (startAcquired s t).batchQueue t = (s1, some q) → s1.batchReads t = (s2, true) →
    ∃ u, exec (.taskStart t.agent t.entry) s = .next u ∧
      u.task? t.agent t.entry = some { t with state := .running, counter := t.trec.npkt }) ∧
  (∀ (s s1 : State) (t : Task) (q : TQueue) (x : Xlat), Appending s t → t.claim = none → batchNext s s1 t q x →
    bufferFree s q.hdrPa 8 → InM s q.hdrKey q.hdrPa 8 →
    let i := leVal (s.mem.readN q.hdrPa 8)
    ∃ u, exec (.copyBatchAppend t.agent t.entry) s = .next u ∧ u.task? t.agent t.entry = some { t with claim := some (q.id, i) } ∧
      u.mem = s.mem.writeAll (bytesAt q.hdrPa (leOf 8 (i + 1)))) ∧
  ∀ (s s1 s2 : State) (t : Task) (q : TQueue) (x : Xlat) (i : Nat) (bs : List Byte), Appending s t → t.claim = some (q.id, i) →
    batchNext s s1 t q x → i < leVal (s.mem.readN (q.hdrPa + 0x80) 8) + 2 ^ q.logcap → (∀ e ∈ s.wb, e.agent ≠ .yarrow t.agent) →
    bufferFree s (q.slotPa i) 64 → (∀ k < 8, s.keyDiffers q.hdrKey ((q.hdrPa + 0x80 + k) / 128) = false) →
    InM s (q.slotKey i) (q.slotPa i) 64 →
    s1.readBytes (agentPath t.agent) x.leaf.key true none (.mem (x.base + (t.trec.work + 64 * t.appended) % 65536)) 64 =
      (s2, bs, false) →
    let words : List W32 := (List.range 15).map (fun k =>
      let y := BitVec.ofNat 32 (leVal ((bs.drop (4 * k)).take 4))
      if k = 0 then y ||| 0x10 else if k = 14 then (y &&& 0xFFFF0000) ||| BitVec.ofNat 32 (t.agent.val * 4096 + t.entry) else y)
    ∃ u, exec (.copyBatchAppend t.agent t.entry) s = .next u ∧
      u.task? t.agent t.entry = some { t with claim := none, appended := t.appended + 1 } ∧
      u.mem = s.mem.writeAll (bytesAt (q.slotPa i) (words.flatMap (fun y => leOf 4 y.toNat) ++ leOf 4 (i + 1)))

/-- R51, R256, R263, R264, R271: TASK_COMPLETION of a refused task whose NEXT words name nothing, with nothing of its agent below M
and no buffer that holds its completion word: the word with STATUS 2 and its CAUSE stands at CMPA in M, the entry is free with the
next generation, and the edges from it are satisfied. -/
def Sys2Proof.Machine.TasksComplete : Prop :=
  ∀ (s : State) (t : Task) (cause : Nat) (x : Xlat), s.task? t.agent t.entry = some t → t.state = .running → t.refused = some cause →
    t.grid = none → t.trec.nx0v = false → t.trec.nx1v = false → t.trec.cscope = 5 → t.trec.cmpa ≠ 0 →
    (s.probe (agentPath t.agent) t.asid t.trec.cmpa .write true).2 = .ok x → t.trec.cmpa % 8 = 0 → x.base % 65536 = 0 →
    let pa := x.base + t.trec.cmpa % 65536
    InM s x.leaf.key pa 8 → bufferFree s pa 8 → (∀ e ∈ s.wb, e.agent ≠ .yarrow t.agent) →
    ∃ u, exec (.taskCompletion t.agent t.entry) s = .next u ∧ u.task? t.agent t.entry = none ∧
      u.genOf t.agent.val t.entry = (if t.gen = 65535 then 1 else t.gen + 1) ∧
      (∀ y ∈ u.tasks, y.agent = t.agent → (t.entry, t.gen) ∉ y.edges) ∧
      u.mem = s.mem.writeAll (bytesAt pa (leOf 8 (t.trec.seqv.toNat + 2 ^ 32 * 2 + 2 ^ 36 * cause)))

/-- R40, R48, R51, R238, R256, R260 to R264, R271 to R273: TASK_START, COPY_BATCH_APPEND, TASK_COMPLETION. -/
def Obligations.TasksRun : Prop := GridsStart ∧ BatchesAppend ∧ TasksComplete

/-- R13, R16, R127, R131, R261, R273: COHORT_PLACE of a cohort that its seat suits, spilling to pages that translate: the cohort is
resident on the seat's core with its granules reserved, and each of its waves stands at the entry with the arguments in s1 to s8. -/
def Sys2Proof.Machine.CohortsPlace : Prop :=
  ∀ (s : State) (d : Fin 8) (c : Cohort) (g : Grid) (es : List PlaceEntry) (x : Seat), (s.dieOf d).queue = ⟨[c.uid]⟩ :: es →
    s.cohort? c.uid = some c → s.grid? c.grid = some g → c.started = false → c.place = .queued → g.launch.spill ≠ 0 →
    (s.spillAreas g c d).2.isSome = true → s.seatsFit d [c] [x] = true → (∀ w ∈ s.waves, w.cohort ≠ c.uid ∧ w.uid < s.nextUid) →
    ∃ (u : State) (c' : Cohort), exec (.cohortPlace d [x]) s = .next u ∧ u.cohort? c.uid = some c' ∧ c'.place = .resident ∧ c'.core = x.core ∧
      (u.dieOf d).queue = es ∧ (u.liveWaves c.uid).length = c.nwaves ∧
      (∀ i < c.nwaves, ∃ w ∈ u.waves, freshWave s g c x.core x.slots i w) ∧
      ((u.coreOf x.core).granules.filter (fun y => y.cohort == c.uid)).length =
        ((s.coreOf x.core).granules.filter (fun y => y.cohort == c.uid)).length + reservation c g.launch.regs ∧
      ∀ w ∈ s.waves, w ∈ u.waves

/-- R13, R16, R35, R204, R274: MIGRATION of a cohort outside an ensemble with nothing on its way moves it to the seat's core: its
waves keep their registers, stacks, flags and pc, and have a wake with WHY 3 pending; its granules are reserved on that core, and the
core it left holds none of it. -/
def Sys2Proof.Machine.CohortsMigrate : Prop :=
  ∀ (s : State) (c : Cohort) (e : Ensemble) (x : Seat), s.cohort? c.uid = some c → s.ens? c.ens = some e → e.cohorts = [c.uid] →
    c.place = .resident → c.lastMove = none → x.core ≠ c.core → x.core.die = c.core.die → AtRest s c → s.seatFits c x = true →
    (s.waves.map (fun w => w.uid)).Nodup → (∀ w ∈ s.liveWaves c.uid, (w.park = .none ∨ w.parkedFor false = true) ∧
      ∀ k : Fin 4, w.arrE[k.val] ≠ e.bars[k.val].gen) →
    ∃ (u : State) (c' : Cohort), exec (.migration c.uid x) s = .next u ∧ u.cohort? c.uid = some c' ∧ c'.core = x.core ∧ c'.place = .resident ∧
      c'.lastMove = some s.clk ∧ c'.spad = c.spad ∧ c'.bars = c.bars ∧
      ((u.coreOf x.core).granules.filter (fun y => y.cohort == c.uid)).length =
        ((s.coreOf x.core).granules.filter (fun y => y.cohort == c.uid)).length + reservation c (s.budgetOf c) ∧
      (∀ y ∈ (u.coreOf c.core).granules, y.cohort ≠ c.uid) ∧
      ∀ w ∈ s.liveWaves c.uid, ∃ w', u.wave? w.uid = some w' ∧ w'.core = x.core ∧ w'.pc = w.pc ∧ w'.s = w.s ∧ w'.v = w.v ∧ w'.q = w.q ∧
        w'.stk = w.stk ∧ w'.xst = w.xst ∧ w'.vst = w.vst ∧ w'.seq = w.seq ∧ w'.em = w.em ∧ w'.park = w.park ∧ w'.promises = w.promises ∧ ⟨3, 0⟩ ∈ w'.wakes ∧ w'.mons = Vector.replicate 4 none

/-- R16, R252, R273, R275: FORWARD_PROGRESS_SWAP of the cohort the rule chooses, once it has drained, on a core idle for yar.fp
cycles whose die's head entry then fits, takes it off its core and queues it behind every entry; RESERVATION_RELEASE gives back the granules of a cohort that has left. -/
def Sys2Proof.Machine.CohortsLeave : Prop :=
  (∀ (s : State) (k : CoreId) (c : Cohort), (s.dieOf k.die).fp ≠ 0 → (s.dieOf k.die).fp.toNat ≤ (s.coreOf k).idle →
    (s.dieOf k.die).queue ≠ [] → s.swapChoice k = some c → s.ensembleOf c = [c] → s.cohort? c.uid = some c →
    s.poolUsed k.die + s.imageSize c ≤ s.poolSize → s.still c 3 = true → (s.liftCohort c .away).headFits k = true →
    ∃ (u : State) (c' : Cohort), exec (.forwardProgressSwap k) s = .next u ∧ u.cohort? c.uid = some c' ∧ c'.place = .away ∧
      c'.spad = c.spad ∧ (u.dieOf k.die).queue = (s.dieOf k.die).queue ++ [⟨[c.uid]⟩] ∧ (u.coreOf k).idle = 0) ∧
  ∀ (s : State) (c : Cohort) (g : Grid), s.cohort? c.uid = some c → s.grid? c.grid = some g → c.place = .gone → s.packets = [] →
    g.finished = false → exec (.reservationRelease c.uid) s = .next (s.putCore { s.coreOf c.core with
      granules := (s.coreOf c.core).granules.filter (fun y => y.cohort != c.uid) })

/-- R13, R16, R35, R127, R131, R204, R252, R261, R273 to R275: COHORT_PLACE, MIGRATION, FORWARD_PROGRESS_SWAP and RESERVATION_RELEASE. -/
def Obligations.CohortsStand : Prop := CohortsPlace ∧ CohortsMigrate ∧ CohortsLeave

/-- R277, R318, R351: RAMP_COMPLETE puts the rail at the ramp's point and counts it over life. That a ramp to another point begins
only as time passes is the model's choice (log 10). -/
def Sys2Proof.Machine.RampsComplete : Prop :=
  ∀ (s : State) (r : Rail) (p : Fin 4) (n : Nat), s.mod.rails[(railIdx r).val].ramp = some (p, n) →
    ∃ u, exec (.rampComplete r) s = .next u ∧ u.mod.life.ramps = s.mod.life.ramps + 1 ∧
      u.mod.rails[(railIdx r).val] = { point := p, ramp := none } ∧ (∀ k : Fin 4, k ≠ railIdx r → u.mod.rails[k.val] = s.mod.rails[k.val]) ∧
      u.mem = s.mem ∧ u.waves = s.waves ∧ u.tasks = s.tasks ∧ u.clk = s.clk

/-- R27, R316, R320: FAULT_POST with room in the ring writes the record at its place with the count of records as its RID, and
signals: MSI-X where FLT.VEC is enabled, INTP of the service wave where flt.svc is valid. -/
def Sys2Proof.Machine.FaultsPost : Prop :=
  ∀ (s : State) (f : FaultRec) (a : Space), s.faults.find? (fun x => x.id == f.id) = some f → f.rid = none → s.space? f.asid = some a →
    4 ≤ a.fltCfg.toNat % 16 → (s.faults.filter (fun x => x.asid == f.asid && x.rid.isSome)).length < 2 ^ (a.fltCfg.toNat % 16) →
    let base := (a.fltCfg &&& 0xFFFFFFFFFFFFF000).toNat
    let ofs := 32 * (a.posted % 2 ^ (a.fltCfg.toNat % 16))
    InM s (areaKey a.ringKeys base ofs) (areaPa a.ringPa base ofs) 32 →
    ∃ u, exec (.faultPost f.id) s = .next u ∧
      u.mem = s.mem.writeAll (bytesAt (areaPa a.ringPa base ofs) (recordBytes f (a.posted + 1))) ∧
      u.faults.find? (fun x => x.id == f.id) = some { f with rid := some (BitVec.ofNat 32 (a.posted + 1)) } ∧
      u.space? f.asid = some { a with posted := (a.posted + 1) % 2 ^ 32 } ∧
      u.mod.msix = (if a.fltVec.getLsbD 63 then s.mod.msix ++ [a.fltVec.toNat % 2 ^ 11] else s.mod.msix) ∧
      ∀ t, a.fltSvc.getLsbD 63 = true → Target s f.asid (a.fltSvc.setWidth 14) t → ∃ t', u.wave? t.uid = some t' ∧ t'.intp = true

/-- R27, R316, R320: SWR of int.send, INT_SEND and FAULT_POST. -/
def Obligations.Interrupts : Prop := IntSendSets ∧ FaultsPost

/-- R67, R189, R321: a resolution of an unknown RID is ignored; of a known one the record goes, a fetch held on it translates again
(retry) or is lost (unmappable), and a lane held on it as unmappable leaves its queue and its result. -/
def Sys2Proof.Machine.FaultsResolve : Prop :=
  (∀ (s : State) (asid : Nat) (rid : W32), (∀ f ∈ s.faults, ¬(f.asid = asid ∧ f.rid = some rid)) →
    exec (.fltResRetry asid rid) s = .next s ∧ exec (.fltResUnmappable asid rid) s = .next s) ∧
  (∀ (s : State) (f : FaultRec) (rid : W32) (w : Wave), s.faults.find? (fun x => x.asid == f.asid && x.rid == some rid) = some f →
    (∀ a ∈ s.accs, a.held ≠ some f.id) → (∀ e ∈ s.side, e.fault ≠ f.id) → s.wave? w.uid = some w → w.nests = [] → w.fetch = .held f.id →
    ∃ u v, exec (.fltResRetry f.asid rid) s = .next u ∧ u.faults = s.faults.filter (fun x => x.id != f.id) ∧
      u.wave? w.uid = some { w with fetch := .free } ∧
      exec (.fltResUnmappable f.asid rid) s = .next v ∧ v.faults = s.faults.filter (fun x => x.id != f.id) ∧
      v.wave? w.uid = some { w with fetch := .lost }) ∧
  ∀ (s : State) (f : FaultRec) (rid : W32) (x : Access) (d : Def) (w : Wave),
    s.faults.find? (fun y => y.asid == f.asid && y.rid == some rid) = some f → s.accs.filter (fun a => a.held == some f.id) = [x] →
    (∀ e ∈ s.side, e.fault ≠ f.id) → s.wave? w.uid = some w → w.nests = [] → x.agent = .wave w.uid → x.defId = some d.id → w.defs = [d] →
    x.lane < 32 →
    ∃ u w' d', exec (.fltResUnmappable f.asid rid) s = .next u ∧ (∀ a ∈ u.accs, a.id ≠ x.id) ∧ u.wave? w.uid = some w' ∧
      w'.defs = [d'] ∧ d'.lost.getLsbD x.lane = true ∧ ∀ l, l ≠ x.lane → d'.lost.getLsbD l = d.lost.getLsbD l

/-- R49, R63: SIDE_LOG_REPLAY of a ready entry whose page translates performs its lanes: a plain store's bytes enter the core's write
buffer at the page's frame, and the entry is gone. -/
def Sys2Proof.Machine.SideLogReplays : Prop :=
  ∀ (s s1 : State) (e : SideEntry) (l : SideLane) (x : Xlat), s.side.find? (fun y => y.id == e.id) = some e → e.ready = true →
    e.rmw = none → e.lanes = [l] → (e.ord = .plain) → s.translate e.core e.asid (e.page * 65536) .write (!e.user) = (s1, .ok x) →
    x.leaf.mt = 0 → s1.replayable e (e.access x 0 l) = true →
    ∃ (u : State) (y : WbEntry), exec (.sideLogReplay e.id) s = .next u ∧ u.side = s.side.filter (fun z => z.id != e.id) ∧ u.wb = s.wb ++ [y] ∧
      y.node = .core e.core ∧ y.agent = .wave e.wave ∧ y.bytes = bytesAt (x.base + l.va % 65536) l.bytes ∧ u.mem = s.mem

/-- R49, R63, R67, R189, R321: FLT_RES and SIDE_LOG_REPLAY. -/
def Obligations.FaultsEnd : Prop := FaultsResolve ∧ SideLogReplays

/-- R310, R320, R331, R342, R359: the host's writes of wave.st, FLT.CFG, MFT.BASE and dbg.mbx store what their field maps keep; a
fault ring or mailbox page that translates is leased, and its frames are kept. -/
def Sys2Proof.Machine.HostRegisters : Prop :=
  (∀ (s : State) (w : Wave) (v : Word), s.wave? w.uid = some w →
    exec (.waveStWrite w.uid v) s = .next (s.putWave { w with intp := w.intp && !v.getLsbD 8 })) ∧
  (∀ (s : State) (asid : Nat) (v : Word) (a : Space) (frames : List Nat) (keys : List (BitVec 8)), s.space? asid = some a →
    let base := v &&& 0x000FFFFFFFFFF000
    let log := v.toNat % 16
    (log < 4 ∨ 12 < log → exec (.fltCfgWrite asid v) s =
      .next ((s.unlease asid .faultRing).putSpace { a with fltCfg := base, ringPa := [], ringKeys := [], posted := 0 })) ∧
    (4 ≤ log → log ≤ 12 → TranslatesTo s [.root] asid base.toNat (32 * 2 ^ log) frames keys → ∃ u, exec (.fltCfgWrite asid v) s = .next u ∧
      u.space? asid = some { a with fltCfg := base ||| BitVec.ofNat 64 log, ringPa := frames, ringKeys := keys, posted := 0 } ∧
      u.leases = (s.unlease asid .faultRing).leases ++ pageLeases s asid base.toNat frames.length .faultRing)) ∧
  (∀ (s : State) (asid : Nat) (v : Word) (a : Space), s.space? asid = some a →
    exec (.mftBaseWrite asid v) s = .next (s.putSpace { a with mftBase := v, barObj := [], barPage := [] })) ∧
  ∀ (s : State) (asid : Nat) (v : Word) (a : Space) (x : Xlat), s.space? asid = some a →
    let page := v &&& 0x000FFFFFFFFF0000
    (v.getLsbD 0 = false → exec (.dbgMbxWrite asid v) s = .next ((s.unlease asid .mailbox).putSpace { a with eb := a.eb.set 0x30 page })) ∧
    (v.getLsbD 0 = true → (s.probe [.root] asid page.toNat .update true).2 = .ok x → ∃ u, exec (.dbgMbxWrite asid v) s = .next u ∧
      u.space? asid = some { a with eb := a.eb.set 0x30 (page ||| 1), mbxPa := x.base, mbxKey := x.leaf.key } ∧
      u.leases = (s.unlease asid .mailbox).leases ++ pageLeases s asid page.toNat 1 .mailbox)

/-- R275, R276, R308, R335, R359, R360: REGISTER_WRITE stores a register of an address space, or of the module, by its field map;
AS.PTB only while no grid of the space runs, from its task's start until its completion step. -/
def Sys2Proof.Machine.RegisterWrites : Prop :=
  (∀ (s : State) (r : HostReg) (v : Word) (n : Nat) (a : Space), regSpace r = some n → s.space? n = some a →
    (∀ m, r = .asPtb m → ¬GridRuns s m) → exec (.registerWrite r v) s = .next (s.putSpace (a.wrote r v))) ∧
  (∀ (s : State) (v : Word) (n : Nat), GridRuns s n → exec (.registerWrite (.asPtb n) v) s = .next s) ∧
  ∀ (s : State) (v : Word) (d : Fin 8) (k : Fin 12), s.mod.ready = true →
    exec (.registerWrite (.yarFp d) v) s = .next (s.putDie { s.dieOf d with fp := v.setWidth 32 }) ∧
    exec (.registerWrite (.yarClim d k) v) s = .next (s.putClu { s.cluOf d k with clim := v.setWidth 22 })

/-- R275, R276, R308, R310, R320, R331, R335, R342, R359, R360: the host's writes of registers. -/
def Obligations.HostWrites : Prop := HostRegisters ∧ RegisterWrites

/-- R342, R343: MAILBOX_EVENT_POST of the oldest event, unless HEAD − TAIL is 1,023, writes its slot with STAMP one above the count,
and HEAD; the event has left the queue. -/
def Sys2Proof.Machine.MailboxPosts : Prop :=
  ∀ (s : State) (asid : Nat) (a : Space) (e : MbxEvent) (es : List MbxEvent), s.space? asid = some a → a.mbxQueue = e :: es →
    a.eb[0x30].getLsbD 0 = true → (a.mbxCount + 2 ^ 64 - leVal (s.mem.readN (a.mbxPa + 8) 8)) % 2 ^ 64 ≠ 1023 →
    let slot := a.mbxPa + 64 * (1 + a.mbxCount % 1023)
    InM s a.mbxKey slot 64 → InM s a.mbxKey a.mbxPa 16 →
    ∃ u, exec (.mailboxEventPost asid) s = .next u ∧
      u.mem = ((s.mem.writeAll (bytesAt (slot + 4) (eventSlot e s.clk))).writeAll (bytesAt slot (leOf 4 (a.mbxCount + 1)))).writeAll
        (bytesAt a.mbxPa (leOf 8 (a.mbxCount + 1))) ∧
      u.space? asid = some { a with mbxQueue := es, mbxCount := a.mbxCount + 1 }

/-- R147, R347, R349: CORE_CYCLE counts each port's slot on its leaf and four on the total, and the core's clock advances;
ISSUE_LIMIT_OVERRIDE after 16 cycles grants the port an issue; a due SAMPLE writes a record of 64 bytes and the next is due PER cycles later. -/
def Sys2Proof.Machine.CyclesCount : Prop :=
  (∀ (s : State) (c : CoreId), s.mustResume c = false → s.sampleWaits c = false → 
    (∀ p ∈ (s.coreOf c).ports.toList, p.stall < 16 ∨ p.grant = true) →
    (∀ a ∈ s.spaces, Idle a) → ∃ u, exec (.coreCycle c) s = .next u ∧ u.clkOf c = s.clkOf c + 1 ∧
      (∀ i : Fin 13, (u.coreOf c).leaves[i.val] = (s.coreOf c).leaves[i.val] +
        BitVec.ofNat 64 (((List.finRange 4).filter (fun p => s.slotLeaf c p == i.val)).length)) ∧
      (u.coreOf c).leaves[13] = (s.coreOf c).leaves[13] + 4 ∧ (u.coreOf c).shadow = (s.coreOf c).shadow ∧ u.mem = s.mem ∧
      ∀ d, d ≠ c → u.coreOf d = s.coreOf d) ∧
  (∀ (s : State) (c : CoreId) (p : Fin 4), 16 ≤ (s.coreOf c).ports[p.val].stall →
    exec (.issueLimitOverride c p) s = .next (s.putCore { s.coreOf c with
      ports := (s.coreOf c).ports.set p.val { (s.coreOf c).ports[p.val] with grant := true } })) ∧
  ∀ (s : State) (c : CoreId) (a : Space), s.sampleDue c = some a → s.space? a.asid = some a → a.eb[0x31].toNat / 2 ^ 48 % 16 = 0 →
    let pa := areaPa a.smpPa (a.eb[0x32].toNat / 4096 * 4096) (64 * (a.smpCount % 2 ^ (a.eb[0x32].toNat % 16)))
    InM s (areaKey a.smpKeys (a.eb[0x32].toNat / 4096 * 4096) (64 * (a.smpCount % 2 ^ (a.eb[0x32].toNat % 16)))) pa 64 → ∃ u bytes, exec (.sample c) s = .next u ∧ bytes.length = 64 ∧ bytes.take 4 = leOf 4 (a.smpCount + 1) ∧
      u.mem = s.mem.writeAll (bytesAt pa bytes) ∧
      u.space? a.asid = some { a with smpCount := a.smpCount + 1 } ∧
      (u.samplerOf c a).next = s.clkOf c + a.eb[0x31].toNat % 2 ^ 32 ∧ (u.samplerOf c a).lfsr = lfsrNext (s.samplerOf c a).lfsr

/-- R147, R277, R318, R347, R349, R351: RAMP_COMPLETE, CORE_CYCLE, ISSUE_LIMIT_OVERRIDE and SAMPLE. -/
def Obligations.ClocksAndRamps : Prop := RampsComplete ∧ CyclesCount

/-- R55, R358, R359, R361, R363: HOST_WRITE into first-tier memory of a ready module stores its bytes in M, HOST_READ returns them,
and both count an access above BAR4's memory; HOST_READ of MOD.ID, CLK.CR and a space's registers returns their values. That a
write performs at once (log 12), that the host meets the plain bytes of M whatever key a line stands under (log 54), and that a
read above BAR4's memory brings no bytes are the model's choices. -/
def Sys2Proof.Machine.HostAccesses : Prop :=
  (∀ (s : State) (p : Party) (off : Nat) (bytes : List Byte) (b : Bool), s.mod.ready = true →
    if off + bytes.length ≤ 0x006000000000 then
      ∃ u, exec (.hostWrite p (.bar4 off) bytes b) s = .next u ∧
        u.mem = s.mem.writeAll (bytesAt (s.mod.cfg.modno.val * 2 ^ 46 + off) bytes) ∧ u.mod = s.mod
    else exec (.hostWrite p (.bar4 off) bytes b) s = .next { s with mod := { s.mod with bar4Bad := min (s.mod.bar4Bad + 1) (2 ^ 32 - 1) } }) ∧
  (∀ (s : State) (p : Party) (off n : Nat), s.mod.ready = true → s.poison = [] →
    exec (.hostRead p (.mem (.bar4 off) n)) s = .next (if off + n ≤ 0x006000000000 then
      { s with hostRead := s.mem.readN (s.mod.cfg.modno.val * 2 ^ 46 + off) n }
    else { s with hostRead := [], mod := { s.mod with bar4Bad := min (s.mod.bar4Bad + 1) (2 ^ 32 - 1) } })) ∧
  (∀ (s : State) (p : Party), s.mod.ready = true →
    exec (.hostRead p (.bar0 0)) s = .next { s with hostRead := leOf 8 (place s.mod.cfg.dies.toNat 40 ||| place s.mod.cfg.modno.val 32 |||
      s.mod.cfg.version.setWidth 64 : Word).toNat } ∧
    exec (.hostRead p (.bar0 0x10)) s = .next { s with hostRead := leOf 8 (BitVec.ofNat 64 s.clk).toNat }) ∧
  ∀ (s : State) (p : Party) (asid : Nat) (a : Space), s.mod.ready = true → s.space? asid = some a → Idle a →
    ∀ x ∈ [(0x050, a.ptb), (0x060, a.fltVec), (0x078, a.haltRes), (0x090, a.preRes), (0x0A8, a.trapBase), (0x0B0, a.fltCfg),
        (0x0B8, a.fltSvc), (0x0C0, a.mftBase), (0x0C8, a.mftN), (0x0D0, BitVec.ofNat 64 a.tlbLease), (0x0D8, a.tlbiVa),
        (0x0E8, a.tlbiRes)],
      exec (.hostRead p (.bar2 asid x.1)) s = .next { s with hostRead := leOf 8 x.2.toNat }

/-- R55, R342, R343, R358, R359, R361, R363: host accesses to memory and registers, and mailbox posts. -/
def Obligations.HostAccess : Prop := MailboxPosts ∧ HostAccesses

/-- R351, R359, R360, R361: AS_CREATE makes a space whose registers are 0 but tlb.lease; AS_DESTROY of one that is not busy ends it
with its leases; MGMT_REQ answers with a record's words, or all ones where none is named. -/
def Obligations.SpacesLive : Prop :=
  (∀ (s : State) (asid : Nat), s.mod.ready = true → asid < 4096 → s.space? asid = none →
    ∃ a, exec (.asCreate asid) s = .next { s with spaces := s.spaces ++ [a] } ∧ a.asid = asid ∧ a.tlbLease = 50000 ∧ a.ptb = 0 ∧
      a.trapBase = 0 ∧ a.fltCfg = 0 ∧ a.fltSvc = 0 ∧ a.mftBase = 0 ∧ a.mftN = 0 ∧ a.eb = Vector.replicate 52 0 ∧ a.barPage = []) ∧
  (∀ (s : State) (asid : Nat) (a : Space), s.space? asid = some a → exec (.asCreate asid) s = .next s) ∧
  (∀ (s : State) (asid : Nat), (∀ t ∈ s.tasks, t.asid ≠ asid) → (∀ g ∈ s.grids, g.asid ≠ asid) → (∀ q ∈ s.queues, q.asid ≠ asid) →
    ∃ u, exec (.asDestroy asid) s = .next u ∧ u.space? asid = none ∧ (∀ l ∈ u.leases, l.asid ≠ asid) ∧
      (∀ b, b ≠ asid → u.space? b = s.space? b)) ∧
  (∀ (s : State) (asid : Nat), (∃ t ∈ s.tasks, t.asid = asid) → exec (.asDestroy asid) s = .next s) ∧
  ∀ (s : State) (v : Word), s.mod.ready = true →
    (v.toNat % 65536 = 3 → exec (.mgmtReq v) s = .next { s with mod := { s.mod with mgmtRes := 1, mgmtBuf := [s.mod.life.ramps] } }) ∧
    (v.toNat % 65536 = 5 → exec (.mgmtReq v) s = .next { s with mod := { s.mod with
      mgmtRes := 16, mgmtBuf := s.mod.life.power.toList.map (fun t => BitVec.ofNat 64 (t / 10 ^ 9)) } }) ∧
    (v.toNat % 65536 = 6 → exec (.mgmtReq v) s = .next { s with mod := { s.mod with
      mgmtRes := 3, mgmtBuf := [s.mod.life.degraded, s.mod.life.civ, s.mod.life.undelivered] } }) ∧
    (7 ≤ v.toNat % 256 → exec (.mgmtReq v) s = .next { s with mod := { s.mod with mgmtRes := 0xFFFFFFFFFFFFFFFF } })

/-- R48, R55, R364 to R367: the flits of a peer on a link that is up, in lines that stand under no other key than the flit's: a read
returns bytes of M, a write stores the bytes its mask selects, a read-modify-write does both at once; responses, credits and unknown
types are counted; 16 replays in a row let the link fail over. (That each performs at once is the model's choice, log 12.) -/
def Sys2Proof.Machine.LinksCarry : Prop :=
  (∀ (s : State) (l : Fin 12) (src : LanbySrc) (pa n : Nat), LinkUp s l → PlainMem s pa n →
    (∀ i < n, s.keyDiffers src.key ((pa + i) / 128) = false) →
    exec (.lanbyRead l src pa n) s = .next { received s l id with hostRead := s.mem.readN pa n }) ∧
  (∀ (s : State) (l : Fin 12) (src : LanbySrc) (pa : Nat) (bs : List (Option Byte)) (b : Bool), LinkUp s l → PlainMem s pa bs.length →
    (∀ i < bs.length, s.keyDiffers src.key ((pa + i) / 128) = false) →
    ∃ u, exec (.lanbyWrite l src pa bs b) s = .next u ∧ u.mod = { (received s l id).mod with keyTags := u.mod.keyTags } ∧
      ∀ a, u.mem.read a = (match (if pa ≤ a then bs.getD (a - pa) none else none) with
        | some x => x
        | none => s.mem.read a)) ∧
  (∀ (s : State) (l : Fin 12) (src : LanbySrc) (pa : Nat) (x y : W32), LinkUp s l → PlainMem s pa 4 →
    (∀ i < 4, s.keyDiffers src.key ((pa + i) / 128) = false) →
    ∃ u, exec (.lanbyRmw l src pa .add x y) s = .next u ∧ u.hostRead = s.mem.readN pa 4 ∧
      u.mem = s.mem.writeAll (bytesAt pa (leOf 4 (BitVec.ofNat 32 (leVal (s.mem.readN pa 4)) + x).toNat))) ∧
  (∀ (s : State) (l : Fin 12) (ack : BitVec 16) (ty : Fin 16), LinkUp s l →
    exec (.lanbyResponse l ack) s = .next (received s l (fun x => { x with acked := ack })) ∧
    exec (.lanbyCredit l) s = .next (received s l (fun x => { x with credits := x.credits + 1 })) ∧
    (6 ≤ ty.val → exec (.lanbyBadType l ty) s = .next (received s l (fun x => { x with dropped := x.dropped + 1 })))) ∧
  ∀ (s : State) (l : Fin 12), s.mod.links[l.val].up = true →
    let x := s.mod.links[l.val]
    exec (.flitReplay l) s = .next { s with mod := { s.mod with links := s.mod.links.set l.val { x with replays := x.replays + 1 } } } ∧
    (16 ≤ x.replays → exec (.linkFailover l) s =
      .next { s with mod := { s.mod with links := s.mod.links.set l.val { x with up := false }, failedOver := true } })

/-- R334, R365: LANBY_POISON_RESPONSE of a queued load of a peer's memory returns poison: the access is gone, and the lane of its
result is poisoned. -/
def Sys2Proof.Machine.PeersPoison : Prop :=
  ∀ (s : State) (l : Fin 12) (x : Access) (d : Def) (w : Wave) (pa : Nat), LinkUp s l → 0 < x.size → Enabled s x → x.kind = .load → x.ord = .plain →
    x.place = .mem pa → pa / 2 ^ 46 ≠ s.mod.cfg.modno.val → x.agent = .wave w.uid → s.wave? w.uid = some w → awaits w x d →
    ∃ u w' d', exec (.lanbyPoisonResponse l x.id) s = .next u ∧ (∀ a ∈ u.accs, a.id ≠ x.id) ∧ u.wave? w.uid = some w' ∧ d' ∈ w'.defs ∧
      d'.id = d.id ∧ d'.poisoned x.lane = true ∧ u.mem = s.mem

/-- R48, R55, R334, R364 to R367: the flits of peers, and a poisoned answer. -/
def Obligations.PeersReach : Prop := LinksCarry ∧ PeersPoison

/-- R333, R334, R351, R367: a corrected error is counted; an uncorrectable one is counted and poisons its unit, and a poisoned lane
of a written vector register reads 0x7FC0_0000; KEY_SLOT_LOAD in a secure session begins a new generation of the slot, and no
cache keeps a line under it. -/
def Sys2Proof.Machine.ErrorsCount : Prop :=
  (∀ (s : State) (d : Fin 8), exec (.correctedError d) s = .next { s.putDie { s.dieOf d with ce := (s.dieOf d).ce + 1 } with
    mod := { s.mod with life := { s.mod.life with ce := s.mod.life.ce.set d.val (s.mod.life.ce[d.val] + 1) } } }) ∧
  (∀ (s : State) (d : Fin 8) (x : PoisonUnit), ∃ u, exec (.uncorrectableError d x) s = .next u ∧ (u.dieOf d).ue = (s.dieOf d).ue + 1 ∧
    u.mod.life.ue = s.mod.life.ue.set d.val (s.mod.life.ue[d.val] + 1) ∧ x ∈ u.poison ∧ (∀ y ∈ s.poison, y ∈ u.poison) ∧
    u.mem = s.mem ∧ u.cohorts = s.cohorts ∧ (∀ n, unitWave x ≠ some n → u.wave? n = s.wave? n) ∧
    ∀ (w : Wave) (r : VNum) (l : Fin 32), x = .vreg w.uid r l → s.wave? w.uid = some w → w.vreg r ≠ .none →
      ∃ w', u.wave? w.uid = some w' ∧ (w'.vreg r).lane l = 0x7FC00000) ∧
  ∀ (s : State) (k : BitVec 8), s.mod.spdm.session = true → (∀ e ∈ s.wb, e.key ≠ k) →
    ∃ u, exec (.keySlotLoad k) s = .next u ∧ u.keyGenOf k = s.keyGenOf k + 1 ∧ (∀ j, j ≠ k → u.keyGenOf j = s.keyGenOf j) ∧
      (∀ c ∈ u.caches, c.key ≠ k) ∧ u.mem = s.mem

/-- R368 (the order of requests is the model's, log 42): a request that the responder's standing allows moves it on and is answered:
the algorithms, the measurement blocks and the certificate slot are as the rule gives them. -/
def Sys2Proof.Machine.SpdmAnswers : Prop :=
  ∀ (s : State), s.mod.ready = true → ∀ x ∈ spdmTable, x.2.1 s.mod.spdm = true →
    ∃ (a : SpdmAnswer) (n : Nat),
      exec x.1 s = .next { s with drawn := n, mod := { s.mod with spdm := { x.2.2 s.mod.spdm with response := a } } } ∧ spdmSays s x.1 a

/-- R369 to R371: BRING_UP applies the accepted record, clears the key slots, starts clk.cr at 0 and makes the module ready, or leads
to recovery, as it does with an image below the monotonic counter's version; a signed image with a higher version waits for it; the
temperatures of a die are noted, and above 120 °C the module powers down. Three clauses are the model's choices (log 57): that an image
at or below the counter changes nothing, that an accepted record waits for the next bring-up, and that an image is accepted in a session
outside recovery too; and that DIE_BELOW_105C ends the state above 110 °C as well is its choice (log 58). -/
def Sys2Proof.Machine.ModuleComesUp : Prop :=
  (∀ (s : State), s.mod.ready = false → s.mod.recovery = false → ∃ u, exec .bringUp s = .next u ∧
    ((u.mod.ready = true ∧ u.mod.recovery = false ∧ u.clk = 0 ∧ u.mod.keyGen = [] ∧ u.mod.keyTags = [] ∧
        u.mod.cfg = (match s.mod.pendingCfg with
          | some r => r
          | none => s.mod.cfg)) ∨
      (u.mod.ready = false ∧ u.mod.recovery = true ∧ u.mod.cfg = s.mod.cfg)) ∧ u.mem = s.mem ∧ u.waves = s.waves ∧
    ((match s.mod.pendingCfg with
      | some r => r
      | none => s.mod.cfg).version.toNat < s.mod.imageVersion → u.mod.recovery = true)) ∧
  (∀ (s : State) (r : CfgRecord), s.mod.spdm.session = true → s.mod.imageVersion < r.version.toNat →
    ∃ u, exec (.signedImageAccept r) s = .next u ∧ (u.mod = s.mod ∨
      u.mod = { s.mod with pendingCfg := some r, imageVersion := r.version.toNat, recovery := false })) ∧
  (∀ (s : State) (r : CfgRecord), s.mod.spdm.session = true → r.version.toNat ≤ s.mod.imageVersion →
    ∃ u, exec (.signedImageAccept r) s = .next u ∧ u.mod = s.mod) ∧
  (∀ (s : State) (d : Fin 8), ∃ a b e f, exec (.dieOver105c d) s = .next a ∧ (a.dieOf d).over105 = true ∧
    exec (.dieOver110c d) s = .next b ∧ (b.dieOf d).over110 = true ∧
    (∀ r : Fin 4, b.mod.rails[r.val].point = 3 ∧ b.mod.rails[r.val].ramp = none ∨ ∃ n, b.mod.rails[r.val].ramp = some (3, n)) ∧
    exec (.dieBelow110c d) s = .next e ∧ (e.dieOf d).over110 = false ∧
    exec (.dieBelow105c d) s = .next f ∧ (f.dieOf d).over105 = false ∧ (f.dieOf d).over110 = false) ∧
  ∀ (s : State) (d : Fin 8), ∃ u, exec (.dieOver120c d) s = .next u ∧ u.mod.powered = false ∧ step u = .fault .poweredDown

/-- R333, R334, R351, R367 to R371: errors, key slots, SPDM (its order the model's, log 42), bring-up, images and temperatures (which images are taken, and what ends the state above 110 °C, the model's choices, logs 57 and 58). -/
def Obligations.ModuleFirmware : Prop := ErrorsCount ∧ SpdmAnswers ∧ ModuleComesUp

/-- R123, R167, R88: QNT of a slot it accepts completes: over the active lanes in ascending order, vD takes the element codes and
vD + 1 the scale code of one block; inactive lanes keep theirs. Of any other slot it raises IIL. That an inactive lane of a
destination which the instruction frees itself reads as freed is the model's choice (log 25, 78). -/
def Sys2Proof.Machine.QntBlocks : Prop :=
  ∀ (s : State) (w : Wave) (h : Head) (d : VNum) (a : VSrc) (fs : Fin 8), (Instr.qnt h d a fs).wf = true → Open h s w →
    let act := lanesOf w.em
    let x := qntBlock (slotElem (s.slotOf w fs)) (act.map (w.laneOf a))
    let v := w.freeV (frees [a])
    (qntAccepts (s.slotOf w fs) = true → ∃ y : Wave, Runs (.qnt h d a fs) s w y ∧
      y = { w with v := y.v, lmiss := y.lmiss, defs := y.defs, pc := w.pc + 16 } ∧
      (∀ k : Fin 32, (y.vreg d).lane k =
        if w.em.getLsbD k.val then BitVec.ofNat 32 (x.2.getD (act.idxOf k) 0) else (v.vreg d).lane k) ∧
      (∀ k : Fin 32, (y.vreg (groupReg d 1)).lane k =
        if w.em.getLsbD k.val then BitVec.ofNat 32 x.1 else (v.vreg (groupReg d 1)).lane k) ∧
      ∀ r, r ≠ d → r ≠ groupReg d 1 → y.vreg r = v.vreg r) ∧
    (qntAccepts (s.slotOf w fs) = false → Deliverable s w → exec (.qnt h d a fs) s =
      .next (s.putWave (trapped s w { cls := 1, mask := w.em, seq := w.seq, rpc := w.pc })))

/-- R88, R123, R136, R167, R173: VSQZ and QNT. -/
def Obligations.SqueezeAndQuantize : Prop := SqueezeCompact ∧ QntBlocks

/-- R22, R156, R204: EXIT of a calm wave completes: the wave leaves its core, its monitors disarmed; a barrier of its cohort at
which every wave left has arrived completes, and a cohort with no wave left is gone. -/
def Sys2Proof.Machine.WavesEnd : Prop :=
  ∀ (s : State) (w : Wave) (h : Head) (c : Cohort), Calm h s w → s.cohort? w.cohort = some c →
    let n := (s.waves.filter (fun x => x.cohort == w.cohort && !x.exited && x.uid != w.uid)).length
    ∃ t w' c', exec (.exit h) s = .next t ∧ t.wave? w.uid = some w' ∧ w'.exited = true ∧ w'.mons = Vector.replicate 4 none ∧
      (∀ u, u ≠ w.uid → t.wave? u = s.wave? u) ∧ t.mem = s.mem ∧ t.cohort? w.cohort = some c' ∧
      (n = 0 → c'.place = .gone ∧ c'.bars = c.bars) ∧
      (n ≠ 0 → c'.place = c.place ∧ ∀ b : Fin 16, c'.bars[b.val] =
        if c.bars[b.val].arrived = n then ⟨0, c.bars[b.val].gen + 1⟩ else c.bars[b.val])

/-- R22, R156, R204, R314: EXIT, and the end of a wave at a trap that is not delivered. -/
def Obligations.WavesLeave : Prop := TrapUndelivered ∧ WavesEnd

/-- R185, R322: LEASE_EXPIRY removes a translation whose lease has ended, and the cached lines that were filled through an ended
lease; what holds a lease that still runs stays. -/
def Sys2Proof.Machine.LeaseExpires : Prop :=
  ∀ (s : State) (id : Nat), s.packets = [] →
    exec (.leaseExpiry id) s = .next { s with
      tlb := s.tlb.filter (fun e => decide (e.id ≠ id ∨ s.clk < e.expiry)),
      caches := s.caches.filter (fun c => c.ends.all (fun t => decide (s.clk < t))) }

/-- R185, R322, R359: TLBI, TLBI.N and LEASE_EXPIRY. -/
def Obligations.Leases : Prop := Invalidations ∧ LeaseExpires

/-- R70, R71: an instruction of any kind whose guard is false completes as a skipped one: the wave goes on behind its word and
nothing else changes; one marked `.y` first waits as at a switch point. -/
def Obligations.GuardSkips : Prop :=
  ∀ (i : Instr) (s : State) (w : Wave) (r : Raw) (g : Guard), i.raw = some r → guardOf r = some g → i.wf = true →
    s.wave? s.cur = some w → guardPasses g w = false → (∀ u ∈ s.poison, unitWave u ≠ some w.uid) →
    s.breakpoint w false = none →
    (markOf r = true → w.defs = [] ∧ w.pends = []) → (privileged (opcOf r) = true → w.priv = true) →
    (∀ h reg a, i = .swr h reg a → takesSwr w.priv reg.toNat = true) →
    Runs i s w { w with pc := w.pc + BitVec.ofNat 64 (encode i).length }

/-- R89, R90, R313: a privileged opcode in user state raises PRV, precise at the instruction, whatever its guard, where no register
of the wave is poisoned and no breakpoint by PC comes first. -/
def Sys2Proof.Machine.PrivilegeTraps : Prop :=
  ∀ (i : Instr) (s : State) (w : Wave) (r : Raw), i.raw = some r → i.wf = true → privileged (opcOf r) = true →
    s.wave? s.cur = some w → Deliverable s w → (∀ u ∈ s.poison, unitWave u ≠ some w.uid) → s.breakpoint w false = none →
    exec i s = .next (s.putWave (trapped s w { cls := 2, mask := w.em, seq := w.seq, rpc := w.pc }))

/-- R87, R89, R90, R308, R313: PRV of an SWR that the view does not take, and of the privileged opcodes. -/
def Obligations.ModeTraps : Prop := SwrTraps ∧ PrivilegeTraps

/-- R67, R88, R90, R332: an illegal word that no breakpoint by PC hits raises IIL with detail 0; a fetch outside the address space PGF with detail 2; a fetch of a page
that does not translate is held on its fault; a wave at a barred page ends, and its grid records the violation. That the record of a
held fetch is named by wave.seq as it stands is the model's choice (log 51). -/
def Obligations.FetchEnds : Prop :=
  (∀ (s : State) (w : Wave), s.wave? s.cur = some w → Deliverable s w → s.breakpoint w false = none → exec .illegalEncoding s =
    .next (s.putWave (trapped s w { cls := 1, mask := w.em, seq := w.seq, rpc := w.pc }))) ∧
  (∀ (s : State) (w : Wave) (g : Grid), s.wave? s.cur = some w → Deliverable s w → s.gridOf w = some g → w.inProg = .none →
    w.fetch = .free → 2 ^ 52 ≤ w.pc.toNat → exec .fetchFault s = .next (s.putWave (trapped s w
      { cls := 4, detail := 2, mask := w.em, seq := w.seq, rpc := w.pc, addr := w.pc }))) ∧
  (∀ (s u v : State) (w : Wave) (g : Grid) (y : Nat) (f : Nat), s.wave? s.cur = some w → s.gridOf w = some g → w.inProg = .none →
    w.fetch = .free → w.pc.toNat < 2 ^ 52 →
    s.translate w.core g.asid (w.pc.toNat / 65536 * 65536) .fetch w.priv = (u, .error y) →
    u.raiseFault g.asid (w.pc.toNat / 65536 * 65536) .fetch y w.loc w.seq w.pc = (v, some f) →
    exec .fetchFault s = .next (v.putWave { w with fetch := .held f, hold := .none })) ∧
  ∀ (s u : State) (w : Wave) (g : Grid), s.wave? s.cur = some w → s.fetch w = (u, .barred) → u.wave? w.uid = some w →
    u.gridOf w = some g → w.defs = [] → w.pends = [] → w.sb = [] → w.nests = [] → (∀ a ∈ u.accs, a.agent ≠ .wave w.uid) →
    ∃ t w', exec .fetchFault s = .next t ∧ t.wave? w.uid = some w' ∧ w'.exited = true ∧ t.mem = u.mem ∧
      t.grid? g.uid = some { g with civ := true }

/-- R68, R90: a step in which a wave has its turn runs the instruction that the fetched bytes decode to, on the state that the fetch
left; bytes that decode to none run ILLEGAL_ENCODING. -/
def Obligations.StepRunsDecoded : Prop :=
  ∀ (s t : State) (w : Wave) (ts : List Turn) (l : List Byte), HasTurn s w ts →
    (begun s w ts).fetch w = (t, .bytes l) →
    (∀ i rest, decode l = some (i, rest) → step s = exec i t) ∧ (decode l = none → step s = exec .illegalEncoding t)

/-- R65 to R88: words written out from the spec's encoding decode to the instructions they stand for. -/
def Obligations.WordsDecode : Prop :=
  ∀ x ∈ specWords, decodeTableWord x.1 x.2.1 = some x.2.2

/-- R65 to R88: for every well-formed instruction of a wave, with every operand, decoding its word gives it back, and leaves the
bytes behind it. -/
def Obligations.DecodeEncode : Prop :=
  ∀ (i : Instr) (rest : List Byte), i.raw ≠ none → i.wf = true → decode (encode i ++ rest) = some (i, rest)

/-- R33, R36, R68: every step keeps the canonical form of M, of every scratchpad and of every code page. -/
def Obligations.StepsKeepCanonical : Prop :=
  ∀ (s t : State), Canonical s → step s = .next t → Canonical t

/-- R7, R8, R13, R256, R260, R275, R276, R309, R360: after reset clk.cr is 0, no wave, task or address space exists, every task entry
is free with generation 1, each port pointer stands at IP0, yar.fp and yar.clim have their reset values, and memory is canonical. -/
def Obligations.ResetState : Prop :=
  let s := State.reset
  s.clk = 0 ∧ s.waves = [] ∧ s.grids = [] ∧ s.tasks = [] ∧ s.spaces = [] ∧ s.queues = [] ∧ s.accs = [] ∧ s.wb = [] ∧
    s.mod.ready = false ∧ s.mod.powered = true ∧ (∀ a n : Nat, s.genOf a n = 1) ∧
    (∀ c : CoreId, (s.coreOf c).portPtr = 0 ∧ s.clkOf c = 0 ∧ ∀ p : Fin 4, (s.coreOf c).ports[p.val].latch = none) ∧
    (∀ d : Fin 8, (s.dieOf d).fp = 0x00040000) ∧ (∀ (d : Fin 8) (k : Fin 12), (s.cluOf d k).clim = 0x3FFFFF) ∧ Canonical s
end

