-- ==== Sys2Proof/Laws/Memory.lean ====
section
/-! SUPPORT. Memory: a write keeps the canonical form, is read back, and leaves every other byte alone; the same of writes
of several bytes. -/

namespace Sys2Proof.Machine

/-- A canonical memory whose addresses start at `lo` lists nothing below. -/
theorem read_below : ∀ (m : Memory) (lo a : Nat), Memory.wfFrom lo m = true → a < lo → m.read a = unlistedByte
  | [], _, _, _, _ => rfl
  | (k, v) :: m, lo, a, h, ha => by
    simp [Memory.wfFrom] at h
    have hk : k ≠ a := by omega
    simp [Memory.read, hk]
    exact read_below m (k + 1) a h.2 (by omega)

theorem wfFrom_mono : ∀ (m : Memory) (lo hi : Nat), Memory.wfFrom hi m = true → lo ≤ hi → Memory.wfFrom lo m = true
  | [], _, _, _, _ => rfl
  | (k, v) :: m, lo, hi, h, hl => by
    simp [Memory.wfFrom] at h ⊢
    exact ⟨⟨by omega, h.1.2⟩, h.2⟩

/-- A write keeps the canonical form above its lower bound. -/
theorem wfFrom_write : ∀ (m : Memory) (lo a : Nat) (b : Byte), Memory.wfFrom lo m = true → lo ≤ a →
    Memory.wfFrom lo (m.write a b) = true
  | [], lo, a, b, _, ha => by
    by_cases hb : b = unlistedByte <;> simp [Memory.write, hb, Memory.wfFrom, ha]
  | (k, v) :: m, lo, a, b, h, ha => by
    have hw := h
    simp [Memory.wfFrom] at h
    simp only [Memory.write]
    split
    · split
      · exact hw
      · next hlt hb => simp [Memory.wfFrom, ha, hb, h.1.2]; exact ⟨by omega, h.2⟩
    · split
      · next heq =>
        split
        · exact wfFrom_mono m lo (k + 1) h.2 (by omega)
        · next hb => simp [Memory.wfFrom, ha, hb]; subst heq; exact h.2
      · simp [Memory.wfFrom, h.1]
        exact wfFrom_write m (k + 1) a b h.2 (by omega)

/-- Every write keeps the canonical form. -/
theorem wf_write (m : Memory) (a : Nat) (b : Byte) (h : m.wf = true) : (m.write a b).wf = true :=
  wfFrom_write m 0 a b h (Nat.zero_le a)

theorem wf_writeAll : ∀ (l : List (Nat × Byte)) (m : Memory), m.wf = true → (m.writeAll l).wf = true
  | [], _, h => h
  | x :: l, m, h => wf_writeAll l (m.write x.1 x.2) (wf_write m x.1 x.2 h)

theorem wf_nil : Memory.wf [] = true := rfl

/-- Read after write, in a canonical memory. -/
theorem read_write_from : ∀ (m : Memory) (lo a : Nat) (b : Byte) (c : Nat), Memory.wfFrom lo m = true →
    (m.write a b).read c = if c = a then b else m.read c
  | [], _, a, b, c, _ => by
    by_cases hb : b = unlistedByte
    · by_cases hc : c = a <;> simp [Memory.write, Memory.read, hb, hc]
    · by_cases hc : c = a
      · simp [Memory.write, Memory.read, hb, hc]
      · simp [Memory.write, Memory.read, hb, hc, Ne.symm hc]
  | (k, v) :: m, lo, a, b, c, h => by
    have hw := h
    simp [Memory.wfFrom] at h
    simp only [Memory.write]
    split
    · next hlt =>
      split
      · next hb =>
        by_cases hc : c = a
        · subst hc; rw [if_pos rfl, hb]
          have hk : k ≠ c := by omega
          simp only [Memory.read, hk, if_false]
          exact read_below m (k + 1) c h.2 (by omega)
        · rw [if_neg hc]
      · by_cases hc : c = a
        · subst hc; simp [Memory.read]
        · rw [if_neg hc]; simp [Memory.read, Ne.symm hc]
    · split
      · next heq =>
        subst heq
        split
        · next hb =>
          by_cases hc : c = a
          · subst hc; rw [if_pos rfl, hb]; exact read_below m (c + 1) c h.2 (by omega)
          · rw [if_neg hc]; simp [Memory.read, Ne.symm hc]
        · by_cases hc : c = a
          · subst hc; simp [Memory.read]
          · rw [if_neg hc]; simp [Memory.read, Ne.symm hc]
      · by_cases hk : k = c
        · subst hk
          have hc : k ≠ a := by omega
          simp [Memory.read, hc]
        · simp only [Memory.read, hk, if_false]
          exact read_write_from m (k + 1) a b c h.2

/-- Read after write: the written byte at its address, every other byte as before. -/
theorem read_write (m : Memory) (a : Nat) (b : Byte) (c : Nat) (h : m.wf = true) :
    (m.write a b).read c = if c = a then b else m.read c := read_write_from m 0 a b c h

theorem read_write_self (m : Memory) (a : Nat) (b : Byte) (h : m.wf = true) : (m.write a b).read a = b := by
  simp [read_write m a b a h]

/-- A write leaves every other byte alone, in any memory. -/
theorem read_write_other : ∀ (m : Memory) (a : Nat) (b : Byte) (c : Nat), c ≠ a → (m.write a b).read c = m.read c
  | [], a, b, c, hc => by
    by_cases hb : b = unlistedByte <;> simp [Memory.write, Memory.read, hb, Ne.symm hc]
  | (k, v) :: m, a, b, c, hc => by
    simp only [Memory.write]
    split
    · split
      · rfl
      · simp [Memory.read, Ne.symm hc]
    · split
      · next heq => subst heq; split <;> simp [Memory.read, Ne.symm hc]
      · simp only [Memory.read]; rw [read_write_other m a b c hc]

/-- Writes of several bytes leave alone every byte that they do not name. -/
theorem read_writeAll_other : ∀ (l : List (Nat × Byte)) (m : Memory) (c : Nat), (∀ x ∈ l, x.1 ≠ c) →
    (m.writeAll l).read c = m.read c
  | [], _, _, _ => rfl
  | x :: l, m, c, h => by
    have hx : c ≠ x.1 := Ne.symm (h x (by simp))
    have := read_writeAll_other l (m.write x.1 x.2) c (fun y hy => h y (by simp [hy]))
    simpa [Memory.writeAll, read_write_other m x.1 x.2 c hx] using this

theorem bytesAt_mem (a : Nat) (l : List Byte) (x : Nat × Byte) (h : x ∈ bytesAt a l) : a ≤ x.1 ∧ x.1 < a + l.length := by
  simp [bytesAt, List.mem_iff_getElem] at h
  obtain ⟨i, hi, e⟩ := h
  subst e
  simp
  omega

/-- Bytes written in a row leave alone every address outside them. -/
theorem read_bytesAt_other (m : Memory) (a : Nat) (l : List Byte) (c : Nat) (h : c < a ∨ a + l.length ≤ c) :
    (m.writeAll (bytesAt a l)).read c = m.read c :=
  read_writeAll_other _ m c (fun x hx => by have := bytesAt_mem a l x hx; omega)

end Sys2Proof.Machine
end

