-- ==== Sys2Proof/Laws/State.lean ====
section
/-! SUPPORT. What each update of the state and of a wave leaves in each field, by definition, so that no proof unfolds a
record update; and reading a record back after it was stored. -/

namespace Sys2Proof.Machine

/-! ## Records by key -/

theorem find_modWhere_self {α : Type} {β : Type} [BEq β] [LawfulBEq β] (key : α → β) (x : α) :
    ∀ l : List α, (l.find? (fun y => key y == key x)).isSome →
      (modWhere (fun y => key y == key x) (fun _ => x) l).find? (fun y => key y == key x) = some x
  | [], h => by simp at h
  | a :: l, h => by
    by_cases ha : key a == key x
    · simp [modWhere, ha]
    · have hl : (l.find? (fun y => key y == key x)).isSome := by simpa [ha] using h
      have := find_modWhere_self key x l hl
      simpa [modWhere, ha] using this

theorem find_modWhere_other {α : Type} {β : Type} [BEq β] [LawfulBEq β] (key : α → β) (x : α) (k : β) (hk : k ≠ key x) :
    ∀ l : List α, (modWhere (fun y => key y == key x) (fun _ => x) l).find? (fun y => key y == k) =
      l.find? (fun y => key y == k)
  | [] => rfl
  | a :: l => by
    have ih := find_modWhere_other key x k hk l
    by_cases ha : key a == key x
    · have h1 : (key x == k) = false := by simpa using (Ne.symm hk)
      have h2 : (key a == k) = false := by
        have := eq_of_beq ha
        simpa [this] using (Ne.symm hk)
      simpa [modWhere, ha, h1, h2] using ih
    · by_cases hb : key a == k
      · simp [modWhere, ha, hb]
      · simpa [modWhere, ha, hb] using ih

/-! ## Updates of the state -/

@[simp] theorem putWave_sched (s : State) (w : Wave) : (s.putWave w).sched = s.sched := rfl
@[simp] theorem putWave_turnNo (s : State) (w : Wave) : (s.putWave w).turnNo = s.turnNo := rfl
@[simp] theorem putWave_drawn (s : State) (w : Wave) : (s.putWave w).drawn = s.drawn := rfl
@[simp] theorem putWave_cur (s : State) (w : Wave) : (s.putWave w).cur = s.cur := rfl
@[simp] theorem putWave_nextUid (s : State) (w : Wave) : (s.putWave w).nextUid = s.nextUid := rfl
@[simp] theorem putWave_clk (s : State) (w : Wave) : (s.putWave w).clk = s.clk := rfl
@[simp] theorem putWave_cohorts (s : State) (w : Wave) : (s.putWave w).cohorts = s.cohorts := rfl
@[simp] theorem putWave_ensembles (s : State) (w : Wave) : (s.putWave w).ensembles = s.ensembles := rfl
@[simp] theorem putWave_grids (s : State) (w : Wave) : (s.putWave w).grids = s.grids := rfl
@[simp] theorem putWave_tasks (s : State) (w : Wave) : (s.putWave w).tasks = s.tasks := rfl
@[simp] theorem putWave_gens (s : State) (w : Wave) : (s.putWave w).gens = s.gens := rfl
@[simp] theorem putWave_queues (s : State) (w : Wave) : (s.putWave w).queues = s.queues := rfl
@[simp] theorem putWave_served (s : State) (w : Wave) : (s.putWave w).served = s.served := rfl
@[simp] theorem putWave_chqRes (s : State) (w : Wave) : (s.putWave w).chqRes = s.chqRes := rfl
@[simp] theorem putWave_packets (s : State) (w : Wave) : (s.putWave w).packets = s.packets := rfl
@[simp] theorem putWave_accs (s : State) (w : Wave) : (s.putWave w).accs = s.accs := rfl
@[simp] theorem putWave_wb (s : State) (w : Wave) : (s.putWave w).wb = s.wb := rfl
@[simp] theorem putWave_caches (s : State) (w : Wave) : (s.putWave w).caches = s.caches := rfl
@[simp] theorem putWave_mem (s : State) (w : Wave) : (s.putWave w).mem = s.mem := rfl
@[simp] theorem putWave_side (s : State) (w : Wave) : (s.putWave w).side = s.side := rfl
@[simp] theorem putWave_poison (s : State) (w : Wave) : (s.putWave w).poison = s.poison := rfl
@[simp] theorem putWave_poisonSeen (s : State) (w : Wave) : (s.putWave w).poisonSeen = s.poisonSeen := rfl
@[simp] theorem putWave_consumed (s : State) (w : Wave) : (s.putWave w).consumed = s.consumed := rfl
@[simp] theorem putWave_tlb (s : State) (w : Wave) : (s.putWave w).tlb = s.tlb := rfl
@[simp] theorem putWave_leases (s : State) (w : Wave) : (s.putWave w).leases = s.leases := rfl
@[simp] theorem putWave_faults (s : State) (w : Wave) : (s.putWave w).faults = s.faults := rfl
@[simp] theorem putWave_spaces (s : State) (w : Wave) : (s.putWave w).spaces = s.spaces := rfl
@[simp] theorem putWave_cores (s : State) (w : Wave) : (s.putWave w).cores = s.cores := rfl
@[simp] theorem putWave_clusters (s : State) (w : Wave) : (s.putWave w).clusters = s.clusters := rfl
@[simp] theorem putWave_dies (s : State) (w : Wave) : (s.putWave w).dies = s.dies := rfl
@[simp] theorem putWave_mod (s : State) (w : Wave) : (s.putWave w).mod = s.mod := rfl
@[simp] theorem putWave_hostRead (s : State) (w : Wave) : (s.putWave w).hostRead = s.hostRead := rfl

@[simp] theorem putCohort_sched (s : State) (c : Cohort) : (s.putCohort c).sched = s.sched := rfl
@[simp] theorem putCohort_turnNo (s : State) (c : Cohort) : (s.putCohort c).turnNo = s.turnNo := rfl
@[simp] theorem putCohort_drawn (s : State) (c : Cohort) : (s.putCohort c).drawn = s.drawn := rfl
@[simp] theorem putCohort_cur (s : State) (c : Cohort) : (s.putCohort c).cur = s.cur := rfl
@[simp] theorem putCohort_nextUid (s : State) (c : Cohort) : (s.putCohort c).nextUid = s.nextUid := rfl
@[simp] theorem putCohort_clk (s : State) (c : Cohort) : (s.putCohort c).clk = s.clk := rfl
@[simp] theorem putCohort_waves (s : State) (c : Cohort) : (s.putCohort c).waves = s.waves := rfl
@[simp] theorem putCohort_ensembles (s : State) (c : Cohort) : (s.putCohort c).ensembles = s.ensembles := rfl
@[simp] theorem putCohort_grids (s : State) (c : Cohort) : (s.putCohort c).grids = s.grids := rfl
@[simp] theorem putCohort_tasks (s : State) (c : Cohort) : (s.putCohort c).tasks = s.tasks := rfl
@[simp] theorem putCohort_gens (s : State) (c : Cohort) : (s.putCohort c).gens = s.gens := rfl
@[simp] theorem putCohort_queues (s : State) (c : Cohort) : (s.putCohort c).queues = s.queues := rfl
@[simp] theorem putCohort_served (s : State) (c : Cohort) : (s.putCohort c).served = s.served := rfl
@[simp] theorem putCohort_chqRes (s : State) (c : Cohort) : (s.putCohort c).chqRes = s.chqRes := rfl
@[simp] theorem putCohort_packets (s : State) (c : Cohort) : (s.putCohort c).packets = s.packets := rfl
@[simp] theorem putCohort_accs (s : State) (c : Cohort) : (s.putCohort c).accs = s.accs := rfl
@[simp] theorem putCohort_wb (s : State) (c : Cohort) : (s.putCohort c).wb = s.wb := rfl
@[simp] theorem putCohort_caches (s : State) (c : Cohort) : (s.putCohort c).caches = s.caches := rfl
@[simp] theorem putCohort_mem (s : State) (c : Cohort) : (s.putCohort c).mem = s.mem := rfl
@[simp] theorem putCohort_side (s : State) (c : Cohort) : (s.putCohort c).side = s.side := rfl
@[simp] theorem putCohort_poison (s : State) (c : Cohort) : (s.putCohort c).poison = s.poison := rfl
@[simp] theorem putCohort_poisonSeen (s : State) (c : Cohort) : (s.putCohort c).poisonSeen = s.poisonSeen := rfl
@[simp] theorem putCohort_consumed (s : State) (c : Cohort) : (s.putCohort c).consumed = s.consumed := rfl
@[simp] theorem putCohort_tlb (s : State) (c : Cohort) : (s.putCohort c).tlb = s.tlb := rfl
@[simp] theorem putCohort_leases (s : State) (c : Cohort) : (s.putCohort c).leases = s.leases := rfl
@[simp] theorem putCohort_faults (s : State) (c : Cohort) : (s.putCohort c).faults = s.faults := rfl
@[simp] theorem putCohort_spaces (s : State) (c : Cohort) : (s.putCohort c).spaces = s.spaces := rfl
@[simp] theorem putCohort_cores (s : State) (c : Cohort) : (s.putCohort c).cores = s.cores := rfl
@[simp] theorem putCohort_clusters (s : State) (c : Cohort) : (s.putCohort c).clusters = s.clusters := rfl
@[simp] theorem putCohort_dies (s : State) (c : Cohort) : (s.putCohort c).dies = s.dies := rfl
@[simp] theorem putCohort_mod (s : State) (c : Cohort) : (s.putCohort c).mod = s.mod := rfl
@[simp] theorem putCohort_hostRead (s : State) (c : Cohort) : (s.putCohort c).hostRead = s.hostRead := rfl

@[simp] theorem putEns_sched (s : State) (e : Ensemble) : (s.putEns e).sched = s.sched := rfl
@[simp] theorem putEns_turnNo (s : State) (e : Ensemble) : (s.putEns e).turnNo = s.turnNo := rfl
@[simp] theorem putEns_drawn (s : State) (e : Ensemble) : (s.putEns e).drawn = s.drawn := rfl
@[simp] theorem putEns_cur (s : State) (e : Ensemble) : (s.putEns e).cur = s.cur := rfl
@[simp] theorem putEns_nextUid (s : State) (e : Ensemble) : (s.putEns e).nextUid = s.nextUid := rfl
@[simp] theorem putEns_clk (s : State) (e : Ensemble) : (s.putEns e).clk = s.clk := rfl
@[simp] theorem putEns_waves (s : State) (e : Ensemble) : (s.putEns e).waves = s.waves := rfl
@[simp] theorem putEns_cohorts (s : State) (e : Ensemble) : (s.putEns e).cohorts = s.cohorts := rfl
@[simp] theorem putEns_grids (s : State) (e : Ensemble) : (s.putEns e).grids = s.grids := rfl
@[simp] theorem putEns_tasks (s : State) (e : Ensemble) : (s.putEns e).tasks = s.tasks := rfl
@[simp] theorem putEns_gens (s : State) (e : Ensemble) : (s.putEns e).gens = s.gens := rfl
@[simp] theorem putEns_queues (s : State) (e : Ensemble) : (s.putEns e).queues = s.queues := rfl
@[simp] theorem putEns_served (s : State) (e : Ensemble) : (s.putEns e).served = s.served := rfl
@[simp] theorem putEns_chqRes (s : State) (e : Ensemble) : (s.putEns e).chqRes = s.chqRes := rfl
@[simp] theorem putEns_packets (s : State) (e : Ensemble) : (s.putEns e).packets = s.packets := rfl
@[simp] theorem putEns_accs (s : State) (e : Ensemble) : (s.putEns e).accs = s.accs := rfl
@[simp] theorem putEns_wb (s : State) (e : Ensemble) : (s.putEns e).wb = s.wb := rfl
@[simp] theorem putEns_caches (s : State) (e : Ensemble) : (s.putEns e).caches = s.caches := rfl
@[simp] theorem putEns_mem (s : State) (e : Ensemble) : (s.putEns e).mem = s.mem := rfl
@[simp] theorem putEns_side (s : State) (e : Ensemble) : (s.putEns e).side = s.side := rfl
@[simp] theorem putEns_poison (s : State) (e : Ensemble) : (s.putEns e).poison = s.poison := rfl
@[simp] theorem putEns_poisonSeen (s : State) (e : Ensemble) : (s.putEns e).poisonSeen = s.poisonSeen := rfl
@[simp] theorem putEns_consumed (s : State) (e : Ensemble) : (s.putEns e).consumed = s.consumed := rfl
@[simp] theorem putEns_tlb (s : State) (e : Ensemble) : (s.putEns e).tlb = s.tlb := rfl
@[simp] theorem putEns_leases (s : State) (e : Ensemble) : (s.putEns e).leases = s.leases := rfl
@[simp] theorem putEns_faults (s : State) (e : Ensemble) : (s.putEns e).faults = s.faults := rfl
@[simp] theorem putEns_spaces (s : State) (e : Ensemble) : (s.putEns e).spaces = s.spaces := rfl
@[simp] theorem putEns_cores (s : State) (e : Ensemble) : (s.putEns e).cores = s.cores := rfl
@[simp] theorem putEns_clusters (s : State) (e : Ensemble) : (s.putEns e).clusters = s.clusters := rfl
@[simp] theorem putEns_dies (s : State) (e : Ensemble) : (s.putEns e).dies = s.dies := rfl
@[simp] theorem putEns_mod (s : State) (e : Ensemble) : (s.putEns e).mod = s.mod := rfl
@[simp] theorem putEns_hostRead (s : State) (e : Ensemble) : (s.putEns e).hostRead = s.hostRead := rfl

@[simp] theorem putGrid_sched (s : State) (g : Grid) : (s.putGrid g).sched = s.sched := rfl
@[simp] theorem putGrid_turnNo (s : State) (g : Grid) : (s.putGrid g).turnNo = s.turnNo := rfl
@[simp] theorem putGrid_drawn (s : State) (g : Grid) : (s.putGrid g).drawn = s.drawn := rfl
@[simp] theorem putGrid_cur (s : State) (g : Grid) : (s.putGrid g).cur = s.cur := rfl
@[simp] theorem putGrid_nextUid (s : State) (g : Grid) : (s.putGrid g).nextUid = s.nextUid := rfl
@[simp] theorem putGrid_clk (s : State) (g : Grid) : (s.putGrid g).clk = s.clk := rfl
@[simp] theorem putGrid_waves (s : State) (g : Grid) : (s.putGrid g).waves = s.waves := rfl
@[simp] theorem putGrid_cohorts (s : State) (g : Grid) : (s.putGrid g).cohorts = s.cohorts := rfl
@[simp] theorem putGrid_ensembles (s : State) (g : Grid) : (s.putGrid g).ensembles = s.ensembles := rfl
@[simp] theorem putGrid_tasks (s : State) (g : Grid) : (s.putGrid g).tasks = s.tasks := rfl
@[simp] theorem putGrid_gens (s : State) (g : Grid) : (s.putGrid g).gens = s.gens := rfl
@[simp] theorem putGrid_queues (s : State) (g : Grid) : (s.putGrid g).queues = s.queues := rfl
@[simp] theorem putGrid_served (s : State) (g : Grid) : (s.putGrid g).served = s.served := rfl
@[simp] theorem putGrid_chqRes (s : State) (g : Grid) : (s.putGrid g).chqRes = s.chqRes := rfl
@[simp] theorem putGrid_packets (s : State) (g : Grid) : (s.putGrid g).packets = s.packets := rfl
@[simp] theorem putGrid_accs (s : State) (g : Grid) : (s.putGrid g).accs = s.accs := rfl
@[simp] theorem putGrid_wb (s : State) (g : Grid) : (s.putGrid g).wb = s.wb := rfl
@[simp] theorem putGrid_caches (s : State) (g : Grid) : (s.putGrid g).caches = s.caches := rfl
@[simp] theorem putGrid_mem (s : State) (g : Grid) : (s.putGrid g).mem = s.mem := rfl
@[simp] theorem putGrid_side (s : State) (g : Grid) : (s.putGrid g).side = s.side := rfl
@[simp] theorem putGrid_poison (s : State) (g : Grid) : (s.putGrid g).poison = s.poison := rfl
@[simp] theorem putGrid_poisonSeen (s : State) (g : Grid) : (s.putGrid g).poisonSeen = s.poisonSeen := rfl
@[simp] theorem putGrid_consumed (s : State) (g : Grid) : (s.putGrid g).consumed = s.consumed := rfl
@[simp] theorem putGrid_tlb (s : State) (g : Grid) : (s.putGrid g).tlb = s.tlb := rfl
@[simp] theorem putGrid_leases (s : State) (g : Grid) : (s.putGrid g).leases = s.leases := rfl
@[simp] theorem putGrid_faults (s : State) (g : Grid) : (s.putGrid g).faults = s.faults := rfl
@[simp] theorem putGrid_spaces (s : State) (g : Grid) : (s.putGrid g).spaces = s.spaces := rfl
@[simp] theorem putGrid_cores (s : State) (g : Grid) : (s.putGrid g).cores = s.cores := rfl
@[simp] theorem putGrid_clusters (s : State) (g : Grid) : (s.putGrid g).clusters = s.clusters := rfl
@[simp] theorem putGrid_dies (s : State) (g : Grid) : (s.putGrid g).dies = s.dies := rfl
@[simp] theorem putGrid_mod (s : State) (g : Grid) : (s.putGrid g).mod = s.mod := rfl
@[simp] theorem putGrid_hostRead (s : State) (g : Grid) : (s.putGrid g).hostRead = s.hostRead := rfl

@[simp] theorem putQueue_sched (s : State) (q : TQueue) : (s.putQueue q).sched = s.sched := rfl
@[simp] theorem putQueue_turnNo (s : State) (q : TQueue) : (s.putQueue q).turnNo = s.turnNo := rfl
@[simp] theorem putQueue_drawn (s : State) (q : TQueue) : (s.putQueue q).drawn = s.drawn := rfl
@[simp] theorem putQueue_cur (s : State) (q : TQueue) : (s.putQueue q).cur = s.cur := rfl
@[simp] theorem putQueue_nextUid (s : State) (q : TQueue) : (s.putQueue q).nextUid = s.nextUid := rfl
@[simp] theorem putQueue_clk (s : State) (q : TQueue) : (s.putQueue q).clk = s.clk := rfl
@[simp] theorem putQueue_waves (s : State) (q : TQueue) : (s.putQueue q).waves = s.waves := rfl
@[simp] theorem putQueue_cohorts (s : State) (q : TQueue) : (s.putQueue q).cohorts = s.cohorts := rfl
@[simp] theorem putQueue_ensembles (s : State) (q : TQueue) : (s.putQueue q).ensembles = s.ensembles := rfl
@[simp] theorem putQueue_grids (s : State) (q : TQueue) : (s.putQueue q).grids = s.grids := rfl
@[simp] theorem putQueue_tasks (s : State) (q : TQueue) : (s.putQueue q).tasks = s.tasks := rfl
@[simp] theorem putQueue_gens (s : State) (q : TQueue) : (s.putQueue q).gens = s.gens := rfl
@[simp] theorem putQueue_served (s : State) (q : TQueue) : (s.putQueue q).served = s.served := rfl
@[simp] theorem putQueue_chqRes (s : State) (q : TQueue) : (s.putQueue q).chqRes = s.chqRes := rfl
@[simp] theorem putQueue_packets (s : State) (q : TQueue) : (s.putQueue q).packets = s.packets := rfl
@[simp] theorem putQueue_accs (s : State) (q : TQueue) : (s.putQueue q).accs = s.accs := rfl
@[simp] theorem putQueue_wb (s : State) (q : TQueue) : (s.putQueue q).wb = s.wb := rfl
@[simp] theorem putQueue_caches (s : State) (q : TQueue) : (s.putQueue q).caches = s.caches := rfl
@[simp] theorem putQueue_mem (s : State) (q : TQueue) : (s.putQueue q).mem = s.mem := rfl
@[simp] theorem putQueue_side (s : State) (q : TQueue) : (s.putQueue q).side = s.side := rfl
@[simp] theorem putQueue_poison (s : State) (q : TQueue) : (s.putQueue q).poison = s.poison := rfl
@[simp] theorem putQueue_poisonSeen (s : State) (q : TQueue) : (s.putQueue q).poisonSeen = s.poisonSeen := rfl
@[simp] theorem putQueue_consumed (s : State) (q : TQueue) : (s.putQueue q).consumed = s.consumed := rfl
@[simp] theorem putQueue_tlb (s : State) (q : TQueue) : (s.putQueue q).tlb = s.tlb := rfl
@[simp] theorem putQueue_leases (s : State) (q : TQueue) : (s.putQueue q).leases = s.leases := rfl
@[simp] theorem putQueue_faults (s : State) (q : TQueue) : (s.putQueue q).faults = s.faults := rfl
@[simp] theorem putQueue_spaces (s : State) (q : TQueue) : (s.putQueue q).spaces = s.spaces := rfl
@[simp] theorem putQueue_cores (s : State) (q : TQueue) : (s.putQueue q).cores = s.cores := rfl
@[simp] theorem putQueue_clusters (s : State) (q : TQueue) : (s.putQueue q).clusters = s.clusters := rfl
@[simp] theorem putQueue_dies (s : State) (q : TQueue) : (s.putQueue q).dies = s.dies := rfl
@[simp] theorem putQueue_mod (s : State) (q : TQueue) : (s.putQueue q).mod = s.mod := rfl
@[simp] theorem putQueue_hostRead (s : State) (q : TQueue) : (s.putQueue q).hostRead = s.hostRead := rfl

@[simp] theorem putPkt_sched (s : State) (p : Packet) : (s.putPkt p).sched = s.sched := rfl
@[simp] theorem putPkt_turnNo (s : State) (p : Packet) : (s.putPkt p).turnNo = s.turnNo := rfl
@[simp] theorem putPkt_drawn (s : State) (p : Packet) : (s.putPkt p).drawn = s.drawn := rfl
@[simp] theorem putPkt_cur (s : State) (p : Packet) : (s.putPkt p).cur = s.cur := rfl
@[simp] theorem putPkt_nextUid (s : State) (p : Packet) : (s.putPkt p).nextUid = s.nextUid := rfl
@[simp] theorem putPkt_clk (s : State) (p : Packet) : (s.putPkt p).clk = s.clk := rfl
@[simp] theorem putPkt_waves (s : State) (p : Packet) : (s.putPkt p).waves = s.waves := rfl
@[simp] theorem putPkt_cohorts (s : State) (p : Packet) : (s.putPkt p).cohorts = s.cohorts := rfl
@[simp] theorem putPkt_ensembles (s : State) (p : Packet) : (s.putPkt p).ensembles = s.ensembles := rfl
@[simp] theorem putPkt_grids (s : State) (p : Packet) : (s.putPkt p).grids = s.grids := rfl
@[simp] theorem putPkt_tasks (s : State) (p : Packet) : (s.putPkt p).tasks = s.tasks := rfl
@[simp] theorem putPkt_gens (s : State) (p : Packet) : (s.putPkt p).gens = s.gens := rfl
@[simp] theorem putPkt_queues (s : State) (p : Packet) : (s.putPkt p).queues = s.queues := rfl
@[simp] theorem putPkt_served (s : State) (p : Packet) : (s.putPkt p).served = s.served := rfl
@[simp] theorem putPkt_chqRes (s : State) (p : Packet) : (s.putPkt p).chqRes = s.chqRes := rfl
@[simp] theorem putPkt_accs (s : State) (p : Packet) : (s.putPkt p).accs = s.accs := rfl
@[simp] theorem putPkt_wb (s : State) (p : Packet) : (s.putPkt p).wb = s.wb := rfl
@[simp] theorem putPkt_caches (s : State) (p : Packet) : (s.putPkt p).caches = s.caches := rfl
@[simp] theorem putPkt_mem (s : State) (p : Packet) : (s.putPkt p).mem = s.mem := rfl
@[simp] theorem putPkt_side (s : State) (p : Packet) : (s.putPkt p).side = s.side := rfl
@[simp] theorem putPkt_poison (s : State) (p : Packet) : (s.putPkt p).poison = s.poison := rfl
@[simp] theorem putPkt_poisonSeen (s : State) (p : Packet) : (s.putPkt p).poisonSeen = s.poisonSeen := rfl
@[simp] theorem putPkt_consumed (s : State) (p : Packet) : (s.putPkt p).consumed = s.consumed := rfl
@[simp] theorem putPkt_tlb (s : State) (p : Packet) : (s.putPkt p).tlb = s.tlb := rfl
@[simp] theorem putPkt_leases (s : State) (p : Packet) : (s.putPkt p).leases = s.leases := rfl
@[simp] theorem putPkt_faults (s : State) (p : Packet) : (s.putPkt p).faults = s.faults := rfl
@[simp] theorem putPkt_spaces (s : State) (p : Packet) : (s.putPkt p).spaces = s.spaces := rfl
@[simp] theorem putPkt_cores (s : State) (p : Packet) : (s.putPkt p).cores = s.cores := rfl
@[simp] theorem putPkt_clusters (s : State) (p : Packet) : (s.putPkt p).clusters = s.clusters := rfl
@[simp] theorem putPkt_dies (s : State) (p : Packet) : (s.putPkt p).dies = s.dies := rfl
@[simp] theorem putPkt_mod (s : State) (p : Packet) : (s.putPkt p).mod = s.mod := rfl
@[simp] theorem putPkt_hostRead (s : State) (p : Packet) : (s.putPkt p).hostRead = s.hostRead := rfl

@[simp] theorem putSpace_sched (s : State) (a : Space) : (s.putSpace a).sched = s.sched := rfl
@[simp] theorem putSpace_turnNo (s : State) (a : Space) : (s.putSpace a).turnNo = s.turnNo := rfl
@[simp] theorem putSpace_drawn (s : State) (a : Space) : (s.putSpace a).drawn = s.drawn := rfl
@[simp] theorem putSpace_cur (s : State) (a : Space) : (s.putSpace a).cur = s.cur := rfl
@[simp] theorem putSpace_nextUid (s : State) (a : Space) : (s.putSpace a).nextUid = s.nextUid := rfl
@[simp] theorem putSpace_clk (s : State) (a : Space) : (s.putSpace a).clk = s.clk := rfl
@[simp] theorem putSpace_waves (s : State) (a : Space) : (s.putSpace a).waves = s.waves := rfl
@[simp] theorem putSpace_cohorts (s : State) (a : Space) : (s.putSpace a).cohorts = s.cohorts := rfl
@[simp] theorem putSpace_ensembles (s : State) (a : Space) : (s.putSpace a).ensembles = s.ensembles := rfl
@[simp] theorem putSpace_grids (s : State) (a : Space) : (s.putSpace a).grids = s.grids := rfl
@[simp] theorem putSpace_tasks (s : State) (a : Space) : (s.putSpace a).tasks = s.tasks := rfl
@[simp] theorem putSpace_gens (s : State) (a : Space) : (s.putSpace a).gens = s.gens := rfl
@[simp] theorem putSpace_queues (s : State) (a : Space) : (s.putSpace a).queues = s.queues := rfl
@[simp] theorem putSpace_served (s : State) (a : Space) : (s.putSpace a).served = s.served := rfl
@[simp] theorem putSpace_chqRes (s : State) (a : Space) : (s.putSpace a).chqRes = s.chqRes := rfl
@[simp] theorem putSpace_packets (s : State) (a : Space) : (s.putSpace a).packets = s.packets := rfl
@[simp] theorem putSpace_accs (s : State) (a : Space) : (s.putSpace a).accs = s.accs := rfl
@[simp] theorem putSpace_wb (s : State) (a : Space) : (s.putSpace a).wb = s.wb := rfl
@[simp] theorem putSpace_caches (s : State) (a : Space) : (s.putSpace a).caches = s.caches := rfl
@[simp] theorem putSpace_mem (s : State) (a : Space) : (s.putSpace a).mem = s.mem := rfl
@[simp] theorem putSpace_side (s : State) (a : Space) : (s.putSpace a).side = s.side := rfl
@[simp] theorem putSpace_poison (s : State) (a : Space) : (s.putSpace a).poison = s.poison := rfl
@[simp] theorem putSpace_poisonSeen (s : State) (a : Space) : (s.putSpace a).poisonSeen = s.poisonSeen := rfl
@[simp] theorem putSpace_consumed (s : State) (a : Space) : (s.putSpace a).consumed = s.consumed := rfl
@[simp] theorem putSpace_tlb (s : State) (a : Space) : (s.putSpace a).tlb = s.tlb := rfl
@[simp] theorem putSpace_leases (s : State) (a : Space) : (s.putSpace a).leases = s.leases := rfl
@[simp] theorem putSpace_faults (s : State) (a : Space) : (s.putSpace a).faults = s.faults := rfl
@[simp] theorem putSpace_cores (s : State) (a : Space) : (s.putSpace a).cores = s.cores := rfl
@[simp] theorem putSpace_clusters (s : State) (a : Space) : (s.putSpace a).clusters = s.clusters := rfl
@[simp] theorem putSpace_dies (s : State) (a : Space) : (s.putSpace a).dies = s.dies := rfl
@[simp] theorem putSpace_mod (s : State) (a : Space) : (s.putSpace a).mod = s.mod := rfl
@[simp] theorem putSpace_hostRead (s : State) (a : Space) : (s.putSpace a).hostRead = s.hostRead := rfl

@[simp] theorem putTask_sched (s : State) (t : Task) : (s.putTask t).sched = s.sched := rfl
@[simp] theorem putTask_turnNo (s : State) (t : Task) : (s.putTask t).turnNo = s.turnNo := rfl
@[simp] theorem putTask_drawn (s : State) (t : Task) : (s.putTask t).drawn = s.drawn := rfl
@[simp] theorem putTask_cur (s : State) (t : Task) : (s.putTask t).cur = s.cur := rfl
@[simp] theorem putTask_nextUid (s : State) (t : Task) : (s.putTask t).nextUid = s.nextUid := rfl
@[simp] theorem putTask_clk (s : State) (t : Task) : (s.putTask t).clk = s.clk := rfl
@[simp] theorem putTask_waves (s : State) (t : Task) : (s.putTask t).waves = s.waves := rfl
@[simp] theorem putTask_cohorts (s : State) (t : Task) : (s.putTask t).cohorts = s.cohorts := rfl
@[simp] theorem putTask_ensembles (s : State) (t : Task) : (s.putTask t).ensembles = s.ensembles := rfl
@[simp] theorem putTask_grids (s : State) (t : Task) : (s.putTask t).grids = s.grids := rfl
@[simp] theorem putTask_gens (s : State) (t : Task) : (s.putTask t).gens = s.gens := rfl
@[simp] theorem putTask_queues (s : State) (t : Task) : (s.putTask t).queues = s.queues := rfl
@[simp] theorem putTask_served (s : State) (t : Task) : (s.putTask t).served = s.served := rfl
@[simp] theorem putTask_chqRes (s : State) (t : Task) : (s.putTask t).chqRes = s.chqRes := rfl
@[simp] theorem putTask_packets (s : State) (t : Task) : (s.putTask t).packets = s.packets := rfl
@[simp] theorem putTask_accs (s : State) (t : Task) : (s.putTask t).accs = s.accs := rfl
@[simp] theorem putTask_wb (s : State) (t : Task) : (s.putTask t).wb = s.wb := rfl
@[simp] theorem putTask_caches (s : State) (t : Task) : (s.putTask t).caches = s.caches := rfl
@[simp] theorem putTask_mem (s : State) (t : Task) : (s.putTask t).mem = s.mem := rfl
@[simp] theorem putTask_side (s : State) (t : Task) : (s.putTask t).side = s.side := rfl
@[simp] theorem putTask_poison (s : State) (t : Task) : (s.putTask t).poison = s.poison := rfl
@[simp] theorem putTask_poisonSeen (s : State) (t : Task) : (s.putTask t).poisonSeen = s.poisonSeen := rfl
@[simp] theorem putTask_consumed (s : State) (t : Task) : (s.putTask t).consumed = s.consumed := rfl
@[simp] theorem putTask_tlb (s : State) (t : Task) : (s.putTask t).tlb = s.tlb := rfl
@[simp] theorem putTask_leases (s : State) (t : Task) : (s.putTask t).leases = s.leases := rfl
@[simp] theorem putTask_faults (s : State) (t : Task) : (s.putTask t).faults = s.faults := rfl
@[simp] theorem putTask_spaces (s : State) (t : Task) : (s.putTask t).spaces = s.spaces := rfl
@[simp] theorem putTask_cores (s : State) (t : Task) : (s.putTask t).cores = s.cores := rfl
@[simp] theorem putTask_clusters (s : State) (t : Task) : (s.putTask t).clusters = s.clusters := rfl
@[simp] theorem putTask_dies (s : State) (t : Task) : (s.putTask t).dies = s.dies := rfl
@[simp] theorem putTask_mod (s : State) (t : Task) : (s.putTask t).mod = s.mod := rfl
@[simp] theorem putTask_hostRead (s : State) (t : Task) : (s.putTask t).hostRead = s.hostRead := rfl

@[simp] theorem fresh_sched (s : State) : s.fresh.2.sched = s.sched := rfl
@[simp] theorem fresh_turnNo (s : State) : s.fresh.2.turnNo = s.turnNo := rfl
@[simp] theorem fresh_drawn (s : State) : s.fresh.2.drawn = s.drawn := rfl
@[simp] theorem fresh_cur (s : State) : s.fresh.2.cur = s.cur := rfl
@[simp] theorem fresh_nextUid (s : State) : s.fresh.2.nextUid = s.nextUid + 1 := rfl
@[simp] theorem fresh_clk (s : State) : s.fresh.2.clk = s.clk := rfl
@[simp] theorem fresh_waves (s : State) : s.fresh.2.waves = s.waves := rfl
@[simp] theorem fresh_cohorts (s : State) : s.fresh.2.cohorts = s.cohorts := rfl
@[simp] theorem fresh_ensembles (s : State) : s.fresh.2.ensembles = s.ensembles := rfl
@[simp] theorem fresh_grids (s : State) : s.fresh.2.grids = s.grids := rfl
@[simp] theorem fresh_tasks (s : State) : s.fresh.2.tasks = s.tasks := rfl
@[simp] theorem fresh_gens (s : State) : s.fresh.2.gens = s.gens := rfl
@[simp] theorem fresh_queues (s : State) : s.fresh.2.queues = s.queues := rfl
@[simp] theorem fresh_served (s : State) : s.fresh.2.served = s.served := rfl
@[simp] theorem fresh_chqRes (s : State) : s.fresh.2.chqRes = s.chqRes := rfl
@[simp] theorem fresh_packets (s : State) : s.fresh.2.packets = s.packets := rfl
@[simp] theorem fresh_accs (s : State) : s.fresh.2.accs = s.accs := rfl
@[simp] theorem fresh_wb (s : State) : s.fresh.2.wb = s.wb := rfl
@[simp] theorem fresh_caches (s : State) : s.fresh.2.caches = s.caches := rfl
@[simp] theorem fresh_mem (s : State) : s.fresh.2.mem = s.mem := rfl
@[simp] theorem fresh_side (s : State) : s.fresh.2.side = s.side := rfl
@[simp] theorem fresh_poison (s : State) : s.fresh.2.poison = s.poison := rfl
@[simp] theorem fresh_poisonSeen (s : State) : s.fresh.2.poisonSeen = s.poisonSeen := rfl
@[simp] theorem fresh_consumed (s : State) : s.fresh.2.consumed = s.consumed := rfl
@[simp] theorem fresh_tlb (s : State) : s.fresh.2.tlb = s.tlb := rfl
@[simp] theorem fresh_leases (s : State) : s.fresh.2.leases = s.leases := rfl
@[simp] theorem fresh_faults (s : State) : s.fresh.2.faults = s.faults := rfl
@[simp] theorem fresh_spaces (s : State) : s.fresh.2.spaces = s.spaces := rfl
@[simp] theorem fresh_cores (s : State) : s.fresh.2.cores = s.cores := rfl
@[simp] theorem fresh_clusters (s : State) : s.fresh.2.clusters = s.clusters := rfl
@[simp] theorem fresh_dies (s : State) : s.fresh.2.dies = s.dies := rfl
@[simp] theorem fresh_mod (s : State) : s.fresh.2.mod = s.mod := rfl
@[simp] theorem fresh_hostRead (s : State) : s.fresh.2.hostRead = s.hostRead := rfl

@[simp] theorem draw_sched (s : State) : s.draw.2.sched = s.sched := rfl
@[simp] theorem draw_turnNo (s : State) : s.draw.2.turnNo = s.turnNo := rfl
@[simp] theorem draw_drawn (s : State) : s.draw.2.drawn = s.drawn + 1 := rfl
@[simp] theorem draw_cur (s : State) : s.draw.2.cur = s.cur := rfl
@[simp] theorem draw_nextUid (s : State) : s.draw.2.nextUid = s.nextUid := rfl
@[simp] theorem draw_clk (s : State) : s.draw.2.clk = s.clk := rfl
@[simp] theorem draw_waves (s : State) : s.draw.2.waves = s.waves := rfl
@[simp] theorem draw_cohorts (s : State) : s.draw.2.cohorts = s.cohorts := rfl
@[simp] theorem draw_ensembles (s : State) : s.draw.2.ensembles = s.ensembles := rfl
@[simp] theorem draw_grids (s : State) : s.draw.2.grids = s.grids := rfl
@[simp] theorem draw_tasks (s : State) : s.draw.2.tasks = s.tasks := rfl
@[simp] theorem draw_gens (s : State) : s.draw.2.gens = s.gens := rfl
@[simp] theorem draw_queues (s : State) : s.draw.2.queues = s.queues := rfl
@[simp] theorem draw_served (s : State) : s.draw.2.served = s.served := rfl
@[simp] theorem draw_chqRes (s : State) : s.draw.2.chqRes = s.chqRes := rfl
@[simp] theorem draw_packets (s : State) : s.draw.2.packets = s.packets := rfl
@[simp] theorem draw_accs (s : State) : s.draw.2.accs = s.accs := rfl
@[simp] theorem draw_wb (s : State) : s.draw.2.wb = s.wb := rfl
@[simp] theorem draw_caches (s : State) : s.draw.2.caches = s.caches := rfl
@[simp] theorem draw_mem (s : State) : s.draw.2.mem = s.mem := rfl
@[simp] theorem draw_side (s : State) : s.draw.2.side = s.side := rfl
@[simp] theorem draw_poison (s : State) : s.draw.2.poison = s.poison := rfl
@[simp] theorem draw_poisonSeen (s : State) : s.draw.2.poisonSeen = s.poisonSeen := rfl
@[simp] theorem draw_consumed (s : State) : s.draw.2.consumed = s.consumed := rfl
@[simp] theorem draw_tlb (s : State) : s.draw.2.tlb = s.tlb := rfl
@[simp] theorem draw_leases (s : State) : s.draw.2.leases = s.leases := rfl
@[simp] theorem draw_faults (s : State) : s.draw.2.faults = s.faults := rfl
@[simp] theorem draw_spaces (s : State) : s.draw.2.spaces = s.spaces := rfl
@[simp] theorem draw_cores (s : State) : s.draw.2.cores = s.cores := rfl
@[simp] theorem draw_clusters (s : State) : s.draw.2.clusters = s.clusters := rfl
@[simp] theorem draw_dies (s : State) : s.draw.2.dies = s.dies := rfl
@[simp] theorem draw_mod (s : State) : s.draw.2.mod = s.mod := rfl
@[simp] theorem draw_hostRead (s : State) : s.draw.2.hostRead = s.hostRead := rfl

@[simp] theorem putCore_sched (s : State) (k : CoreSt) : (s.putCore k).sched = s.sched := by unfold State.putCore; split <;> rfl
@[simp] theorem putCore_turnNo (s : State) (k : CoreSt) : (s.putCore k).turnNo = s.turnNo := by unfold State.putCore; split <;> rfl
@[simp] theorem putCore_drawn (s : State) (k : CoreSt) : (s.putCore k).drawn = s.drawn := by unfold State.putCore; split <;> rfl
@[simp] theorem putCore_cur (s : State) (k : CoreSt) : (s.putCore k).cur = s.cur := by unfold State.putCore; split <;> rfl
@[simp] theorem putCore_nextUid (s : State) (k : CoreSt) : (s.putCore k).nextUid = s.nextUid := by unfold State.putCore; split <;> rfl
@[simp] theorem putCore_clk (s : State) (k : CoreSt) : (s.putCore k).clk = s.clk := by unfold State.putCore; split <;> rfl
@[simp] theorem putCore_waves (s : State) (k : CoreSt) : (s.putCore k).waves = s.waves := by unfold State.putCore; split <;> rfl
@[simp] theorem putCore_cohorts (s : State) (k : CoreSt) : (s.putCore k).cohorts = s.cohorts := by unfold State.putCore; split <;> rfl
@[simp] theorem putCore_ensembles (s : State) (k : CoreSt) : (s.putCore k).ensembles = s.ensembles := by unfold State.putCore; split <;> rfl
@[simp] theorem putCore_grids (s : State) (k : CoreSt) : (s.putCore k).grids = s.grids := by unfold State.putCore; split <;> rfl
@[simp] theorem putCore_tasks (s : State) (k : CoreSt) : (s.putCore k).tasks = s.tasks := by unfold State.putCore; split <;> rfl
@[simp] theorem putCore_gens (s : State) (k : CoreSt) : (s.putCore k).gens = s.gens := by unfold State.putCore; split <;> rfl
@[simp] theorem putCore_queues (s : State) (k : CoreSt) : (s.putCore k).queues = s.queues := by unfold State.putCore; split <;> rfl
@[simp] theorem putCore_served (s : State) (k : CoreSt) : (s.putCore k).served = s.served := by unfold State.putCore; split <;> rfl
@[simp] theorem putCore_chqRes (s : State) (k : CoreSt) : (s.putCore k).chqRes = s.chqRes := by unfold State.putCore; split <;> rfl
@[simp] theorem putCore_packets (s : State) (k : CoreSt) : (s.putCore k).packets = s.packets := by unfold State.putCore; split <;> rfl
@[simp] theorem putCore_accs (s : State) (k : CoreSt) : (s.putCore k).accs = s.accs := by unfold State.putCore; split <;> rfl
@[simp] theorem putCore_wb (s : State) (k : CoreSt) : (s.putCore k).wb = s.wb := by unfold State.putCore; split <;> rfl
@[simp] theorem putCore_caches (s : State) (k : CoreSt) : (s.putCore k).caches = s.caches := by unfold State.putCore; split <;> rfl
@[simp] theorem putCore_mem (s : State) (k : CoreSt) : (s.putCore k).mem = s.mem := by unfold State.putCore; split <;> rfl
@[simp] theorem putCore_side (s : State) (k : CoreSt) : (s.putCore k).side = s.side := by unfold State.putCore; split <;> rfl
@[simp] theorem putCore_poison (s : State) (k : CoreSt) : (s.putCore k).poison = s.poison := by unfold State.putCore; split <;> rfl
@[simp] theorem putCore_poisonSeen (s : State) (k : CoreSt) : (s.putCore k).poisonSeen = s.poisonSeen := by unfold State.putCore; split <;> rfl
@[simp] theorem putCore_consumed (s : State) (k : CoreSt) : (s.putCore k).consumed = s.consumed := by unfold State.putCore; split <;> rfl
@[simp] theorem putCore_tlb (s : State) (k : CoreSt) : (s.putCore k).tlb = s.tlb := by unfold State.putCore; split <;> rfl
@[simp] theorem putCore_leases (s : State) (k : CoreSt) : (s.putCore k).leases = s.leases := by unfold State.putCore; split <;> rfl
@[simp] theorem putCore_faults (s : State) (k : CoreSt) : (s.putCore k).faults = s.faults := by unfold State.putCore; split <;> rfl
@[simp] theorem putCore_spaces (s : State) (k : CoreSt) : (s.putCore k).spaces = s.spaces := by unfold State.putCore; split <;> rfl
@[simp] theorem putCore_clusters (s : State) (k : CoreSt) : (s.putCore k).clusters = s.clusters := by unfold State.putCore; split <;> rfl
@[simp] theorem putCore_dies (s : State) (k : CoreSt) : (s.putCore k).dies = s.dies := by unfold State.putCore; split <;> rfl
@[simp] theorem putCore_mod (s : State) (k : CoreSt) : (s.putCore k).mod = s.mod := by unfold State.putCore; split <;> rfl
@[simp] theorem putCore_hostRead (s : State) (k : CoreSt) : (s.putCore k).hostRead = s.hostRead := by unfold State.putCore; split <;> rfl

@[simp] theorem putDie_sched (s : State) (k : DieSt) : (s.putDie k).sched = s.sched := by unfold State.putDie; split <;> rfl
@[simp] theorem putDie_turnNo (s : State) (k : DieSt) : (s.putDie k).turnNo = s.turnNo := by unfold State.putDie; split <;> rfl
@[simp] theorem putDie_drawn (s : State) (k : DieSt) : (s.putDie k).drawn = s.drawn := by unfold State.putDie; split <;> rfl
@[simp] theorem putDie_cur (s : State) (k : DieSt) : (s.putDie k).cur = s.cur := by unfold State.putDie; split <;> rfl
@[simp] theorem putDie_nextUid (s : State) (k : DieSt) : (s.putDie k).nextUid = s.nextUid := by unfold State.putDie; split <;> rfl
@[simp] theorem putDie_clk (s : State) (k : DieSt) : (s.putDie k).clk = s.clk := by unfold State.putDie; split <;> rfl
@[simp] theorem putDie_waves (s : State) (k : DieSt) : (s.putDie k).waves = s.waves := by unfold State.putDie; split <;> rfl
@[simp] theorem putDie_cohorts (s : State) (k : DieSt) : (s.putDie k).cohorts = s.cohorts := by unfold State.putDie; split <;> rfl
@[simp] theorem putDie_ensembles (s : State) (k : DieSt) : (s.putDie k).ensembles = s.ensembles := by unfold State.putDie; split <;> rfl
@[simp] theorem putDie_grids (s : State) (k : DieSt) : (s.putDie k).grids = s.grids := by unfold State.putDie; split <;> rfl
@[simp] theorem putDie_tasks (s : State) (k : DieSt) : (s.putDie k).tasks = s.tasks := by unfold State.putDie; split <;> rfl
@[simp] theorem putDie_gens (s : State) (k : DieSt) : (s.putDie k).gens = s.gens := by unfold State.putDie; split <;> rfl
@[simp] theorem putDie_queues (s : State) (k : DieSt) : (s.putDie k).queues = s.queues := by unfold State.putDie; split <;> rfl
@[simp] theorem putDie_served (s : State) (k : DieSt) : (s.putDie k).served = s.served := by unfold State.putDie; split <;> rfl
@[simp] theorem putDie_chqRes (s : State) (k : DieSt) : (s.putDie k).chqRes = s.chqRes := by unfold State.putDie; split <;> rfl
@[simp] theorem putDie_packets (s : State) (k : DieSt) : (s.putDie k).packets = s.packets := by unfold State.putDie; split <;> rfl
@[simp] theorem putDie_accs (s : State) (k : DieSt) : (s.putDie k).accs = s.accs := by unfold State.putDie; split <;> rfl
@[simp] theorem putDie_wb (s : State) (k : DieSt) : (s.putDie k).wb = s.wb := by unfold State.putDie; split <;> rfl
@[simp] theorem putDie_caches (s : State) (k : DieSt) : (s.putDie k).caches = s.caches := by unfold State.putDie; split <;> rfl
@[simp] theorem putDie_mem (s : State) (k : DieSt) : (s.putDie k).mem = s.mem := by unfold State.putDie; split <;> rfl
@[simp] theorem putDie_side (s : State) (k : DieSt) : (s.putDie k).side = s.side := by unfold State.putDie; split <;> rfl
@[simp] theorem putDie_poison (s : State) (k : DieSt) : (s.putDie k).poison = s.poison := by unfold State.putDie; split <;> rfl
@[simp] theorem putDie_poisonSeen (s : State) (k : DieSt) : (s.putDie k).poisonSeen = s.poisonSeen := by unfold State.putDie; split <;> rfl
@[simp] theorem putDie_consumed (s : State) (k : DieSt) : (s.putDie k).consumed = s.consumed := by unfold State.putDie; split <;> rfl
@[simp] theorem putDie_tlb (s : State) (k : DieSt) : (s.putDie k).tlb = s.tlb := by unfold State.putDie; split <;> rfl
@[simp] theorem putDie_leases (s : State) (k : DieSt) : (s.putDie k).leases = s.leases := by unfold State.putDie; split <;> rfl
@[simp] theorem putDie_faults (s : State) (k : DieSt) : (s.putDie k).faults = s.faults := by unfold State.putDie; split <;> rfl
@[simp] theorem putDie_spaces (s : State) (k : DieSt) : (s.putDie k).spaces = s.spaces := by unfold State.putDie; split <;> rfl
@[simp] theorem putDie_cores (s : State) (k : DieSt) : (s.putDie k).cores = s.cores := by unfold State.putDie; split <;> rfl
@[simp] theorem putDie_clusters (s : State) (k : DieSt) : (s.putDie k).clusters = s.clusters := by unfold State.putDie; split <;> rfl
@[simp] theorem putDie_mod (s : State) (k : DieSt) : (s.putDie k).mod = s.mod := by unfold State.putDie; split <;> rfl
@[simp] theorem putDie_hostRead (s : State) (k : DieSt) : (s.putDie k).hostRead = s.hostRead := by unfold State.putDie; split <;> rfl

@[simp] theorem putClu_sched (s : State) (k : ClusterSt) : (s.putClu k).sched = s.sched := by unfold State.putClu; split <;> rfl
@[simp] theorem putClu_turnNo (s : State) (k : ClusterSt) : (s.putClu k).turnNo = s.turnNo := by unfold State.putClu; split <;> rfl
@[simp] theorem putClu_drawn (s : State) (k : ClusterSt) : (s.putClu k).drawn = s.drawn := by unfold State.putClu; split <;> rfl
@[simp] theorem putClu_cur (s : State) (k : ClusterSt) : (s.putClu k).cur = s.cur := by unfold State.putClu; split <;> rfl
@[simp] theorem putClu_nextUid (s : State) (k : ClusterSt) : (s.putClu k).nextUid = s.nextUid := by unfold State.putClu; split <;> rfl
@[simp] theorem putClu_clk (s : State) (k : ClusterSt) : (s.putClu k).clk = s.clk := by unfold State.putClu; split <;> rfl
@[simp] theorem putClu_waves (s : State) (k : ClusterSt) : (s.putClu k).waves = s.waves := by unfold State.putClu; split <;> rfl
@[simp] theorem putClu_cohorts (s : State) (k : ClusterSt) : (s.putClu k).cohorts = s.cohorts := by unfold State.putClu; split <;> rfl
@[simp] theorem putClu_ensembles (s : State) (k : ClusterSt) : (s.putClu k).ensembles = s.ensembles := by unfold State.putClu; split <;> rfl
@[simp] theorem putClu_grids (s : State) (k : ClusterSt) : (s.putClu k).grids = s.grids := by unfold State.putClu; split <;> rfl
@[simp] theorem putClu_tasks (s : State) (k : ClusterSt) : (s.putClu k).tasks = s.tasks := by unfold State.putClu; split <;> rfl
@[simp] theorem putClu_gens (s : State) (k : ClusterSt) : (s.putClu k).gens = s.gens := by unfold State.putClu; split <;> rfl
@[simp] theorem putClu_queues (s : State) (k : ClusterSt) : (s.putClu k).queues = s.queues := by unfold State.putClu; split <;> rfl
@[simp] theorem putClu_served (s : State) (k : ClusterSt) : (s.putClu k).served = s.served := by unfold State.putClu; split <;> rfl
@[simp] theorem putClu_chqRes (s : State) (k : ClusterSt) : (s.putClu k).chqRes = s.chqRes := by unfold State.putClu; split <;> rfl
@[simp] theorem putClu_packets (s : State) (k : ClusterSt) : (s.putClu k).packets = s.packets := by unfold State.putClu; split <;> rfl
@[simp] theorem putClu_accs (s : State) (k : ClusterSt) : (s.putClu k).accs = s.accs := by unfold State.putClu; split <;> rfl
@[simp] theorem putClu_wb (s : State) (k : ClusterSt) : (s.putClu k).wb = s.wb := by unfold State.putClu; split <;> rfl
@[simp] theorem putClu_caches (s : State) (k : ClusterSt) : (s.putClu k).caches = s.caches := by unfold State.putClu; split <;> rfl
@[simp] theorem putClu_mem (s : State) (k : ClusterSt) : (s.putClu k).mem = s.mem := by unfold State.putClu; split <;> rfl
@[simp] theorem putClu_side (s : State) (k : ClusterSt) : (s.putClu k).side = s.side := by unfold State.putClu; split <;> rfl
@[simp] theorem putClu_poison (s : State) (k : ClusterSt) : (s.putClu k).poison = s.poison := by unfold State.putClu; split <;> rfl
@[simp] theorem putClu_poisonSeen (s : State) (k : ClusterSt) : (s.putClu k).poisonSeen = s.poisonSeen := by unfold State.putClu; split <;> rfl
@[simp] theorem putClu_consumed (s : State) (k : ClusterSt) : (s.putClu k).consumed = s.consumed := by unfold State.putClu; split <;> rfl
@[simp] theorem putClu_tlb (s : State) (k : ClusterSt) : (s.putClu k).tlb = s.tlb := by unfold State.putClu; split <;> rfl
@[simp] theorem putClu_leases (s : State) (k : ClusterSt) : (s.putClu k).leases = s.leases := by unfold State.putClu; split <;> rfl
@[simp] theorem putClu_faults (s : State) (k : ClusterSt) : (s.putClu k).faults = s.faults := by unfold State.putClu; split <;> rfl
@[simp] theorem putClu_spaces (s : State) (k : ClusterSt) : (s.putClu k).spaces = s.spaces := by unfold State.putClu; split <;> rfl
@[simp] theorem putClu_cores (s : State) (k : ClusterSt) : (s.putClu k).cores = s.cores := by unfold State.putClu; split <;> rfl
@[simp] theorem putClu_dies (s : State) (k : ClusterSt) : (s.putClu k).dies = s.dies := by unfold State.putClu; split <;> rfl
@[simp] theorem putClu_mod (s : State) (k : ClusterSt) : (s.putClu k).mod = s.mod := by unfold State.putClu; split <;> rfl
@[simp] theorem putClu_hostRead (s : State) (k : ClusterSt) : (s.putClu k).hostRead = s.hostRead := by unfold State.putClu; split <;> rfl

/-! ## Updates of a wave -/

@[simp] theorem vput_uid (w : Wave) (r : VNum) (x : VReg) : (w.vput r x).uid = w.uid := rfl
@[simp] theorem vput_cohort (w : Wave) (r : VNum) (x : VReg) : (w.vput r x).cohort = w.cohort := rfl
@[simp] theorem vput_widx (w : Wave) (r : VNum) (x : VReg) : (w.vput r x).widx = w.widx := rfl
@[simp] theorem vput_core (w : Wave) (r : VNum) (x : VReg) : (w.vput r x).core = w.core := rfl
@[simp] theorem vput_slot (w : Wave) (r : VNum) (x : VReg) : (w.vput r x).slot = w.slot := rfl
@[simp] theorem vput_port (w : Wave) (r : VNum) (x : VReg) : (w.vput r x).port = w.port := rfl
@[simp] theorem vput_pc (w : Wave) (r : VNum) (x : VReg) : (w.vput r x).pc = w.pc := rfl
@[simp] theorem vput_s (w : Wave) (r : VNum) (x : VReg) : (w.vput r x).s = w.s := rfl
@[simp] theorem vput_em (w : Wave) (r : VNum) (x : VReg) : (w.vput r x).em = w.em := rfl
@[simp] theorem vput_q (w : Wave) (r : VNum) (x : VReg) : (w.vput r x).q = w.q := rfl
@[simp] theorem vput_stk (w : Wave) (r : VNum) (x : VReg) : (w.vput r x).stk = w.stk := rfl
@[simp] theorem vput_xst (w : Wave) (r : VNum) (x : VReg) : (w.vput r x).xst = w.xst := rfl
@[simp] theorem vput_vst (w : Wave) (r : VNum) (x : VReg) : (w.vput r x).vst = w.vst := rfl
@[simp] theorem vput_seq (w : Wave) (r : VNum) (x : VReg) : (w.vput r x).seq = w.seq := rfl
@[simp] theorem vput_budget (w : Wave) (r : VNum) (x : VReg) : (w.vput r x).budget = w.budget := rfl
@[simp] theorem vput_spilled (w : Wave) (r : VNum) (x : VReg) : (w.vput r x).spilled = w.spilled := rfl
@[simp] theorem vput_lru (w : Wave) (r : VNum) (x : VReg) : (w.vput r x).lru = w.lru := rfl
@[simp] theorem vput_spillPa (w : Wave) (r : VNum) (x : VReg) : (w.vput r x).spillPa = w.spillPa := rfl
@[simp] theorem vput_defs (w : Wave) (r : VNum) (x : VReg) : (w.vput r x).defs = w.defs := rfl
@[simp] theorem vput_sb (w : Wave) (r : VNum) (x : VReg) : (w.vput r x).sb = w.sb := rfl
@[simp] theorem vput_nests (w : Wave) (r : VNum) (x : VReg) : (w.vput r x).nests = w.nests := rfl
@[simp] theorem vput_mons (w : Wave) (r : VNum) (x : VReg) : (w.vput r x).mons = w.mons := rfl
@[simp] theorem vput_wakes (w : Wave) (r : VNum) (x : VReg) : (w.vput r x).wakes = w.wakes := rfl
@[simp] theorem vput_wakeLevel (w : Wave) (r : VNum) (x : VReg) : (w.vput r x).wakeLevel = w.wakeLevel := rfl
@[simp] theorem vput_bconf (w : Wave) (r : VNum) (x : VReg) : (w.vput r x).bconf = w.bconf := rfl
@[simp] theorem vput_lmiss (w : Wave) (r : VNum) (x : VReg) : (w.vput r x).lmiss = w.lmiss := rfl
@[simp] theorem vput_cause (w : Wave) (r : VNum) (x : VReg) : (w.vput r x).cause = w.cause := rfl
@[simp] theorem vput_tpc (w : Wave) (r : VNum) (x : VReg) : (w.vput r x).tpc = w.tpc := rfl
@[simp] theorem vput_tseq (w : Wave) (r : VNum) (x : VReg) : (w.vput r x).tseq = w.tseq := rfl
@[simp] theorem vput_tmask (w : Wave) (r : VNum) (x : VReg) : (w.vput r x).tmask = w.tmask := rfl
@[simp] theorem vput_taddr (w : Wave) (r : VNum) (x : VReg) : (w.vput r x).taddr = w.taddr := rfl
@[simp] theorem vput_tem (w : Wave) (r : VNum) (x : VReg) : (w.vput r x).tem = w.tem := rfl
@[simp] theorem vput_sv (w : Wave) (r : VNum) (x : VReg) : (w.vput r x).sv = w.sv := rfl
@[simp] theorem vput_priv (w : Wave) (r : VNum) (x : VReg) : (w.vput r x).priv = w.priv := rfl
@[simp] theorem vput_intp (w : Wave) (r : VNum) (x : VReg) : (w.vput r x).intp = w.intp := rfl
@[simp] theorem vput_haltReq (w : Wave) (r : VNum) (x : VReg) : (w.vput r x).haltReq = w.haltReq := rfl
@[simp] theorem vput_halted (w : Wave) (r : VNum) (x : VReg) : (w.vput r x).halted = w.halted := rfl
@[simp] theorem vput_fatal (w : Wave) (r : VNum) (x : VReg) : (w.vput r x).fatal = w.fatal := rfl
@[simp] theorem vput_step (w : Wave) (r : VNum) (x : VReg) : (w.vput r x).step = w.step := rfl
@[simp] theorem vput_exempt (w : Wave) (r : VNum) (x : VReg) : (w.vput r x).exempt = w.exempt := rfl
@[simp] theorem vput_park (w : Wave) (r : VNum) (x : VReg) : (w.vput r x).park = w.park := rfl
@[simp] theorem vput_hold (w : Wave) (r : VNum) (x : VReg) : (w.vput r x).hold = w.hold := rfl
@[simp] theorem vput_inProg (w : Wave) (r : VNum) (x : VReg) : (w.vput r x).inProg = w.inProg := rfl
@[simp] theorem vput_fetch (w : Wave) (r : VNum) (x : VReg) : (w.vput r x).fetch = w.fetch := rfl
@[simp] theorem vput_cpyq (w : Wave) (r : VNum) (x : VReg) : (w.vput r x).cpyq = w.cpyq := rfl
@[simp] theorem vput_promises (w : Wave) (r : VNum) (x : VReg) : (w.vput r x).promises = w.promises := rfl
@[simp] theorem vput_arrB (w : Wave) (r : VNum) (x : VReg) : (w.vput r x).arrB = w.arrB := rfl
@[simp] theorem vput_arrE (w : Wave) (r : VNum) (x : VReg) : (w.vput r x).arrE = w.arrE := rfl
@[simp] theorem vput_clsB (w : Wave) (r : VNum) (x : VReg) : (w.vput r x).clsB = w.clsB := rfl
@[simp] theorem vput_clsE (w : Wave) (r : VNum) (x : VReg) : (w.vput r x).clsE = w.clsE := rfl
@[simp] theorem vput_pends (w : Wave) (r : VNum) (x : VReg) : (w.vput r x).pends = w.pends := rfl
@[simp] theorem vput_weights (w : Wave) (r : VNum) (x : VReg) : (w.vput r x).weights = w.weights := rfl
@[simp] theorem vput_ready (w : Wave) (r : VNum) (x : VReg) : (w.vput r x).ready = w.ready := rfl
@[simp] theorem vput_offer (w : Wave) (r : VNum) (x : VReg) : (w.vput r x).offer = w.offer := rfl
@[simp] theorem vput_parkOrder (w : Wave) (r : VNum) (x : VReg) : (w.vput r x).parkOrder = w.parkOrder := rfl
@[simp] theorem vput_barwAt (w : Wave) (r : VNum) (x : VReg) : (w.vput r x).barwAt = w.barwAt := rfl
@[simp] theorem vput_backAt (w : Wave) (r : VNum) (x : VReg) : (w.vput r x).backAt = w.backAt := rfl
@[simp] theorem vput_exited (w : Wave) (r : VNum) (x : VReg) : (w.vput r x).exited = w.exited := rfl

@[simp] theorem qput_uid (w : Wave) (r : QNum) (x : QReg) : (w.qput r x).uid = w.uid := rfl
@[simp] theorem qput_cohort (w : Wave) (r : QNum) (x : QReg) : (w.qput r x).cohort = w.cohort := rfl
@[simp] theorem qput_widx (w : Wave) (r : QNum) (x : QReg) : (w.qput r x).widx = w.widx := rfl
@[simp] theorem qput_core (w : Wave) (r : QNum) (x : QReg) : (w.qput r x).core = w.core := rfl
@[simp] theorem qput_slot (w : Wave) (r : QNum) (x : QReg) : (w.qput r x).slot = w.slot := rfl
@[simp] theorem qput_port (w : Wave) (r : QNum) (x : QReg) : (w.qput r x).port = w.port := rfl
@[simp] theorem qput_pc (w : Wave) (r : QNum) (x : QReg) : (w.qput r x).pc = w.pc := rfl
@[simp] theorem qput_s (w : Wave) (r : QNum) (x : QReg) : (w.qput r x).s = w.s := rfl
@[simp] theorem qput_v (w : Wave) (r : QNum) (x : QReg) : (w.qput r x).v = w.v := rfl
@[simp] theorem qput_em (w : Wave) (r : QNum) (x : QReg) : (w.qput r x).em = w.em := rfl
@[simp] theorem qput_stk (w : Wave) (r : QNum) (x : QReg) : (w.qput r x).stk = w.stk := rfl
@[simp] theorem qput_xst (w : Wave) (r : QNum) (x : QReg) : (w.qput r x).xst = w.xst := rfl
@[simp] theorem qput_vst (w : Wave) (r : QNum) (x : QReg) : (w.qput r x).vst = w.vst := rfl
@[simp] theorem qput_seq (w : Wave) (r : QNum) (x : QReg) : (w.qput r x).seq = w.seq := rfl
@[simp] theorem qput_budget (w : Wave) (r : QNum) (x : QReg) : (w.qput r x).budget = w.budget := rfl
@[simp] theorem qput_spilled (w : Wave) (r : QNum) (x : QReg) : (w.qput r x).spilled = w.spilled := rfl
@[simp] theorem qput_lru (w : Wave) (r : QNum) (x : QReg) : (w.qput r x).lru = w.lru := rfl
@[simp] theorem qput_spillPa (w : Wave) (r : QNum) (x : QReg) : (w.qput r x).spillPa = w.spillPa := rfl
@[simp] theorem qput_defs (w : Wave) (r : QNum) (x : QReg) : (w.qput r x).defs = w.defs := rfl
@[simp] theorem qput_sb (w : Wave) (r : QNum) (x : QReg) : (w.qput r x).sb = w.sb := rfl
@[simp] theorem qput_nests (w : Wave) (r : QNum) (x : QReg) : (w.qput r x).nests = w.nests := rfl
@[simp] theorem qput_mons (w : Wave) (r : QNum) (x : QReg) : (w.qput r x).mons = w.mons := rfl
@[simp] theorem qput_wakes (w : Wave) (r : QNum) (x : QReg) : (w.qput r x).wakes = w.wakes := rfl
@[simp] theorem qput_wakeLevel (w : Wave) (r : QNum) (x : QReg) : (w.qput r x).wakeLevel = w.wakeLevel := rfl
@[simp] theorem qput_bconf (w : Wave) (r : QNum) (x : QReg) : (w.qput r x).bconf = w.bconf := rfl
@[simp] theorem qput_lmiss (w : Wave) (r : QNum) (x : QReg) : (w.qput r x).lmiss = w.lmiss := rfl
@[simp] theorem qput_cause (w : Wave) (r : QNum) (x : QReg) : (w.qput r x).cause = w.cause := rfl
@[simp] theorem qput_tpc (w : Wave) (r : QNum) (x : QReg) : (w.qput r x).tpc = w.tpc := rfl
@[simp] theorem qput_tseq (w : Wave) (r : QNum) (x : QReg) : (w.qput r x).tseq = w.tseq := rfl
@[simp] theorem qput_tmask (w : Wave) (r : QNum) (x : QReg) : (w.qput r x).tmask = w.tmask := rfl
@[simp] theorem qput_taddr (w : Wave) (r : QNum) (x : QReg) : (w.qput r x).taddr = w.taddr := rfl
@[simp] theorem qput_tem (w : Wave) (r : QNum) (x : QReg) : (w.qput r x).tem = w.tem := rfl
@[simp] theorem qput_sv (w : Wave) (r : QNum) (x : QReg) : (w.qput r x).sv = w.sv := rfl
@[simp] theorem qput_priv (w : Wave) (r : QNum) (x : QReg) : (w.qput r x).priv = w.priv := rfl
@[simp] theorem qput_intp (w : Wave) (r : QNum) (x : QReg) : (w.qput r x).intp = w.intp := rfl
@[simp] theorem qput_haltReq (w : Wave) (r : QNum) (x : QReg) : (w.qput r x).haltReq = w.haltReq := rfl
@[simp] theorem qput_halted (w : Wave) (r : QNum) (x : QReg) : (w.qput r x).halted = w.halted := rfl
@[simp] theorem qput_fatal (w : Wave) (r : QNum) (x : QReg) : (w.qput r x).fatal = w.fatal := rfl
@[simp] theorem qput_step (w : Wave) (r : QNum) (x : QReg) : (w.qput r x).step = w.step := rfl
@[simp] theorem qput_exempt (w : Wave) (r : QNum) (x : QReg) : (w.qput r x).exempt = w.exempt := rfl
@[simp] theorem qput_park (w : Wave) (r : QNum) (x : QReg) : (w.qput r x).park = w.park := rfl
@[simp] theorem qput_hold (w : Wave) (r : QNum) (x : QReg) : (w.qput r x).hold = w.hold := rfl
@[simp] theorem qput_inProg (w : Wave) (r : QNum) (x : QReg) : (w.qput r x).inProg = w.inProg := rfl
@[simp] theorem qput_fetch (w : Wave) (r : QNum) (x : QReg) : (w.qput r x).fetch = w.fetch := rfl
@[simp] theorem qput_cpyq (w : Wave) (r : QNum) (x : QReg) : (w.qput r x).cpyq = w.cpyq := rfl
@[simp] theorem qput_promises (w : Wave) (r : QNum) (x : QReg) : (w.qput r x).promises = w.promises := rfl
@[simp] theorem qput_arrB (w : Wave) (r : QNum) (x : QReg) : (w.qput r x).arrB = w.arrB := rfl
@[simp] theorem qput_arrE (w : Wave) (r : QNum) (x : QReg) : (w.qput r x).arrE = w.arrE := rfl
@[simp] theorem qput_clsB (w : Wave) (r : QNum) (x : QReg) : (w.qput r x).clsB = w.clsB := rfl
@[simp] theorem qput_clsE (w : Wave) (r : QNum) (x : QReg) : (w.qput r x).clsE = w.clsE := rfl
@[simp] theorem qput_pends (w : Wave) (r : QNum) (x : QReg) : (w.qput r x).pends = w.pends := rfl
@[simp] theorem qput_weights (w : Wave) (r : QNum) (x : QReg) : (w.qput r x).weights = w.weights := rfl
@[simp] theorem qput_ready (w : Wave) (r : QNum) (x : QReg) : (w.qput r x).ready = w.ready := rfl
@[simp] theorem qput_offer (w : Wave) (r : QNum) (x : QReg) : (w.qput r x).offer = w.offer := rfl
@[simp] theorem qput_parkOrder (w : Wave) (r : QNum) (x : QReg) : (w.qput r x).parkOrder = w.parkOrder := rfl
@[simp] theorem qput_barwAt (w : Wave) (r : QNum) (x : QReg) : (w.qput r x).barwAt = w.barwAt := rfl
@[simp] theorem qput_backAt (w : Wave) (r : QNum) (x : QReg) : (w.qput r x).backAt = w.backAt := rfl
@[simp] theorem qput_exited (w : Wave) (r : QNum) (x : QReg) : (w.qput r x).exited = w.exited := rfl

@[simp] theorem vwrite_uid (w : Wave) (r : VNum) (x : VReg) : (w.vwrite r x).uid = w.uid := rfl
@[simp] theorem vwrite_cohort (w : Wave) (r : VNum) (x : VReg) : (w.vwrite r x).cohort = w.cohort := rfl
@[simp] theorem vwrite_widx (w : Wave) (r : VNum) (x : VReg) : (w.vwrite r x).widx = w.widx := rfl
@[simp] theorem vwrite_core (w : Wave) (r : VNum) (x : VReg) : (w.vwrite r x).core = w.core := rfl
@[simp] theorem vwrite_slot (w : Wave) (r : VNum) (x : VReg) : (w.vwrite r x).slot = w.slot := rfl
@[simp] theorem vwrite_port (w : Wave) (r : VNum) (x : VReg) : (w.vwrite r x).port = w.port := rfl
@[simp] theorem vwrite_pc (w : Wave) (r : VNum) (x : VReg) : (w.vwrite r x).pc = w.pc := rfl
@[simp] theorem vwrite_s (w : Wave) (r : VNum) (x : VReg) : (w.vwrite r x).s = w.s := rfl
@[simp] theorem vwrite_em (w : Wave) (r : VNum) (x : VReg) : (w.vwrite r x).em = w.em := rfl
@[simp] theorem vwrite_q (w : Wave) (r : VNum) (x : VReg) : (w.vwrite r x).q = w.q := rfl
@[simp] theorem vwrite_stk (w : Wave) (r : VNum) (x : VReg) : (w.vwrite r x).stk = w.stk := rfl
@[simp] theorem vwrite_xst (w : Wave) (r : VNum) (x : VReg) : (w.vwrite r x).xst = w.xst := rfl
@[simp] theorem vwrite_vst (w : Wave) (r : VNum) (x : VReg) : (w.vwrite r x).vst = w.vst := rfl
@[simp] theorem vwrite_seq (w : Wave) (r : VNum) (x : VReg) : (w.vwrite r x).seq = w.seq := rfl
@[simp] theorem vwrite_budget (w : Wave) (r : VNum) (x : VReg) : (w.vwrite r x).budget = w.budget := rfl
@[simp] theorem vwrite_spilled (w : Wave) (r : VNum) (x : VReg) : (w.vwrite r x).spilled = w.spilled := rfl
@[simp] theorem vwrite_lru (w : Wave) (r : VNum) (x : VReg) : (w.vwrite r x).lru = w.lru := rfl
@[simp] theorem vwrite_spillPa (w : Wave) (r : VNum) (x : VReg) : (w.vwrite r x).spillPa = w.spillPa := rfl
@[simp] theorem vwrite_defs (w : Wave) (r : VNum) (x : VReg) : (w.vwrite r x).defs = w.defs := rfl
@[simp] theorem vwrite_sb (w : Wave) (r : VNum) (x : VReg) : (w.vwrite r x).sb = w.sb := rfl
@[simp] theorem vwrite_nests (w : Wave) (r : VNum) (x : VReg) : (w.vwrite r x).nests = w.nests := rfl
@[simp] theorem vwrite_mons (w : Wave) (r : VNum) (x : VReg) : (w.vwrite r x).mons = w.mons := rfl
@[simp] theorem vwrite_wakes (w : Wave) (r : VNum) (x : VReg) : (w.vwrite r x).wakes = w.wakes := rfl
@[simp] theorem vwrite_wakeLevel (w : Wave) (r : VNum) (x : VReg) : (w.vwrite r x).wakeLevel = w.wakeLevel := rfl
@[simp] theorem vwrite_bconf (w : Wave) (r : VNum) (x : VReg) : (w.vwrite r x).bconf = w.bconf := rfl
@[simp] theorem vwrite_lmiss (w : Wave) (r : VNum) (x : VReg) : (w.vwrite r x).lmiss = w.lmiss := rfl
@[simp] theorem vwrite_cause (w : Wave) (r : VNum) (x : VReg) : (w.vwrite r x).cause = w.cause := rfl
@[simp] theorem vwrite_tpc (w : Wave) (r : VNum) (x : VReg) : (w.vwrite r x).tpc = w.tpc := rfl
@[simp] theorem vwrite_tseq (w : Wave) (r : VNum) (x : VReg) : (w.vwrite r x).tseq = w.tseq := rfl
@[simp] theorem vwrite_tmask (w : Wave) (r : VNum) (x : VReg) : (w.vwrite r x).tmask = w.tmask := rfl
@[simp] theorem vwrite_taddr (w : Wave) (r : VNum) (x : VReg) : (w.vwrite r x).taddr = w.taddr := rfl
@[simp] theorem vwrite_tem (w : Wave) (r : VNum) (x : VReg) : (w.vwrite r x).tem = w.tem := rfl
@[simp] theorem vwrite_sv (w : Wave) (r : VNum) (x : VReg) : (w.vwrite r x).sv = w.sv := rfl
@[simp] theorem vwrite_priv (w : Wave) (r : VNum) (x : VReg) : (w.vwrite r x).priv = w.priv := rfl
@[simp] theorem vwrite_intp (w : Wave) (r : VNum) (x : VReg) : (w.vwrite r x).intp = w.intp := rfl
@[simp] theorem vwrite_haltReq (w : Wave) (r : VNum) (x : VReg) : (w.vwrite r x).haltReq = w.haltReq := rfl
@[simp] theorem vwrite_halted (w : Wave) (r : VNum) (x : VReg) : (w.vwrite r x).halted = w.halted := rfl
@[simp] theorem vwrite_fatal (w : Wave) (r : VNum) (x : VReg) : (w.vwrite r x).fatal = w.fatal := rfl
@[simp] theorem vwrite_step (w : Wave) (r : VNum) (x : VReg) : (w.vwrite r x).step = w.step := rfl
@[simp] theorem vwrite_exempt (w : Wave) (r : VNum) (x : VReg) : (w.vwrite r x).exempt = w.exempt := rfl
@[simp] theorem vwrite_park (w : Wave) (r : VNum) (x : VReg) : (w.vwrite r x).park = w.park := rfl
@[simp] theorem vwrite_hold (w : Wave) (r : VNum) (x : VReg) : (w.vwrite r x).hold = w.hold := rfl
@[simp] theorem vwrite_inProg (w : Wave) (r : VNum) (x : VReg) : (w.vwrite r x).inProg = w.inProg := rfl
@[simp] theorem vwrite_fetch (w : Wave) (r : VNum) (x : VReg) : (w.vwrite r x).fetch = w.fetch := rfl
@[simp] theorem vwrite_cpyq (w : Wave) (r : VNum) (x : VReg) : (w.vwrite r x).cpyq = w.cpyq := rfl
@[simp] theorem vwrite_promises (w : Wave) (r : VNum) (x : VReg) : (w.vwrite r x).promises = w.promises := rfl
@[simp] theorem vwrite_arrB (w : Wave) (r : VNum) (x : VReg) : (w.vwrite r x).arrB = w.arrB := rfl
@[simp] theorem vwrite_arrE (w : Wave) (r : VNum) (x : VReg) : (w.vwrite r x).arrE = w.arrE := rfl
@[simp] theorem vwrite_clsB (w : Wave) (r : VNum) (x : VReg) : (w.vwrite r x).clsB = w.clsB := rfl
@[simp] theorem vwrite_clsE (w : Wave) (r : VNum) (x : VReg) : (w.vwrite r x).clsE = w.clsE := rfl
@[simp] theorem vwrite_pends (w : Wave) (r : VNum) (x : VReg) : (w.vwrite r x).pends = w.pends := rfl
@[simp] theorem vwrite_weights (w : Wave) (r : VNum) (x : VReg) : (w.vwrite r x).weights = w.weights := rfl
@[simp] theorem vwrite_ready (w : Wave) (r : VNum) (x : VReg) : (w.vwrite r x).ready = w.ready := rfl
@[simp] theorem vwrite_offer (w : Wave) (r : VNum) (x : VReg) : (w.vwrite r x).offer = w.offer := rfl
@[simp] theorem vwrite_parkOrder (w : Wave) (r : VNum) (x : VReg) : (w.vwrite r x).parkOrder = w.parkOrder := rfl
@[simp] theorem vwrite_barwAt (w : Wave) (r : VNum) (x : VReg) : (w.vwrite r x).barwAt = w.barwAt := rfl
@[simp] theorem vwrite_backAt (w : Wave) (r : VNum) (x : VReg) : (w.vwrite r x).backAt = w.backAt := rfl
@[simp] theorem vwrite_exited (w : Wave) (r : VNum) (x : VReg) : (w.vwrite r x).exited = w.exited := rfl

@[simp] theorem sset_uid (w : Wave) (r : SReg) (x : Word) : (w.sset r x).uid = w.uid := by unfold Wave.sset; split <;> rfl
@[simp] theorem sset_cohort (w : Wave) (r : SReg) (x : Word) : (w.sset r x).cohort = w.cohort := by unfold Wave.sset; split <;> rfl
@[simp] theorem sset_widx (w : Wave) (r : SReg) (x : Word) : (w.sset r x).widx = w.widx := by unfold Wave.sset; split <;> rfl
@[simp] theorem sset_core (w : Wave) (r : SReg) (x : Word) : (w.sset r x).core = w.core := by unfold Wave.sset; split <;> rfl
@[simp] theorem sset_slot (w : Wave) (r : SReg) (x : Word) : (w.sset r x).slot = w.slot := by unfold Wave.sset; split <;> rfl
@[simp] theorem sset_port (w : Wave) (r : SReg) (x : Word) : (w.sset r x).port = w.port := by unfold Wave.sset; split <;> rfl
@[simp] theorem sset_pc (w : Wave) (r : SReg) (x : Word) : (w.sset r x).pc = w.pc := by unfold Wave.sset; split <;> rfl
@[simp] theorem sset_v (w : Wave) (r : SReg) (x : Word) : (w.sset r x).v = w.v := by unfold Wave.sset; split <;> rfl
@[simp] theorem sset_em (w : Wave) (r : SReg) (x : Word) : (w.sset r x).em = w.em := by unfold Wave.sset; split <;> rfl
@[simp] theorem sset_q (w : Wave) (r : SReg) (x : Word) : (w.sset r x).q = w.q := by unfold Wave.sset; split <;> rfl
@[simp] theorem sset_stk (w : Wave) (r : SReg) (x : Word) : (w.sset r x).stk = w.stk := by unfold Wave.sset; split <;> rfl
@[simp] theorem sset_xst (w : Wave) (r : SReg) (x : Word) : (w.sset r x).xst = w.xst := by unfold Wave.sset; split <;> rfl
@[simp] theorem sset_vst (w : Wave) (r : SReg) (x : Word) : (w.sset r x).vst = w.vst := by unfold Wave.sset; split <;> rfl
@[simp] theorem sset_seq (w : Wave) (r : SReg) (x : Word) : (w.sset r x).seq = w.seq := by unfold Wave.sset; split <;> rfl
@[simp] theorem sset_budget (w : Wave) (r : SReg) (x : Word) : (w.sset r x).budget = w.budget := by unfold Wave.sset; split <;> rfl
@[simp] theorem sset_spilled (w : Wave) (r : SReg) (x : Word) : (w.sset r x).spilled = w.spilled := by unfold Wave.sset; split <;> rfl
@[simp] theorem sset_lru (w : Wave) (r : SReg) (x : Word) : (w.sset r x).lru = w.lru := by unfold Wave.sset; split <;> rfl
@[simp] theorem sset_spillPa (w : Wave) (r : SReg) (x : Word) : (w.sset r x).spillPa = w.spillPa := by unfold Wave.sset; split <;> rfl
@[simp] theorem sset_defs (w : Wave) (r : SReg) (x : Word) : (w.sset r x).defs = w.defs := by unfold Wave.sset; split <;> rfl
@[simp] theorem sset_sb (w : Wave) (r : SReg) (x : Word) : (w.sset r x).sb = w.sb := by unfold Wave.sset; split <;> rfl
@[simp] theorem sset_nests (w : Wave) (r : SReg) (x : Word) : (w.sset r x).nests = w.nests := by unfold Wave.sset; split <;> rfl
@[simp] theorem sset_mons (w : Wave) (r : SReg) (x : Word) : (w.sset r x).mons = w.mons := by unfold Wave.sset; split <;> rfl
@[simp] theorem sset_wakes (w : Wave) (r : SReg) (x : Word) : (w.sset r x).wakes = w.wakes := by unfold Wave.sset; split <;> rfl
@[simp] theorem sset_wakeLevel (w : Wave) (r : SReg) (x : Word) : (w.sset r x).wakeLevel = w.wakeLevel := by unfold Wave.sset; split <;> rfl
@[simp] theorem sset_bconf (w : Wave) (r : SReg) (x : Word) : (w.sset r x).bconf = w.bconf := by unfold Wave.sset; split <;> rfl
@[simp] theorem sset_lmiss (w : Wave) (r : SReg) (x : Word) : (w.sset r x).lmiss = w.lmiss := by unfold Wave.sset; split <;> rfl
@[simp] theorem sset_cause (w : Wave) (r : SReg) (x : Word) : (w.sset r x).cause = w.cause := by unfold Wave.sset; split <;> rfl
@[simp] theorem sset_tpc (w : Wave) (r : SReg) (x : Word) : (w.sset r x).tpc = w.tpc := by unfold Wave.sset; split <;> rfl
@[simp] theorem sset_tseq (w : Wave) (r : SReg) (x : Word) : (w.sset r x).tseq = w.tseq := by unfold Wave.sset; split <;> rfl
@[simp] theorem sset_tmask (w : Wave) (r : SReg) (x : Word) : (w.sset r x).tmask = w.tmask := by unfold Wave.sset; split <;> rfl
@[simp] theorem sset_taddr (w : Wave) (r : SReg) (x : Word) : (w.sset r x).taddr = w.taddr := by unfold Wave.sset; split <;> rfl
@[simp] theorem sset_tem (w : Wave) (r : SReg) (x : Word) : (w.sset r x).tem = w.tem := by unfold Wave.sset; split <;> rfl
@[simp] theorem sset_sv (w : Wave) (r : SReg) (x : Word) : (w.sset r x).sv = w.sv := by unfold Wave.sset; split <;> rfl
@[simp] theorem sset_priv (w : Wave) (r : SReg) (x : Word) : (w.sset r x).priv = w.priv := by unfold Wave.sset; split <;> rfl
@[simp] theorem sset_intp (w : Wave) (r : SReg) (x : Word) : (w.sset r x).intp = w.intp := by unfold Wave.sset; split <;> rfl
@[simp] theorem sset_haltReq (w : Wave) (r : SReg) (x : Word) : (w.sset r x).haltReq = w.haltReq := by unfold Wave.sset; split <;> rfl
@[simp] theorem sset_halted (w : Wave) (r : SReg) (x : Word) : (w.sset r x).halted = w.halted := by unfold Wave.sset; split <;> rfl
@[simp] theorem sset_fatal (w : Wave) (r : SReg) (x : Word) : (w.sset r x).fatal = w.fatal := by unfold Wave.sset; split <;> rfl
@[simp] theorem sset_step (w : Wave) (r : SReg) (x : Word) : (w.sset r x).step = w.step := by unfold Wave.sset; split <;> rfl
@[simp] theorem sset_exempt (w : Wave) (r : SReg) (x : Word) : (w.sset r x).exempt = w.exempt := by unfold Wave.sset; split <;> rfl
@[simp] theorem sset_park (w : Wave) (r : SReg) (x : Word) : (w.sset r x).park = w.park := by unfold Wave.sset; split <;> rfl
@[simp] theorem sset_hold (w : Wave) (r : SReg) (x : Word) : (w.sset r x).hold = w.hold := by unfold Wave.sset; split <;> rfl
@[simp] theorem sset_inProg (w : Wave) (r : SReg) (x : Word) : (w.sset r x).inProg = w.inProg := by unfold Wave.sset; split <;> rfl
@[simp] theorem sset_fetch (w : Wave) (r : SReg) (x : Word) : (w.sset r x).fetch = w.fetch := by unfold Wave.sset; split <;> rfl
@[simp] theorem sset_cpyq (w : Wave) (r : SReg) (x : Word) : (w.sset r x).cpyq = w.cpyq := by unfold Wave.sset; split <;> rfl
@[simp] theorem sset_promises (w : Wave) (r : SReg) (x : Word) : (w.sset r x).promises = w.promises := by unfold Wave.sset; split <;> rfl
@[simp] theorem sset_arrB (w : Wave) (r : SReg) (x : Word) : (w.sset r x).arrB = w.arrB := by unfold Wave.sset; split <;> rfl
@[simp] theorem sset_arrE (w : Wave) (r : SReg) (x : Word) : (w.sset r x).arrE = w.arrE := by unfold Wave.sset; split <;> rfl
@[simp] theorem sset_clsB (w : Wave) (r : SReg) (x : Word) : (w.sset r x).clsB = w.clsB := by unfold Wave.sset; split <;> rfl
@[simp] theorem sset_clsE (w : Wave) (r : SReg) (x : Word) : (w.sset r x).clsE = w.clsE := by unfold Wave.sset; split <;> rfl
@[simp] theorem sset_pends (w : Wave) (r : SReg) (x : Word) : (w.sset r x).pends = w.pends := by unfold Wave.sset; split <;> rfl
@[simp] theorem sset_weights (w : Wave) (r : SReg) (x : Word) : (w.sset r x).weights = w.weights := by unfold Wave.sset; split <;> rfl
@[simp] theorem sset_ready (w : Wave) (r : SReg) (x : Word) : (w.sset r x).ready = w.ready := by unfold Wave.sset; split <;> rfl
@[simp] theorem sset_offer (w : Wave) (r : SReg) (x : Word) : (w.sset r x).offer = w.offer := by unfold Wave.sset; split <;> rfl
@[simp] theorem sset_parkOrder (w : Wave) (r : SReg) (x : Word) : (w.sset r x).parkOrder = w.parkOrder := by unfold Wave.sset; split <;> rfl
@[simp] theorem sset_barwAt (w : Wave) (r : SReg) (x : Word) : (w.sset r x).barwAt = w.barwAt := by unfold Wave.sset; split <;> rfl
@[simp] theorem sset_backAt (w : Wave) (r : SReg) (x : Word) : (w.sset r x).backAt = w.backAt := by unfold Wave.sset; split <;> rfl
@[simp] theorem sset_exited (w : Wave) (r : SReg) (x : Word) : (w.sset r x).exited = w.exited := by unfold Wave.sset; split <;> rfl

/-! ## Registers read back -/

@[simp] theorem sset_zero (w : Wave) (x : Word) : w.sset 0 x = w := rfl

@[simp] theorem sget_zero (w : Wave) : w.sget 0 = 0 := rfl

@[simp] theorem sget_sset_self (w : Wave) (r : SReg) (x : Word) (h : r ≠ 0) : (w.sset r x).sget r = x := by
  simp [Wave.sget, Wave.sset, h]

theorem sget_sset_other (w : Wave) (r q : SReg) (x : Word) (h : q ≠ r) : (w.sset r x).sget q = w.sget q := by
  unfold Wave.sget Wave.sset
  by_cases hr : r = 0
  · simp [hr]
  · by_cases hq : q = 0
    · simp [hq]
    · have : r.val ≠ q.val := fun e => h (Fin.ext e.symm)
      simp [hr, hq, Vector.getElem_set_ne, this]

@[simp] theorem vreg_vput_self (w : Wave) (r : VNum) (x : VReg) : (w.vput r x).vreg r = x := by
  simp [Wave.vreg, Wave.vput]

theorem vreg_vput_other (w : Wave) (r q : VNum) (x : VReg) (h : q ≠ r) : (w.vput r x).vreg q = w.vreg q := by
  have : r.val ≠ q.val := fun e => h (Fin.ext e.symm)
  simp [Wave.vreg, Wave.vput, Vector.getElem_set_ne, this]

@[simp] theorem qreg_qput_self (w : Wave) (r : QNum) (x : QReg) : (w.qput r x).qreg r = x := by
  simp [Wave.qreg, Wave.qput]

theorem qreg_qput_other (w : Wave) (r q : QNum) (x : QReg) (h : q ≠ r) : (w.qput r x).qreg q = w.qreg q := by
  have : r.val ≠ q.val := fun e => h (Fin.ext e.symm)
  simp [Wave.qreg, Wave.qput, Vector.getElem_set_ne, this]

/-! ## Records read back -/

theorem wave_uid {s : State} {u : Nat} {w : Wave} (h : s.wave? u = some w) : w.uid = u := by
  simpa using List.find?_some h

@[simp] theorem wave_putWave_self (s : State) (w : Wave) (h : (s.wave? w.uid).isSome) : (s.putWave w).wave? w.uid = some w :=
  find_modWhere_self (fun x : Wave => x.uid) w s.waves h

theorem wave_putWave_other (s : State) (w : Wave) (u : Nat) (h : u ≠ w.uid) : (s.putWave w).wave? u = s.wave? u :=
  find_modWhere_other (fun x : Wave => x.uid) w u h s.waves

theorem space_asid {s : State} {k : Nat} {a : Space} (h : s.space? k = some a) : a.asid = k := by
  simpa using List.find?_some h

@[simp] theorem space_putSpace_self (s : State) (a : Space) (h : (s.space? a.asid).isSome) :
    (s.putSpace a).space? a.asid = some a := find_modWhere_self (fun x : Space => x.asid) a s.spaces h

theorem space_putSpace_other (s : State) (a : Space) (k : Nat) (h : k ≠ a.asid) : (s.putSpace a).space? k = s.space? k :=
  find_modWhere_other (fun x : Space => x.asid) a k h s.spaces

@[simp] theorem cohort_putCohort_self (s : State) (c : Cohort) (h : (s.cohort? c.uid).isSome) :
    (s.putCohort c).cohort? c.uid = some c := find_modWhere_self (fun x : Cohort => x.uid) c s.cohorts h

theorem cohort_putCohort_other (s : State) (c : Cohort) (k : Nat) (h : k ≠ c.uid) :
    (s.putCohort c).cohort? k = s.cohort? k := find_modWhere_other (fun x : Cohort => x.uid) c k h s.cohorts

@[simp] theorem pkt_putPkt_self (s : State) (p : Packet) (h : (s.pkt? p.id).isSome) : (s.putPkt p).pkt? p.id = some p :=
  find_modWhere_self (fun x : Packet => x.id) p s.packets h

@[simp] theorem queue_putQueue_self (s : State) (q : TQueue) (h : (s.queue? q.id).isSome) :
    (s.putQueue q).queue? q.id = some q := find_modWhere_self (fun x : TQueue => x.id) q s.queues h

theorem coreOf_id (s : State) (c : CoreId) : (s.coreOf c).id = c := by
  unfold State.coreOf
  split
  · next h => simpa using List.find?_some h
  · rfl

theorem dieOf_die (s : State) (d : Fin 8) : (s.dieOf d).die = d := by
  unfold State.dieOf
  split
  · next h => simpa using List.find?_some h
  · rfl

/-- A core's record read back. -/
@[simp] theorem coreOf_putCore_self (s : State) (k : CoreSt) : (s.putCore k).coreOf k.id = k := by
  unfold State.putCore
  split
  · next h =>
    have hs : (s.cores.find? (fun y => y.id == k.id)).isSome := by simpa [List.find?_isSome] using h
    simp [State.coreOf, find_modWhere_self (fun y : CoreSt => y.id) k s.cores hs]
  · next h =>
    have hn : s.cores.find? (fun y => y.id == k.id) = none := by simpa [List.find?_eq_none] using h
    simp [State.coreOf, List.find?_append, hn]

/-- Storing one core's record leaves every other core's. -/
theorem coreOf_putCore_other (s : State) (k : CoreSt) (c : CoreId) (h : c ≠ k.id) : (s.putCore k).coreOf c = s.coreOf c := by
  unfold State.putCore
  split
  · simp [State.coreOf, find_modWhere_other (fun y : CoreSt => y.id) k c h s.cores]
  · have : (k.id == c) = false := by simpa using (Ne.symm h)
    simp only [State.coreOf, List.find?_append, List.find?_cons, this, List.find?_nil, Option.or_none]

/-- A die's record read back. -/
@[simp] theorem dieOf_putDie_self (s : State) (k : DieSt) : (s.putDie k).dieOf k.die = k := by
  unfold State.putDie
  split
  · next h =>
    have hs : (s.dies.find? (fun y => y.die == k.die)).isSome := by simpa [List.find?_isSome] using h
    simp [State.dieOf, find_modWhere_self (fun y : DieSt => y.die) k s.dies hs]
  · next h =>
    have hn : s.dies.find? (fun y => y.die == k.die) = none := by simpa [List.find?_eq_none] using h
    simp [State.dieOf, List.find?_append, hn]

/-- Storing one die's record leaves every other die's. -/
theorem dieOf_putDie_other (s : State) (k : DieSt) (d : Fin 8) (h : d ≠ k.die) : (s.putDie k).dieOf d = s.dieOf d := by
  unfold State.putDie
  split
  · simp [State.dieOf, find_modWhere_other (fun y : DieSt => y.die) k d h s.dies]
  · have : (k.die == d) = false := by simpa using (Ne.symm h)
    simp only [State.dieOf, List.find?_append, List.find?_cons, this, List.find?_nil, Option.or_none]

end Sys2Proof.Machine
end

