-- ==== Sys2Proof/Laws/Issue.lean ====
section
/-! SUPPORT. What issuing an instruction comes to: the conditions of R90 are over for a ready instruction, and the end of
one touches only its wave, its core's accounting and its spill area. -/

namespace Sys2Proof.Machine

/-! ## Nothing to commit -/

theorem commitNow_nil (s : State) (w : Wave) (h : w.defs = []) : s.commitNow w = (s, w) := by
  simp [State.commitNow, h]

/-- A switch point with nothing pending is passed at once. -/
theorem atSwitch_nil (s : State) (w : Wave) (k : State → Wave → State) (h : w.defs = []) (hp : w.pends = []) :
    atSwitch s w k = k s w := by
  simp [atSwitch, State.mayCommit, commitNow_nil s w h, Wave.returned, h, hp]

/-! ## Poison that is not the wave's -/

theorem poisonedS_clean (s : State) (w : Wave) (l : List SReg) (h : ∀ u ∈ s.poison, unitWave u ≠ some w.uid) :
    s.poisonedS w l = none := by
  unfold State.poisonedS
  rw [List.find?_eq_none]
  intro r _ hc
  have := h _ (List.contains_iff_mem.mp hc)
  simp [unitWave] at this

theorem readsPoison_clean (s : State) (w : Wave) (r : Req) (h : ∀ u ∈ s.poison, unitWave u ≠ some w.uid) :
    s.poison.any (readsPoison w r) = false := by
  rw [List.any_eq_false]
  intro u hu hc
  have := h u hu
  cases u <;> simp_all [readsPoison, unitWave]

theorem clearsPoison_clean (s : State) (w : Wave) (m : Mask) (a : List SReg) (b c : List VNum) (d e : List QNum)
    (h : ∀ u ∈ s.poison, unitWave u ≠ some w.uid) :
    s.poison.filter (fun u => !clearsPoison w m a b c d e u) = s.poison := by
  rw [List.filter_eq_self]
  intro u hu
  have := h u hu
  cases u <;> simp_all [clearsPoison, Wave.rewrites, unitWave]

theorem usePoison_clean (s : State) (w : Wave) (r : Req) (a : List SReg) (b : List VNum) (c : List QNum)
    (h : ∀ u ∈ s.poison, unitWave u ≠ some w.uid) : s.usePoison w r a b c = s := by
  simp only [State.usePoison, readsPoison_clean s w r h, Bool.false_eq_true, if_false]
  rw [clearsPoison_clean s w _ _ _ _ _ _ h]

/-! ## Spilling -/

theorem laneBytes_length (x : VReg) : (laneBytes x).length = 128 := by
  simp [laneBytes, leOf, List.finRange_succ]

/-- A block of a register's spill copy lies in the spill area. -/
theorem spillBlock_outside (w : Wave) (r : VNum) (u : PoisonUnit) (h : ∀ b, u = .mem b → ¬inSpill w (32 * b)) :
    w.spillBlock r u = false := by
  unfold Wave.spillBlock
  split
  · next a b hp =>
    have hr := r.isLt
    by_contra hc
    simp only [Bool.and_eq_true, decide_eq_true_eq, Bool.not_eq_false] at hc
    exact h b rfl ⟨a, hp, by omega, by omega⟩
  · rfl

theorem spillFit_spec : ∀ (n : Nat) (s : State) (w : Wave),
    ∃ m l ps, spillFit n s w = ({ s with mem := m, poison := ps }, { w with spilled := l }) ∧
      (∀ a, ¬inSpill w a → m.read a = s.mem.read a) ∧
      ∀ u, (∀ b, u = .mem b → ¬inSpill w (32 * b)) → (u ∈ ps ↔ u ∈ s.poison)
  | 0, s, w => ⟨s.mem, w.spilled, s.poison, rfl, fun _ _ => rfl, fun _ _ => Iff.rfl⟩
  | n + 1, s, w => by
    unfold spillFit
    split
    · exact ⟨s.mem, w.spilled, s.poison, rfl, fun _ _ => rfl, fun _ _ => Iff.rfl⟩
    · split
      · exact ⟨s.mem, w.spilled, s.poison, rfl, fun _ _ => rfl, fun _ _ => Iff.rfl⟩
      · next r _ =>
        obtain ⟨m, l, ps, e, h, hp⟩ := spillFit_spec n
          { s with mem := (match w.spillPa with
            | some a => s.mem.writeAll (bytesAt (a + 128 * r.val) (laneBytes (w.vreg r)))
            | none => s.mem), poison := s.poison.filter (fun u => !w.spillBlock r u) } { w with spilled := w.spilled ++ [r] }
        refine ⟨m, l, ps, e, fun a ha => ?_, fun u hu => (hp u hu).trans ?_⟩
        on_goal 2 =>
          have : w.spillBlock r u = false := spillBlock_outside w r u hu
          simp [this]
        have h1 : m.read a = _ := h a ha
        rw [h1]
        cases hp : w.spillPa with
        | none => simp
        | some p =>
          simp
          apply read_bytesAt_other
          rw [laneBytes_length]
          have hr := r.isLt
          by_contra hc
          exact ha ⟨p, hp, by omega, by omega⟩

/-! ## Refilling -/

theorem refillOne_whole (s : State) (w : Wave) (r : VNum) (h : r ∉ w.spilled) : refillOne s w r = (s, w) := by
  have hf : w.spilled.filter (fun x => x != r) = w.spilled := by
    rw [List.filter_eq_self]
    intro x hx
    have : x ≠ r := fun e => h (e ▸ hx)
    simpa using this
  have hc : w.spilled.contains r = false := by simpa using h
  simp only [refillOne, hc, hf, Bool.false_eq_true, if_false]

theorem refill_whole (s : State) (w : Wave) : ∀ l : List VNum, (∀ r ∈ l, r ∉ w.spilled) → refill s w l = (s, w)
  | [], _ => rfl
  | r :: l, h => by
    have := refill_whole s w l (fun x hx => h x (by simp [hx]))
    simpa [refill, refillOne_whole s w r (h r (by simp))] using this

/-- A wave that has refilled nothing is as it was. -/
theorem refit_same (w : Wave) (s : State) (v : Wave) (h : v.spilled = w.spilled) : refit w s v = (s, v) := by
  simp [refit, h]

/-! ## The end of an instruction -/

/-- Storing a core's record with other ports and window. -/
theorem putCore_only (s : State) (c : CoreId) (k : CoreSt) (hk : k.id = c) :
    s.putCore k = { s with cores := (s.putCore k).cores } ∧ (∀ d, d ≠ c → (s.putCore k).coreOf d = s.coreOf d) ∧
    (s.putCore k).coreOf c = k := by
  refine ⟨?_, ?_, ?_⟩
  · unfold State.putCore; split <;> rfl
  · intro d hd; exact coreOf_putCore_other s k d (hk ▸ hd)
  · rw [← hk]; exact coreOf_putCore_self s k

theorem unlatch_only (s : State) (w : Wave) (l : List VNum) :
    s.unlatch w l = { s with cores := (s.unlatch w l).cores } ∧
    (∀ c, c ≠ w.core → (s.unlatch w l).coreOf c = s.coreOf c) ∧
    (s.unlatch w l).coreOf w.core = { s.coreOf w.core with ports := ((s.unlatch w l).coreOf w.core).ports } := by
  simp only [State.unlatch]
  split
  · next h =>
    generalize hk : ({ s.coreOf w.core with ports := _ } : CoreSt) = k
    obtain ⟨h1, h2, h3⟩ := putCore_only s w.core k (by rw [← hk]; exact coreOf_id s w.core)
    exact ⟨h1, h2, by rw [h3, ← hk]⟩
  · exact ⟨rfl, fun _ _ => rfl, rfl⟩

theorem account_only (s : State) (w : Wave) (pc : Word) (l c : Nat) :
    s.account w pc l c = { s with cores := (s.account w pc l c).cores } ∧
    (∀ d, d ≠ w.core → (s.account w pc l c).coreOf d = s.coreOf d) ∧
    (s.account w pc l c).coreOf w.core =
      { s.coreOf w.core with ports := ((s.account w pc l c).coreOf w.core).ports,
                             window := ((s.account w pc l c).coreOf w.core).window, idle := 0 } := by
  simp only [State.account]
  generalize hk : ({ s.coreOf w.core with ports := _, window := _, idle := 0 } : CoreSt) = k
  obtain ⟨h1, h2, h3⟩ := putCore_only s w.core k (by rw [← hk]; exact coreOf_id s w.core)
  exact ⟨h1, h2, by rw [h3, ← hk]⟩

theorem occupy_only (s : State) (w : Wave) (o : Nat) (sp : Bool) (em : Mask) :
    s.occupy w o sp em = { s with cores := (s.occupy w o sp em).cores } ∧
    (∀ d, d ≠ w.core → (s.occupy w o sp em).coreOf d = s.coreOf d) ∧
    (s.occupy w o sp em).coreOf w.core =
      { s.coreOf w.core with ports := ((s.occupy w o sp em).coreOf w.core).ports } := by
  simp only [State.occupy]
  split
  · exact ⟨rfl, fun _ _ => rfl, rfl⟩
  all_goals
    generalize hk : ({ s.coreOf w.core with ports := _ } : CoreSt) = k
    obtain ⟨h1, h2, h3⟩ := putCore_only s w.core k (by rw [← hk]; exact coreOf_id s w.core)
    exact ⟨h1, h2, by rw [h3, ← hk]⟩

/-- The end of an instruction's accounting: its issue is recorded and its unit taken. -/
theorem charged_only (s : State) (w : Wave) (pc : Word) (l c o : Nat) (sp : Bool) (em : Mask) :
    let t := (s.account w pc l c).occupy w o sp em
    t = { s with cores := t.cores } ∧ (∀ d, d ≠ w.core → t.coreOf d = s.coreOf d) ∧
    t.coreOf w.core =
      { s.coreOf w.core with ports := (t.coreOf w.core).ports, window := (t.coreOf w.core).window, idle := 0 } := by
  obtain ⟨a1, a2, a3⟩ := account_only s w pc l c
  obtain ⟨b1, b2, b3⟩ := occupy_only (s.account w pc l c) w o sp em
  refine ⟨by rw [b1, a1], fun d hd => (b2 d hd).trans (a2 d hd), ?_⟩
  rw [b3, a3]

/-- The vector registers an instruction is taken to have written, and the q registers. -/
def Req.writesV (r : Req) (em : Mask) : List VNum := if em == 0 && !r.ignoreEm then [] else r.wv
def Req.writesQ (r : Req) (em : Mask) : List QNum := if em == 0 && !r.ignoreEm then [] else r.wq

/-- The wave as a completed instruction leaves it. -/
def ended (r : Req) (w0 w : Wave) (pc : Word) : Wave :=
  let w := if deferOpc r.opc then w else w.killDefs w0.defs.length (r.writesV w0.em) (r.writesQ w0.em)
  { w with pc := pc, seq := if namedOpc r.opc then w.seq + 1 else w.seq, inProg := .none }

theorem ended_uid (r : Req) (w0 w : Wave) (pc : Word) : (ended r w0 w pc).uid = w.uid := by
  unfold ended; split <;> rfl

/-- The wave at the end of an instruction, before registers are spilled. -/
def beforeSpill (r : Req) (s : State) (w0 w : Wave) (pc : Word) : Wave :=
  let wv := r.writesV w0.em
  let w := if deferOpc r.opc then w else w.killDefs w0.defs.length wv (r.writesQ w0.em)
  let w : Wave := { w.issued s r.opc with pc := pc, inProg := .none }
  let w := { w with spilled := w.spilled.filter (fun x => !(wv.contains x && (w0.em == 0xFFFFFFFF || r.ignoreEm)) &&
                                                            !r.fv.contains x) }
  w.touch (r.rv ++ wv)

theorem beforeSpill_same (r : Req) (s : State) (w0 w : Wave) (pc : Word) : (beforeSpill r s w0 w pc).same (ended r w0 w pc) := by
  simp only [beforeSpill, ended, Wave.same, Wave.touch, Wave.issued]

theorem beforeSpill_uid (r : Req) (s : State) (w0 w : Wave) (pc : Word) : (beforeSpill r s w0 w pc).uid = w.uid := by
  unfold beforeSpill; cases deferOpc r.opc <;> rfl

theorem beforeSpill_core (r : Req) (s : State) (w0 w : Wave) (pc : Word) : (beforeSpill r s w0 w pc).core = w.core := by
  unfold beforeSpill; cases deferOpc r.opc <;> rfl

theorem beforeSpill_spillPa (r : Req) (s : State) (w0 w : Wave) (pc : Word) :
    (beforeSpill r s w0 w pc).spillPa = w.spillPa := by
  unfold beforeSpill; cases deferOpc r.opc <;> rfl

theorem finish_eq (r : Req) (s : State) (w0 w : Wave) (sp : Bool) (pc : Word)
    (clean : ∀ u ∈ s.poison, unitWave u ≠ some w0.uid) :
    ∃ lat : List VNum, finish r s w0 w sp pc =
      (let p := spillFit 256 (s.unlatch w0 lat) (beforeSpill r s w0 w pc)
       ((p.1.putWave p.2).account p.2 w0.pc (leafOf r.opc (generalResult r p.2 sp) w0.em) (chargeOf r.opc sp w0.em)).occupy
         p.2 r.opc sp (r.mask w0)) := by
  refine ⟨r.fv ++ (if boardOpc r.opc then [] else r.writesV w0.em), ?_⟩
  unfold finish
  simp only [usePoison_clean s w0 r _ _ _ clean]
  rfl

/-- What the end of an instruction does. -/
theorem finish_only (r : Req) (s : State) (w0 w : Wave) (sp : Bool) (pc : Word)
    (clean : ∀ u ∈ s.poison, unitWave u ≠ some w0.uid) (huid : w.uid = w0.uid) (hcore : w.core = w0.core)
    (hpa : w.spillPa = w0.spillPa) (hs : (s.wave? w.uid).isSome) :
    ∃ w', (finish r s w0 w sp pc).wave? w.uid = some w' ∧ w'.same (ended r w0 w pc) ∧
      Only s (finish r s w0 w sp pc) w0 := by
  obtain ⟨lat, e0⟩ := finish_eq r s w0 w sp pc clean
  rw [e0]
  clear e0
  have hyu := beforeSpill_uid r s w0 w pc
  have hyc := beforeSpill_core r s w0 w pc
  have hyp := beforeSpill_spillPa r s w0 w pc
  have hys := beforeSpill_same r s w0 w pc
  generalize beforeSpill r s w0 w pc = y at hyu hyc hyp hys ⊢
  obtain ⟨u1, u2, u3⟩ := unlatch_only s w0 lat
  generalize s.unlatch w0 lat = su at u1 u2 u3 ⊢
  obtain ⟨m, l, ps, e, hm, hps⟩ := spillFit_spec 256 su y
  rw [e]
  simp only
  generalize hz : ({ y with spilled := l } : Wave) = z
  have hzu : z.uid = w.uid := by rw [← hz]; exact hyu
  have hzc : z.core = w0.core := by rw [← hz]; exact hyc.trans hcore
  have hzs : z.same (ended r w0 w pc) := by
    rw [← hz]; unfold Wave.same at hys ⊢; rw [hys]
  generalize hv : ({ su with mem := m, poison := ps } : State) = sv
  obtain ⟨a1, a2, a3⟩ := charged_only (sv.putWave z) z w0.pc (leafOf r.opc (generalResult r z sp) w0.em)
    (chargeOf r.opc sp w0.em) r.opc sp (r.mask w0)
  generalize ((sv.putWave z).account z w0.pc (leafOf r.opc (generalResult r z sp) w0.em)
    (chargeOf r.opc sp w0.em)).occupy z r.opc sp (r.mask w0) = t at a1 a2 a3 ⊢
  have hsv : sv.waves = s.waves := by rw [← hv, u1]
  have hsc : sv.cores = su.cores := by rw [← hv]
  have hco : ∀ c, (sv.putWave z).coreOf c = su.coreOf c := by
    intro c; simp [State.coreOf, hsc]
  have htw : t.waves = (sv.putWave z).waves := by rw [a1]
  have hfind : ∀ u, t.wave? u = (sv.putWave z).wave? u := by
    intro u; simp [State.wave?, htw]
  have hsome : (sv.wave? z.uid).isSome := by
    rw [hzu]; simpa [State.wave?, hsv] using hs
  refine ⟨z, ?_, hzs, ?_⟩
  · rw [hfind, ← hzu]; exact wave_putWave_self sv z hsome
  · refine ⟨?_, ?_, ?_, ?_, ?_, ?_⟩
    · rw [a1]; simp only [State.putWave]; rw [← hv, u1]
    · intro u hu'
      have hpo : t.poison = ps := by rw [a1]; simp only [State.putWave]; rw [← hv]
      rw [hpo, hps u (by simpa [inSpill, hyp, hpa] using hu'), u1]
    · intro u hu'
      rw [hfind, wave_putWave_other sv z u (by rw [hzu, huid]; exact hu')]
      simp [State.wave?, hsv]
    · intro a ha
      have hmem : t.mem = m := by rw [a1]; simp only [State.putWave]; rw [← hv]
      rw [hmem, hm a (by simpa [inSpill, hyp, hpa] using ha), u1]
    · intro c hc
      rw [a2 c (by rw [hzc]; exact hc), hco, u2 c hc]
    · have : t.coreOf w0.core = _ := hzc ▸ a3
      rw [this]
      simp only [hco]
      rw [u3]

/-! ## Issue of a ready instruction -/

/-- The conditions beside Ready that a request puts on its wave. -/
structure Req.Fits (r : Req) (s : State) (w : Wave) : Prop where
  priv : privOpc r.opc = true → w.priv = true
  switch : (switchOpc r.opc || (deferOpc r.opc && decide (64 ≤ w.defs.length))) = true → w.defs = [] ∧ w.pends = []
  side : w.owesPend r = false
  entries : s.sideHolds w r = false
  board : w.depends (s.clkOf w.core) r = false
  drains : r.drains = true → w.sb = [] ∧ w.nests = [] ∧ (∀ a ∈ s.accs, a.agent ≠ .wave w.uid) ∧
    ∀ e ∈ s.side, e.wave ≠ w.uid
  whole : ∀ x ∈ r.rv ++ r.wv, x ∉ w.spilled
  allowed : r.denied = false

/-- The state that the end of a body leaves. -/
def resState (r : Req) (w : Wave) : Res → State
  | .ok s v sp => finish r s w v sp (w.pc + BitVec.ofNat 64 r.len)
  | .jump s v pc => finish r s w v true pc
  | .trap s v t => (refit w s v).1.takeTrap (refit w s v).2 t
  | .hold s v why => (refit w s v).1.putWave { (refit w s v).2 with hold := why }
  | .parked s v sp =>
    let (s, v) := refit w ((s.usePoison w r [] [] []).unlatch w r.fv) v
    let v := { v.issued s r.opc with parkOrder := s.clkOf w.core, spilled := v.spilled.filter (fun x => !r.fv.contains x) }
    (s.putWave v).account v w.pc (leafOf r.opc (generalResult r w sp) w.em) (chargeOf r.opc sp w.em)
  | .gone s => s.account w w.pc 1 0
  | .stopped s => s

theorem runBody_whole (r : Req) (body : Body) (s : State) (w : Wave) (h : ∀ x ∈ r.rv ++ r.wv, x ∉ w.spilled)
    (hu : ∀ o sp, s.unitBusy w o sp = false) :
    runBody r body s w = resState r w (body s w ((w.freeV r.fv).freeQ r.fq)) := by
  simp only [runBody]
  rw [refill_whole s w _ (by
      intro x hx
      apply h x
      simp only [List.mem_append] at hx ⊢
      rcases hx with hx | hx
      · exact Or.inl hx
      · split at hx
        · exact Or.inr hx
        · simp at hx)]
  simp only [hu, Bool.false_eq_true, if_false]
  unfold resState
  cases body s w ((w.freeV r.fv).freeQ r.fq) <;> rfl

/-- The units of a ready wave's port are free (R146). -/
theorem unitBusy_ready {h : Head} {s : State} {w : Wave} (hr : Ready h s w) (o : Nat) (sp : Bool) :
    s.unitBusy w o sp = false := by
  have h1 := hr.pipe
  have h2 := hr.sfu
  unfold State.unitBusy
  simp only
  split <;> simp <;> omega

theorem issueBody_fits {r : Req} {body : Body} {s : State} {w : Wave} (h : Ready r.h s w) (f : r.Fits s w) :
    issueBody r body s w = resState r w (body s w ((w.freeV r.fv).freeQ r.fq)) := by
  have hd : (r.drains && !s.drained w) = false := by
    cases hh : r.drains with
    | false => rfl
    | true =>
      obtain ⟨h1, h2, h3, h4⟩ := f.drains hh
      have : s.accs.any (fun a => a.agent == .wave w.uid) = false := by
        rw [List.any_eq_false]; intro a ha; simpa using h3 a ha
      have h5 : s.side.any (fun e => e.wave == w.uid) = false := by
        rw [List.any_eq_false]; intro a ha; simpa using h4 a ha
      simp [State.drained, h1, h2, this, h5]
  unfold issueBody
  simp only [h.unhit, ite_self, f.board, hd, f.entries, Bool.or_self, Bool.false_eq_true, if_false]
  exact runBody_whole r body s w f.whole (unitBusy_ready h)

/-- A ready instruction reaches its body. -/
theorem issue_body {r : Req} {body : Body} {s : State} {w : Wave} (h : Ready r.h s w) (f : r.Fits s w) :
    issue r body s = .next (resState r w (body s w ((w.freeV r.fv).freeQ r.fq))) := by
  have hp : (privOpc r.opc && !w.priv || r.denied) = false := by
    have := f.priv
    rw [f.allowed]
    cases hh : privOpc r.opc <;> simp_all
  unfold issue
  rw [h.current]
  simp only
  congr 1
  unfold issueWave
  simp only [poisonedS_clean s w _ h.clean, h.unhitPc, ite_self]
  unfold guarded
  rw [hp]
  simp only [Bool.false_eq_true, if_false, h.guard, if_true]
  split
  · next hsw =>
    have : w.defs = [] ∧ w.pends = [] := by
      rw [Bool.or_eq_true, Bool.or_eq_true] at hsw
      rcases hsw with (hy | hs) | hs
      · exact h.marked hy
      · exact f.switch (by simp [hs])
      · exact f.switch (by rw [hs, Bool.or_true])
    rw [atSwitch_nil s w _ this.1 this.2, issueBody_fits h f]
  · simp only [f.side, Bool.false_eq_true, if_false]
    exact issueBody_fits h f

/-- A ready instruction whose body completes touches only its wave, its core's accounting and its spill area. -/
theorem issue_ok {r : Req} {body : Body} {s s' : State} {w v : Wave} {sp : Bool} (h : Ready r.h s w) (f : r.Fits s w)
    (hb : body s w ((w.freeV r.fv).freeQ r.fq) = .ok s' v sp)
    (clean : ∀ u ∈ s'.poison, unitWave u ≠ some w.uid) (huid : v.uid = w.uid) (hcore : v.core = w.core)
    (hpa : v.spillPa = w.spillPa) (hs : (s'.wave? w.uid).isSome) :
    ∃ t w', issue r body s = .next t ∧ t.wave? s.cur = some w' ∧ w'.same (ended r w v (w.pc + BitVec.ofNat 64 r.len)) ∧
      Only s' t w := by
  obtain ⟨w', h1, h2, h3⟩ := finish_only r s' w v sp (w.pc + BitVec.ofNat 64 r.len) clean huid hcore hpa (huid ▸ hs)
  refine ⟨_, w', by rw [issue_body h f, hb]; rfl, ?_, h2, h3⟩
  rw [← wave_uid h.current, ← huid]
  exact h1

/-- The same of a body that jumps. -/
theorem issue_jump {r : Req} {body : Body} {s s' : State} {w v : Wave} {pc : Word} (h : Ready r.h s w) (f : r.Fits s w)
    (hb : body s w ((w.freeV r.fv).freeQ r.fq) = .jump s' v pc)
    (clean : ∀ u ∈ s'.poison, unitWave u ≠ some w.uid) (huid : v.uid = w.uid) (hcore : v.core = w.core)
    (hpa : v.spillPa = w.spillPa) (hs : (s'.wave? w.uid).isSome) :
    ∃ t w', issue r body s = .next t ∧ t.wave? s.cur = some w' ∧ w'.same (ended r w v pc) ∧ Only s' t w := by
  obtain ⟨w', h1, h2, h3⟩ := finish_only r s' w v true pc clean huid hcore hpa (huid ▸ hs)
  refine ⟨_, w', by rw [issue_body h f, hb]; rfl, ?_, h2, h3⟩
  rw [← wave_uid h.current, ← huid]
  exact h1

/-! ## Forms that touch scalar registers only -/

theorem kill_nil (d : Def) : d.kill [] [] = d := by
  cases d with
  | mk id seq pc dest => cases dest <;> simp [Def.kill]

theorem killDefs_nil (w : Wave) (n : Nat) : w.killDefs n [] [] = w := by
  have hm : ∀ l : List Def, l.map (fun d => d.kill [] []) = l := by
    intro l
    induction l with
    | nil => rfl
    | cons a l ih => rw [List.map_cons, ih, kill_nil]
  unfold Wave.killDefs
  rw [hm, List.take_append_drop]

/-- An opcode with none of the properties that make an instruction wait, trap or count as a command. -/
def plainOpc (o : Nat) : Bool := !privOpc o && !switchOpc o && !deferOpc o && !namedOpc o && o != 0x208

theorem owesPend_plain (w : Wave) (r : Req) (hs : r.sideWait = false) (ho : r.opc ≠ 0x208) : w.owesPend r = false := by
  unfold Wave.owesPend
  rw [List.any_eq_false]
  intro p _
  split <;> simp [hs, ho]

theorem sideHolds_plain (s : State) (w : Wave) (r : Req) (hs : r.sideWait = false) (ho : r.opc ≠ 0x208) :
    s.sideHolds w r = false := by
  simp [State.sideHolds, hs, ho]

/-- Where the wave has nothing in the side log, nothing there holds its instruction. -/
theorem sideHolds_nil (s : State) (w : Wave) (r : Req) (h : ∀ e ∈ s.side, e.wave ≠ w.uid) : s.sideHolds w r = false := by
  have : s.sideOf w.uid = [] := by
    rw [State.sideOf, List.filter_eq_nil_iff]
    intro e he; simpa using h e he
  simp [State.sideHolds, this]

theorem depends_scalar (w : Wave) (now : Nat) (r : Req) (h : r.rv = [] ∧ r.wv = [] ∧ r.fv = [] ∧ r.dv = [] ∧ r.rq = [] ∧
    r.wq = [] ∧ r.dq = [] ∧ r.fq = [] ∧ r.stk = false ∧ r.xst = false ∧ r.vst = false) : w.depends now r = false := by
  obtain ⟨h1, h2, h3, h4, h5, h6, h7, h8, h9, h10, h11⟩ := h
  unfold Wave.depends
  rw [List.any_eq_false]
  intro b _
  simp [h1, h2, h3, h4, h5, h6, h7, h8, h9, h10, h11]

theorem fits_scalar (r : Req) (s : State) (w : Wave) (hp : plainOpc r.opc = true) (hs : r.sideWait = false)
    (hd : r.drains = false) (hn : r.denied = false) (h : r.rv = [] ∧ r.wv = [] ∧ r.fv = [] ∧ r.dv = [] ∧ r.rq = [] ∧
    r.wq = [] ∧ r.dq = [] ∧ r.fq = [] ∧ r.stk = false ∧ r.xst = false ∧ r.vst = false) : r.Fits s w := by
  simp [plainOpc] at hp
  obtain ⟨⟨⟨⟨p1, p2⟩, p3⟩, p4⟩, p5⟩ := hp
  refine ⟨by simp [p1], by simp [p2, p3], owesPend_plain w r hs p5, sideHolds_plain s w r hs p5, depends_scalar w _ r h, by simp [hd], by simp [h.1, h.2.1], hn⟩

/-- A scalar result: one register written, the wave at the next word, nothing else. -/
theorem issue_sset {h : Head} {s : State} {w : Wave} (hr : Ready h s w) (opc : Nat) (rs : List SReg) (d : SReg)
    (g : Wave → Word) (hp : plainOpc opc = true) :
    ∃ t w', issue { h := h, opc := opc, len := 8, rs := rs, ws := [d] } (fun s w v => .ok s (v.sset d (g w)) true) s = .next t ∧
      t.wave? s.cur = some w' ∧ w'.same { w.sset d (g w) with pc := w.pc + 8 } ∧ Only s t w := by
  have hf := fits_scalar { h := h, opc := opc, len := 8, rs := rs, ws := [d] } s w hp rfl rfl rfl
    ⟨rfl, rfl, rfl, rfl, rfl, rfl, rfl, rfl, rfl, rfl, rfl⟩
  have := issue_ok (body := fun s w v => .ok s (v.sset d (g w)) true) (v := w.sset d (g w)) hr hf rfl hr.clean
    (sset_uid w d _) (sset_core w d _) (sset_spillPa w d _) (by rw [wave_uid hr.current, hr.current]; rfl)
  obtain ⟨t, w', h1, h2, h3, h4⟩ := this
  refine ⟨t, w', h1, h2, ?_, h4⟩
  simp [plainOpc] at hp
  obtain ⟨⟨⟨⟨p1, p2⟩, p3⟩, p4⟩, p5⟩ := hp
  have e : ended { h := h, opc := opc, len := 8, rs := rs, ws := [d] } w (w.sset d (g w)) (w.pc + BitVec.ofNat 64 8) =
      { w.sset d (g w) with pc := w.pc + 8 } := by
    simp only [ended, Req.writesV, Req.writesQ, p3, p4, ite_self, killDefs_nil, Bool.false_eq_true, if_false]
    have hb := hr.begins
    unfold Wave.sset
    split <;> simp [hb]
  rw [← e]; exact h3

end Sys2Proof.Machine
end

