-- ==== Sys2Proof/Laws/Vector.lean ====
section
/-! SUPPORT. Lanes: what the crossbar, the shape rules and a write under the mask come to lane by lane, and the completion
of an instruction with one vector destination. -/

namespace Sys2Proof.Machine

/-! ## Lanes -/

@[simp] theorem lanesBy_get (f : Fin 32 → W32) (l : Fin 32) : (lanesBy f)[l.val] = f l := by
  simp [lanesBy]

@[simp] theorem lane_gen (f : Fin 32 → W32) (l : Fin 32) : (VReg.gen (lanesBy f)).lane l = f l := by
  simp [VReg.lane]

@[simp] theorem lane_uni (u : W32) (l : Fin 32) : (VReg.uni u).lane l = u := rfl

theorem lane_norm (v : VReg) (l : Fin 32) : v.norm.lane l = v.lane l := by cases v <;> rfl

theorem lane_isUni {v : VReg} (h : v.isUni = true) (l k : Fin 32) : v.lane l = v.lane k := by
  cases v <;> simp_all [VReg.isUni, VReg.lane]

theorem lane_permLanes (p : Perm) (v : VReg) (l : Fin 32) :
    (VReg.gen (permLanes p v)).lane l = (match permSrc p l with
      | some j => v.lane j
      | none => 0) := by
  simp only [permLanes, lane_gen] <;> cases permSrc p l <;> rfl

theorem bv_ofNat_sub31 (l : Fin 32) : BitVec.ofNat 32 (31 - l.val) = 31#32 - BitVec.ofNat 32 l.val := by
  have := l.isLt
  apply BitVec.eq_of_toNat_eq
  simp [BitVec.toNat_sub]
  omega

/-- A permutation of a uniform or unwritten register that leaves no lane unread keeps its value. -/
theorem crossbar_lane (p : Perm) (v : VReg) (l : Fin 32) :
    (crossbar p v).lane l = (match permSrc p l with
      | some j => v.lane j
      | none => 0) := by
  have hu : ∀ x : VReg, x.isUni = true → ∀ j, x.lane l = x.lane j := fun x h j => lane_isUni h l j
  have hz : ∀ p', crossbar p' v = .gen (permLanes p' v.norm) → (crossbar p' v).lane l = (match permSrc p' l with
      | some j => v.lane j
      | none => 0) := by
    intro p' e
    rw [e, lane_permLanes]
    cases permSrc p' l <;> simp [lane_norm]
  cases p with
  | ident => simp [crossbar, permSrc, lane_norm]
  | bc n => simp [crossbar, permSrc, lane_norm]
  | mir =>
    cases v with
    | aff b s =>
      simp only [crossbar, VReg.norm, permSrc, VReg.lane, bv_ofNat_sub31]
      rw [BitVec.sub_eq_add_neg, BitVec.add_mul, BitVec.mul_neg, BitVec.neg_mul, BitVec.add_assoc]
      rfl
    | gen x => exact hz .mir (by simp [crossbar, VReg.norm, VReg.isUni])
    | none => rfl
    | uni u => rfl
  | rot n =>
    by_cases h : n = 0 ∨ v.norm.isUni
    · have e : crossbar (.rot n) v = v.norm := by cases v <;> simp_all [crossbar, VReg.norm, VReg.isUni]
      rw [e, lane_norm]
      simp only [permSrc]
      rcases h with rfl | h
      · simp
      · rw [← lane_norm, hu _ h (l + n), lane_norm]
    · exact hz _ (by cases v <;> simp_all [crossbar, VReg.norm, VReg.isUni])
  | bfly n =>
    by_cases h : n = 0 ∨ v.norm.isUni
    · have e : crossbar (.bfly n) v = v.norm := by cases v <;> simp_all [crossbar, VReg.norm, VReg.isUni]
      rw [e, lane_norm]
      simp only [permSrc]
      rcases h with rfl | h
      · simp
      · rw [← lane_norm, hu _ h _, lane_norm]
    · exact hz _ (by cases v <;> simp_all [crossbar, VReg.norm, VReg.isUni])
  | sup n =>
    by_cases h : n = 0 ∨ v.norm = .uni 0
    · have e : crossbar (.sup n) v = v.norm := by cases v <;> simp_all [crossbar, VReg.norm]
      rw [e, lane_norm]
      simp only [permSrc]
      rcases h with rfl | h
      · simp
      · have : ∀ k, v.lane k = 0 := fun k => by rw [← lane_norm, h]; rfl
        split <;> simp [this]
    · exact hz _ (by cases v <;> simp_all [crossbar, VReg.norm])
  | sdn n =>
    by_cases h : n = 0 ∨ v.norm = .uni 0
    · have e : crossbar (.sdn n) v = v.norm := by cases v <;> simp_all [crossbar, VReg.norm]
      rw [e, lane_norm]
      simp only [permSrc]
      rcases h with rfl | h
      · simp
      · have : ∀ k, v.lane k = 0 := fun k => by rw [← lane_norm, h]; rfl
        split <;> simp [this]
    · exact hz _ (by cases v <;> simp_all [crossbar, VReg.norm])

/-- An operand's lanes. -/
theorem src_lane (w : Wave) (x : VSrc) (l : Fin 32) : (w.src x).lane l = w.laneOf x l := by
  cases x with
  | vec r p b => simp only [Wave.src, Wave.laneOf, crossbar_lane] <;> cases permSrc p l <;> rfl
  | sca r => rfl

theorem lane_lift1 (f : W32 → W32) (a : VReg) (l : Fin 32) : (lift1 f a).lane l = f (a.lane l) := by
  cases a <;> simp [lift1, VReg.lane]

theorem lane_lift2 (f : W32 → W32 → W32) (a b : VReg) (l : Fin 32) : (lift2 f a b).lane l = f (a.lane l) (b.lane l) := by
  unfold lift2
  split
  · next h =>
    rw [Bool.and_eq_true] at h
    rw [lane_uni, lane_isUni h.1 0 l, lane_isUni h.2 0 l]
  · simp

theorem lane_lift3 (f : W32 → W32 → W32 → W32) (a b c : VReg) (l : Fin 32) :
    (lift3 f a b c).lane l = f (a.lane l) (b.lane l) (c.lane l) := by
  unfold lift3
  split
  · next h =>
    rw [Bool.and_eq_true, Bool.and_eq_true] at h
    rw [lane_uni, lane_isUni h.1.1 0 l, lane_isUni h.1.2 0 l, lane_isUni h.2 0 l]
  · simp

theorem lane_vAdd (a b : VReg) (k : Fin 32) : (vAdd a b).lane k = a.lane k + b.lane k := by
  unfold vAdd
  split
  · simp only [VReg.lane]; ac_rfl
  · simp only [VReg.lane]; ac_rfl
  · simp only [VReg.lane, BitVec.mul_add]; ac_rfl
  · exact lane_lift2 _ _ _ _

theorem lane_vNeg (a : VReg) (k : Fin 32) : (vNeg a).lane k = -a.lane k := by
  unfold vNeg
  split
  · simp only [VReg.lane, BitVec.mul_neg, BitVec.neg_add, BitVec.sub_eq_add_neg]
  · exact lane_lift1 _ _ _

theorem lane_vSub (a b : VReg) (k : Fin 32) : (vSub a b).lane k = a.lane k - b.lane k := by
  unfold vSub
  split
  · simp only [VReg.lane, BitVec.sub_eq_add_neg]; ac_rfl
  · simp only [VReg.lane, BitVec.mul_neg, BitVec.neg_add, BitVec.sub_eq_add_neg]; ac_rfl
  · simp only [VReg.lane, BitVec.mul_neg, BitVec.neg_add, BitVec.sub_eq_add_neg, BitVec.mul_add]; ac_rfl
  · exact lane_lift2 _ _ _ _

theorem lane_vMul (a b : VReg) (k : Fin 32) : (vMul a b).lane k = a.lane k * b.lane k := by
  unfold vMul
  split
  · simp only [VReg.lane, BitVec.add_mul]; ac_rfl
  · simp only [VReg.lane, BitVec.mul_add]; ac_rfl
  · exact lane_lift2 _ _ _ _

theorem lane_vMad (a b c : VReg) (k : Fin 32) : (vMad a b c).lane k = a.lane k * b.lane k + c.lane k := by
  unfold vMad
  split
  · simp only [VReg.lane, BitVec.add_mul]; ac_rfl
  · simp only [VReg.lane, BitVec.mul_add]; ac_rfl
  · exact lane_lift3 _ _ _ _ _

theorem lane_vShl (a b : VReg) (k : Fin 32) : (vShl a b).lane k = a.lane k <<< ((b.lane k).toNat % 32) := by
  unfold vShl
  split
  · simp only [VReg.lane, BitVec.shiftLeft_eq_mul_twoPow]
    rw [BitVec.add_mul, BitVec.mul_assoc]
  · exact lane_lift2 _ _ _ _

/-- What a write under the mask leaves, lane by lane (R135). -/
theorem lane_mergeMask (em : Mask) (old new : VReg) (l : Fin 32) :
    (mergeMask em old new).lane l = if em.getLsbD l.val then new.lane l else old.lane l := by
  have hl := l.isLt
  unfold mergeMask
  split
  · next h => subst h; simp
  · split
    · next h =>
      subst h
      have : (0xFFFFFFFF#32).getLsbD l.val = true := by revert l; decide
      exact (if_pos this).symm
    · simp

/-! ## Completion -/

theorem freeV_fields (l : List VNum) : ∀ w : Wave, w.freeV l = { w with v := (w.freeV l).v } := by
  induction l with
  | nil => intro w; rfl
  | cons a l ih =>
    intro w
    simp only [Wave.freeV, List.foldl_cons] at ih ⊢
    rw [ih]
    rfl

theorem freeQ_nil (w : Wave) : w.freeQ [] = w := rfl

/-- An instruction with the vector destination d completes: its value under the mask, the frees, nothing else. -/
theorem issue_vput {r : Req} {body : Body} {s s' : State} {w : Wave} {d : VNum} {x : VReg} {sp : Bool} (hr : Open r.h s w)
    (hp : plainOpc r.opc = true) (hlen : r.len = 16) (hside : r.sideWait = false) (hdr : r.drains = false) (hn : r.denied = false) (hwv : r.wv = [d])
    (hq : r.wq = [] ∧ r.fq = []) (hem : r.ignoreEm = false)
    (hb : body s w (w.freeV r.fv) = .ok s' ((w.freeV r.fv).vput d x) sp)
    (hpo : s'.poison = s.poison) (hwa : s'.waves = s.waves) :
    ∃ t w', issue r body s = .next t ∧ t.wave? s.cur = some w' ∧ w'.same (w.wrote r.fv d x) ∧ Only s' t w := by
  simp only [plainOpc, Bool.and_eq_true, Bool.not_eq_true'] at hp
  obtain ⟨⟨⟨⟨p1, p2⟩, p3⟩, p4⟩, p5⟩ := hp
  have hw := freeV_fields r.fv w
  have hf : r.Fits s w := ⟨by simp [p1], by simp [p2, p3], owesPend_plain w r hside (by simpa using p5), sideHolds_plain s w r hside (by simpa using p5), by simp [Wave.depends, hr.board], by simp [hdr],
    by simp [hr.whole], hn⟩
  have h1 : s'.wave? w.uid = some w := by
    have : s'.wave? w.uid = s.wave? w.uid := by simp [State.wave?, hwa]
    rw [this, wave_uid hr.current, hr.current]
  obtain ⟨t, w', e1, e2, e3, e4⟩ := issue_ok (body := body) (v := (w.freeV r.fv).vput d x) hr.toReady hf
    (by rw [hq.2, freeQ_nil]; exact hb) (by rw [hpo]; exact hr.clean) (by rw [hw]; rfl) (by rw [hw]; rfl) (by rw [hw]; rfl)
    (by rw [h1]; rfl)
  refine ⟨t, w', e1, e2, ?_, e4⟩
  have e : ended r w ((w.freeV r.fv).vput d x) (w.pc + BitVec.ofNat 64 r.len) = w.wrote r.fv d x := by
    simp only [ended, p3, p4, Bool.false_eq_true, if_false, Req.writesV, Req.writesQ, hwv, hq.1, hem, Bool.not_false,
      Bool.and_true, beq_iff_eq, ite_self, hlen, Wave.wrote]
    have hb' := hr.begins
    rw [hw]
    simp [Wave.killDefs, hb', Wave.vput]
  rw [← e]; exact e3

end Sys2Proof.Machine
end

