-- ==== Sys2Proof/Laws/Runs.lean ====
section
/-! SUPPORT. From an instruction's body to the statement that it runs: RunsIn of instructions that complete, jump or park. -/

namespace Sys2Proof.Machine

/-- An instruction whose body completes leaves the wave that its end leaves. -/
theorem runs_ok {i : Instr} {r : Req} {body : Body} {s s' : State} {w v x : Wave} {sp : Bool} (hr : Ready r.h s w) (hf : r.Fits s w)
    (he : exec i s = issue r body s) (hb : body s w ((w.freeV r.fv).freeQ r.fq) = .ok s' v sp)
    (hpo : s'.poison = s.poison) (hwa : s'.waves = s.waves) (huid : v.uid = w.uid) (hcore : v.core = w.core)
    (hpa : v.spillPa = w.spillPa) (hx : ended r w v (w.pc + BitVec.ofNat 64 r.len) = x) : RunsIn i s s' w x := by
  have h1 : s'.wave? w.uid = some w := by
    have : s'.wave? w.uid = s.wave? w.uid := by simp [State.wave?, hwa]
    rw [this, wave_uid hr.current, hr.current]
  obtain ⟨t, w', e1, e2, e3, e4⟩ := issue_ok hr hf hb (by rw [hpo]; exact hr.clean) huid hcore hpa (by rw [h1]; rfl)
  exact ⟨t, w', he.trans e1, e2, hx ▸ e3, e4⟩

/-- The same of one that goes on elsewhere. -/
theorem runs_jump {i : Instr} {r : Req} {body : Body} {s : State} {w v x : Wave} {pc : Word} (hr : Ready r.h s w) (hf : r.Fits s w)
    (he : exec i s = issue r body s) (hb : body s w ((w.freeV r.fv).freeQ r.fq) = .jump s v pc)
    (huid : v.uid = w.uid) (hcore : v.core = w.core)
    (hpa : v.spillPa = w.spillPa) (hx : ended r w v pc = x) : RunsIn i s s w x := by
  obtain ⟨t, w', e1, e2, e3, e4⟩ := issue_jump hr hf hb hr.clean huid hcore hpa (by rw [wave_uid hr.current, hr.current]; rfl)
  exact ⟨t, w', he.trans e1, e2, hx ▸ e3, e4⟩

/-- Where nothing is outstanding or spilled, a plain instruction waits for nothing. -/
theorem fits_open {h : Head} {s : State} {w : Wave} (hr : Open h s w) (r : Req) (hp : plainOpc r.opc = true) (hs : r.sideWait = false)
    (hd : r.drains = false) (hn : r.denied = false) : r.Fits s w := by
  simp [plainOpc] at hp
  obtain ⟨⟨⟨⟨p1, p2⟩, p3⟩, p4⟩, p5⟩ := hp
  exact ⟨by simp [p1], by simp [p2, p3], owesPend_plain w r hs p5, sideHolds_plain s w r hs p5, by simp [Wave.depends, hr.board], by simp [hd], by simp [hr.whole], hn⟩

/-- The end of a plain instruction. -/
theorem ended_plain (r : Req) (w v : Wave) (pc : Word) (hp : plainOpc r.opc = true) (hb : w.inProg = .none)
    (hv : v.inProg = w.inProg) : ended r w v pc = { v.killDefs w.defs.length (r.writesV w.em) (r.writesQ w.em) with pc := pc } := by
  simp [plainOpc] at hp
  obtain ⟨⟨⟨⟨p1, p2⟩, p3⟩, p4⟩, p5⟩ := hp
  simp [ended, p3, p4, Wave.killDefs, hv, hb]

/-- The same of one that writes no vector or q register. -/
theorem ended_nowrite (r : Req) (w v : Wave) (pc : Word) (hp : plainOpc r.opc = true) (hb : w.inProg = .none)
    (hv : v.inProg = w.inProg) (hwv : r.wv = []) (hwq : r.wq = []) : ended r w v pc = { v with pc := pc } := by
  simp [plainOpc] at hp
  obtain ⟨⟨⟨⟨p1, p2⟩, p3⟩, p4⟩, p5⟩ := hp
  simp [ended, p3, p4, Req.writesV, Req.writesQ, hwv, hwq, killDefs_nil, hv, hb]

end Sys2Proof.Machine
end

