-- ==== Sys2Proof/Laws/Access.lean ====
section
/-! SUPPORT. What a memory instruction's lookups and placings can do to the state (R185, R189, R320): they take identities and
free values, empty caches as walks acquire, add TLB entries that a walk gave or the die's TLB held, and add fault records. -/

namespace Sys2Proof.Machine

/-! ## Walks -/

/-- The state with other identities, TLBs, fault records and caches: nothing a walk reads. -/
def State.over (s : State) (n : Nat) (tl : List TlbEntry) (f : List FaultRec) (c : List CacheEntry) : State :=
  { s with nextUid := n, tlb := tl, faults := f, caches := c }

/-- A walk's own effect: free values drawn, and caches emptied (R39, R319). -/
def State.walked (s t : State) : Prop := t = { s with drawn := t.drawn, caches := t.caches }

theorem readHome_over (s : State) (n : Nat) (tl : List TlbEntry) (f : List FaultRec) (c : List CacheEntry) (path : List NodeId)
    (a : Nat) : (s.over n tl f c).readHome path a = ((s.readHome path a).1, (s.readHome path a).2.over n tl f c) := by
  have e : ∀ x, wbByte (s.over n tl f c).wb x a = wbByte s.wb x a := fun _ => rfl
  have p : (s.over n tl f c).poisonAt (.mem a) = s.poisonAt (.mem a) := rfl
  have q : (s.over n tl f c).reachable a = s.reachable a := rfl
  unfold State.readHome
  simp only [e, p, q]
  split
  · split <;> rfl
  · split <;> rfl

theorem readHome_same (s : State) (path : List NodeId) (a : Nat) :
    (s.readHome path a).2 = { s with drawn := (s.readHome path a).2.drawn } := by
  simp only [State.readHome]
  split <;> split <;> rfl

/-- A byte that no write buffer holds, readable and of no register window, reads from M as it stands. -/
theorem readHome_plain {s : State} (path : List NodeId) {a : Nat} (hw : s.wb = []) (hp : s.poison = []) (hr : s.reachable a = true)
    (hd : deviceWindow a = false) : s.readHome path a = (s.mem.read a, s) := by
  have h : firstOf (fun n => wbByte s.wb n a) path = none := by
    rw [hw]
    induction path with
    | nil => rfl
    | cons n ns ih => exact ih
  simp [State.readHome, h, State.poisonAt, hp, hr, hd]

/-- So do `n` of them. -/
theorem readHomes_plain {s : State} (path : List NodeId) {pa n : Nat} (hw : s.wb = []) (hp : s.poison = [])
    (hr : ∀ i < n, s.reachable (pa + i) = true ∧ deviceWindow (pa + i) = false) :
    s.readHomes path pa n = (s.mem.readN pa n, s) := by
  induction n with
  | zero => rfl
  | succ n ih =>
    have h := ih (fun i hi => hr i (by omega))
    simp only [State.readHomes, List.range_succ, List.foldl_append, List.foldl_cons, List.foldl_nil] at h ⊢
    rw [h, readHome_plain path hw hp (hr n (by omega)).1 (hr n (by omega)).2]
    simp [Memory.readN, List.range_succ]

/-- A key that no line of the range stands apart from reads as no key does. -/
theorem readHomes_key {s : State} (path : List NodeId) {pa n : Nat} {k : BitVec 8} (hk : ∀ l, s.keyDiffers k l = false) (hw : s.wb = [])
    (hp : s.poison = []) (hr : ∀ i < n, s.reachable (pa + i) = true ∧ deviceWindow (pa + i) = false) :
    s.readHomes path pa n (some k) = (s.mem.readN pa n, s) := by
  have one : ∀ i < n, s.readHome path (pa + i) (some k) = s.readHome path (pa + i) := fun i hi => by
    simp only [State.readHome, State.readM, hk]
    split <;> rfl
  induction n with
  | zero => rfl
  | succ n ih =>
    have h := ih (fun i hi => hr i (by omega)) (fun i hi => one i (by omega))
    simp only [State.readHomes, List.range_succ, List.foldl_append, List.foldl_cons, List.foldl_nil] at h ⊢
    rw [h, one n (by omega), readHome_plain path hw hp (hr n (by omega)).1 (hr n (by omega)).2]
    simp [Memory.readN, List.range_succ]

/-- With no cache there is none to empty. -/
theorem emptyBelow_nil {s : State} (hc : s.caches = []) (path : List NodeId) (level : Nat) : s.emptyBelow path level = s := by
  cases s
  cases hc
  rfl

/-- So does a table entry, where there is no cache to empty. -/
theorem readEntry_plain {s : State} (path : List NodeId) {pa : Nat} (hw : s.wb = []) (hp : s.poison = []) (hc : s.caches = [])
    (hr : ∀ i < 8, s.reachable (pa + i) = true ∧ deviceWindow (pa + i) = false) :
    s.readEntry path pa = (leVal (s.mem.readN pa 8), s) := by
  simp only [State.readEntry, readHomes_plain path hw hp hr, emptyBelow_nil hc]

theorem readHomes_over (n : Nat) (tl : List TlbEntry) (f : List FaultRec) (c : List CacheEntry) (path : List NodeId) (s : State)
    (pa k : Nat) : (s.over n tl f c).readHomes path pa k = ((s.readHomes path pa k).1, (s.readHomes path pa k).2.over n tl f c) := by
  unfold State.readHomes
  generalize List.range k = l
  have key : ∀ (l : List Nat) (b : List Byte) (s : State),
      l.foldl (fun (x : List Byte × State) i => (x.1 ++ [(x.2.readHome path (pa + i)).1], (x.2.readHome path (pa + i)).2))
        (b, s.over n tl f c) =
      ((l.foldl (fun (x : List Byte × State) i => (x.1 ++ [(x.2.readHome path (pa + i)).1], (x.2.readHome path (pa + i)).2))
        (b, s)).1,
       (l.foldl (fun (x : List Byte × State) i => (x.1 ++ [(x.2.readHome path (pa + i)).1], (x.2.readHome path (pa + i)).2))
        (b, s)).2.over n tl f c) := by
    intro l
    induction l with
    | nil => intro b s; rfl
    | cons i l ih =>
      intro b s
      simp only [List.foldl_cons, readHome_over]
      exact ih _ _
  exact key l [] s

theorem readHomes_same (path : List NodeId) (s : State) (pa k : Nat) :
    (s.readHomes path pa k).2 = { s with drawn := (s.readHomes path pa k).2.drawn } := by
  unfold State.readHomes
  generalize List.range k = l
  have key : ∀ (l : List Nat) (b : List Byte) (t : State), t = { s with drawn := t.drawn } →
      (l.foldl (fun (x : List Byte × State) i => (x.1 ++ [(x.2.readHome path (pa + i)).1], (x.2.readHome path (pa + i)).2))
        (b, t)).2 = { s with drawn := (l.foldl (fun (x : List Byte × State) i =>
          (x.1 ++ [(x.2.readHome path (pa + i)).1], (x.2.readHome path (pa + i)).2)) (b, t)).2.drawn } := by
    intro l
    induction l with
    | nil => intro b t h; exact h
    | cons i l ih =>
      intro b t h
      simp only [List.foldl_cons]
      apply ih
      rw [readHome_same t, h]
  exact key l [] s rfl

theorem readEntry_over (n : Nat) (tl : List TlbEntry) (f : List FaultRec) (c : List CacheEntry) (path : List NodeId) (s : State)
    (pa : Nat) : ∃ c', (s.over n tl f c).readEntry path pa = ((s.readEntry path pa).1, (s.readEntry path pa).2.over n tl f c') := by
  refine ⟨(State.emptyBelow (s.over n tl f c) path 5).caches, ?_⟩
  simp only [State.readEntry, readHomes_over]
  rfl

theorem readEntry_walked (s : State) (path : List NodeId) (pa : Nat) : s.walked (s.readEntry path pa).2 := by
  simp only [State.walked, State.readEntry, State.emptyBelow]
  rw [readHomes_same]

theorem State.walked.trans {s t u : State} (h : s.walked t) (g : t.walked u) : s.walked u := by
  unfold State.walked at h g ⊢
  rw [g, h]

theorem State.walked.refl (s : State) : s.walked s := rfl

theorem midEntry_over (s : State) (n : Nat) (tl : List TlbEntry) (f : List FaultRec) (c : List CacheEntry) (e : Nat) :
    (s.over n tl f c).midEntry e = s.midEntry e := rfl

theorem lastEntry_over (s : State) (n : Nat) (tl : List TlbEntry) (f : List FaultRec) (c : List CacheEntry) (e : Nat) :
    (s.over n tl f c).lastEntry e = s.lastEntry e := rfl

/-- A walk answers from what it reads alone. -/
theorem walk_over (n : Nat) (tl : List TlbEntry) (f : List FaultRec) (c : List CacheEntry) (path : List NodeId) (s : State)
    (ptb va : Nat) : ∃ c', (s.over n tl f c).walk path ptb va = ((s.walk path ptb va).1.over n tl f c', (s.walk path ptb va).2) := by
  unfold State.walk
  split
  · exact ⟨c, rfl⟩
  · obtain ⟨c1, h1⟩ := readEntry_over n tl f c path s (ptb + 8 * (va / 2 ^ 38 % 2 ^ 14))
    rw [h1]
    simp only
    split
    · exact ⟨c1, rfl⟩
    · exact ⟨c1, rfl⟩
    · next p1 _ =>
      generalize (s.readEntry path (ptb + 8 * (va / 2 ^ 38 % 2 ^ 14))).2 = s1
      obtain ⟨c2, h2⟩ := readEntry_over n tl f c1 path s1 (p1 + 8 * (va / 2 ^ 25 % 2 ^ 13))
      rw [h2]
      simp only [midEntry_over]
      split
      · exact ⟨c2, rfl⟩
      · exact ⟨c2, rfl⟩
      · next p0 _ =>
        generalize (s1.readEntry path (p1 + 8 * (va / 2 ^ 25 % 2 ^ 13))).2 = s2
        obtain ⟨c3, h3⟩ := readEntry_over n tl f c2 path s2 (p0 + 8 * (va / 2 ^ 16 % 2 ^ 9))
        rw [h3]
        exact ⟨c3, rfl⟩

/-- What a walk does to the state. -/
theorem walk_walked (s : State) (path : List NodeId) (ptb va : Nat) : s.walked (s.walk path ptb va).1 := by
  unfold State.walk
  split
  · exact .refl s
  · have h1 := readEntry_walked s path (ptb + 8 * (va / 2 ^ 38 % 2 ^ 14))
    simp only
    split
    · exact h1
    · exact h1
    · next p1 _ =>
      have h2 := h1.trans (readEntry_walked _ path (p1 + 8 * (va / 2 ^ 25 % 2 ^ 13)))
      split
      · exact h2
      · exact h2
      · exact h2.trans (readEntry_walked _ path _)

/-- A walk looks at an address's page, and a walk that ends at a large leaf at its 32 MiB only. -/
theorem walk_page (s : State) (path : List NodeId) (ptb va va' : Nat) (l : Leaf) (h : (s.walk path ptb va).2 = .ok l)
    (he : if l.big then va / 2 ^ 25 = va' / 2 ^ 25 else va / 65536 = va' / 65536) : (s.walk path ptb va').2 = .ok l := by
  have h1 : va / 2 ^ 25 = va' / 2 ^ 25 := by split at he <;> omega
  have h2 : va' / 2 ^ 38 = va / 2 ^ 38 := by omega
  have h3 : va' / 2 ^ 25 = va / 2 ^ 25 := h1.symm
  unfold State.walk at h ⊢
  simp only [h2, h3]
  simp only at h
  split at h
  · simp at h
  · next c0 =>
    rw [if_neg c0]
    split at h
    · simp at h
    · simp at h
    · next p1 e1 =>
      split at h
      · simp at h
      · next l' e2 => exact h
      · next p0 e2 =>
        have hb : l.big = false := by
          unfold State.lastEntry at h
          split at h
          · simp at h
          · split at h
            · simp at h
            · simp only [Except.ok.injEq] at h; rw [← h]; rfl
        have h4 : va' / 2 ^ 16 = va / 2 ^ 16 := by
          rw [hb] at he; simp at he; omega
        rw [h4]
        exact h

/-! ## Lookups -/

/-- A walk of the space finds this leaf at an address, the free values at hand being those from some place of the supply. -/
def WalkFinds (s : State) (c : CoreId) (asid va : Nat) (l : Leaf) : Prop :=
  ∃ a d, s.space? asid = some a ∧ (({ s with drawn := d } : State).walk (corePath c) a.ptb.toNat va).2 = .ok l

/-- `t` is `s` after lookups of one core in one address space: more TLB entries, each a copy of one of its die's or from a walk,
and more fault records. -/
structure Looked (s t : State) (c : CoreId) (asid : Nat) : Prop where
  same : t = { s with nextUid := t.nextUid, drawn := t.drawn, tlb := t.tlb, faults := t.faults, caches := t.caches }
  tlb : ∀ e ∈ t.tlb, e ∈ s.tlb ∨ (∃ o ∈ s.tlb, o.core.die = c.die ∧ e = { o with id := e.id, core := c }) ∨
    (e.core = c ∧ e.asid = asid ∧ ∃ va, e.vpage = va / 65536 ∧ WalkFinds s c asid va e.leaf)
  faults : ∀ f ∈ s.faults, f ∈ t.faults

theorem Looked.refl (s : State) (c : CoreId) (asid : Nat) : Looked s s c asid :=
  ⟨rfl, fun _ h => .inl h, fun _ h => h⟩

theorem walkFinds_same {s t : State}
    (h : t = { s with nextUid := t.nextUid, drawn := t.drawn, tlb := t.tlb, faults := t.faults, caches := t.caches })
    {c : CoreId} {asid va : Nat} {l : Leaf} (g : WalkFinds t c asid va l) : WalkFinds s c asid va l := by
  obtain ⟨a, d, h1, h2⟩ := g
  refine ⟨a, d, ?_, ?_⟩
  · rw [h] at h1; exact h1
  · have e : ({ t with drawn := d } : State) = ({ s with drawn := d } : State).over t.nextUid t.tlb t.faults t.caches := by
      rw [h]; rfl
    rw [e] at h2
    obtain ⟨c', e'⟩ := walk_over t.nextUid t.tlb t.faults t.caches (corePath c) ({ s with drawn := d } : State) a.ptb.toNat va
    rw [e'] at h2
    exact h2

theorem space_same {s t : State}
    (h : t = { s with nextUid := t.nextUid, drawn := t.drawn, tlb := t.tlb, faults := t.faults, caches := t.caches })
    (a : Nat) : t.space? a = s.space? a := by
  rw [h]; rfl

theorem Looked.trans {s t u : State} {c : CoreId} {asid : Nat} (h : Looked s t c asid) (g : Looked t u c asid) :
    Looked s u c asid := by
  refine ⟨?_, ?_, fun f hf => g.faults f (h.faults f hf)⟩
  · rw [g.same, h.same]
  · intro e he
    rcases g.tlb e he with he | ⟨o, ho, hd, he'⟩ | ⟨h1, h2, va, h3, h4⟩
    · exact h.tlb e he
    · rcases h.tlb o ho with ho | ⟨o', ho', hd', hee⟩ | ⟨h1, h2, va, h3, h4⟩
      · exact .inr (.inl ⟨o, ho, hd, he'⟩)
      · exact .inr (.inl ⟨o', ho', hd', by rw [he', hee]⟩)
      · exact .inr (.inr ⟨by rw [he'], by rw [he']; exact h2, va, by rw [he']; exact h3, by rw [he']; exact h4⟩)
    · exact .inr (.inr ⟨h1, h2, va, h3, walkFinds_same h.same h4⟩)

/-- A leaf that translates an address for a core: of a TLB entry of its die live for it, or of a walk. -/
def LeafFor (s : State) (c : CoreId) (asid va : Nat) (l : Leaf) : Prop :=
  (∃ e ∈ s.tlb, e.leaf = l ∧ e.asid = asid ∧ e.core.die = c.die ∧ s.clk < e.expiry ∧
    if l.big then e.vpage / 512 = va / 2 ^ 25 else e.vpage = va / 65536) ∨ WalkFinds s c asid va l

theorem walkFinds_page {s : State} {c : CoreId} {asid va va' : Nat} {l : Leaf} (h : WalkFinds s c asid va l)
    (he : if l.big then va / 2 ^ 25 = va' / 2 ^ 25 else va / 65536 = va' / 65536) : WalkFinds s c asid va' l := by
  obtain ⟨a, d, h1, h2⟩ := h
  exact ⟨a, d, h1, walk_page _ _ _ va va' l h2 he⟩

/-- A leaf of 32 MiB translates every part of it. -/
theorem leafFor_big {s : State} {c : CoreId} {asid va va' : Nat} {l : Leaf} (h : LeafFor s c asid va l) (hb : l.big = true)
    (he : va / 2 ^ 25 = va' / 2 ^ 25) : LeafFor s c asid va' l := by
  rcases h with ⟨e, h1, h2, h3, h4, h5, h6⟩ | h
  · refine .inl ⟨e, h1, h2, h3, h4, h5, ?_⟩
    rw [hb] at h6 ⊢
    simp only [if_true] at h6 ⊢
    omega
  · exact .inr (walkFinds_page h (by rw [hb]; simpa using he))

/-- A leaf found after other lookups was there before them, or a walk would have found it. -/
theorem leafFor_looked {s t : State} {c : CoreId} {asid va : Nat} {l : Leaf} (h : Looked s t c asid) (g : LeafFor t c asid va l) :
    LeafFor s c asid va l := by
  rcases g with ⟨e, he, h1, h2, h3, h4, h5⟩ | g
  · have hc : s.clk < e.expiry := by rw [h.same] at h4; exact h4
    rcases h.tlb e he with he | ⟨o, ho, hd, hee⟩ | ⟨_, _, v, hv, hw⟩
    · exact .inl ⟨e, he, h1, h2, h3, hc, h5⟩
    · refine .inl ⟨o, ho, ?_, ?_, hd, ?_, ?_⟩
      · rw [hee] at h1; exact h1
      · rw [hee] at h2; exact h2
      · rw [hee] at hc; exact hc
      · rw [hee] at h5; exact h5
    · refine .inr (walkFinds_page (h1 ▸ hw) ?_)
      split at h5 <;> rename_i hb <;> simp only [hb, if_true, if_false, Bool.false_eq_true] <;> omega
  · exact .inr (walkFinds_same h.same g)

/-- The entry a TLB gives is one of those that match. -/
theorem tlbPick_spec : ∀ (l : List TlbEntry) (s : State), (s.tlbPick l).1 = { s with drawn := (s.tlbPick l).1.drawn } ∧
    ∀ e, (s.tlbPick l).2 = some e → e ∈ l
  | [], s => ⟨rfl, by simp [State.tlbPick]⟩
  | e :: es, s => by
    obtain ⟨h1, h2⟩ := tlbPick_spec es (s.drawBit).2
    simp only [State.tlbPick]
    split
    · exact ⟨rfl, by simp⟩
    · refine ⟨?_, fun x hx => List.mem_cons_of_mem _ (h2 x hx)⟩
      rw [h1]; rfl

theorem tlbMatches_spec {s : State} {asid va : Nat} {mine : TlbEntry → Bool} {e : TlbEntry} (h : e ∈ s.tlbMatches asid va mine) :
    e ∈ s.tlb ∧ mine e = true ∧ e.asid = asid ∧ s.clk < e.expiry ∧
      if e.leaf.big then e.vpage / 512 = va / 2 ^ 25 else e.vpage = va / 65536 := by
  simp only [State.tlbMatches, List.mem_append, List.mem_filter, Bool.and_eq_true, decide_eq_true_eq, beq_iff_eq,
    Bool.not_eq_true'] at h
  rcases h with ⟨h1, ⟨⟨⟨h2, h3⟩, h4⟩, h5⟩, h6⟩ | ⟨h1, ⟨⟨⟨h2, h3⟩, h4⟩, h5⟩, h6⟩
  · exact ⟨h1, h2, h3, h4, by simp [h5, h6]⟩
  · exact ⟨h1, h2, h3, h4, by simp [h5, h6]⟩

/-- What a lookup can answer (R185). -/
theorem lookup_spec (s : State) (c : CoreId) (asid va : Nat) :
    Looked s (s.lookup c asid va).1 c asid ∧ ∀ x, (s.lookup c asid va).2 = .ok x →
      LeafFor s c asid va x.leaf ∧ x.base = x.leaf.page va := by
  have drawn : ∀ {t u : State}, t = { s with drawn := t.drawn } → u = { t with drawn := u.drawn } → u = { s with drawn := u.drawn } := by
    intro t u h g; rw [g, h]
  have look : ∀ {t : State}, t = { s with drawn := t.drawn } → Looked s t c asid := by
    intro t h
    refine ⟨by rw [h], ?_, ?_⟩
    · intro e he; rw [h] at he; exact .inl he
    · intro f hf; rw [h]; exact hf
  unfold State.lookup
  obtain ⟨a1, a2⟩ := tlbPick_spec (s.tlbMatches asid va (fun e => e.core == c)) s
  generalize s.tlbPick (s.tlbMatches asid va (fun e => e.core == c)) = r1 at a1 a2
  obtain ⟨t, o⟩ := r1
  simp only at a1 a2
  cases o with
  | some e =>
    obtain ⟨h1, h2, h3, h4, h5⟩ := tlbMatches_spec (a2 e rfl)
    refine ⟨look a1, ?_⟩
    intro x hx
    simp only [Except.ok.injEq] at hx
    subst hx
    exact ⟨.inl ⟨e, h1, rfl, h3, by simp at h2; rw [h2], h4, h5⟩, rfl⟩
  | none =>
    simp only
    obtain ⟨b1, b2⟩ := tlbPick_spec (t.tlbMatches asid va (fun e => e.core.die == c.die)) t
    generalize t.tlbPick (t.tlbMatches asid va (fun e => e.core.die == c.die)) = r2 at b1 b2
    obtain ⟨u, o⟩ := r2
    simp only at b1 b2
    have hu := drawn a1 b1
    cases o with
    | some e =>
      obtain ⟨h1, h2, h3, h4, h5⟩ := tlbMatches_spec (b2 e rfl)
      have h1' : e ∈ s.tlb := by rw [a1] at h1; exact h1
      have h4' : s.clk < e.expiry := by rw [a1] at h4; exact h4
      have h2' : e.core.die = c.die := by simpa using h2
      have hl := look hu
      refine ⟨⟨?_, ?_, ?_⟩, ?_⟩
      · simp only [State.fresh]; rw [hu]
      · intro x hx
        simp only [State.fresh] at hx
        split at hx
        · exact hl.tlb x hx
        · rcases List.mem_append.mp hx with hx | hx
          · exact hl.tlb x hx
          · rw [List.mem_singleton] at hx
            exact .inr (.inl ⟨e, h1', h2', by rw [hx]⟩)
      · intro f hf; exact hl.faults f hf
      · intro x hx
        simp only [Except.ok.injEq] at hx
        subst hx
        exact ⟨.inl ⟨e, h1', rfl, h3, h2', h4', h5⟩, rfl⟩
    | none =>
      simp only
      have hl := look hu
      split
      · exact ⟨hl, by simp⟩
      · next a ha =>
        rw [space_same hl.same] at ha
        have hw := walk_walked u (corePath c) a.ptb.toNat va
        have hf : ∀ l, (u.walk (corePath c) a.ptb.toNat va).2 = .ok l → WalkFinds s c asid va l := by
          intro l hh
          refine ⟨a, u.drawn, ha, ?_⟩
          rw [← hu]; exact hh
        generalize u.walk (corePath c) a.ptb.toNat va = r3 at hw hf
        obtain ⟨x, o⟩ := r3
        simp only at hw hf
        have hx : x = { s with drawn := x.drawn, caches := x.caches } := by
          unfold State.walked at hw; rw [hw, hu]
        cases o with
        | error y =>
          refine ⟨⟨?_, ?_, ?_⟩, by simp⟩
          · simp only; rw [hx]
          · intro e he; simp only at he; rw [hx] at he; exact .inl he
          · intro f hf; simp only; rw [hx]; exact hf
        | ok l =>
          have hwf := hf l rfl
          refine ⟨⟨?_, ?_, ?_⟩, ?_⟩
          · simp only [State.fresh]; rw [hx]
          · intro e he
            simp only [State.fresh, List.mem_append, List.mem_singleton] at he
            rcases he with he | rfl
            · rw [hx] at he; exact .inl he
            · exact .inr (.inr ⟨rfl, rfl, va, rfl, hwf⟩)
          · intro f hf; simp only [State.fresh]; rw [hx]; exact hf
          · intro y hy
            simp only [Except.ok.injEq] at hy
            subst hy
            exact ⟨.inr hwf, rfl⟩

/-- What a translation can answer (R319). -/
theorem translate_spec (s : State) (c : CoreId) (asid va : Nat) (n : Need) (priv : Bool) :
    Looked s (s.translate c asid va n priv).1 c asid ∧ ∀ x, (s.translate c asid va n priv).2 = .ok x →
      LeafFor s c asid va x.leaf ∧ x.base = x.leaf.page va ∧ x.leaf.allows n priv = true := by
  obtain ⟨h1, h2⟩ := lookup_spec s c asid va
  unfold State.translate
  generalize s.lookup c asid va = r at h1 h2
  obtain ⟨t, r⟩ := r
  cases r with
  | error y => exact ⟨h1, by simp⟩
  | ok x =>
    have := h2 x rfl
    simp only
    split
    · next ha =>
      refine ⟨h1, ?_⟩
      intro y hy
      simp only [Except.ok.injEq] at hy
      subst hy
      exact ⟨this.1, this.2, ha⟩
    · exact ⟨h1, by simp⟩

/-- A fault of a space that logs them has a record (R320). -/
theorem raiseFault_spec (s : State) (c : CoreId) (asid va : Nat) (n : Need) (why : Nat) (loc : BitVec 14) (seq : BitVec 32) (pc : Word)
    (hl : ∃ a, s.space? asid = some a ∧ field a.fltCfg 0 4 ≠ 0) :
    Looked s (s.raiseFault asid va n why loc seq pc).1 c asid ∧ ∃ f, (s.raiseFault asid va n why loc seq pc).2 = some f ∧
      ∃ y ∈ (s.raiseFault asid va n why loc seq pc).1.faults, y.id = f ∧ y.asid = asid ∧ y.page = va / 65536 ∧ y.kind = n.kind := by
  obtain ⟨a, h1, h2⟩ := hl
  unfold State.raiseFault
  simp only [h1, h2, if_false]
  split
  · next f hf =>
    refine ⟨Looked.refl s c asid, f.id, rfl, f, List.mem_of_find?_eq_some hf, rfl, ?_⟩
    have := List.find?_some hf
    simpa [and_assoc] using this
  · refine ⟨⟨rfl, fun _ h => .inl h, fun f hf => by simp [State.fresh, hf]⟩, s.nextUid, rfl, ?_⟩
    refine ⟨_, List.mem_append_right _ (List.mem_singleton.mpr rfl), rfl, rfl, rfl, rfl⟩

/-- What an instruction's lookups found of one page. -/
def Judged (s t : State) (c : CoreId) (asid : Nat) (n : Need) (priv : Bool) (p : Nat) : PageRes → Prop
  | .ok x => LeafFor s c asid (p * 65536) x.leaf ∧ x.base = x.leaf.page (p * 65536) ∧ x.leaf.allows n priv = true
  | .fault _ f => ∃ i, f = some i ∧ ∃ y ∈ t.faults, y.id = i ∧ y.asid = asid ∧ y.page = p ∧ y.kind = n.kind

/-- The leaves of 32 MiB an instruction has looked up, each at the number of its 32 MiB. -/
def BigFor (s : State) (c : CoreId) (asid : Nat) (big : List (Nat × Xlat)) : Prop :=
  ∀ b ∈ big, b.2.leaf.big = true ∧ ∃ va, va / 2 ^ 25 = b.1 ∧ LeafFor s c asid va b.2.leaf

/-- What an instruction's lookups can answer where faults are logged (R185, R320). -/
theorem pagesAt_spec (s0 : State) (w : Wave) (loc : BitVec 14) (n : Need) (o : Nat) : ∀ (ps : List Nat) (s : State) (big : List (Nat × Xlat)),
    Looked s0 s w.core (s0.asidOf w) → BigFor s0 w.core (s0.asidOf w) big →
    (∃ a, s0.space? (s0.asidOf w) = some a ∧ field a.fltCfg 0 4 ≠ 0) →
    let q := s.pagesAt w loc n true o ps big
    Looked s0 q.1 w.core (s0.asidOf w) ∧ (∀ f ∈ s.faults, f ∈ q.1.faults) ∧ q.2.map (fun x => x.1) = ps ∧
      ∀ x ∈ q.2, Judged s0 q.1 w.core (s0.asidOf w) n w.priv x.1 x.2
  | [], s, big, hs, _, _ => ⟨hs, fun _ h => h, rfl, by simp [State.pagesAt]⟩
  | p :: ps, s, big, hs, hb, hl => by
    have ea : ∀ {t : State}, Looked s0 t w.core (s0.asidOf w) → t.asidOf w = s0.asidOf w := by
      intro t h; rw [h.same]; rfl
    -- the lookup, or the leaf of 32 MiB that is known
    have found : ∃ t f, s.findPage w big p = (t, f) ∧ Looked s0 t w.core (s0.asidOf w) ∧ (∀ f ∈ s.faults, f ∈ t.faults) ∧
        ∀ x : Xlat, f = .ok x → LeafFor s0 w.core (s0.asidOf w) (p * 65536) x.leaf ∧ x.base = x.leaf.page (p * 65536) := by
      unfold State.findPage
      split
      · next b hf =>
        refine ⟨_, _, rfl, hs, fun _ h => h, ?_⟩
        intro x hx
        simp only [Except.ok.injEq] at hx
        subst hx
        obtain ⟨h1, va, h2, h3⟩ := hb b (List.mem_of_find?_eq_some hf)
        have h4 := List.find?_some hf
        simp only [beq_iff_eq] at h4
        exact ⟨leafFor_big h3 h1 (by omega), rfl⟩
      · obtain ⟨h1, h2⟩ := lookup_spec s w.core (s.asidOf w) (p * 65536)
        rw [ea hs] at h1 h2 ⊢
        exact ⟨_, _, rfl, hs.trans h1, h1.faults, fun x hx => ⟨leafFor_looked hs (h2 x hx).1, (h2 x hx).2⟩⟩
    obtain ⟨t, f, e1, ht, hft, hx⟩ := found
    unfold State.pagesAt
    rw [e1]
    clear e1
    -- what the rest of the pages adds
    have key : ∀ (big' : List (Nat × Xlat)) (u : State) (r : PageRes), BigFor s0 w.core (s0.asidOf w) big' →
        Looked s0 u w.core (s0.asidOf w) → (∀ f ∈ t.faults, f ∈ u.faults) → Judged s0 u w.core (s0.asidOf w) n w.priv p r →
        let q := u.pagesAt w loc n true o ps big'
        Looked s0 q.1 w.core (s0.asidOf w) ∧ (∀ f ∈ s.faults, f ∈ q.1.faults) ∧ (((p, r) :: q.2).map (fun x => x.1)) = p :: ps ∧
          ∀ x ∈ (p, r) :: q.2, Judged s0 q.1 w.core (s0.asidOf w) n w.priv x.1 x.2 := by
      intro big' u r hb' hu hfu hr
      obtain ⟨g1, g2, g3, g4⟩ := pagesAt_spec s0 w loc n o ps u big' hu hb' hl
      refine ⟨g1, fun f hf => g2 f (hfu f (hft f hf)), by simp [g3], ?_⟩
      intro x hx
      rcases List.mem_cons.mp hx with rfl | hx
      · revert hr
        cases r with
        | ok y => exact id
        | fault y f => rintro ⟨i, hi, z, hz, hh⟩; exact ⟨i, hi, z, g2 z hz, hh⟩
      · exact g4 x hx
    have hb' : BigFor s0 w.core (s0.asidOf w) (noteBig p f big) := by
      cases f with
      | error y => exact hb
      | ok x =>
        simp only [noteBig]
        split
        · next hbig =>
          intro b hm
          rcases List.mem_cons.mp hm with rfl | hm
          · exact ⟨hbig, p * 65536, by omega, (hx x rfl).1⟩
          · exact hb b hm
        · exact hb
    simp only
    cases hc : (f.bind fun x => x.check n w.priv) with
    | ok x =>
      have hxx : f = .ok x ∧ x.leaf.allows n w.priv = true := by
        cases f with
        | error y => simp [Except.bind] at hc
        | ok z =>
          simp only [Except.bind, Xlat.check] at hc
          split at hc
          · next ha =>
            simp only [Except.ok.injEq] at hc
            subst hc
            exact ⟨rfl, ha⟩
          · simp at hc
      exact key _ t (.ok x) hb' ht (fun _ h => h) ⟨(hx x hxx.1).1, (hx x hxx.1).2, hxx.2⟩
    | error y =>
      obtain ⟨k1, i, k2, z, z1, z2, z3, z4, z5⟩ := raiseFault_spec t w.core (t.asidOf w) (p * 65536) n y loc (w.nameSeq o) w.pc
        (by rw [ea ht]; simpa [space_same ht.same] using hl)
      rw [ea ht] at k1 z3
      simp only [if_true]
      rw [ea ht] at z1 k2
      rw [ea ht]
      exact key _ _ (.fault y _) hb' (ht.trans k1) k1.faults ⟨i, k2, z, z1, z2, z3, by omega, z5⟩

/-- The same of an instruction that issues where its wave stands. -/
theorem pages_spec (w : Wave) (n : Need) (o : Nat) (ps : List Nat) (s : State)
    (hl : ∃ a, s.space? (s.asidOf w) = some a ∧ field a.fltCfg 0 4 ≠ 0) :
    Looked s (s.pages w n true o ps).1 w.core (s.asidOf w) ∧ (s.pages w n true o ps).2.map (fun x => x.1) = ps ∧
      ∀ x ∈ (s.pages w n true o ps).2, Judged s (s.pages w n true o ps).1 w.core (s.asidOf w) n w.priv x.1 x.2 := by
  obtain ⟨h1, _, h3, h4⟩ := pagesAt_spec s w w.loc n o ps s [] (Looked.refl _ _ _) (by intro b hb; simp at hb) hl
  exact ⟨h1, h3, h4⟩

/-! ## Placing -/

/-- The access that placing makes of a want: at its home, on its translated page, or held by its page's fault. -/
def Made (s : State) (w : Wave) (k : Shared) (r : Reach) (pg : List (Nat × PageRes)) (x : Want) (a : Access) : Prop :=
  ∃ id, (∃ p, s.region w r (BitVec.ofNat 64 x.va) = .home p ∧ a = x.toAccess w k id (s.asidOf w) p none none) ∨
    (s.region w r (BitVec.ofNat 64 x.va) = .page ∧
      ((∃ t, pageOf pg x.va = some (.ok t) ∧ a = x.toAccess w k id (s.asidOf w) (.mem (t.base + x.va % 65536)) (some t) none) ∨
        ∃ y f, pageOf pg x.va = some (.fault y (some f)) ∧ a = x.toAccess w k id (s.asidOf w) (.mem 0) none (some f)))

/-- A want whose page faulted with a record. -/
def Faulted (s : State) (w : Wave) (r : Reach) (pg : List (Nat × PageRes)) (x : Want) : Prop :=
  s.region w r (BitVec.ofNat 64 x.va) = .page ∧ ∃ y f, pageOf pg x.va = some (.fault y (some f))

/-- Placing wants that stand at a home or on a page that the lookups judged. -/
theorem placeAll_spec (w : Wave) (k : Shared) (r : Reach) (pg : List (Nat × PageRes)) (hold : Bool) : ∀ (xs : List Want) (s : State),
    (∀ x ∈ xs, (∃ p, s.region w r (BitVec.ofNat 64 x.va) = .home p) ∨
      (s.region w r (BitVec.ofNat 64 x.va) = .page ∧ ((∃ t, pageOf pg x.va = some (.ok t)) ∨
        ∃ y f, pageOf pg x.va = some (.fault y (some f))))) →
    ∃ n l, placeAll w k r pg hold xs s = ({ s with nextUid := n, accs := s.accs ++ l }, []) ∧
      (hold = true → List.Forall₂ (Made s w k r pg) xs l) ∧ (∀ x ∈ xs, (∃ a ∈ l, Made s w k r pg x a) ∨ Faulted s w r pg x) ∧
      ∀ a ∈ l, ∃ x ∈ xs, Made s w k r pg x a ∧ (hold = false → ¬Faulted s w r pg x)
  | [], s, _ => ⟨s.nextUid, [], by simp [placeAll], fun _ => .nil, by simp, by simp⟩
  | x :: xs, s, h => by
    have hr : ∀ (n : Nat) (l : List Access) (y : Word),
        ({ s with nextUid := n, accs := l } : State).region w r y = s.region w r y := fun _ _ _ => rfl
    have step : ∀ (l0 : List Access), (hold = true → ∃ a, l0 = [a] ∧ Made s w k r pg x a) →
        ((∃ a ∈ l0, Made s w k r pg x a) ∨ Faulted s w r pg x) →
        (∀ a ∈ l0, Made s w k r pg x a ∧ (hold = false → ¬Faulted s w r pg x)) →
        ∃ n l, placeAll w k r pg hold xs { s with nextUid := s.nextUid + 1, accs := s.accs ++ l0 } =
            ({ s with nextUid := n, accs := s.accs ++ l }, []) ∧
          (hold = true → List.Forall₂ (Made s w k r pg) (x :: xs) l) ∧
          (∀ y ∈ x :: xs, (∃ a ∈ l, Made s w k r pg y a) ∨ Faulted s w r pg y) ∧
          ∀ a ∈ l, ∃ y ∈ x :: xs, Made s w k r pg y a ∧ (hold = false → ¬Faulted s w r pg y) := by
      intro l0 h0 h1 h2
      obtain ⟨n, l, e, a1, a2, a3⟩ := placeAll_spec w k r pg hold xs { s with nextUid := s.nextUid + 1, accs := s.accs ++ l0 }
        (fun y hy => h y (List.mem_cons_of_mem _ hy))
      refine ⟨n, l0 ++ l, by rw [e]; simp [List.append_assoc], ?_, ?_, ?_⟩
      · intro hh
        obtain ⟨a, rfl, ha⟩ := h0 hh
        exact .cons ha (a1 hh)
      · intro y hy
        rcases List.mem_cons.mp hy with rfl | hy
        · rcases h1 with ⟨a, ha, hm⟩ | hf
          · exact .inl ⟨a, List.mem_append_left _ ha, hm⟩
          · exact .inr hf
        · rcases a2 y hy with ⟨a, ha, hm⟩ | hf
          · exact .inl ⟨a, List.mem_append_right _ ha, hm⟩
          · exact .inr hf
      · intro a ha
        rcases List.mem_append.mp ha with ha | ha
        · exact ⟨x, List.mem_cons_self .., h2 a ha⟩
        · obtain ⟨y, hy, hm⟩ := a3 a ha
          exact ⟨y, List.mem_cons_of_mem _ hy, hm⟩
    rcases h x (List.mem_cons_self ..) with ⟨p, hp⟩ | ⟨hp, ⟨t, ht⟩ | ⟨y, f, hf⟩⟩
    · have m : Made s w k r pg x (x.toAccess w k s.nextUid (s.asidOf w) p none none) := ⟨_, .inl ⟨p, hp, rfl⟩⟩
      have nf : ¬Faulted s w r pg x := fun hh => by rw [hh.1] at hp; simp at hp
      obtain ⟨n, l, e, rest⟩ := step [x.toAccess w k s.nextUid (s.asidOf w) p none none] (fun _ => ⟨_, rfl, m⟩)
        (.inl ⟨_, List.mem_singleton.mpr rfl, m⟩) (fun a ha => by rw [List.mem_singleton.mp ha]; exact ⟨m, fun _ => nf⟩)
      refine ⟨n, l, ?_, rest⟩
      rw [← e]
      simp only [placeAll, State.fresh]
      have : ({ s with nextUid := s.nextUid + 1 } : State).region w r (BitVec.ofNat 64 x.va) = .home p := hp
      rw [this]
      rfl
    · have m : Made s w k r pg x (x.toAccess w k s.nextUid (s.asidOf w) (.mem (t.base + x.va % 65536)) (some t) none) :=
        ⟨_, .inr ⟨hp, .inl ⟨t, ht, rfl⟩⟩⟩
      have nf : ¬Faulted s w r pg x := fun ⟨_, y, f, hh⟩ => by rw [ht] at hh; simp at hh
      obtain ⟨n, l, e, rest⟩ := step [x.toAccess w k s.nextUid (s.asidOf w) (.mem (t.base + x.va % 65536)) (some t) none]
        (fun _ => ⟨_, rfl, m⟩)
        (.inl ⟨_, List.mem_singleton.mpr rfl, m⟩) (fun a ha => by rw [List.mem_singleton.mp ha]; exact ⟨m, fun _ => nf⟩)
      refine ⟨n, l, ?_, rest⟩
      rw [← e]
      simp only [placeAll, State.fresh]
      have : ({ s with nextUid := s.nextUid + 1 } : State).region w r (BitVec.ofNat 64 x.va) = .page := hp
      rw [this, ht]
      rfl
    · have m : Made s w k r pg x (x.toAccess w k s.nextUid (s.asidOf w) (.mem 0) none (some f)) := ⟨_, .inr ⟨hp, .inr ⟨y, f, hf, rfl⟩⟩⟩
      have hb : ({ s with nextUid := s.nextUid + 1 } : State).region w r (BitVec.ofNat 64 x.va) = .page := hp
      cases hold with
      | true =>
        obtain ⟨n, l, e, rest⟩ := step [x.toAccess w k s.nextUid (s.asidOf w) (.mem 0) none (some f)] (fun _ => ⟨_, rfl, m⟩)
          (.inl ⟨_, List.mem_singleton.mpr rfl, m⟩)
          (fun a ha => by rw [List.mem_singleton.mp ha]; exact ⟨m, fun hh => by simp at hh⟩)
        refine ⟨n, l, ?_, rest⟩
        rw [← e]
        simp only [placeAll, State.fresh]
        rw [hb, hf]
        rfl
      | false =>
        obtain ⟨n, l, e, rest⟩ := step [] (fun hh => by simp at hh) (.inr ⟨hp, y, f, hf⟩) (by simp)
        refine ⟨n, l, ?_, rest⟩
        rw [← e]
        simp only [placeAll, State.fresh]
        rw [hb, hf]
        simp

/-- Every page that a want stands on is looked up. -/
theorem pagesOf_mem (s : State) (w : Wave) (r : Reach) (xs : List Want) (x : Want) (hx : x ∈ xs)
    (hp : s.region w r (BitVec.ofNat 64 x.va) = .page) : x.va / 65536 ∈ s.pagesOf w r xs := by
  have key : ∀ (ys : List Want) (l : List Nat), (x ∈ ys ∨ x.va / 65536 ∈ l) →
      x.va / 65536 ∈ ys.foldl (fun l x => if l.contains (x.va / 65536) then l else l ++ [x.va / 65536]) l := by
    intro ys
    induction ys with
    | nil => intro l h; simpa using h
    | cons y ys ih =>
      intro l h
      apply ih
      rcases h with h | h
      · rcases List.mem_cons.mp h with rfl | h
        · right
          beta_reduce
          split
          · next hc => exact List.contains_iff_mem.mp hc
          · simp
        · exact .inl h
      · right
        beta_reduce
        split
        · exact h
        · exact List.mem_append_left _ h
  exact key _ _ (.inl (by simp [hx, hp]))

/-- What the lookups found of a want's page. -/
theorem pageOf_judged (s t : State) (w : Wave) (n : Need) (asid : Nat) (ps : List Nat) (pg : List (Nat × PageRes)) (va : Nat)
    (h1 : pg.map (fun x => x.1) = ps) (h2 : ∀ x ∈ pg, Judged s t w.core asid n w.priv x.1 x.2) (h3 : va / 65536 ∈ ps) :
    ∃ q, pageOf pg va = some q ∧ Judged s t w.core asid n w.priv (va / 65536) q := by
  rw [← h1] at h3
  obtain ⟨x, hx, he⟩ := List.mem_map.mp h3
  unfold pageOf
  cases hf : pg.find? (fun y => y.1 == va / 65536) with
  | none =>
    rw [List.find?_eq_none] at hf
    have := hf x hx
    simp [he] at this
  | some y =>
    have hy := List.find?_some hf
    have := h2 y (List.mem_of_find?_eq_some hf)
    simp at hy
    exact ⟨y.2, rfl, hy ▸ this⟩

end Sys2Proof.Machine
end

