-- ==== Sys2Proof/Laws/Encode.lean ====
section
/-! SUPPORT. Each field of an encoding decodes to what was encoded (R65 to R83); no statement about an instruction. -/

namespace Sys2Proof

/-! ## Bits of joined fields -/

theorem field_low {n m : Nat} (x : BitVec n) (y : BitVec m) (p k : Nat) (h : p + k ≤ m) :
    (x ++ y).extractLsb' p k = y.extractLsb' p k := by
  apply BitVec.eq_of_getLsbD_eq
  intro i hi
  simp [BitVec.getLsbD_append, hi, show p + i < m by omega]

theorem field_high {n m : Nat} (x : BitVec n) (y : BitVec m) (p k : Nat) (h : m ≤ p) :
    (x ++ y).extractLsb' p k = x.extractLsb' (p - m) k := by
  apply BitVec.eq_of_getLsbD_eq
  intro i hi
  simp [BitVec.getLsbD_append, hi, show ¬p + i < m by omega, show p + i - m = p - m + i by omega]

theorem field_all {n : Nat} (x : BitVec n) : x.extractLsb' 0 n = x := by
  apply BitVec.eq_of_getLsbD_eq
  intro i hi
  simp [hi]

theorem ofWord_toWord_s (r : RawS) : RawS.ofWord r.toWord = r := by
  cases r
  simp only [RawS.ofWord, RawS.toWord]
  simp (disch := omega) only [field_low, field_high, field_all, Nat.reduceSub]

theorem ofWord_toWord_v (r : RawV) : RawV.ofWord r.toWord = r := by
  cases r
  simp only [RawV.ofWord, RawV.toWord]
  simp (disch := omega) only [field_low, field_high, field_all, Nat.reduceSub]

theorem ofWord_toWord_n (r : RawN) : RawN.ofWord r.toWord = r := by
  cases r
  simp only [RawN.ofWord, RawN.toWord]
  simp (disch := omega) only [field_low, field_high, field_all, Nat.reduceSub]

theorem ofBits_toBits_op (r : RawOp) : RawOp.ofBits r.toBits = r := by
  cases r
  simp only [RawOp.ofBits, RawOp.toBits]
  simp (disch := omega) only [field_low, field_high, field_all, Nat.reduceSub]

theorem ofBits_toBits_mem (r : RawMem) : RawMem.ofBits r.toBits = r := by
  cases r
  simp only [RawMem.ofBits, RawMem.toBits]
  simp (disch := omega) only [field_low, field_high, field_all, Nat.reduceSub]

/-! ## Bytes -/

theorem leNat_leBytes : ∀ n x : Nat, leNat (leBytes n x) = x % 256 ^ n
  | 0, x => by simp [leBytes, leNat, Nat.mod_one]
  | n + 1, x => by
    simp only [leBytes, leNat, leNat_leBytes n, BitVec.toNat_ofNat]
    rw [show 256 ^ (n + 1) = 256 * 256 ^ n by ring, Nat.mod_mul]

@[simp] theorem leBytes_length : ∀ n x : Nat, (leBytes n x).length = n
  | 0, _ => rfl
  | n + 1, x => by simp [leBytes, leBytes_length n]

/-! ## Fields -/

theorem finOf_ofNat (n k : Nat) (x : Fin n) (h : n ≤ 2 ^ k) : finOf n (BitVec.ofNat k x.val) = some x := by
  have hx := x.isLt
  simp [finOf, Nat.mod_eq_of_lt (show x.val < 2 ^ k by omega)]

@[simp] theorem boolBit_eq (b : Bool) : (boolBit b == 1) = b := by cases b <;> rfl

@[simp] theorem decGuard_enc (g : Guard) : decGuard (encGc g) (encGs g) (encGb g) = some g := by
  cases g <;> rfl

@[simp] theorem decPerm_enc (p : Perm) : decPerm (encPat p) (encAmt p) = some p := by
  cases p <;> rfl

@[simp] theorem decSrc_enc (x : VSrc) : decSrc (encSrc x) = some x := by
  cases x with
  | vec r p l =>
    simp only [decSrc, encSrc, ofBits_toBits_op, decPerm_enc, boolBit_eq]
    rfl
  | sca s =>
    simp only [decSrc, encSrc, ofBits_toBits_op]
    rw [finOf_ofNat 64 8 s (by decide)]
    rfl

@[simp] theorem decVec_enc (r : VNum) (p : Perm) (l : Bool) : decVec (encSrc (.vec r p l)) = some (.vec r p l) := by
  simp [decVec]

@[simp] theorem decSca_enc (s : SReg) : decSca (encSca s) = some s := by simp [decSca, encSca]

@[simp] theorem decGrp_enc (g : VGrp) : decGrp (encGrp g) = some g := by simp [decGrp, encGrp]

@[simp] theorem decQ_enc (q : QSrc) : decQ (encQ q) = some q := by
  have h := q.reg.isLt
  simp [decQ, encQ]

@[simp] theorem decSd_enc (s : SReg) : decSd (encSd s) = some s := finOf_ofNat 64 8 s (by decide)

@[simp] theorem decQd_enc (q : Fin 8) : decQd (encQd q) = some q := finOf_ofNat 8 8 q (by decide)

@[simp] theorem decOrd_enc (x : MOrd) : decOrd (encOrd x) = x := by cases x <;> rfl

@[simp] theorem decSzt_enc (x : Szt) : decSzt (encSzt x) = some x := by cases x <;> rfl

@[simp] theorem decAop_enc (x : Aop) : decAop (encAop x) = some x := by cases x <;> rfl

@[simp] theorem decCc_enc (x : Cc) : decCc (encCc x) = some x := by cases x <;> rfl

@[simp] theorem decFmt_enc (x : Fmt) : decFmt (encFmt x) = some x := by cases x <;> rfl

@[simp] theorem decEop_enc (x : Eop) : decEop (encEop x) = some x := by cases x <;> rfl

@[simp] theorem decScope_enc (x : Fin 6) : finOf 6 (encScope x) = some x := finOf_ofNat 6 3 x (by decide)

@[simp] theorem toFin_sbits (r : SReg) : (sbits r).toFin = r := rfl

@[simp] theorem toFin_vbits (r : VNum) : (vbits r).toFin = r := rfl

theorem decExt_enc (e : Vector (BitVec 12) 5) : decExt (encExt e) = e := by
  simp only [decExt, encExt]
  simp (disch := omega) only [field_low, field_high, field_all, Nat.reduceSub]
  ext i hi
  interval_cases i <;> rfl

theorem decStr_enc (e : Vector (BitVec 9) 15) : decStr (encStr e) = e := by
  simp only [decStr, encStr]
  simp (disch := omega) only [field_low, field_high, field_all, Nat.reduceSub]
  ext i hi
  interval_cases i <;> rfl

/-! ## Words -/

/-- Bytes of a word whose head and fields decode to a well-formed instruction decode to it. -/
theorem decode_word_s (r : RawS) (h : Head) (i : Instr) (rest : List Byte) (hl : r.len = 0) (hg : decGuard r.gc r.gs r.gb = some h.guard) (hy : (r.y == 1) = h.y)
    (hd : decodeS r h = some i) (hw : i.wf = true) : decode (leBytes 8 r.toWord.toNat ++ rest) = some (i, rest) := by
  have hlen := leBytes_length 8 r.toWord.toNat
  have hv : BitVec.ofNat 64 (leNat (leBytes 8 r.toWord.toNat)) = r.toWord := by
    rw [leNat_leBytes]; apply BitVec.eq_of_toNat_eq; simp; have := r.toWord.isLt; omega
  have hb : leBytes 8 r.toWord.toNat = BitVec.ofNat 8 r.toWord.toNat :: leBytes 7 (r.toWord.toNat / 256) := rfl
  have hlo : lenOf (BitVec.ofNat 8 r.toWord.toNat) = some 8 := by
    have : (BitVec.ofNat 8 r.toWord.toNat).extractLsb' 0 2 = r.len := by
      have := ofWord_toWord_s r
      have h2 : r.len = (RawS.ofWord r.toWord).len := by rw [this]
      rw [h2]
      simp only [RawS.ofWord]
      apply BitVec.eq_of_toNat_eq
      simp [BitVec.extractLsb'_toNat]
    simp only [lenOf, this, hl]; rfl
  have ht : (leBytes 8 r.toWord.toNat ++ rest).take 8 = leBytes 8 r.toWord.toNat := by
    rw [List.take_left' hlen]
  have hdr : (leBytes 8 r.toWord.toNat ++ rest).drop 8 = rest := by
    rw [List.drop_left' hlen]
  have hll : ¬ (leBytes 8 r.toWord.toNat ++ rest).length < 8 := by simp
  generalize hL : leBytes 8 r.toWord.toNat ++ rest = L at *
  have : L = BitVec.ofNat 8 r.toWord.toNat :: (leBytes 7 (r.toWord.toNat / 256) ++ rest) := by rw [← hL, hb]; rfl
  unfold decode
  rw [this]
  simp only [hlo]
  rw [← this]
  simp only [hll, if_false, ht, hv, decode64, ofWord_toWord_s, hg, hy, hdr]
  simp [checkWf, hd, hw]

/-- Bytes of a word whose head and fields decode to a well-formed instruction decode to it. -/
theorem decode_word_v (r : RawV) (h : Head) (i : Instr) (rest : List Byte) (hl : r.len = 1) (hg : decGuard r.gc r.gs r.gb = some h.guard) (hy : (r.y == 1) = h.y)
    (hd : decodeV r h = some i) (hw : i.wf = true) : decode (leBytes 16 r.toWord.toNat ++ rest) = some (i, rest) := by
  have hlen := leBytes_length 16 r.toWord.toNat
  have hv : BitVec.ofNat 128 (leNat (leBytes 16 r.toWord.toNat)) = r.toWord := by
    rw [leNat_leBytes]; apply BitVec.eq_of_toNat_eq; simp; have := r.toWord.isLt; omega
  have hb : leBytes 16 r.toWord.toNat = BitVec.ofNat 8 r.toWord.toNat :: leBytes 15 (r.toWord.toNat / 256) := rfl
  have hlo : lenOf (BitVec.ofNat 8 r.toWord.toNat) = some 16 := by
    have : (BitVec.ofNat 8 r.toWord.toNat).extractLsb' 0 2 = r.len := by
      have := ofWord_toWord_v r
      have h2 : r.len = (RawV.ofWord r.toWord).len := by rw [this]
      rw [h2]
      simp only [RawV.ofWord]
      apply BitVec.eq_of_toNat_eq
      simp [BitVec.extractLsb'_toNat]
    simp only [lenOf, this, hl]; rfl
  have ht : (leBytes 16 r.toWord.toNat ++ rest).take 16 = leBytes 16 r.toWord.toNat := by
    rw [List.take_left' hlen]
  have hdr : (leBytes 16 r.toWord.toNat ++ rest).drop 16 = rest := by
    rw [List.drop_left' hlen]
  have hll : ¬ (leBytes 16 r.toWord.toNat ++ rest).length < 16 := by simp
  generalize hL : leBytes 16 r.toWord.toNat ++ rest = L at *
  have : L = BitVec.ofNat 8 r.toWord.toNat :: (leBytes 15 (r.toWord.toNat / 256) ++ rest) := by rw [← hL, hb]; rfl
  unfold decode
  rw [this]
  simp only [hlo]
  rw [← this]
  simp only [hll, if_false, ht, hv, decode128, ofWord_toWord_v, hg, hy, hdr]
  simp [checkWf, hd, hw]

/-- Bytes of a word whose head and fields decode to a well-formed instruction decode to it. -/
theorem decode_word_n (r : RawN) (h : Head) (i : Instr) (rest : List Byte) (hl : r.len = 2) (hg : decGuard r.gc r.gs r.gb = some h.guard) (hy : (r.y == 1) = h.y)
    (hd : decodeN r h = some i) (hw : i.wf = true) : decode (leBytes 32 r.toWord.toNat ++ rest) = some (i, rest) := by
  have hlen := leBytes_length 32 r.toWord.toNat
  have hv : BitVec.ofNat 256 (leNat (leBytes 32 r.toWord.toNat)) = r.toWord := by
    rw [leNat_leBytes]; apply BitVec.eq_of_toNat_eq; simp; have := r.toWord.isLt; omega
  have hb : leBytes 32 r.toWord.toNat = BitVec.ofNat 8 r.toWord.toNat :: leBytes 31 (r.toWord.toNat / 256) := rfl
  have hlo : lenOf (BitVec.ofNat 8 r.toWord.toNat) = some 32 := by
    have : (BitVec.ofNat 8 r.toWord.toNat).extractLsb' 0 2 = r.len := by
      have := ofWord_toWord_n r
      have h2 : r.len = (RawN.ofWord r.toWord).len := by rw [this]
      rw [h2]
      simp only [RawN.ofWord]
      apply BitVec.eq_of_toNat_eq
      simp [BitVec.extractLsb'_toNat]
    simp only [lenOf, this, hl]; rfl
  have ht : (leBytes 32 r.toWord.toNat ++ rest).take 32 = leBytes 32 r.toWord.toNat := by
    rw [List.take_left' hlen]
  have hdr : (leBytes 32 r.toWord.toNat ++ rest).drop 32 = rest := by
    rw [List.drop_left' hlen]
  have hll : ¬ (leBytes 32 r.toWord.toNat ++ rest).length < 32 := by simp
  generalize hL : leBytes 32 r.toWord.toNat ++ rest = L at *
  have : L = BitVec.ofNat 8 r.toWord.toNat :: (leBytes 31 (r.toWord.toNat / 256) ++ rest) := by rw [← hL, hb]; rfl
  unfold decode
  rw [this]
  simp only [hlo]
  rw [← this]
  simp only [hll, if_false, ht, hv, decode256, ofWord_toWord_n, hg, hy, hdr]
  simp [checkWf, hd, hw]

end Sys2Proof
end

