-- ==== Sys2Proof/Laws/Skip.lean ====
section
/-! SUPPORT. What a skipped instruction does, whatever it is (R70, R71). -/

namespace Sys2Proof.Machine

/-- A skip moves the wave's pc behind the word, and touches besides it only its core's accounting. -/
theorem skip_only {r : Req} {s : State} {w : Wave} (hw : s.wave? s.cur = some w) :
    ∃ w', (skip r s w).wave? s.cur = some w' ∧ w'.same { w with pc := w.pc + BitVec.ofNat 64 r.len } ∧ Only s (skip r s w) w := by
  have hu := wave_uid hw
  simp only [skip]
  generalize hv : ({ w with pc := _, exempt := false, hold := .none, ready := 0, step := _ } : Wave) = v
  have hvu : v.uid = w.uid := by rw [← hv]
  have hvc : v.core = w.core := by rw [← hv]
  have hvs : v.same { w with pc := w.pc + BitVec.ofNat 64 r.len } := by rw [← hv]; simp [Wave.same]
  obtain ⟨a1, a2, a3⟩ := account_only (s.putWave v) v w.pc 3 0
  have hself : (s.putWave v).wave? v.uid = some v := wave_putWave_self s v (by rw [hvu, hu, hw]; rfl)
  generalize (s.putWave v).account v w.pc 3 0 = t at a1 a2 a3 ⊢
  have hfind : ∀ u, t.wave? u = (s.putWave v).wave? u := by intro u; rw [a1]; rfl
  refine ⟨v, ?_, hvs, ?_⟩
  · rw [hfind, ← hu, ← hvu, hself]
  · constructor
    · have hcw : t.cores = t.cores := rfl
      rw [a1]; rfl
    · intro u _; rw [a1]; rfl
    · intro u hu'
      rw [hfind, wave_putWave_other s v u (by rw [hvu]; exact hu')]
    · intro a _; rw [a1]; rfl
    · intro c hc
      rw [a2 c (by rw [hvc]; exact hc)]; rfl
    · have := a3
      rw [hvc] at this
      rw [this]; rfl

/-- An instruction whose guard is false is skipped; one marked `.y` has nothing to wait for. -/
theorem issue_skip {r : Req} {body : Body} {s : State} {w : Wave} (hw : s.wave? s.cur = some w)
    (hg : guardPasses r.h.guard w = false) (hc : ∀ u ∈ s.poison, unitWave u ≠ some w.uid)
    (hb : s.breakpoint w false = none) (hy : r.h.y = true → w.defs = [] ∧ w.pends = []) (hp : privOpc r.opc = true → w.priv = true)
    (hn : r.denied = false) : issue r body s = .next (skip r s w) := by
  have h1 : (privOpc r.opc && !w.priv || r.denied) = false := by
    rw [hn]; cases ho : privOpc r.opc <;> simp; exact hp ho
  simp only [issue, hw, issueWave, poisonedS_clean s w _ hc, hb, ite_self, guarded, h1, hg, Bool.false_eq_true, if_false]
  split
  · next h => rw [atSwitch_nil s w _ (hy h).1 (hy h).2]
  · rfl

end Sys2Proof.Machine
end

