-- ==== Sys2Proof/Tests/Slice0.lean ====
section
/-! SUPPORT. Tests on words that the spec writes out and on ill-formed terms, and for each statement a state and operands
that meet its hypotheses. -/

namespace Sys2Proof.Tests

-- One theorem at a time: each thread reserves its whole stack.
set_option Elab.async false

open Sys2Proof Sys2Proof.Machine

/-! ## Ill-formed terms (R88) -/

def h0 : Head := ⟨.always, false⟩
def hy : Head := ⟨.always, true⟩
def v1 : VSrc := .vec 1 .ident false
def v2 : VSrc := .vec 2 .ident false
def m0 : MemOp := ⟨5, .sca 0, 0⟩
def m20 : MemOp20 := ⟨5, .sca 0, 0⟩
def plain : MMod := ⟨.plain, 5, 0⟩
def rel : MMod := ⟨.rel, 3, 0⟩
def acq : MMod := ⟨.acq, 3, 0⟩

/-- A compare code, a bit field, a format or an operation that its instruction does not take. -/
theorem test_illformed_codes : ∀ i ∈ [Instr.scmp h0 1 2 3 .un, .vcmp h0 1 v1 v2 .un, .fcmp h0 1 v1 v2 .ltu, .sbfx h0 1 2 60 8,
    .sbfx h0 1 2 0 0, .sbfi h0 1 2 60 8, .vbfx h0 1 v1 30 4, .vbfi h0 1 v1 0 0, .pack h0 1 ⟨2, false⟩ .fp32, .unpk h0 1 v1 .bf16 2,
    .redu h0 1 v1 .cas, .scan h0 1 v1 .swap, .red h0 m20 v1 .swap plain], i.wf = false := by decide

/-- A group of registers that does not fit, or a source that must be a vector register. -/
theorem test_illformed_groups : ∀ i ∈ [Instr.pack h0 1 ⟨255, false⟩ .bf16, .qnt h0 255 v1 0, .vsqz h0 1 (.sca 3), .xev h0 v1 ⟨250, false⟩ false,
    .ld h0 255 m0 .dw plain, .lds h0 253 m0 .qw plain, .ldb h0 255 m0 .dw plain, .st h0 m0 (.vec 255 .ident false) .dw plain,
    .sts h0 m0 (.sca 3) .qw plain, .stb h0 m0 (.vec 254 .ident false) .qw plain, .atom h0 1 m20 (.vec 255 .ident false) .cas plain,
    .qsolvLu h0 1 ⟨2, false⟩ ⟨3, false⟩ (.sca 4), .cpyq h0 1 (.sca 2) (.sca 3), .mma h0 240 ⟨0, false⟩ ⟨16, false⟩ ⟨32, false⟩ 0 false,
    .mma h0 0 ⟨245, false⟩ ⟨16, false⟩ ⟨32, false⟩ 0 false, .mma h0 0 ⟨32, false⟩ ⟨245, false⟩ ⟨32, false⟩ 0 false,
    .mma h0 0 ⟨32, false⟩ ⟨48, false⟩ ⟨255, false⟩ 0 false, .tld h0 225 ⟨9, 0, 2, 5, 0x40, 0, 5⟩,
    .tst h0 ⟨9, 0, 2, 1, 0x40, 0, 5⟩ ⟨255, false⟩], i.wf = false := by decide

/-- An order, a scope, a dimension or a register number that its instruction does not take. -/
theorem test_illformed_fields : ∀ i ∈ [Instr.ld h0 1 m0 .w rel, .lds h0 1 m0 .w rel, .ldb h0 1 m0 .w rel, .st h0 m0 v1 .w acq,
    .sts h0 m0 v1 .w acq, .stb h0 m0 v1 .w acq, .red h0 m20 v1 .add acq, .fence h0 .plain 3, .tres h0 1 0 v1 1 2, .tsks h0 v1 v2 2,
    .qdim h0 1 0 3, .qdim h0 1 3 7, .qld h0 1 m0 rel, .qst h0 m0 ⟨1, false⟩ acq, .qget h0 1 ⟨1, false⟩ 6 0, .qput h0 1 v1 0 6,
    .srd h0 1 0x00D, .swr h0 0x171 1, .dbgmRead h0 1 0x034, .dbgmWrite h0 1 0x034 2,
    .nest h0 ⟨.mac, true, 0, Vector.replicate 5 1, Vector.replicate 15 0, 1, 2, 3⟩], i.wf = false := by decide

/-! ## Words of the spec -/

/-- Chapter 03: SADD, its immediate form, a guarded FADD with a rotation and a last use, LD.acq.die. -/
theorem test_words_formats :
    decodeTableWord 64 0x0000051030000018 = some (.sadd h0 3 4 5) ∧
    decodeTableWord 64 0xFFFFF810300000C0 = some (.saddImm h0 3 4 0xFFFFF8) ∧
    decodeTableWord 128 0x0000000000000000430320B0A3052805 =
      some (.fadd ⟨.ifSet 5 12, true⟩ 10 (.vec 11 (.rot 3) false) (.vec 12 .ident true)) ∧
    decodeTableWord 128 0x00000000340000800020005010001001 = some (.ld h0 1 m0 .w acq) := by decide +kernel

/-- Chapter 03: words that are no instruction. -/
theorem test_words_illegal : decodeTableWord 64 0x0800 = none ∧ decodeTableWord 64 0x0C78 = none ∧
    decodeTableWord 64 0x50018 = none ∧ decodeTableWord 64 0x1C48 = some (.haltHalt h0 0 0 0) := by decide +kernel

/-- Chapters 04, 07 and 08: NOPW, XEV.t, VCMP.eq with a last use, ST.rel.die, MWAIT, BAR. -/
theorem test_words_waves :
    decodeTableWord 64 0x158 = some (.nopw h0) ∧ decodeTableWord 64 0x15C = some (.nopw hy) ∧
    decodeTableWord 128 0x00000000040000000C0002800000_0CC1 = some (.xev h0 (.vec 40 .ident false) ⟨48, false⟩ true) ∧
    decodeTableWord 128 0x000000000000008002C01030D00004A9 = some (.vcmp h0 13 (.vec 3 .ident true) (.sca 11) .eq) ∧
    decodeTableWord 128 0x00000000380009800020005000001009 = some (.st h0 m0 (.vec 9 .ident false) .w rel) ∧
    decodeTableWord 64 0x0000002070001060 = some (.mwait h0 7 8) ∧ decodeTableWord 64 0x0000030000001080 = some (.bar h0 3) := by
  decide +kernel

/-- Chapter 03: NEST.add.fs3.red s1, s2, s4 with extents 1, 1, 1, 2, 3 and strides 1 to 15, its fields put at their bits. -/
theorem test_word_nest :
    decodeTableWord 256 (2 + 2 ^ 3 * 0x218 + 2 ^ 28 * 1 + 2 ^ 36 * 1 + 2 ^ 42 * 2 + 2 ^ 48 * 4 + 2 ^ 54 * 3 + 2 ^ 66 * 2 + 2 ^ 78 * 1 +
      2 ^ 90 * 1 + 2 ^ 102 * 1 + ((List.range 15).map (fun k => 2 ^ (114 + 9 * k) * (k + 1))).sum + 2 ^ 249 * 3 + 2 ^ 252) =
    some (.nest h0 ⟨.add, true, 3, #v[3, 2, 1, 1, 1], #v[1, 2, 3, 4, 5, 6, 7, 8, 9, 10, 11, 12, 13, 14, 15], 1, 2, 4⟩) := by
  decide +kernel

/-- Chapters 10, 12, 13, 15, 17 and 18: QLU, CPYQ.y, TSKL, TSKS.die, MMA, TLD, ERET, BRK, HALT.step. -/
theorem test_words_engines :
    decodeTableWord 128 0x00000000500000000000001030001469 = some (.qlu h0 3 20 ⟨1, false⟩) ∧
    decodeTableWord 128 0x0000000000000000052000C0A0001845 = some (.cpyq hy 10 (.sca 12) (.vec 20 .ident false)) ∧
    decodeTableWord 128 0x0000000000000000002000C0A0001881 = some (.tskl h0 10 12) ∧
    decodeTableWord 128 0x000000003000008002E000A000001889 = some (.tsks h0 (.sca 10) (.sca 11) 3) ∧
    decodeTableWord 128 0x000000000400C8000400000400001801 = some (.mma h0 64 ⟨0, false⟩ ⟨16, false⟩ ⟨200, false⟩ 1 false) ∧
    decodeTableWord 128 0x50001000500000800020009000001809 = some (.tld h0 0 ⟨9, 0, 2, 4, 0x40, 0, 5⟩) ∧
    decodeTableWord 64 0x1C08 = some (.eret h0) ∧ decodeTableWord 64 0x0000050000001C38 = some (.brk h0 5) ∧
    decodeTableWord 64 0x0000892070001C48 = some (.haltStep h0 7 8 9) := by decide +kernel

/-! ## A small machine: one wave of one cohort of one grid, and a page table of one 32 MiB page -/

/-- Slots fs0 FP32, fs1 BF16, fs2 MX scaled E4M3. -/
def slots : Vector (BitVec 16) 8 := #v[0x0001, 0x0011, 0x0035, 0, 0, 0, 0, 0]

def space : Space := { asid := 7, ptb := 0x2000000, trapBase := 0x40000, fltCfg := 4 }
def launch : LaunchRec :=
  { entry := 0x10000, waves := 1, ens := 1, ncoh := 1, regs := 16384, dies := 1, spad := 0x100000000, rwin := 0x200000000,
    fs := slots }
def grid : Grid := { uid := 2, asid := 7, agent := 0, entry := 0, launch := launch }
def cohort : Cohort :=
  { uid := 3, grid := 2, cid := 0, ens := 4, core := ⟨0, 0, 0⟩, place := .resident, nwaves := 1, spadBytes := 4096,
    started := true }
def ens : Ensemble := { uid := 4, cohorts := [3] }
def wave : Wave := { uid := 5, cohort := 3, widx := 0, core := ⟨0, 0, 0⟩, pc := 0x10000 }

/-- A table entry that points at the second table, and a leaf of a readable, writable, executable page for user state. -/
def tables : Memory := Memory.writeAll [] (placedBytes [])

def machine (w : Wave) : State :=
  { cur := 5, nextUid := 100, waves := [w], cohorts := [cohort], ensembles := [ens], grids := [grid], spaces := [space],
    mem := tables, mod := { ready := true } }

/-- A machine over the table, with nothing on its way to M. -/
structure Tabled (s : State) : Prop where
  mem : s.mem.readN placedRoot 8 = leOf 8 (placedTable + 1) ∧ s.mem.readN placedTable 8 = leOf 8 (placedFrame + 0x3F)
  spaces : s.space? 7 = some space
  wb : s.wb = []
  poison : s.poison = []
  caches : s.caches = []
  mod : s.mod = { ready := true }

theorem tabled_near {s : State} (h : Tabled s) {a : Nat} (ha : a < 0x6000000000) : s.reachable a = true ∧ deviceWindow a = false := by
  constructor
  · simp [State.reachable, h.mod]; omega
  · simp [deviceWindow]; omega

/-- A walk by the page's tables gives its leaf, whatever free values stand for what it cannot read. -/
theorem tabled_walk {s : State} (h : Tabled s) (path : List NodeId) {va : Nat} (hv : va < 2 ^ 25) :
    s.walk path placedRoot va = (s, .ok (leafOfEntry (placedFrame + 0x3F) true)) := by
  have e2 : va / 2 ^ 38 % 2 ^ 14 = 0 := by omega
  have e1 : va / 2 ^ 25 % 2 ^ 13 = 0 := by omega
  have f : s.frameOk (ebits (placedFrame + 0x3F) 12 40 * 4096) = true := by
    simp only [State.frameOk, h.mod]; decide
  have n (b : Nat) (hb : b < 0x5000000000) : ∀ i < 8, s.reachable (b + i) = true ∧ deviceWindow (b + i) = false :=
    fun i hi => tabled_near h (by omega)
  simp only [State.walk, e2, e1]
  rw [readEntry_plain path h.wb h.poison h.caches (n _ (by decide)), Nat.mul_zero, Nat.add_zero, h.mem.1]
  have r : rootEntry (leVal (leOf 8 (placedTable + 1))) = .table placedTable := by decide +kernel
  have m : s.midEntry (leVal (leOf 8 (placedFrame + 0x3F))) = .leaf (leafOfEntry (placedFrame + 0x3F) true) := by
    have v : leVal (leOf 8 (placedFrame + 0x3F)) = placedFrame + 0x3F := by decide +kernel
    simp only [State.midEntry, v, f]
    decide +kernel
  simp only [r, Nat.add_zero]
  rw [if_neg (by decide), readEntry_plain path h.wb h.poison h.caches (n _ (by decide)), h.mem.2]
  simp only [m]

/-- The translation of an address of the page. -/
def page (s : State) (va : Nat) : Xlat := ⟨0x4000000 + va / 65536 * 65536, leafOfEntry (placedFrame + 0x3F) true, ⟨7, va / 65536, s.clk, none⟩⟩

theorem tabled_probe {s : State} (h : Tabled s) (path : List NodeId) {va : Nat} (hv : va < 2 ^ 25) (n : Need) (hn : n ≠ .fetch) (b : Bool) :
    s.probe path 7 va n b = (s, .ok (page s va)) := by
  have l : (leafOfEntry (placedFrame + 0x3F) true).page va = 0x4000000 + va / 65536 * 65536 := by
    simp only [Leaf.page, show (leafOfEntry (placedFrame + 0x3F) true).big = true by decide,
      show (leafOfEntry (placedFrame + 0x3F) true).pa = 0x4000000 by decide]
    simp only [if_true]
    omega
  have a : (leafOfEntry (placedFrame + 0x3F) true).allows n true = true := by cases n <;> rfl
  have t : (leafOfEntry (placedFrame + 0x3F) true).mt = 0 := by decide
  simp only [State.probe, h.spaces, show space.ptb.toNat = placedRoot by decide, tabled_walk h path hv, l, a, t]
  rw [if_neg (by omega)]
  simp [page]

theorem tables_read : tables.readN placedRoot 8 = leOf 8 (placedTable + 1) ∧ tables.readN placedTable 8 = leOf 8 (placedFrame + 0x3F) := by
  decide +kernel

theorem machine_tabled (w : Wave) : Tabled (machine w) := ⟨tables_read, rfl, rfl, rfl, rfl, rfl⟩

theorem Tabled.redrawn {s : State} (h : Tabled s) (k : Nat) : Tabled { s with drawn := k } := ⟨h.mem, h.spaces, h.wb, h.poison, h.caches, h.mod⟩

theorem tabled_own {s : State} (h : Tabled s) (k : BitVec 8) (l : Nat) : s.keyDiffers k l = false := by
  simp [State.keyDiffers, h.mod]

theorem tabled_homes {s : State} (h : Tabled s) (path : List NodeId) (k : BitVec 8) {pa n : Nat} (hb : pa + n < 0x6000000000) :
    s.readHomes path pa n (some k) = (s.mem.readN pa n, s) :=
  readHomes_key path (tabled_own h k) h.wb h.poison (fun i hi => tabled_near h (by omega))

/-- Bytes of one page of it, as an engine or a wave reads them. -/
theorem tabled_area {s : State} (h : Tabled s) (path : List NodeId) (u : Option Nat) {va n : Nat} (hv : va < 2 ^ 25)
    (hp : piecesOf va n = [(0, n, va)]) (hn : n < 65536) : s.readArea path u 7 va n = (s, some (s.mem.readN (0x4000000 + va) n)) := by
  have a : (page s va).base + va % 65536 = 0x4000000 + va := by simp only [page]; omega
  have r : s.readHomes path (0x4000000 + va) n (some (page s va).leaf.key) = (s.mem.readN (0x4000000 + va) n, s) :=
    tabled_homes h path _ (by omega)
  have q : s.reachable (page s va).base = true := (tabled_near h (by simp only [page]; omega)).1
  have g : s.lostArea u [((0, n, va), page s va)] = s := by cases u <;> simp [State.lostArea, q]
  simp only [State.readArea, State.areaPages, hp, List.foldl_cons, List.foldl_nil, tabled_probe h path hv .read (by decide), List.nil_append,
    g, a, r, emptyBelow_nil h.caches]

/-! ## Readiness, checked by computation -/

def readyB (h : Head) (s : State) (w : Wave) : Bool :=
  guardPasses h.guard w && s.poison.isEmpty && (s.breakpoint w true).isNone && (s.breakpoint w false).isNone && w.inProg == .none &&
    !h.y && decide ((s.coreOf w.core).ports[w.port.val].pipeFree ≤ s.clkOf w.core) &&
    decide ((s.coreOf w.core).ports[w.port.val].sfuFree ≤ s.clkOf w.core)

def calmB (h : Head) (s : State) (w : Wave) : Bool :=
  readyB h s w && w.sb.isEmpty && w.spilled.isEmpty && w.defs.isEmpty && w.pends.isEmpty && w.nests.isEmpty && s.accs.isEmpty

theorem ready_of {h : Head} {s : State} {w : Wave} (hw : s.wave? s.cur = some w) (b : readyB h s w = true) : Ready h s w := by
  simp [readyB] at b
  obtain ⟨⟨⟨⟨⟨⟨⟨b1, b2⟩, b3⟩, b4⟩, b5⟩, b6⟩, b7⟩, b8⟩ := b
  exact ⟨hw, b1, by simp [b2], b3, b4, b5, by simp [b6], b7, b8⟩

theorem calm_of {h : Head} {s : State} {w : Wave} (hw : s.wave? s.cur = some w) (b : calmB h s w = true) : Calm h s w := by
  simp [calmB] at b
  obtain ⟨⟨⟨⟨⟨⟨b1, b2⟩, b3⟩, b4⟩, b5⟩, b6⟩, b7⟩ := b
  exact ⟨⟨ready_of hw b1, b2, b3⟩, b4, b5, b6, by simp [b7]⟩

theorem deliverable_of {s : State} {w : Wave} (b : (w.defs.isEmpty && w.pends.isEmpty && w.sb.isEmpty && w.nests.isEmpty &&
    s.accs.isEmpty && !w.priv && s.trapBase w != 0 && w.step.isNone) = true) : Deliverable s w := by
  simp at b
  obtain ⟨⟨⟨⟨⟨⟨⟨b1, b2⟩, b3⟩, b4⟩, b5⟩, b6⟩, b7⟩, b8⟩ := b
  exact ⟨b1, b2, b3, b4, by simp [b5], b6, b7, b8⟩

theorem wave_calm : Calm h0 (machine wave) wave := calm_of rfl (by decide +kernel)
theorem wave_open : Open h0 (machine wave) wave := wave_calm.toOpen
theorem wave_ready : Ready h0 (machine wave) wave := wave_calm.toOpen.toReady
theorem wave_deliverable : Deliverable (machine wave) wave := deliverable_of (by decide +kernel)

/-- The same wave in privileged state. -/
def boss : Wave := { wave with priv := true }
theorem boss_calm : Calm h0 (machine boss) boss := calm_of rfl (by decide +kernel)
theorem boss_ready : Ready h0 (machine boss) boss := boss_calm.toOpen.toReady

/-! ## Witnesses: arithmetic, control, masks, stacks -/

theorem witness_ScalarResults : ∃ i s w h d x, Instr.wf i = true ∧ scalarResult w i = some (h, d, x) ∧ Ready h s w :=
  ⟨.sadd h0 3 4 5, machine wave, wave, h0, 3, _, rfl, rfl, wave_ready⟩

theorem witness_VectorLanes : ∃ i s w h l d f, Instr.wf i = true ∧ laneResult w i = some (h, l, d, f) ∧ Open h s w :=
  ⟨.vadd h0 3 v1 v2, machine wave, wave, h0, _, 3, _, rfl, rfl, wave_open⟩

theorem witness_AffineForms : ∃ i s w h l d r, Instr.wf i = true ∧ w.em = 0xFFFFFFFF ∧ affineResult w i = some (h, l, d, r) ∧ Open h s w :=
  ⟨.vlane h0 3, machine wave, wave, h0, _, 3, _, rfl, rfl, rfl, wave_open⟩

/-- VMOVI has no source; both sources of VDIV are unwritten. -/
theorem witness_UniformShapes : ∃ i j s w h l d f g, Instr.wf i = true ∧ Instr.wf j = true ∧ w.em = 0xFFFFFFFF ∧
    laneResult w i = some (h, l, d, f) ∧ uniformSources w i ∧ longResult w j = some (h, l, d, g) ∧ uniformSources w j ∧ Open h s w :=
  ⟨.vmovi h0 3 7, .vdiv h0 3 v1 v2, machine wave, wave, h0, [], 3, _, _, rfl, rfl, rfl, rfl, trivial, rfl, ⟨rfl, rfl⟩, wave_open⟩

/-- A wave with no active lane, and one with lane 0 alone. -/
def masked (m : Mask) : Wave := { wave with em := m }

theorem witness_MaskedShapes : ∀ m : Mask, m = 0 ∨ m = 1 → ∃ i j s w h l d f g, Instr.wf i = true ∧ Instr.wf j = true ∧ w.em = m ∧
    laneResult w i = some (h, l, d, f) ∧ longResult w j = some (h, l, d, g) ∧ Open h s w := by
  rintro m (rfl | rfl)
  · exact ⟨.vadd h0 3 v1 v2, .vdiv h0 3 v1 v2, machine (masked 0), masked 0, h0, _, 3, _, _, rfl, rfl, rfl, rfl, rfl,
      (calm_of rfl (by decide +kernel)).toOpen⟩
  · exact ⟨.vadd h0 3 v1 v2, .vdiv h0 3 v1 v2, machine (masked 1), masked 1, h0, _, 3, _, _, rfl, rfl, rfl, rfl, rfl,
      (calm_of rfl (by decide +kernel)).toOpen⟩

theorem witness_LongResults : ∃ i s w h l d f, Instr.wf i = true ∧ longResult w i = some (h, l, d, f) ∧ Open h s w ∧ w.em ≠ 0 :=
  ⟨.vdiv h0 3 v1 v2, machine wave, wave, h0, _, 3, _, rfl, rfl, wave_open, by decide⟩

theorem witness_CompareMasks : ∃ i s w h l d f, Instr.wf i = true ∧ compareResult w i = some (h, l, d, f) ∧ Open h s w :=
  ⟨.vcmp h0 3 v1 v2 .eq, machine wave, wave, h0, _, 3, _, rfl, rfl, wave_open⟩

theorem witness_ControlFlow : ∃ i s w x h, Instr.wf i = true ∧ controlResult w i = some (h, x) ∧ Ready h s w :=
  ⟨.br h0 1, machine wave, wave, _, h0, rfl, rfl, wave_ready⟩

theorem witness_MaskInstructions : ∃ i s w x h, Instr.wf i = true ∧ maskResult w i = some (h, x) ∧ Open h s w :=
  ⟨.mset h0 1, machine wave, wave, _, h0, rfl, rfl, wave_open⟩

theorem witness_SqueezeCompact : ∃ s w h d a, (Instr.vsqz h d a).wf = true ∧ Open h s w :=
  ⟨machine wave, wave, h0, 3, v1, rfl, wave_open⟩

/-- QNT of slot 2 and of the unbound slot 7. -/
theorem witness_QntBlocks : (Instr.qnt h0 3 v1 2).wf = true ∧ Open h0 (machine wave) wave ∧
    qntAccepts ((machine wave).slotOf wave 2) = true ∧ qntAccepts ((machine wave).slotOf wave 7) = false ∧
    Deliverable (machine wave) wave := ⟨rfl, wave_open, by decide +kernel, by decide +kernel, wave_deliverable⟩

theorem witness_StackInstructions : ∃ i s w h l f b o, Instr.wf i = true ∧ stackResult w i = some (h, l, f, b, o) ∧ Open h s w :=
  ⟨.xpush h0 v1, machine wave, wave, h0, _, _, _, _, rfl, rfl, wave_open⟩

/-- Lane opcode 0x801 pushes and is never bad on an empty stack; 0x002 duplicates and is bad there. -/
def xevWave (x : W32) : Wave := { wave with v := wave.v.set 40 (.uni x) }

theorem witness_XevIssues : (Instr.xev h0 (.vec 40 .ident false) ⟨48, false⟩ true).wf = true ∧
    Open h0 (machine (xevWave 0x801)) (xevWave 0x801) ∧
    ∀ l, xevBad (xevWave 0x801) (.vec 40 .ident false) ⟨48, false⟩ l = false :=
  ⟨rfl, (calm_of rfl (by decide +kernel)).toOpen, by decide +kernel⟩

theorem witness_XevTraps : (Instr.xev h0 (.vec 40 .ident false) ⟨48, false⟩ true).wf = true ∧
    Open h0 (machine (xevWave 2)) (xevWave 2) ∧
    xevBad (xevWave 2) (.vec 40 .ident false) ⟨48, false⟩ 0 = true ∧
    ∀ k, k < 0 → xevBad (xevWave 2) (.vec 40 .ident false) ⟨48, false⟩ k = false :=
  ⟨rfl, (calm_of rfl (by decide +kernel)).toOpen, by decide +kernel, fun k h => absurd h (by simp)⟩

/-! ## Witnesses: memory instructions -/

theorem unwatched {s : State} {w : Wave} {a : Space} (c : Call) (x : Want) (ha : s.spaceOf w = some a)
    (h : ∀ n : Fin 8, a.eb[32 + n.val].getLsbD 63 = false) : ¬wantWatched s w c x := by
  rintro ⟨b, hb, _, n, hn⟩
  rw [ha] at hb
  cases hb
  simp only [State.wpHit, h n] at hn
  simp at hn

def load : Call := loadCall wave h0 1 m0 .w acq (.virtual true) 1
def store : Call := storeCall wave h0 m0 v1 .w rel (.virtual true) 1

theorem load_pages : ∀ x ∈ load.parts, (machine wave).region wave load.reach (BitVec.ofNat 64 x.va) = .page := by decide +kernel

theorem load_clear : Clear (machine wave) wave load :=
  ⟨by decide +kernel, fun x hx d h => (by rw [load_pages x hx] at h; cases h), fun x _ => unwatched load x rfl (by decide), ⟨space, rfl, by decide⟩, rfl, by decide, by decide +kernel, fun e he => by cases he⟩

theorem store_pages : ∀ x ∈ store.parts, (machine wave).region wave store.reach (BitVec.ofNat 64 x.va) = .page := by decide +kernel

theorem store_clear : Clear (machine wave) wave store :=
  ⟨by decide +kernel, fun x hx d h => (by rw [store_pages x hx] at h; cases h), fun x _ => unwatched store x rfl (by decide), ⟨space, rfl, by decide⟩, rfl, by decide, by decide +kernel, fun e he => by cases he⟩

theorem witness_DeferredIssue : ∃ i s w c d, Instr.wf i = true ∧ callOf w i = some c ∧ c.dest = some d ∧ Open c.head s w ∧ Clear s w c :=
  ⟨.ld h0 1 m0 .w acq, machine wave, wave, load, _, rfl, rfl, rfl, wave_open, load_clear⟩

theorem witness_StoreIssue : ∃ i s w c, Instr.wf i = true ∧ callOf w i = some c ∧ c.dest = none ∧ Open c.head s w ∧ Clear s w c :=
  ⟨.st h0 m0 v1 .w rel, machine wave, wave, store, rfl, rfl, rfl, wave_open, store_clear⟩

/-- A load from address 1. -/
def askew : Wave := { wave with s := wave.s.set 5 1 }
def skewLoad : Call := loadCall askew h0 1 m0 .w acq (.virtual true) 1
def oneWant (l : List Want) : Want := l.headD { lane := 0, va := 0, size := 0 }

/-- The lowest lane's access is in error, and no later one of that lane in a lower one. -/
theorem witness_AddressErrors : (Instr.ld h0 1 m0 .w acq).wf = true ∧ asksAll askew (.ld h0 1 m0 .w acq) = some skewLoad ∧
    Open h0 (machine askew) askew ∧ askew.pends = [] ∧ askew.defs.length < 64 ∧ (machine askew).side = [] ∧
    skewLoad.wants = [] ++ oneWant skewLoad.wants :: skewLoad.wants.tail ∧
    (∀ y ∈ skewLoad.wants.tail, y.lane ≠ (oneWant skewLoad.wants).lane) ∧
    wantError (machine askew) askew skewLoad (oneWant skewLoad.wants) = some 1 :=
  ⟨rfl, rfl, (calm_of rfl (by decide +kernel)).toOpen, rfl, by decide, rfl, by decide +kernel, by decide +kernel, by decide +kernel⟩

/-- Watchpoint slot 0 over the bytes 0 to 3, reads, every lane. -/
def watchSpace : Space := { space with eb := (space.eb.set 32 0xA020000000000000).set 40 0xFFFFFFFF }
def watched : State := { machine wave with spaces := [watchSpace] }

theorem watched_open : Open h0 watched wave := (calm_of rfl (by decide +kernel)).toOpen

theorem witness_WatchTraps : (Instr.ld h0 1 m0 .w acq).wf = true ∧ asksAll wave (.ld h0 1 m0 .w acq) = some load ∧
    Open h0 watched wave ∧ wave.pends = [] ∧ wave.defs.length < 64 ∧ watched.side = [] ∧
    (∀ y ∈ load.wants, wantError watched wave load y = none) ∧
    load.wants = [] ++ oneWant load.wants :: load.wants.tail ∧ (∀ y ∈ ([] : List Want), ¬wantWatched watched wave load y) ∧
    wantWatched watched wave load (oneWant load.wants) :=
  ⟨rfl, rfl, watched_open, rfl, by decide, rfl, by decide +kernel, by decide +kernel, by simp,
    ⟨watchSpace, rfl, rfl, 0, by decide +kernel⟩⟩

/-- MON at a non-canonical address; MON at address 0, which the slot covers. -/
def farWave : Wave := { wave with s := wave.s.set 5 0x1000000000000000 }
theorem witness_MonTraps : (Instr.mon h0 m0 0 0).wf = true ∧ oneValue farWave m0.index ∧ oneValue wave m0.index ∧
    Open h0 (machine farWave) farWave ∧ Open h0 watched wave ∧ (0 : Fin 32) = (lanesOf wave.em).headD 0 ∧ watched.side = [] ∧
    (machine farWave).region farWave (.virtual true) (farWave.laneAddr m0.base m0.index 0 1 0) = .err 2 ∧
    watched.region wave (.virtual true) (wave.laneAddr m0.base m0.index 0 1 0) = .page ∧ wave.exempt = false ∧
    watched.wpHit wave watchSpace 0 (.virtual true) true false true { lane := 0, va := 0, size := 1 } = true :=
  ⟨rfl, trivial, trivial, (calm_of rfl (by decide +kernel)).toOpen, watched_open, by decide, rfl, by decide +kernel, by decide +kernel,
    rfl, by decide +kernel⟩
/-! ## Witnesses: the ordering machine -/

/-- An access of the wave to four bytes of M, and a result that waits for it. -/
def access (k : AccKind) : Access :=
  { id := 50, agent := .wave 5, core := ⟨0, 0, 0⟩, instr := 40, kind := k, place := .mem 0x4000000, size := 4, data := [1, 2, 3, 4],
    level := 3, opA := 1 }
def result : Def := { id := 41, seq := 1, pc := 0x10000, dest := .vload 1 .w false, mask := 1 }
def waiting : Wave := { wave with defs := [result] }
def holding (w : Wave) (x : Access) : State := { machine w with accs := [x] }

theorem enabled_of {s : State} {x : Access} (h : (s.accs.find? (fun a => a.id == x.id) == some x && s.mayGo x && s.sideClear x) = true) :
    Enabled s x := by
  simp at h
  exact ⟨by simpa using h.1.1, h.1.2, h.2⟩

theorem readable {s : State} {pa n : Nat} (hd : deviceWindow pa = false)
    (hk : ∀ i < n, s.keyDiffers 0 ((pa + i) / 128) = false ∧ s.reachable (pa + i) = true) (hp : s.poison = []) (hw : s.wb = []) :
    Readable s 0 (.mem pa) n :=
  ⟨fun a h => by cases h; exact hd, fun i hi a h => by simp only [placeAt] at h; cases h; exact hk i hi, ⟨hp, by simp [hw]⟩,
    fun _ _ _ h => by cases h⟩

theorem witness_LoadPerforms : let x : Access := { access .load with defId := some 41 }
    Enabled (holding waiting x) x ∧ x.kind = .load ∧ x.agent = .wave waiting.uid ∧ (holding waiting x).wave? waiting.uid = some waiting ∧
    awaits waiting x result ∧ Readable (holding waiting x) x.key x.place x.size ∧ (∀ a, x.place = .mem a → a % 8 + x.size ≤ 8) :=
  ⟨enabled_of (by decide +kernel), rfl, rfl, rfl, ⟨rfl, by simp [waiting], by simp [waiting], by simp [result]⟩,
    readable (by decide +kernel) (by decide +kernel) rfl rfl, fun a h => by cases h; decide⟩

theorem witness_StorePerforms : let x := access .store
    Enabled (holding wave x) x ∧ x.kind = .store ∧ x.nest = none ∧ x.place = .mem 0x4000000 ∧ x.releases = false ∧
    x.wcomb = false ∧ ∀ e ∈ (holding wave x).wb, e.id ≠ (holding wave x).nextUid :=
  ⟨enabled_of (by decide +kernel), rfl, rfl, rfl, rfl, rfl, by simp [holding, machine]⟩

theorem witness_ReleaseStorePerforms : let x : Access := { access .store with ord := .rel }
    Enabled (holding wave x) x ∧ x.kind = .store ∧ x.nest = none ∧ x.place = .mem 0x4000000 ∧ x.releases = true ∧
    levelNode x.path x.level' ≠ .root :=
  ⟨enabled_of (by decide +kernel), rfl, rfl, rfl, rfl, by decide +kernel⟩

theorem witness_ScratchpadStore : let x : Access := { access .store with place := .spad 3 0 }
    Enabled (holding wave x) x ∧ x.kind = .store ∧ x.nest = none ∧ x.place = .spad 3 0 ∧ (holding wave x).cohort? 3 = some cohort :=
  ⟨enabled_of (by decide +kernel), rfl, rfl, rfl, rfl⟩

def entry (n : NodeId) : WbEntry := { id := 60, node := n, agent := .wave 5, bytes := [(0x4000000, 1), (0x4000001, 2)] }
def buffering (n : NodeId) : State := { machine wave with wb := [entry n] }

theorem witness_DrainMoves : (buffering (.core ⟨0, 0, 0⟩)).wb = [] ++ entry (.core ⟨0, 0, 0⟩) :: [] ∧
    parentOf (entry (.core ⟨0, 0, 0⟩)).node ≠ .root := ⟨rfl, by decide⟩

theorem witness_DrainToMemory : (buffering .package).wb = [] ++ entry .package :: [] ∧ parentOf (entry .package).node = .root ∧
    (buffering .package).mem.wf = true ∧ (∀ p ∈ (entry .package).bytes, (buffering .package).reachable p.1 = true ∧
      deviceWindow p.1 = false ∧ (buffering .package).keyDiffers (entry .package).key (p.1 / 128) = false) ∧
    ((entry .package).bytes.map (fun p => p.1)).Nodup :=
  ⟨rfl, rfl, by decide +kernel, by decide +kernel, by decide⟩

theorem witness_RmwPerforms : let x : Access := { access .rmw with defId := some 41 }
    Enabled (holding waiting x) x ∧ x.kind = .rmw ∧ x.agent = .wave waiting.uid ∧ (holding waiting x).wave? waiting.uid = some waiting ∧
    awaits waiting x result ∧ x.size = 4 ∧ x.place = .mem 0x4000000 ∧ Readable (holding waiting x) x.key x.place 4 ∧
    (holding waiting x).rmwClear x x.rmwNode = true ∧ x.rmwNode ≠ .root :=
  ⟨enabled_of (by decide +kernel), rfl, rfl, rfl, ⟨rfl, by simp [waiting], by simp [waiting], by simp [result]⟩, rfl, rfl,
    readable (by decide +kernel) (by decide +kernel) rfl rfl, by decide +kernel, by decide +kernel⟩

theorem witness_FencePerforms : let x : Access := { access .fence with ord := .acq }
    Enabled (holding wave x) x ∧ x.kind = .fence := ⟨enabled_of (by decide +kernel), rfl⟩

/-! ## Witnesses: fences, barriers, monitors, hints -/

theorem witness_FenceIssues : (Instr.fence h0 .rel 3).wf = true ∧ Open h0 (machine wave) wave ∧ wave.pends = [] ∧
    (machine wave).side = [] := ⟨rfl, wave_open, rfl, rfl⟩

/-- A wave that has arrived on barriers 0 of its cohort and its ensemble in their open generations. -/
def arrived : Wave := { wave with arrB := wave.arrB.set 0 1, arrE := wave.arrE.set 0 1 }
theorem arrived_calm : Calm h0 (machine arrived) arrived := calm_of rfl (by decide +kernel)

theorem witness_BarrierIssues : Calm h0 (machine wave) wave ∧ (machine wave).side = [] ∧ (machine wave).cohort? wave.cohort = some cohort ∧
    fresher (machine wave) wave .arriveB 15 (wave.arrB[15]) (cohort.bars[15]).gen ∧ (machine wave).ens? cohort.ens = some ens ∧
    fresher (machine wave) wave .arriveE 3 (wave.arrE[3]) (ens.bars[3]).gen ∧
    Calm h0 (machine arrived) arrived ∧ (machine arrived).side = [] ∧ (machine arrived).cohort? arrived.cohort = some cohort ∧
    again (machine arrived) arrived .arriveB 0 (arrived.arrB[0]) (cohort.bars[0]).gen ∧ (machine arrived).ens? cohort.ens = some ens ∧
    again (machine arrived) arrived .arriveE 0 (arrived.arrE[0]) (ens.bars[0]).gen :=
  ⟨wave_calm, rfl, rfl, ⟨by simp [machine], by decide⟩, rfl, ⟨by simp [machine], by decide⟩, arrived_calm, rfl, rfl,
    ⟨by simp [machine], by decide⟩, rfl, ⟨by simp [machine], by decide⟩⟩

/-- The completion of generation 1 at cycle 0, and cohorts whose barrier 0 has gone on to generation 2. -/
def done : BDone := ⟨1, 0, 0, false⟩
def openCohort : Cohort := { cohort with bars := cohort.bars.set 0 ⟨0, 2⟩, bdone := cohort.bdone.set 0 [done] }
def openAt (w : Wave) (t : Nat) : State := { machine w with cohorts := [openCohort], cores := [{ id := ⟨0, 0, 0⟩, clk := t }] }

/-- Its window stands until cycle 64 and has passed at 65. -/
theorem witness_BarwIssues : Calm h0 (machine wave) wave ∧ (machine wave).cohort? wave.cohort = some cohort ∧ wave.arrB[0] = 0 ∧
    Calm h0 (machine arrived) arrived ∧ arrived.arrB[0] ≠ 0 ∧ arrived.arrB[0] = (cohort.bars[0]).gen ∧
    (∀ t ∈ [64, 65], Calm h0 (openAt arrived t) arrived ∧ (openAt arrived t).cohort? arrived.cohort = some openCohort ∧
      (openAt arrived t).clkOf arrived.core = t) ∧
    arrived.arrB[0] ≠ (openCohort.bars[0]).gen ∧ recordOf openCohort.bdone[0] arrived.arrB[0] done ∧
    done.t0 + phaseOf done.cfg arrived.widx arrived.clsB[0] * field done.cfg 52 8 + 64 = 64 := by
  refine ⟨wave_calm, rfl, rfl, arrived_calm, by decide, by decide, fun t ht => ?_, by decide, rfl, by decide +kernel⟩
  simp at ht
  rcases ht with rfl | rfl <;> exact ⟨calm_of rfl (by decide +kernel), rfl, by decide +kernel⟩

/-- The last arrival of a cohort of one wave completes its generation. -/
theorem witness_ArrivalCounts : let x : Access := { access .arriveB with place := .mem 0, ord := .rel, level := 1, lane := 15 }
    Enabled (holding wave x) x ∧ x.kind = .arriveB ∧ x.agent = .wave wave.uid ∧ (holding wave x).wave? wave.uid = some wave ∧
    ((holding wave x).waves.map (fun y => y.uid)).Nodup ∧ x.lane = 15 ∧ (holding wave x).cohort? wave.cohort = some cohort ∧
    (cohort.bars[15]).arrived + 1 = ((holding wave x).waves.filter (fun y => y.cohort == wave.cohort && !y.exited)).length :=
  ⟨enabled_of (by decide +kernel), rfl, rfl, rfl, by decide, rfl, rfl, by decide⟩

def parkedCohort : Cohort := { openCohort with edone := cohort.edone.set 3 [done] }
def parked (p : Park) : Wave := { arrived with park := p, arrE := wave.arrE.set 3 1 }
def atBarrier (p : Park) : State := { machine (parked p) with cohorts := [parkedCohort] }

theorem witness_BarrierResumes : ∀ p ∈ [Park.bar 0, .barw 0, .ebar 3], (atBarrier p).wave? (parked p).uid = some (parked p) ∧
    (atBarrier p).resident (parked p) = true ∧ waitsFor (atBarrier p) (parked p) done 0 ∧
    max done.t0 ((parked p).backAt.getD 0) + 0 * field done.cfg 52 8 ≤ (atBarrier p).clkOf (parked p).core ∧
    (∀ b, (parked p).park = .barw b → (parked p).barwAt ≤ (atBarrier p).clkOf (parked p).core) ∧ (0 ≠ 0 → False) := by
  intro p hp
  simp at hp
  rcases hp with rfl | rfl | rfl
  · exact ⟨rfl, by decide +kernel, ⟨parkedCohort, rfl, rfl, by decide +kernel, by simp [atBarrier, machine]⟩, by decide +kernel,
      (by intro b h; cases h), by simp⟩
  · exact ⟨rfl, by decide +kernel, ⟨parkedCohort, rfl, rfl, by decide +kernel⟩, by decide +kernel, (fun b _ => by decide +kernel), by simp⟩
  · exact ⟨rfl, by decide +kernel, ⟨parkedCohort, rfl, rfl, by decide +kernel, by simp [atBarrier, machine]⟩, by decide +kernel,
      (by intro b h; cases h), by simp⟩

/-- A wave parked at a BAR or BARA of the generation that it had arrived in. -/
theorem witness_BarrierResumes_next : ∀ p ∈ [Park.barNext 0, .baraNext 0], (atBarrier p).wave? (parked p).uid = some (parked p) ∧
    (atBarrier p).resident (parked p) = true ∧ (parked p).pends = [] ∧ (atBarrier p).cohort? (parked p).cohort = some parkedCohort ∧
    (parked p).arrB[0] < (parkedCohort.bars[0]).gen ∧ (parked p).park = p := by
  intro p hp
  simp at hp
  rcases hp with rfl | rfl <;> exact ⟨rfl, by decide +kernel, rfl, rfl, by decide, rfl⟩

/-- MON of an address on a page (s5 = 0) and of one in the scratchpad. -/
def nearWave : Wave := { wave with s := wave.s.set 5 0x100000000 }
theorem unhit (w : Wave) (x : Want) (n : Fin 8) : (machine w).wpHit w space n (.virtual true) true false true x = false := by
  have h : ∀ n : Fin 8, space.eb[32 + n.val].getLsbD 63 = false := by decide
  simp only [State.wpHit, h n, Bool.false_and]

theorem witness_MonIssues : (Instr.mon h0 m0 3 0).wf = true ∧ (machine wave).side = [] ∧ Open h0 (machine wave) wave ∧
    (machine wave).region wave (.virtual true) 0 = .page ∧ (∀ y ∈ (machine wave).tlb, y.asid ≠ (machine wave).asidOf wave) ∧
    (∃ l, ((machine wave).walk (corePath wave.core) space.ptb.toNat 0).2 = .ok l ∧ l.allows .read wave.priv = true) ∧
    (machine wave).spaceOf wave = some space ∧
    (∀ n : Fin 8, (machine wave).wpHit wave space n (.virtual true) true false true { lane := 0, va := 0, size := 1 } = false) ∧
    Open h0 (machine nearWave) nearWave ∧ (machine nearWave).side = [] ∧ (machine nearWave).region nearWave (.virtual true) 0x100000000 = .home (.spad 3 0) :=
  ⟨rfl, rfl, wave_open, by decide +kernel, by simp [machine], ⟨leafOfEntry (placedFrame + 0x3F) true, by decide +kernel, by decide +kernel⟩,
    rfl, unhit wave _, (calm_of rfl (by decide +kernel)).toOpen, rfl, by decide +kernel⟩

theorem witness_MonArms : let x : Access := { access .mon with size := 1 }
    Enabled (holding wave x) x ∧ x.kind = .mon ∧ x.agent = .wave wave.uid ∧ (holding wave x).wave? wave.uid = some wave ∧
    ((holding wave x).waves.map (fun y => y.uid)).Nodup ∧ Readable (holding wave x) x.key x.place x.size ∧
    (∀ n, ((holding wave x).monSetEntries (monSetOf n)).length < 8) ∧ wave.mons[0] = none :=
  ⟨enabled_of (by decide +kernel), rfl, rfl, rfl, by decide, readable (by decide +kernel) (by decide +kernel) rfl rfl,
    fun n => by simp [State.monSetEntries, holding, machine, wave], rfl⟩

/-- A wave that has armed the line an entry of the package's buffer touches. -/
def armed : Wave := { wave with mons := wave.mons.set 3 (some ⟨.mem (0x4000000 / 128), 3, 1⟩) }

theorem witness_MonitorWakes : let s : State := { machine armed with wb := [entry .package] }
    s.wb = [] ++ entry .package :: [] ∧ parentOf (entry .package).node = .root ∧ (∀ p ∈ (entry .package).bytes, s.reachable p.1 = true ∧ deviceWindow p.1 = false) ∧
    s.wave? armed.uid = some armed ∧ armed.mons[3] = some ⟨.mem (0x4000000 / 128), 3, 1⟩ ∧
    ∃ p ∈ (entry .package).bytes, p.1 / 128 = 0x4000000 / 128 :=
  ⟨rfl, rfl, by decide +kernel, rfl, rfl, by decide⟩

def woken : Wave := { wave with wakes := [⟨1, 0⟩], s := wave.s.set 8 100 }
def sleepy : Wave := { wave with s := wave.s.set 8 100 }

theorem witness_MwaitIssues : Calm h0 (machine woken) woken ∧ woken.wakes ≠ [] ∧ Calm h0 (machine sleepy) sleepy ∧
    ¬(sleepy.intp = true ∨ sleepy.wakes ≠ [] ∨ sleepy.sget 8 = 0) :=
  ⟨calm_of rfl (by decide +kernel), by decide, calm_of rfl (by decide +kernel), by decide +kernel⟩

theorem witness_MwaitReturns : let w : Wave := { woken with park := .mwait 7 0 0 }
    (machine w).wave? w.uid = some w ∧ (machine w).resident w = true ∧ w.park = .mwait 7 0 0 ∧ (machine w).poison = [] ∧
    w.wakes ≠ [] ∧ 0 + 0 ≤ (machine w).clk := ⟨rfl, by decide +kernel, rfl, rfl, by decide, by decide⟩

theorem witness_PrefIssues : (Instr.pref h0 m0 5 0).wf = true ∧ Open h0 (machine wave) wave ∧ wave.pends = [] ∧
    (machine wave).side = [] := ⟨rfl, wave_open, rfl, rfl⟩

theorem witness_TresIssues : ∀ k ∈ [(3 : Fin 6), 5], (Instr.tres h0 5 0 v1 1 k).wf = true ∧ Open h0 (machine wave) wave ∧
    checkUniform wave.em (wave.src v1) = .ok 0 :=
  fun k hk => ⟨by revert k; decide, wave_open, by decide +kernel⟩


/-! ## Witnesses: Vetch -/

/-- A wave whose q1 to q3 hold a 2 × 2 matrix of ones. -/
def ones : QReg := { rows := 2, cols := 2, elems := List.replicate 4 (Vector.replicate 32 0x3F800000) }
def matrixWave : Wave := { wave with q := ((wave.q.set 1 ones).set 2 ones).set 3 ones }
def qs (r : QNum) : QSrc := ⟨r, false⟩

theorem matrix_open : Open h0 (machine matrixWave) matrixWave := (calm_of rfl (by decide +kernel)).toOpen

theorem matrix_flat (r : QNum) (h : matrixWave.qreg r = ones) : (matrixWave.qreg r).flat :=
  fun _ l => by rw [h]; revert l; decide +kernel

theorem takes_of {c : QCall} (hw : ∀ r ∈ c.src, matrixWave.qreg r = ones) (hf : c.fits) : c.Takes (machine matrixWave) matrixWave :=
  ⟨fun r h => (by rw [hw r h]; decide), hf, .inr (.inl rfl), by decide +kernel, fun r h => matrix_flat r (hw r h),
    fun r h => (by rw [hw r h]; decide)⟩

theorem witness_QdimAllocates : (Instr.qdim h0 1 1 6).wf = true ∧ Open h0 (machine wave) wave ∧
    ((machine wave).coreOf wave.core).vetchFree ≤ (machine wave).clkOf wave.core := ⟨rfl, wave_open, by decide +kernel⟩

def product : QCall := (qResult matrixWave (.qmad h0 1 (qs 1) (qs 2) (qs 3))).getD ⟨h0, [], [], [], 0, 0, 0, False, fun _ => [], fun _ => .none⟩
def factor : QCall := (qLong matrixWave (.qlu h0 3 20 (qs 1))).getD ⟨h0, [], [], [], 0, 0, 0, False, fun _ => [], fun _ => .none⟩

theorem witness_VetchResults : (Instr.qmad h0 1 (qs 1) (qs 2) (qs 3)).wf = true ∧
    qResult matrixWave (.qmad h0 1 (qs 1) (qs 2) (qs 3)) = some product ∧ Open product.head (machine matrixWave) matrixWave ∧
    product.Takes (machine matrixWave) matrixWave :=
  ⟨rfl, rfl, matrix_open, takes_of (by decide +kernel) ⟨by decide +kernel, by decide +kernel, by decide +kernel⟩⟩

theorem witness_VetchFactors : (Instr.qlu h0 3 20 (qs 1)).wf = true ∧ qLong matrixWave (.qlu h0 3 20 (qs 1)) = some factor ∧
    Open factor.head (machine matrixWave) matrixWave ∧ factor.Takes (machine matrixWave) matrixWave ∧ matrixWave.em ≠ 0 :=
  ⟨rfl, rfl, matrix_open, takes_of (by decide +kernel) (show (matrixWave.qreg 1).rows = (matrixWave.qreg 1).cols by decide +kernel), by decide⟩

/-- The same wave with no active lane. -/
def maskedWave : Wave := { matrixWave with em := 0 }

theorem witness_VetchFactors_masked : qLong maskedWave (.qlu h0 3 20 (qs 1)) = some factor ∧
    Open factor.head (machine maskedWave) maskedWave ∧ factor.Takes (machine maskedWave) maskedWave ∧ maskedWave.em = 0 := by
  have hw : ∀ r ∈ factor.src, maskedWave.qreg r = ones := by decide +kernel
  exact ⟨rfl, (calm_of rfl (by decide +kernel)).toOpen, ⟨fun r h => (by rw [hw r h]; decide),
    (show (maskedWave.qreg 1).rows = (maskedWave.qreg 1).cols by decide +kernel), .inl rfl, by decide +kernel,
    fun r h => (by rw [hw r h]; exact fun _ l => by revert l; decide +kernel), fun r h => (by rw [hw r h]; decide)⟩, rfl⟩

theorem witness_QgetReads : (Instr.qget h0 9 (qs 1) 1 1).wf = true ∧ Open h0 (machine matrixWave) matrixWave ∧
    (matrixWave.qreg 1).rows ≠ 0 ∧ 1 < (matrixWave.qreg 1).rows ∧ 1 < (matrixWave.qreg 1).cols ∧ (matrixWave.qreg 1).flat ∧
    ((machine matrixWave).coreOf wave.core).vetchFree ≤ (machine matrixWave).clkOf wave.core :=
  ⟨rfl, matrix_open, by decide +kernel, by decide +kernel, by decide +kernel, matrix_flat 1 rfl, by decide +kernel⟩

theorem witness_QstatReads : ∀ i ∈ [Instr.qstatVst h0 9, .qstatClear h0 9, .qstatNpd h0 9 (qs 1), .qstatSing h0 9 (qs 1), .qstatShape h0 9 (qs 1)],
    i.wf = true ∧ (∃ h l src d f v, qstatResult matrixWave i = some (h, l, src, d, f, v) ∧ Open h (machine matrixWave) matrixWave ∧
      ∀ r ∈ src, (matrixWave.qreg r).rows ≠ 0) ∧
    ((machine matrixWave).coreOf wave.core).vetchFree ≤ (machine matrixWave).clkOf wave.core := by
  intro i hi
  simp at hi
  rcases hi with rfl | rfl | rfl | rfl | rfl <;>
    exact ⟨rfl, ⟨_, _, _, _, _, _, rfl, matrix_open, by decide +kernel⟩, by decide +kernel⟩

def qmods : MMod := ⟨.plain, 3, 0⟩
def qCallAt (i : Instr) : Call × List QNum × QNum := (qCallOf matrixWave i).getD (load, [], 0)

theorem qwant_clear (i : Instr) (hi : i = .qld h0 1 m0 qmods ∨ i = .qst h0 m0 (qs 1) qmods) :
    Clear (machine matrixWave) matrixWave (qCallAt i).1 := by
  have hp : ∀ x ∈ (qCallAt i).1.parts, (machine matrixWave).region matrixWave (qCallAt i).1.reach (BitVec.ofNat 64 x.va) = .page := by
    rcases hi with rfl | rfl <;> decide +kernel
  refine ⟨?_, fun x hx d h => ?_, fun x _ => unwatched _ x rfl (by decide), ⟨space, rfl, by decide⟩, rfl, by decide, ?_, fun e he => by cases he⟩
  · rcases hi with rfl | rfl <;> decide +kernel
  · rw [hp x hx] at h; cases h
  · rcases hi with rfl | rfl <;> decide +kernel

theorem witness_VetchMemory : ∀ i ∈ [Instr.qld h0 1 m0 qmods, .qst h0 m0 (qs 1) qmods], i.wf = true ∧
    (∃ c fq r, qCallOf matrixWave i = some (c, fq, r) ∧ Open c.head (machine matrixWave) matrixWave ∧
      Clear (machine matrixWave) matrixWave c ∧ (matrixWave.qreg r).rows ≠ 0) ∧
    ((machine matrixWave).coreOf wave.core).vetchFree ≤ (machine matrixWave).clkOf wave.core := by
  intro i hi
  simp at hi
  rcases hi with rfl | rfl
  · exact ⟨rfl, ⟨_, _, _, rfl, matrix_open, qwant_clear _ (.inl rfl), by decide +kernel⟩, by decide +kernel⟩
  · exact ⟨rfl, ⟨_, _, _, rfl, matrix_open, qwant_clear _ (.inr rfl), by decide +kernel⟩, by decide +kernel⟩

/-- With no active lane, of a register that nothing has written. -/
theorem witness_VetchMemory_masked : ∃ c fq, qCallOf maskedWave (.qld h0 7 m0 qmods) = some (c, fq, 7) ∧ c.wants = [] ∧
    Clear (machine maskedWave) maskedWave c ∧ maskedWave.em = 0 ∧ Open c.head (machine maskedWave) maskedWave := by
  refine ⟨_, _, rfl, by decide +kernel, ?_, rfl, (calm_of rfl (by decide +kernel)).toOpen⟩
  exact ⟨by decide +kernel, fun x hx => by exact absurd hx (by rw [show Call.parts _ = [] by decide +kernel]; simp),
    fun x hx => by exact absurd hx (by rw [show Call.wants _ = [] by decide +kernel]; simp), ⟨space, rfl, by decide⟩, rfl, by decide,
    by decide +kernel, fun e he => by cases he⟩

theorem witness_VetchUnwritten : ∀ w ∈ [matrixWave, maskedWave],
    (∃ c, qResult w (.qzero h0 7) = some c ∧ Open c.head (machine w) w ∧ ∃ r ∈ c.src, (w.qreg r).rows = 0) ∧
    (∃ c, qLong w (.qlu h0 3 20 (qs 7)) = some c ∧ Open c.head (machine w) w ∧ ∃ r ∈ c.src, (w.qreg r).rows = 0) ∧
    ((machine w).coreOf w.core).vetchFree ≤ (machine w).clkOf w.core := by
  intro w hw
  simp at hw
  rcases hw with rfl | rfl
  · exact ⟨⟨_, rfl, matrix_open, 7, .head _, by decide +kernel⟩, ⟨_, rfl, matrix_open, 7, .head _, by decide +kernel⟩, by decide +kernel⟩
  · have o : Open h0 (machine maskedWave) maskedWave := (calm_of rfl (by decide +kernel)).toOpen
    exact ⟨⟨_, rfl, o, 7, .head _, by decide +kernel⟩, ⟨_, rfl, o, 7, .head _, by decide +kernel⟩, by decide +kernel⟩

/-- Its clauses of one word, and of QST. -/
theorem witness_VetchUnwritten_words : (Instr.qget h0 9 (qs 7) 1 1).wf = true ∧ (matrixWave.qreg 7).rows = 0 ∧ matrixWave.em ≠ 0 ∧
    (∃ h l src d f v, qstatResult matrixWave (.qstatShape h0 9 (qs 7)) = some (h, l, src, d, f, v) ∧ 7 ∈ src) ∧
    (∃ c fq, qCallOf matrixWave (.qst h0 m0 (qs 7) qmods) = some (c, fq, 7)) ∧ matrixWave.pends = [] ∧ matrixWave.defs.length < 64 ∧
    (machine matrixWave).side = [] :=
  ⟨rfl, by decide +kernel, by decide, ⟨_, _, _, _, _, _, rfl, by simp [qs]⟩, ⟨_, _, rfl⟩, rfl, by decide, rfl⟩

/-! ## Witnesses: Sorrel, NEST, results, traps -/

def lastTrap : TrapInfo := { cls := 12, mask := 0, seq := 0, rpc := 0 }

/-- MMA of the BF16 slot 1, and of the scaled slot 2 with a scale group. -/
theorem witness_MmaIssues : ∀ x ∈ [((⟨0, false⟩ : VGrp), (1 : Fin 8), false), (⟨200, true⟩, 2, true)],
    (Instr.mma h0 64 ⟨0, false⟩ ⟨16, true⟩ x.1 x.2.1 false).wf = true ∧ Open h0 (machine wave) wave ∧
    slotBound ((machine wave).slotOf wave x.2.1) = true ∧ slotScaled ((machine wave).slotOf wave x.2.1) = x.2.2 ∧
    (∃ k, mmaK (slotElem ((machine wave).slotOf wave x.2.1)) = some k) ∧ (x.2.2 = false → x.1 = ⟨0, false⟩) ∧
    ((machine wave).coreOf wave.core).arrayFree[wave.port.val % 2] ≤ (machine wave).clkOf wave.core := by
  intro x hx
  simp at hx
  rcases hx with rfl | rfl <;>
    exact ⟨by decide, wave_open, by decide +kernel, by decide +kernel, ⟨_, rfl⟩, by simp, by decide +kernel⟩

theorem witness_LrecWrites : Open h0 (machine wave) wave ∧ (machine wave).cohort? wave.cohort = some cohort := ⟨wave_open, rfl⟩

/-- Record 7: an extent of 32 in its innermost dimension. -/
def tiled : Cohort := { cohort with lr := cohort.lr.set 7 (BitVec.ofNat 128 (31 * 2 ^ 22)) }
def tileMachine : State := { machine wave with cohorts := [tiled] }
def tile : TileOp := ⟨9, 0, 7, 0, 0x40, 0, 5⟩

theorem tile_unwatched (rd wr l0 : Bool) (l : List Want) : Unwatched tileMachine wave .offset rd wr l0 l := by
  intro a ha
  have hn : ∀ n : Fin 8, space.eb[32 + n.val].getLsbD 63 = false := by decide
  cases ha
  exact .inr fun x _ n => (by simp only [State.wpHit, hn n, Bool.false_and])

theorem tile_fits (read : Bool) : TileFits tileMachine wave tiled tile read :=
  ⟨rfl, by decide +kernel, by decide +kernel, tile_unwatched _ _ _ _⟩

theorem witness_TileIssues : (Instr.tld h0 224 tile).wf = true ∧ (Instr.tst h0 tile ⟨255, true⟩).wf = true ∧
    Open h0 tileMachine wave ∧ wave.defs.length < 64 ∧ wave.pends = [] ∧ TileFits tileMachine wave tiled tile true ∧
    TileFits tileMachine wave tiled tile false :=
  ⟨rfl, rfl, (calm_of rfl (by decide +kernel)).toOpen, by decide, rfl, tile_fits true, tile_fits false⟩

/-- Slot 0 over the scratchpad, reads; and the tile one byte on. -/
def spadSpace : Space := { space with eb := (space.eb.set 32 0xE0C0000000000000).set 40 0xFFFFFFFF }
def skewTile : TileOp := { tile with ofs := 1 }
def tileWatched : State := { tileMachine with spaces := [spadSpace] }

theorem witness_TileTraps : (Instr.tld h0 224 skewTile).wf = true ∧ Open h0 tileMachine wave ∧ wave.pends = [] ∧ wave.defs.length < 64 ∧
    tileMachine.cohort? wave.cohort = some tiled ∧
    lrExt tiled.lr[7] 0 * lrExt tiled.lr[7] 1 * lrExt tiled.lr[7] 2 * lrExt tiled.lr[7] 3 = 32 * 2 ^ skewTile.cnt.val ∧
    (∃ d, wordError tiled (tileOffset wave tiled skewTile 0) = some d) ∧
    Open h0 tileWatched wave ∧ tileWatched.side = [] ∧ (∀ u < 32 * 2 ^ tile.cnt.val, wordError tiled (tileOffset wave tiled tile u) = none) ∧
    wordWatched tileWatched wave tiled tile true 0 :=
  ⟨rfl, (calm_of rfl (by decide +kernel)).toOpen, rfl, by decide, rfl, by decide +kernel, ⟨1, by decide +kernel⟩,
    (calm_of rfl (by decide +kernel)).toOpen, rfl, by decide +kernel, ⟨_, rfl, rfl, 0, by decide +kernel⟩⟩

/-- A copy of one word from s1 to s0, and with an extent of 0. -/
def copyArgs (e : BitVec 12) : NestArgs := ⟨.copy, false, 0, #v[1, 1, 1, 1, e], Vector.replicate 15 0, 60, 61, 62⟩

theorem witness_NestIssues : ∀ e ∈ [(0 : BitVec 12), 1], (Instr.nest h0 (copyArgs e)).wf = true ∧ Open h0 (machine wave) wave ∧
    slotBound ((machine wave).slotOf wave 0) = true ∧ wave.pends = [] ∧ slotScaled ((machine wave).slotOf wave 0) = false ∧
    (wave.nests.filter (fun x => x.state != .stopped)).length < 4 :=
  fun e he => ⟨by revert e; decide, wave_open, by decide +kernel, rfl, by decide +kernel, by decide⟩

/-- A nest at its last iteration, from byte 0 of the scratchpad to byte 4092. -/
def copying : Nest := { id := 9, args := copyArgs 1, base0 := 0x100000FFC, base1 := 0x100000000, base2 := 0, scale1 := 0, scale2 := 0, fmt := .fp32,
                        scaled := false, loc := 0, pc := 0x10000, seq := 1, instr := 8, priv := false }
def nester : Wave := { wave with nests := [copying] }

theorem nest_unwatched (rd wr l0 : Bool) (l : List Want) :
    Unwatched (machine nester) { nester with exempt := copying.exempt || copying.stepped } (.virtual false) rd wr l0 l := by
  intro a ha
  have hn : ∀ n : Fin 8, space.eb[32 + n.val].getLsbD 63 = false := by decide
  cases ha
  exact .inr fun x _ n => (by simp only [State.wpHit, hn n, Bool.false_and])

/-- A nest whose load is from byte 1; and one whose load is watched. -/
def skewNest : Nest := { copying with base1 := 0x100000001 }
def skewNester : Wave := { wave with nests := [skewNest] }
def nestWatched : State := { machine nester with spaces := [spadSpace] }

theorem witness_NestStops : (machine skewNester).wave? skewNester.uid = some skewNester ∧ skewNester.nests = [skewNest] ∧
    skewNest.state = .running ∧ skewNest.pos < skewNest.total ∧ skewNest.asks = [] ++ oneWant skewNest.asks :: skewNest.asks.tail ∧
    askError (machine skewNester) skewNester (oneWant skewNest.asks) = some 1 ∧
    nestWatched.wave? nester.uid = some nester ∧ (∀ y ∈ copying.asks, askError nestWatched nester y = none) ∧
    copying.exempt = false ∧ copying.stepped = false ∧ copying.asks = [] ++ oneWant copying.asks :: copying.asks.tail ∧
    askWatched nestWatched nester 0 (oneWant copying.asks) :=
  ⟨rfl, rfl, rfl, by decide +kernel, by decide +kernel, by decide +kernel, rfl, by decide +kernel, rfl, rfl, by decide +kernel,
    ⟨_, rfl, by decide +kernel⟩⟩

theorem witness_NestCopies_places : let s := machine nester
    s.wave? nester.uid = some nester ∧ nester.nests = [copying] ∧ copying.state = .running ∧ copying.pos < copying.total ∧
    (∀ a ∈ s.accs, a.agent = .wave nester.uid → a.instr ≤ copying.instr) ∧
    (∀ x ∈ copying.asks, x.va % x.size = 0 ∧ ∃ p, s.region nester (.virtual false) (BitVec.ofNat 64 x.va) = .home p) ∧
    Unwatched s { nester with exempt := copying.exempt || copying.stepped } (.virtual false) true false true (copying.reads copying.pos) ∧
    Unwatched s { nester with exempt := copying.exempt || copying.stepped } (.virtual false) false true true [copying.write copying.pos] := by
  refine ⟨rfl, rfl, rfl, by decide +kernel, by simp [machine], fun x hx => ?_, nest_unwatched _ _ _ _, nest_unwatched _ _ _ _⟩
  have h : copying.asks = [copying.asks[0]'(by decide +kernel), copying.asks[1]'(by decide +kernel)] := by decide +kernel
  rw [h] at hx
  simp only [List.mem_cons, List.not_mem_nil, or_false] at hx
  rcases hx with rfl | rfl
  · exact ⟨by decide +kernel, .spad 3 0, by decide +kernel⟩
  · exact ⟨by decide +kernel, .spad 3 4092, by decide +kernel⟩

/-- The store of that iteration, its load having returned. -/
def copied : Nest := { copying with pos := 1, got := [⟨0, 0, [1, 2, 3, 4], false⟩] }
def storer : Wave := { wave with nests := [copied] }
def nestStore : Access := { access .store with instr := 8, sub := 5, part := 5, place := .spad 3 4092, nest := some (9, 0) }

theorem witness_NestCopies_stores : let s := holding storer nestStore
    Enabled s nestStore ∧ nestStore.kind = .store ∧ s.wave? storer.uid = some storer ∧ s.cohort? cohort.uid = some cohort ∧
    storer.nests = [copied] ∧ nestStore.agent = .wave storer.uid ∧ nestStore.nest = some (copied.id, 0) ∧
    nestStore.place = .spad cohort.uid 4092 ∧ copied.fmt = .fp32 ∧ copied.scaled = false ∧ copied.args.eop = .copy ∧
    copied.args.red = false ∧ s.poison = [] ∧ copied.got.filter (fun g => g.pos == 0) = [⟨0, 0, [1, 2, 3, 4], false⟩] :=
  ⟨enabled_of (by decide +kernel), rfl, rfl, rfl, rfl, rfl, rfl, rfl, rfl, rfl, rfl, rfl, rfl, rfl⟩

/-- An outstanding result of each kind for v7 and q1. -/
def outcome (k : SbKind) : Sb := { id := 9, kind := k, vw := [(7, .uni 1)], qw := [(1, ones)], due := 0 }
def expecting (k : SbKind) : Wave := { wave with sb := [outcome k] }

theorem witness_ResultsComplete : ∀ k ∈ [SbKind.long, .xev, .vetch, .mma],
    (machine (expecting k)).wave? (expecting k).uid = some (expecting k) ∧ (expecting k).sb = [] ++ outcome k :: [] ∧
    (outcome k).due ≤ (machine (expecting k)).clkOf (expecting k).core ∧ (k = .mma → ∀ x ∈ ([] : List Sb), x.kind ≠ .mma) ∧
    ((outcome k).vw.map (fun x => x.1)).Nodup ∧ ((outcome k).qw.map (fun x => x.1)).Nodup ∧
    ∀ u ∈ (machine (expecting k)).poison, unitWave u ≠ some (expecting k).uid :=
  fun _ _ => ⟨rfl, rfl, Nat.zero_le _, by simp, by simp [outcome], by simp [outcome], by simp [machine]⟩

theorem witness_DeferredReturns : (machine waiting).wave? waiting.uid = some waiting ∧ waiting.defs = [] ++ result :: [] ∧
    result.returned = false ∧ (∀ a ∈ (machine waiting).accs, a.defId ≠ some result.id) ∧ ∀ x ∈ result.got, x.poison = false :=
  ⟨rfl, rfl, rfl, by simp [machine], by simp [result]⟩

/-- A wave whose result has returned in lane 0. -/
def back (d : DefDest) : Def := { result with dest := d, returned := true, got := [⟨0, 0, [1, 2, 3, 4], false⟩] }
def returning (d : DefDest) : Wave := { wave with defs := [back d] }

theorem witness_SwitchCommits : ∀ d ∈ [DefDest.vload 1 .qw false, .vload 1 .i8 true, .vatom 1, .qload 1 1 1 false, .tile 1 2],
    (machine (returning d)).wave? (machine (returning d)).cur = some (returning d) ∧ hy.y = true ∧
    guardPasses hy.guard (returning d) = true ∧ (machine (returning d)).poison = [] ∧
    (machine (returning d)).breakpoint (returning d) true = none ∧ (machine (returning d)).breakpoint (returning d) false = none ∧
    (returning d).inProg = .none ∧ (returning d).sb = [] ∧ (returning d).spilled = [] ∧ (returning d).pends = [] ∧
    (returning d).defs = [back d] ∧ (back d).returned = true ∧ (back d).lost = 0 ∧ (back d).deadV = [] ∧ (back d).deadQ = false ∧
    (∀ x ∈ (back d).got, x.poison = false) ∧ (back d).got.length ≤ 1 ∧ (back d).dest.regs.length ≤ 256 := by
  intro d hd
  simp at hd
  rcases hd with rfl | rfl | rfl | rfl | rfl <;>
    exact ⟨rfl, rfl, rfl, rfl, by decide +kernel, by decide +kernel, rfl, rfl, rfl, rfl, rfl, rfl, rfl, rfl, rfl, by simp [back],
      by decide, by decide +kernel⟩

theorem witness_TrapEntry : Deliverable (machine wave) wave ∧ lastTrap.mbx = false ∧ lastTrap.cls ∈ trapClasses :=
  ⟨wave_deliverable, rfl, by decide⟩

/-- A trap in privileged state, and with no handler. -/
def bare (w : Wave) : State := { machine w with spaces := [{ space with trapBase := 0 }] }

theorem witness_TrapUndelivered : (machine boss).wave? boss.uid = some boss ∧ boss.step = none ∧ (machine boss).mbxOn boss = false ∧
    boss.priv = true ∧ (machine boss).gridOf boss = some grid ∧ grid.undelivered = none ∧
    (bare wave).wave? wave.uid = some wave ∧ (bare wave).mbxOn wave = false ∧ (bare wave).trapBase wave = 0 ∧
    (bare wave).gridOf wave = some grid ∧ lastTrap.cls ∈ trapClasses :=
  ⟨rfl, rfl, by decide +kernel, rfl, rfl, rfl, rfl, by decide +kernel, by decide +kernel, rfl, by decide⟩

theorem witness_TrapiEnters : Ready h0 (machine wave) wave ∧ Deliverable (machine wave) wave := ⟨wave_ready, wave_deliverable⟩

theorem witness_EretReturns : Ready h0 (machine boss) boss ∧ boss.priv = true := ⟨boss_ready, rfl⟩

/-! ## Witnesses: registers, halts, images -/

theorem wave_stands : Stands (machine wave) wave cohort ens grid space := ⟨rfl, rfl, rfl, rfl⟩
theorem boss_stands : Stands (machine boss) boss cohort ens grid space := ⟨rfl, rfl, rfl, rfl⟩
theorem boss_deliverable : Deliverable { machine boss with poison := [] } { boss with priv := false } := deliverable_of (by decide +kernel)

/-- Registers shown and hidden in each view. -/
theorem witness_SrdReads : Ready h0 (machine wave) wave ∧ Stands (machine wave) wave cohort ens grid space ∧
    Ready h0 (machine boss) boss ∧ Stands (machine boss) boss cohort ens grid space ∧
    (∀ n ∈ [(0x00C : BitVec 12), 0x047, 0x100, 0x120, 0x182], (Instr.srd h0 1 n).wf = true) ∧
    ChqQuiet (machine wave) space ∧ ∀ b ∈ (expecting .xev).sb, ((0x008 : BitVec 12) = 0x007 → b.kind ≠ .xev) ∧
      ((0x008 : BitVec 12) = 0x008 → b.kind ≠ .vetch) :=
  ⟨wave_ready, wave_stands, boss_ready, boss_stands, (by
    intro n hn
    simp only [List.mem_cons, List.not_mem_nil, or_false] at hn
    rcases hn with rfl | rfl | rfl | rfl | rfl <;> decide +kernel), ⟨by simp [machine], rfl⟩, by simp [expecting, outcome]⟩

theorem witness_SwrWrites : Ready h0 (machine wave) wave ∧ Stands (machine wave) wave cohort ens grid space ∧
    (∀ n ∈ [(0x003 : BitVec 12), 0x00C, 0x010, 0x023],
      (Instr.swr h0 n 1).wf = true ∧ takesSwr wave.priv n.toNat = true ∧ plainReg n.toNat = true) ∧
    Ready h0 (machine boss) boss ∧ Stands (machine boss) boss cohort ens grid space ∧
    ∀ n ∈ [(0x100 : BitVec 12), 0x10A, 0x122, 0x161],
      (Instr.swr h0 n 1).wf = true ∧ takesSwr boss.priv n.toNat = true ∧ plainReg n.toNat = true :=
  ⟨wave_ready, wave_stands, (by
    intro n hn
    simp only [List.mem_cons, List.not_mem_nil, or_false] at hn
    rcases hn with rfl | rfl | rfl | rfl <;> decide +kernel), boss_ready, boss_stands, by
    intro n hn
    simp only [List.mem_cons, List.not_mem_nil, or_false] at hn
    rcases hn with rfl | rfl | rfl | rfl <;> decide +kernel⟩

/-- The operands of flt.cfg: base 0 and LOG 0, and the page's address 0x4000 with LOG 4; of chq.att, an operation of 2, and a detach. -/
def ringer : Wave := { boss with s := (wave.s.set 9 0x4004).set 10 2 |>.set 11 1 }

theorem ringer_translates : TranslatesTo (machine ringer) (corePath ringer.core) 7 0x4000 512 [0x4000000] [0] := by
  refine ⟨rfl, rfl, fun k hk m => ?_⟩
  obtain rfl : k = 0 := by simpa using hk
  exact ⟨_, by rw [tabled_probe ((machine_tabled ringer).redrawn m) _ (by decide) _ (by decide)], rfl, by simp only [page]; decide +kernel⟩

def turning : Wave := { boss with inProg := .chq ⟨0, 0, 2⟩ }

theorem witness_SwrOperates : Ready h0 (machine ringer) ringer ∧ Stands (machine ringer) ringer cohort ens grid space ∧ ringer.priv = true ∧
    (ringer.sget 0).toNat % 16 < 4 ∧ (ringer.sget 9).toNat % 16 = 4 ∧ (ringer.sget 9 &&& 0x000FFFFFFFFFF000).toNat = 0x4000 ∧
    TranslatesTo (machine ringer) (corePath ringer.core) 7 0x4000 512 [0x4000000] [0] ∧
    Calm h0 (machine ringer) ringer ∧ (machine ringer).side = [] ∧ ((machine ringer).waves.map (fun y => y.uid)).Nodup ∧
    (∃ t, exec (.fltResRetry 7 0) (machine ringer) = .next t ∧ t.wave? ringer.uid = some ringer) ∧ ChqQuiet (machine ringer) space ∧
    (ringer.sget 10).toNat % 4 = 2 ∧ (ringer.sget 11).toNat % 4 = 1 ∧ (∃ u, exec (.queueDetach 7 ⟨0, 0, 0⟩ 0) (machine ringer) = .next u) ∧
    Begun h0 (machine turning) turning ∧ turning.inProg = .chq ⟨turning.core.die, turning.core.clu, 2⟩ ∧
    ChqQuiet (machine turning) space := by
  have c : Calm h0 (machine ringer) ringer := calm_of rfl (by decide +kernel)
  exact ⟨c.toOpen.toReady, ⟨rfl, rfl, rfl, rfl⟩, rfl, by decide +kernel, by decide +kernel, by decide +kernel, ringer_translates, c, rfl,
    by decide, ⟨_, rfl, by decide +kernel⟩, ⟨by simp [machine], rfl⟩, by decide +kernel, by decide +kernel, ⟨_, rfl⟩,
    ⟨rfl, by decide +kernel, by simp [machine], by simp [h0], rfl, rfl⟩, rfl, ⟨by simp [machine], rfl⟩⟩

/-- A second wave, of another cohort of the same grid, at location 1; the first one's s9 holds that location. -/
def lead : Wave := { boss with s := wave.s.set 9 1 }
def other : Wave := { wave with uid := 6, cohort := 13, slot := 1 }
def cohort' : Cohort := { cohort with uid := 13, ens := 14, cid := 1 }
def ens' : Ensemble := { uid := 14, cohorts := [13] }
def pair (t : Wave) : State :=
  { machine lead with waves := [lead, t], cohorts := [cohort, cohort'], ensembles := [ens, ens'] }

theorem lead_calm (t : Wave) (h : calmB h0 (pair t) lead = true) : Calm h0 (pair t) lead := calm_of rfl h
theorem lead_ready : Ready h0 (pair other) lead := (lead_calm other (by decide +kernel)).toOpen.toReady
theorem other_target : Target (pair other) ((pair other).asidOf lead) ((lead.sget 9).setWidth 14) other :=
  ⟨by decide +kernel, rfl, rfl, rfl⟩

theorem witness_IntSendSets : Ready h0 (pair other) lead ∧ lead.priv = true ∧ other.uid ≠ lead.uid ∧
    Target (pair other) ((pair other).asidOf lead) ((lead.sget 9).setWidth 14) other ∧ (pair other).space? 7 = some space ∧
    Target (pair other) 7 1 other ∧ Ready h0 (machine lead) lead ∧ (machine lead).waveAt ((lead.sget 9).setWidth 14) = none :=
  ⟨lead_ready, rfl, by decide, other_target, rfl, ⟨by decide +kernel, rfl, rfl, rfl⟩,
    (calm_of rfl (by decide +kernel)).toOpen.toReady, by decide +kernel⟩

theorem witness_SwrTraps : (machine wave).wave? (machine wave).cur = some wave ∧ Deliverable (machine wave) wave ∧
    (∀ u ∈ (machine wave).poison, unitWave u ≠ some wave.uid) ∧ (machine wave).breakpoint wave false = none ∧
    ∀ n ∈ [(0x000 : BitVec 12), 0x030, 0x100, 0x170], (Instr.swr h0 n 1).wf = true ∧ takesSwr wave.priv n.toNat = false :=
  ⟨rfl, wave_deliverable, by simp [machine], by decide +kernel, by
    intro n hn
    simp only [List.mem_cons, List.not_mem_nil, or_false] at hn
    rcases hn with rfl | rfl | rfl | rfl <;> decide +kernel⟩

theorem witness_ClkrReads : Calm h0 (machine wave) wave ∧ ∀ e ∈ (machine wave).side, e.wave ≠ wave.uid :=
  ⟨wave_calm, by simp [machine]⟩

theorem witness_DebugRegisters : Ready h0 (machine boss) boss ∧ boss.priv = true ∧ (machine boss).spaceOf boss = some space ∧
    ∀ n ∈ [(0x000 : BitVec 10), 0x033], (Instr.dbgmRead h0 1 n).wf = true := ⟨boss_ready, rfl, rfl, by
    intro n hn
    simp only [List.mem_cons, List.not_mem_nil, or_false] at hn
    rcases hn with rfl | rfl <;> decide +kernel⟩

theorem witness_BrkEnters : Ready h0 (machine wave) wave ∧ Deliverable (machine wave) wave := ⟨wave_ready, wave_deliverable⟩

theorem other_boundary : AtBoundary (pair other) other :=
  ⟨rfl, rfl, rfl, by simp [pair, machine], rfl, by decide, by decide +kernel, by decide +kernel, by decide +kernel⟩

def stopped : Wave := { other with halted := true }
theorem stopped_posted : Posted (pair stopped) stopped := by
  intro a h e he
  cases h
  simp [space] at he

theorem witness_HaltForms : Ready h0 (pair other) lead ∧ lead.priv = true ∧ other.uid ≠ lead.uid ∧
    Target (pair other) ((pair other).asidOf lead) ((lead.sget 9).setWidth 14) other ∧ AtBoundary (pair other) other ∧ other.halted = false ∧
    Ready h0 (pair stopped) lead ∧ Target (pair stopped) ((pair stopped).asidOf lead) ((lead.sget 9).setWidth 14) stopped ∧
    stopped.halted = true ∧ stopped.fatal = none ∧ Posted (pair stopped) stopped ∧
    Ready h0 (machine lead) lead ∧ (machine lead).waveAt ((lead.sget 9).setWidth 14) = none ∧
    Target (machine lead) ((machine lead).asidOf lead) ((lead.sget 0).setWidth 14) lead :=
  ⟨lead_ready, rfl, by decide, other_target, other_boundary, rfl, (lead_calm stopped (by decide +kernel)).toOpen.toReady,
    ⟨by decide +kernel, rfl, rfl, rfl⟩, rfl, rfl, stopped_posted, (calm_of rfl (by decide +kernel)).toOpen.toReady, by decide +kernel,
    ⟨by decide +kernel, rfl, rfl, rfl⟩⟩

theorem space_idle : Idle space := ⟨rfl, rfl, rfl, rfl⟩

theorem witness_HaltCommands : (pair other).space? 7 = some space ∧ Idle space ∧ Target (pair other) 7 1 other ∧
    AtBoundary (pair other) other ∧ other.halted = false ∧ Target (pair stopped) 7 1 stopped ∧ stopped.halted = true ∧
    stopped.fatal = none ∧ Posted (pair stopped) stopped ∧ (machine lead).waveAt 1 = none :=
  ⟨rfl, space_idle, ⟨by decide +kernel, rfl, rfl, rfl⟩, other_boundary, rfl, ⟨by decide +kernel, rfl, rfl, rfl⟩, rfl, rfl,
    stopped_posted, by decide +kernel⟩

def stepped (p : Bool) : Wave := { wave with priv := p, step := some ⟨false, true, 0x10000⟩ }

theorem witness_StepEnds : (machine (stepped false)).wave? (stepped false).uid = some (stepped false) ∧
    Deliverable (machine (stepped false)) { stepped false with step := none } ∧ (machine (stepped false)).mbxOn (stepped false) = false ∧
    (machine (stepped true)).wave? (stepped true).uid = some (stepped true) ∧ (stepped true).priv = true ∧
    AtBoundary (machine (stepped true)) (stepped true) ∧
    ∀ p : Bool, (stepped p).step = some ⟨false, true, 0x10000⟩ ∧ (stepped p).park = .none ∧ (stepped p).inProg = .none ∧
      (stepped p).halted = false ∧ (stepped p).exited = false :=
  ⟨rfl, deliverable_of (by decide +kernel), by decide +kernel, rfl, rfl,
    ⟨rfl, rfl, rfl, by simp [machine], rfl, by decide, by decide +kernel, by decide +kernel, by decide +kernel⟩, fun _ => ⟨rfl, rfl, rfl, rfl, rfl⟩⟩

theorem unleased (w : Wave) : Unleased (machine w) 7 :=
  ⟨by simp [machine], by simp [machine], by simp [machine], by simp [machine], rfl⟩

/-- No lease; and a lease on the first page of the range. -/
def lease : Lease := { holder := .faultRing, asid := 7, vpage := 0, granted := 0 }

theorem witness_Invalidations : Calm h0 (machine boss) boss ∧ boss.priv = true ∧ Unleased (machine boss) ((machine boss).asidOf boss) ∧
    (∀ e ∈ (machine boss).wb, e.agent ≠ .wave boss.uid) ∧ (∀ e ∈ (machine boss).side, e.wave ≠ boss.uid) ∧
    (machine boss).space? 7 = some space ∧ Idle space ∧
    let s : State := { machine boss with leases := [lease] }
    lease ∈ s.leases ∧ lease.asid = 7 ∧ lease.granted ≤ s.clk ∧ space.tlbiVa.toNat / 65536 ≤ lease.vpage ∧
    lease.vpage < space.tlbiVa.toNat / 65536 + (1 : Word).toNat ∧ lease.vpage < 2 ^ 36 ∧ s.packets = [] :=
  ⟨boss_calm, rfl, unleased boss, by simp [machine], by simp [machine], rfl, space_idle, by simp, rfl, by decide, by decide, by decide,
    by decide, rfl⟩

/-- A cohort of no waves and no scratchpad saves its fixed part; one with a wave stands still. -/
def hollow : Cohort := { cohort' with spadBytes := 0 }
def hollowed : State := { machine lead with cohorts := [cohort, hollow], ensembles := [ens, ens'] }

theorem hollowed_tabled : Tabled hollowed := ⟨tables_read, rfl, rfl, rfl, rfl, rfl⟩

theorem hollow_maps : MapsTo hollowed [.root] 7 0x4000 0x240 (fun i => 0x4004000 + i) := by
  refine ⟨fun i hi k => ?_, fun i hi => ?_, fun i _ j _ h => by simpa using h⟩
  · rw [show (0x4000 + i) / 65536 * 65536 = 0 by omega]
    exact ⟨_, by rw [tabled_probe (hollowed_tabled.redrawn k) _ (by decide) _ (by decide)], by simp only [page]; omega⟩
  · exact (tabled_near hollowed_tabled (by omega)).1

theorem witness_SavesComplete : Calm h0 (pair other) lead ∧ lead.priv = true ∧
    ((pair other).waves.map (fun z => z.uid)).Nodup ∧ (∀ e ∈ (pair other).wb, e.agent ≠ .wave lead.uid) ∧
    (∀ e ∈ (pair other).side, e.wave ≠ lead.uid) ∧
    (pair other).saveTarget ((pair other).asidOf lead) (some lead.cohort) ((lead.sget 9).setWidth 14) 0x4000 = some cohort' ∧
    (pair other).saveReady cohort' = true ∧ (pair other).space? 7 = some space ∧ Idle space ∧
    (pair other).saveTarget 7 none 1 0x4000 = some cohort' ∧
    hollowed.cohort? hollow.uid = some hollow ∧ hollowed.grid? hollow.grid = some grid ∧
    Imaged hollowed hollow ∧ (hollowed.saveNow [.root] none 7 hollow 0x4000).2 ≠ 0 ∧
    (∀ y ∈ hollowed.liveWaves hollow.uid, y.defs = []) ∧ MapsTo hollowed [.root] 7 0x4000 0x240 (fun i => 0x4004000 + i) :=
  ⟨lead_calm other (by decide +kernel), rfl, by decide, by simp [pair, machine], by simp [pair, machine], by decide +kernel,
    by decide +kernel, rfl, space_idle, by decide +kernel, rfl, rfl, ⟨by decide +kernel, by decide +kernel⟩, by decide +kernel,
    by decide +kernel, hollow_maps⟩

/-- The image of a hollow cohort saved under token 99: its version, token, length and space, at 0x4000 of the page. -/
def image : List (Nat × Byte) := [(0x4004000, 1), (0x4004010, 99), (0x4004020, 0x40), (0x4004021, 2), (0x4004028, 7)]
def kept : State :=
  { hollowed with cohorts := [cohort, { hollow with place := .saved 99 }], grids := [{ grid with tokens := [(99, 13)] }],
                  mem := Memory.writeAll tables image }

theorem kept_tabled : Tabled kept := ⟨by decide +kernel, rfl, rfl, rfl, rfl, rfl⟩

theorem kept_restores (path : List NodeId) (u : Option Nat) : (kept.restore path u 7 0x4000).1.wave? lead.uid = some lead ∧
    (kept.restore path u 7 0x4000).2 = 1 := by
  have a := tabled_area kept_tabled path u (va := 0x4000) (n := 0x240) (by decide) (by decide +kernel) (by decide)
  have n : fieldAt (kept.mem.readN (0x4000000 + 0x4000) 0x240) 0x020 8 = 0x240 := by decide +kernel
  simp only [State.restore, a, n]
  decide +kernel

theorem witness_RestoresComplete : Calm h0 kept lead ∧ lead.priv = true ∧ kept.space? 7 = some space ∧ Idle space ∧
    (kept.restore (corePath lead.core) (some 5) 7 0x4000).1.wave? lead.uid = some lead ∧
    (kept.restore (corePath lead.core) (some 5) 7 0x4000).2 = 1 :=
  ⟨calm_of rfl (by decide +kernel), rfl, rfl, space_idle, kept_restores _ _⟩

/-! ## Witnesses: Teasel -/

/-- A channel of the wave's cluster, a queue of 16 slots with its header at 0x8000 and its ring at 0x9000, and a packet that
moves four bytes from 0x100 to 0x200. -/
def chan : ChanId := ⟨0, 0, 3⟩
def queue : TQueue :=
  { id := 20, asid := 7, chan := chan, hdr := 0x8000, hdrPa := 0x4008000, ring := 0x9000, ringPa := [0x4000000], logcap := 4 }
def words (w0 task : W32) : List W32 := [w0, 0x100, 0, 0x200, 0, 4, 0x10001, 0, 0, 0, 0, 0x300, 0, 77, task]
def packet (st : PktState) : Packet :=
  { id := 30, queue := 20, chan := chan, asid := 7, slot := 0, words := words 2 0, wave := some 5, scope := 2, order := 30, state := st,
    maps := [⟨0, 0x4000000, 0⟩] }

/-- s10 holds the header's address, v20 the packet. -/
def copier : Wave :=
  { wave with s := wave.s.set 10 0x8000, v := wave.v.set 20 (.gen (Vector.ofFn (fun i => (words 2 0).getD i.val 0))) }
def queued (w : Wave) (q : TQueue) (p : List Packet) : State := { machine w with queues := [q], packets := p }
theorem queued_tabled (w : Wave) (q : TQueue) (p : List Packet) : Tabled (queued w q p) := ⟨tables_read, rfl, rfl, rfl, rfl, rfl⟩
theorem tabled_inM {s : State} (h : Tabled s) (k : BitVec 8) {a n : Nat} (ha : a + n < 0x6000000000) : InM s k a n :=
  fun i hi => ⟨(tabled_near h (by omega)).1, (tabled_near h (by omega)).2, tabled_own h k _⟩

theorem copier_named (w : Wave) (q : TQueue) (p : List Packet) (opc : Nat) (hw : w.uniform64 (.sca 10) = .ok 0x8000)
    (ht : (queued w q p).headerTrap w opc 0x8000 = none)
    (hn : (queued w q p).queueNamed (corePath w.core) ((queued w q p).asidOf w) (0x8000 : Word).toNat = (queued w q p, some q)) :
    Names (queued w q p) (queued w q p) w opc (.sca 10) 0x8000 q :=
  ⟨hw, ht, hn, by simp [State.queue?, queued]⟩

theorem witness_CpyqClaims : let s := queued copier queue []
    Calm h0 s copier ∧ Drained s copier ∧ (Instr.cpyq h0 1 (.sca 10) (.vec 20 .ident false)).wf = true ∧
    Names s s copier 0x308 (.sca 10) 0x8000 queue ∧ queue.state = 1 ∧ pktValid (packetOf copier (.vec 20 .ident false)) = true ∧
    (s.probePacket (s.asidOf copier) queue.chan (packetOf copier (.vec 20 .ident false))).2 = .ok [⟨0, 0x4000000, 0⟩] ∧
    bufferFree s queue.hdrPa 8 ∧ InM s queue.hdrKey queue.hdrPa 8 :=
  ⟨calm_of rfl (by decide +kernel), ⟨by simp [queued, machine], by simp [queued, machine]⟩, rfl,
    copier_named _ _ _ _ rfl (by decide +kernel) rfl, rfl, by decide +kernel, by decide +kernel, by simp [bufferFree, queued, machine],
    tabled_inM (queued_tabled _ _ _) _ (by decide)⟩

def pend : CpyqPend := ⟨20, 15, words 2 0, 1, 30⟩
def claiming : Wave := { copier with park := .cpyq, cpyq := some pend }

/-- The last slot of the ring. -/
theorem witness_CpyqAdmits : let s := queued claiming queue [{ packet .claimed with slot := 15 }]
    s.wave? claiming.uid = some claiming ∧ claiming.cpyq = some pend ∧ s.queue? pend.queue = some queue ∧
    s.pkt? pend.pkt = some { packet .claimed with slot := 15 } ∧ queue.detaching = false ∧
    pend.slot < leVal (s.mem.readN (queue.hdrPa + 0x80) 8) + 2 ^ queue.logcap ∧ s.poison = [] ∧ Drained s claiming ∧
    (∀ a ∈ s.accs, a.agent ≠ .wave claiming.uid) ∧ claiming.nests = [] ∧ claiming.pends = [] ∧
    bufferFree s (queue.slotPa pend.slot) 64 ∧
    (∀ k < 8, s.keyDiffers queue.hdrKey ((queue.hdrPa + 0x80 + k) / 128) = false) ∧
    InM s (queue.slotKey pend.slot) (queue.slotPa pend.slot) 64 :=
  ⟨rfl, rfl, rfl, rfl, rfl, by decide +kernel, rfl, ⟨by simp [queued, machine], by simp [queued, machine]⟩, by simp [queued, machine], rfl, rfl,
    by simp [bufferFree, queued, machine], fun k _ => tabled_own (queued_tabled _ _ _) _ _, tabled_inM (queued_tabled _ _ _) _ (by decide +kernel)⟩

/-- A promise of 500, complete or not; the wave sleeps to it. -/
def promise (b : Bool) : Promise :=
  { promise := 500, pkt := 30, queue := 20, slot := 0, scope := 2, pc := 0x10000, seq := 1, complete := b }
def sleeping (b : Bool) (p : Park) : Wave := { wave with s := wave.s.set 9 500, promises := [promise b], park := p }
def late (w : Wave) (t : Nat) : State := { machine w with clk := t }

theorem witness_Sleeps : Calm h0 (late (sleeping true .none) 500) (sleeping true .none) ∧ ((sleeping true .none).sget 9).toNat ≤ 500 ∧
    (∀ e ∈ (sleeping true .none).promises.filter (fun e => e.promise == (sleeping true .none).sget 9), e.complete = true) ∧
    Calm h0 (late (sleeping false .none) 499) (sleeping false .none) ∧ 499 < ((sleeping false .none).sget 9).toNat ∧
    let w := sleeping true (.wsleep 500)
    (late w 500).wave? w.uid = some w ∧ w.park = .wsleep (500 : Word).toNat ∧ (late w 500).resident w = true ∧
    ∀ e ∈ w.promises.filter (fun e => e.promise == 500), e.complete = true :=
  ⟨calm_of rfl (by decide +kernel), by decide +kernel, by decide +kernel, calm_of rfl (by decide +kernel), by decide +kernel, rfl, rfl,
    by decide +kernel, by decide +kernel⟩

theorem witness_SleepTraps : let w := sleeping false (.wsleep 500)
    (late w 500).wave? w.uid = some w ∧ w.park = .wsleep (500 : Word).toNat ∧ (500 : Word).toNat ≤ (late w 500).clk ∧
    (late w 500).resident w = true ∧ w.halted = false ∧ Deliverable (late w 500) w ∧ w.promises = [] ++ promise false :: [] ∧
    (promise false).promise = 500 ∧ (promise false).complete = false :=
  ⟨rfl, rfl, by decide, by decide +kernel, rfl, deliverable_of (by decide +kernel), rfl, rfl, rfl⟩

theorem witness_CpypReads : ∀ b, Open h0 (machine (sleeping b .none)) (sleeping b .none) := by
  intro b; cases b <;> exact (calm_of rfl (by decide +kernel)).toOpen

theorem witness_CpyxForms : ∀ n ∈ [1, 2], Open h0 (queued copier { queue with state := n } []) copier ∧
    Names (queued copier { queue with state := n } []) (queued copier { queue with state := n } []) copier 0x30A (.sca 10) 0x8000
      { queue with state := n } ∧
    ((queued copier { queue with state := n } []).waves.map (fun y => y.uid)).Nodup ∧
    (∀ a ∈ (queued copier { queue with state := n } []).accs, a.id ≠ 0) ∧
    (queued copier { queue with state := n } []).inFlight queue.id = [] := by
  intro n hn
  simp at hn
  rcases hn with rfl | rfl <;>
    exact ⟨(calm_of rfl (by decide +kernel)).toOpen, copier_named _ _ _ _ rfl (by decide +kernel) rfl, by decide,
      by simp [queued, machine], rfl⟩

/-- A CPYX.stop whose write of STAT has performed, with no packet of the queue on its way. -/
def cpyxing : Wave := { copier with inProg := .cpyx 20 0x4008000 90 0 true }

theorem witness_CpyxForms_waits : let s := queued cpyxing { queue with state := 2 } []
    Begun h0 s cpyxing ∧ cpyxing.inProg = .cpyx 20 0x4008000 90 0 true ∧ (∀ a ∈ s.accs, a.id ≠ 90) ∧ s.inFlight 20 = [] ∧
    ∀ k < 8, s.keyDiffers 0 ((0x4008000 + 0x98 + k) / 128) = false :=
  ⟨⟨rfl, rfl, by simp [queued, machine], by simp [h0], rfl, rfl⟩, rfl, by simp [queued, machine], rfl,
    fun k _ => tabled_own (queued_tabled _ _ _) _ _⟩

def halted3 : TQueue := { queue with state := 3, cause := 2, ridx := 1 }

theorem witness_CpyxResumes : let s := queued copier halted3 [packet .faulted]
    Open h0 s copier ∧ Names s s copier 0x30A (.sca 10) 0x8000 halted3 ∧ halted3.state = 3 ∧ halted3.detaching = false ∧
    s.faultedPkt halted3 = some (packet .faulted) ∧ s.pkt? (packet .faulted).id = some (packet .faulted) ∧
    (packet .faulted).queue = halted3.id ∧ (packet .faulted).chan = halted3.chan ∧ (s.packets.map (fun y => y.id)).Nodup ∧ (s.waves.map (fun y => y.uid)).Nodup ∧
    pktCmpv (packet .faulted).words = false ∧
    pktValid (packet .faulted).words = true ∧ s.chanFlight halted3.chan < 4 ∧
    ((statQueued s { halted3 with state := 1 }).probePacket 7 chan (packet .faulted).words).2 = .ok [⟨0, 0x4000000, 0⟩] :=
  ⟨(calm_of rfl (by decide +kernel)).toOpen, copier_named _ _ _ _ rfl (by decide +kernel) rfl, rfl, rfl, by decide +kernel, rfl, rfl, rfl,
    by decide, by decide, by decide, by decide +kernel, by decide +kernel, by decide +kernel⟩

/-- The packet it skips, once the channel's accesses have performed. -/
theorem witness_CpyxResumes_completes : let p : Packet := { packet .faulted with state := .skipped, cause := halted3.cause, cmp := none }
    let s := queued copier halted3 [p]
    s.pkt? (packet .faulted).id = some p ∧ (s.packets.map (fun y => y.id)).Nodup ∧ (∀ a ∈ s.accs, a.agent ≠ .channel (packet .faulted).chan) ∧
    ∀ e ∈ s.wb, e.agent ≠ .channel (packet .faulted).chan :=
  ⟨rfl, by decide, by simp [queued, machine], by simp [queued, machine]⟩

/-- Slot 0 of the ring holds a packet and its STAMP. -/
def ringed (w0 : W32) (p : List Packet) : State :=
  { queued wave queue p with
    mem := Memory.writeAll tables (bytesAt 0x4009000 ((words w0 0 ++ [1]).flatMap (fun x : W32 => leOf 4 x.toNat))) }

/-- An admitted packet; a valid one of a host; and one that is not valid. -/
theorem witness_ChannelFetches : ∀ x ∈ [((2 : W32), [packet .admitted]), (2, []), (1, [])],
    (ringed x.1 x.2).queue? queue.id = some queue ∧ (ringed x.1 x.2).nextQueue queue.chan = some queue ∧
    (ringed x.1 x.2).chanFlight queue.chan < 4 ∧ (ringed x.1 x.2).faultedPkt queue = none ∧
    (∀ p ∈ (ringed x.1 x.2).packets, p.id < (ringed x.1 x.2).nextUid) ∧ pktValid (((ringed x.1 x.2).slotWords queue queue.ridx).1.take 15) = (x.1 == 2) := by
  intro x hx
  simp at hx
  rcases hx with rfl | rfl | rfl <;> exact ⟨rfl, by decide +kernel, by decide +kernel, by decide +kernel, by decide +kernel, by decide +kernel⟩

def loaded : Packet := { packet .started with loaded := [(3, 9, false)] }

theorem witness_CopiesMove : (queued wave queue [packet .fetched]).pkt? (packet .fetched).id = some (packet .fetched) ∧
    (queued wave queue [packet .fetched]).queue? (packet .fetched).queue = some queue ∧ (packet .fetched).withdrawn = false ∧
    (queued wave queue [packet .fetched]).earlier (packet .fetched) = [] ∧
    let s := queued wave queue [loaded]
    s.pkt? loaded.id = some loaded ∧ loaded.state = .started ∧ 0 < boxBytes loaded.words ∧ (∀ y ∈ loaded.loaded, y.1 ≠ 0) ∧
    s.boxPlace loaded (boxAddr loaded.words false 0) = some (.mem 0x4000100, 0) ∧ Readable s 0 (.mem 0x4000100) 1 ∧
    s.homeReady (.mem 0x4000100) = true ∧ 3 ∉ loaded.stored ∧ loaded.loaded.find? (fun y => y.1 == 3) = some (3, 9, false) ∧
    s.boxPlace loaded (boxAddr loaded.words true 3) = some (.mem 0x4000203, 0) :=
  ⟨rfl, rfl, rfl, by decide +kernel, rfl, rfl, by decide, by decide, by decide +kernel, readable (by decide +kernel) (by decide +kernel) rfl rfl,
    rfl, by decide, by decide, by decide +kernel⟩

/-- Task 5 of agent 8, named by a moved packet with a completion word. -/
def task : Task := { agent := 8, entry := 5, gen := 1, asid := 7, trec := parseTask [], counter := 2, order := 1, acquire := 0 }
def moved : Packet := { packet .started with words := words 0x32 0x8005, stored := [0, 1, 2, 3], promise := some 500 }

theorem witness_CopiesComplete : let s : State := { queued wave queue [moved] with tasks := [task] }
    Moved s moved ∧ (∀ q ∈ s.queues, q.detaching = false) ∧ (s.packets.map (fun x => x.id)).Nodup ∧ pktCmpv moved.words = true ∧
    s.boxPlace moved (pktCmpa moved.words) = some (.mem 0x4000300, 0) ∧ bufferFree s 0x4000300 8 ∧ s.taskNamed ((moved.words.getD 14 0) &&& 0xFFFF) = some task :=
  ⟨⟨rfl, by simp [queued, machine], rfl, by decide, by simp [queued, machine]⟩, by simp [queued, queue], by simp [queued], by decide, by decide +kernel,
    by simp [bufferFree, queued, machine], by decide +kernel⟩

/-- A header at 0x8000 with RING 0x9000 and LOGCAP 4. -/
def unbound : State :=
  { machine wave with mem := Memory.writeAll tables (bytesAt 0x4008088 (leOf 8 0x9000) ++ bytesAt 0x4008090 (leOf 8 4)) }

theorem unbound_tabled : Tabled unbound := ⟨by decide +kernel, rfl, rfl, rfl, rfl, rfl⟩

theorem unbound_page (va : Nat) (hv : va < 65536) : unbound.queuePage (chanPath chan) 7 va = (unbound, some (page unbound va)) := by
  have f : unbound.firstTier (page unbound va).base = true := by
    rw [show (page unbound va).base = 0x4000000 by simp only [page]; omega]; decide +kernel
  simp only [State.queuePage, tabled_probe unbound_tabled _ (show va < 2 ^ 25 by omega) .update (by decide), f, if_true]

theorem unbound_entry (a v : Nat) (ha : a + 8 < 0x6000000000) (hv : leVal (unbound.mem.readN a 8) = v) :
    unbound.readEntry (chanPath chan) a (some 0) = (v, unbound) := by
  simp only [State.readEntry, tabled_homes unbound_tabled _ 0 ha, emptyBelow_nil (show unbound.caches = [] from rfl), hv]

theorem witness_QueuesAttach : unbound.space? 7 = some space ∧ ChqQuiet unbound space ∧ (∀ q ∈ unbound.queues, q.id < unbound.nextUid) ∧
    unbound.mod.cfg.dies.getLsbD chan.die.val = true ∧
    unbound.queuePage (chanPath chan) 7 0x8000 = (unbound, some (page unbound 0x8000)) ∧ (page unbound 0x8000).base = 0x4000000 ∧
    unbound.readEntry (chanPath chan) (0x4008000 + 0x88) (some (page unbound 0x8000).leaf.key) = (0x9000, unbound) ∧
    unbound.readEntry (chanPath chan) (0x4008000 + 0x90) (some (page unbound 0x8000).leaf.key) = (4, unbound) ∧ (unbound.queues.filter (fun q => q.chan == chan)).length < 16 ∧
    (∀ q ∈ unbound.queues, q.hdrPa ≠ 0x4008000) ∧
    unbound.queuePages (chanPath chan) 7 (ringPages 0x9000 4) = (unbound, [page unbound 0].map some) :=
  ⟨rfl, ⟨by simp [unbound, machine], rfl⟩, by simp [unbound, machine], by decide +kernel, unbound_page _ (by decide), rfl,
    unbound_entry _ _ (by decide) (by decide +kernel), unbound_entry _ _ (by decide) (by decide +kernel), by decide +kernel,
    by simp [unbound, machine], by
      have r : ringPages 0x9000 4 = [0] := by decide +kernel
      simp only [State.queuePages, r, List.foldl_cons, List.foldl_nil, unbound_page _ (show 0 < 65536 by decide)]
      rfl⟩

/-- A queue that is attached, and one whose detachment waits for the write of its STAT. -/
def unbinding : TQueue := { queue with state := 0, detaching := true, acc := 40 }
def detached : State := { queued wave unbinding [] with accs := [headerWrite unbinding 40 0x98 0] }

theorem witness_QueuesAttach_detach : let s := queued wave queue []
    s.space? queue.asid = some space ∧ queue ∈ s.queues ∧ (∀ x ∈ s.queues, x.asid = queue.asid → x.hdr = queue.hdr → x = queue) ∧
    s.queue? queue.id = some queue ∧ queue.hdr % 256 = 0 ∧ queue.hdr < 2 ^ 52 ∧ ChqQuiet s space ∧
    Enabled detached (headerWrite unbinding unbinding.acc 0x98 0) ∧ detached.queues.filter (fun y => y.detaching) = [unbinding] ∧
    (detached.queues.map (fun y => y.id)).Nodup ∧ detached.inFlight unbinding.id = [] ∧ InM detached unbinding.hdrKey (unbinding.hdrPa + 0x98) 8 :=
  ⟨rfl, by simp [queued], by simp [queued], rfl, by decide, by decide, ⟨by simp [queued, queue, machine], rfl⟩, enabled_of (by decide +kernel),
    rfl, by decide, rfl, tabled_inM ⟨tables_read, rfl, rfl, rfl, rfl, rfl⟩ _ (by decide)⟩

/-! ## Witnesses: Yarrow -/

theorem drained (w : Wave) : Drained (machine w) w := ⟨by simp [machine], by simp [machine]⟩

/-- A task record of the page, and a launch record, as an agent reads them. -/
theorem tabled_record {s : State} (h : Tabled s) (a : Fin 9) {addr : Nat} (ha : addr + 256 < 65536) (level : Nat) :
    recordRead s a 7 addr level = (s, some (parseTask (s.mem.readN (0x4000000 + addr) 256))) := by
  have b : (page s addr).base + addr % 65536 = 0x4000000 + addr := by simp only [page]; omega
  simp only [recordRead, State.recordPage, tabled_probe h _ (show addr < 2 ^ 25 by omega) .read (by decide), b, emptyBelow_nil h.caches,
    tabled_homes h _ _ (show 0x4000000 + addr + 256 < 0x6000000000 by omega)]

theorem tabled_launch {s : State} (h : Tabled s) (a : Fin 9) {addr : Nat} (ha : addr + 128 < 65536) (hm : addr % 128 = 0) :
    s.launchBytes a 7 addr = (s, some (s.mem.readN (0x4000000 + addr) 128)) := by
  have b : (page s addr).base + addr % 65536 = 0x4000000 + addr := by simp only [page]; omega
  simp only [State.launchBytes, hm, tabled_probe h _ (show addr < 2 ^ 25 by omega) .read (by decide), b,
    tabled_homes h _ _ (show 0x4000000 + addr + 128 < 0x6000000000 by omega)]
  simp

/-- A record of zeros at s9 = 0x6000 is a valid grid record. -/
def submitter : Wave := { wave with s := wave.s.set 9 0x6000 }
def blank : TaskRec := parseTask (zeros 256)

theorem witness_TsklSubmits : let s := machine submitter
    Calm h0 s submitter ∧ Drained s submitter ∧ s.recordTrap submitter (submitter.sget 9) = none ∧
    recordRead s (dieAgent submitter.core.die) (s.asidOf submitter) (submitter.sget 9).toNat 4 = (s, some blank) ∧ blank.valid = true ∧
    s.freeEntries (s.agentFor (s.asidOf submitter) (dieAgent submitter.core.die) blank).2 ≠ [] :=
  ⟨calm_of rfl (by decide +kernel), drained _, by decide +kernel, (by
    rw [show (machine submitter).asidOf submitter = 7 from rfl, show (submitter.sget 9).toNat = 0x6000 by decide +kernel,
      tabled_record (machine_tabled _) _ (by decide)]
    rw [show (machine submitter).mem.readN (0x4000000 + 0x6000) 256 = zeros 256 by decide +kernel]
    rfl), by decide +kernel, (by
    rw [show (machine submitter).asidOf submitter = 7 from rfl]
    simp only [State.agentFor, show ¬blank.kind ≠ 0 by decide +kernel, if_false, show blank.work = 0 by decide +kernel,
      tabled_launch (machine_tabled submitter) _ (show 0 + 128 < 65536 by decide) (by decide)]
    decide +kernel)⟩

/-- TSKS and TSKQ of a task that waits on agent 8, and of a free entry. -/
def tasked (w : Wave) (l : List Task) : State := { machine w with tasks := l }
def named : Wave := { wave with s := wave.s.set 9 0x8005 }

theorem witness_TsksSignals : Calm h0 (tasked named [task]) named ∧ Drained (tasked named [task]) named ∧
    (Instr.tsks h0 (.sca 9) (.sca 0) 5).wf = true ∧ named.uniform64 (.sca 9) = .ok 0x8005 ∧ named.uniform64 (.sca 0) = .ok 0 ∧
    (tasked named [task]).taskNamed ((0x8005 : Word).setWidth 32) = some task ∧ Calm h0 (tasked named []) named ∧
    (tasked named []).taskNamed ((0x8005 : Word).setWidth 32) = none :=
  ⟨calm_of rfl (by decide +kernel), ⟨by simp [tasked, machine], by simp [tasked, machine]⟩, rfl, rfl, rfl, rfl,
    calm_of rfl (by decide +kernel), rfl⟩

theorem witness_TskqReads : Open h0 (tasked named [task]) named ∧ named.uniform64 (.sca 9) = .ok 0x8005 :=
  ⟨(calm_of rfl (by decide +kernel)).toOpen, rfl⟩

/-- The record of zeros, and one with a reserved bit. -/
def badly : State := { machine wave with mem := Memory.writeAll tables [(0x4006005, 1)] }

theorem badly_tabled : Tabled badly := ⟨by decide +kernel, rfl, rfl, rfl, rfl, rfl⟩

theorem witness_SubmitsAccept : let s := machine wave
    s.mod.ready = true ∧ s.space? 7 = some space ∧ 0x6000 % 256 = 0 ∧
    (∀ g ∈ s.grids, g.asid = 7 → g.finished = false → g.inRange 0x6000 = false) ∧ s.mod.cfg.dies.getLsbD 7 = true ∧
    recordRead s 8 7 0x6000 5 = (s, some blank) ∧ blank.valid = true ∧ s.freeEntries (s.agentFor 7 8 blank).2 ≠ [] ∧
    badly.space? 7 = some space ∧ recordRead badly 8 7 0x6000 5 = (badly, some (parseTask ((zeros 256).set 5 1))) ∧
    (parseTask ((zeros 256).set 5 1)).valid = false := by
  refine ⟨rfl, rfl, rfl, by decide +kernel, by decide +kernel, ?_, by decide +kernel, ?_, rfl, ?_, by decide +kernel⟩
  · rw [tabled_record (machine_tabled _) _ (by decide),
      show (machine wave).mem.readN (0x4000000 + 0x6000) 256 = zeros 256 by decide +kernel]
    rfl
  · simp only [State.agentFor, show ¬blank.kind ≠ 0 by decide +kernel, if_false, show blank.work = 0 by decide +kernel,
      tabled_launch (machine_tabled wave) _ (show 0 + 128 < 65536 by decide) (by decide)]
    decide +kernel
  · rw [tabled_record badly_tabled _ (by decide),
      show badly.mem.readN (0x4000000 + 0x6000) 256 = (zeros 256).set 5 1 by decide +kernel]

/-- A ready task of agent 8 of a kind, its work at an address. -/
def ready (kind work : Nat) : Task :=
  { task with counter := 0, trec := { blank with kind := kind, work := work, npkt := 1, qhdr := 0x8000, cscope := 5, cmpa := 0x300 } }

theorem startable (k a : Nat) (s : State) (h : s.tasks = [ready k a]) : Startable s (ready k a) := by
  refine ⟨by simp [State.task?, h, ready, task], ⟨rfl, rfl, rfl⟩, ?_, ?_⟩
  · intro x hx; rw [h] at hx; simp at hx; subst hx; simp
  · rw [h]; simp [ready, task]

/-- A launch record at 0x6100: one wave, one cohort, a budget of 16384. -/
def launching : State :=
  { tasked wave [ready 0 0x6100] with mem := Memory.writeAll tables [(0x4006108, 1), (0x4006109, 1), (0x400610B, 0x40), (0x4006114, 1)] }
def record : List Byte := (((((zeros 128).set 8 1).set 9 1).set 11 0x40).set 20 1)

theorem launching_tabled : Tabled launching := ⟨by decide +kernel, rfl, rfl, rfl, rfl, rfl⟩

theorem witness_GridsStart : Startable launching (ready 0 0x6100) ∧ (ready 0 0x6100).trec.kind = 0 ∧
    (startAcquired launching (ready 0 0x6100)).launchBytes 8 7 0x6100 = (launching, some record) ∧ (parseLaunch record).refusal launching.mod.cfg.dies = none ∧
    (parseLaunch record).ncoh ≠ 0 ∧ (∀ c ∈ launching.cohorts, c.grid < launching.nextUid) ∧
    Startable (tasked wave [ready 0 1]) (ready 0 1) ∧ ((startAcquired (tasked wave [ready 0 1]) (ready 0 1)).launchBytes 8 7 1).2 = none :=
  ⟨startable _ _ _ rfl, rfl, (by
    rw [startAcquired, emptyBelow_nil rfl, tabled_launch launching_tabled _ (by decide) (by decide),
      show launching.mem.readN (0x4000000 + 0x6100) 128 = record by decide +kernel]), by decide +kernel, by decide +kernel, by decide +kernel, startable _ _ _ rfl, by decide +kernel⟩

/-- A copy batch of one packet at 0x6000 for the queue. -/
def batching (t : Task) : State := { tasked wave [t] with queues := [queue] }
def onway : Task := { ready 1 0x6000 with state := .running, counter := 1 }
def claimed : Task := { onway with claim := some (20, 15) }
theorem batching_tabled (t : Task) : Tabled (batching t) := ⟨tables_read, rfl, rfl, rfl, rfl, rfl⟩

theorem batching_named (t : Task) (ht : t.asid = 7) (hq : t.trec.qhdr = 0x8000) : (batching t).batchQueue t = (batching t, some queue) := by
  have n : (batching t).queueNamed (agentPath t.agent) 7 0x8000 = (batching t, some queue) := rfl
  rw [State.batchQueue, ht, hq, n]
  rfl

theorem batching_page (t : Task) (k : Nat) (ht : t.asid = 7) (hw : t.trec.work = 0x6000) (hk : k < 4) :
    (batching t).batchPage t k = (batching t, .ok (page (batching t) (0x6000 + 64 * k))) := by
  rw [State.batchPage, ht, hw, tabled_probe (batching_tabled t) _ (by omega) .read (by decide)]

theorem witness_BatchesAppend : let s := batching (ready 1 0x6000)
    Startable s (ready 1 0x6000) ∧ (ready 1 0x6000).trec.kind = 1 ∧
    (startAcquired s (ready 1 0x6000)).batchQueue (ready 1 0x6000) = (s, some queue) ∧ s.batchReads (ready 1 0x6000) = (s, true) := by
  refine ⟨startable _ _ _ rfl, rfl, ?_, ?_⟩
  · rw [startAcquired, emptyBelow_nil rfl]
    exact batching_named _ rfl rfl
  · have n : (ready 1 0x6000).trec.npkt = 1 := rfl
    have p := batching_page (ready 1 0x6000) 0 rfl rfl (by decide)
    simp only [State.batchReads, n, List.range_one, List.foldl_cons, List.foldl_nil, p]

/-- A batch that has to claim a slot, and one that has claimed the last of the ring. -/
theorem witness_BatchesAppend_steps : ∀ t ∈ [onway, claimed], Appending (batching t) t ∧
    batchNext (batching t) (batching t) t queue (page (batching t) 0x6000) ∧ bufferFree (batching t) queue.hdrPa 8 ∧
    InM (batching t) queue.hdrKey queue.hdrPa 8 ∧ 15 < leVal ((batching t).mem.readN (queue.hdrPa + 0x80) 8) + 2 ^ queue.logcap ∧
    (∀ e ∈ (batching t).wb, e.agent ≠ .yarrow t.agent) ∧ bufferFree (batching t) (queue.slotPa 15) 64 ∧
    (∀ k < 8, (batching t).keyDiffers queue.hdrKey ((queue.hdrPa + 0x80 + k) / 128) = false) ∧
    InM (batching t) (queue.slotKey 15) (queue.slotPa 15) 64 ∧
    ((batching t).readBytes (agentPath t.agent) 0 true none (.mem 0x4006000) 64).2.2 = false := by
  intro t ht
  simp only [List.mem_cons, List.not_mem_nil, or_false] at ht
  rcases ht with rfl | rfl <;>
    exact ⟨⟨rfl, rfl, rfl, rfl, by decide +kernel⟩, ⟨_, batching_named _ rfl rfl, batching_page _ 0 rfl rfl (by decide)⟩,
      by simp [bufferFree, batching, tasked, machine], tabled_inM (batching_tabled _) _ (by decide), by decide +kernel,
      by simp [batching, tasked, machine], by simp [bufferFree, batching, tasked, machine], fun k _ => tabled_own (batching_tabled _) _ _,
      tabled_inM (batching_tabled _) _ (by decide +kernel),
      by decide +kernel⟩

/-- A refused task with its CMPA on the page. -/
def refusedTask : Task :=
  { ready 0 1 with state := .running, refused := some 6, trec := { (ready 0 1).trec with cmpa := 0x300 } }
def refusing : State := tasked wave [refusedTask]
theorem refusing_tabled : Tabled refusing := ⟨tables_read, rfl, rfl, rfl, rfl, rfl⟩

theorem witness_TasksComplete : refusing.task? refusedTask.agent refusedTask.entry = some refusedTask ∧ refusedTask.state = .running ∧
    refusedTask.refused = some 6 ∧ refusedTask.grid = none ∧ refusedTask.trec.nx0v = false ∧ refusedTask.trec.nx1v = false ∧
    refusedTask.trec.cscope = 5 ∧ refusedTask.trec.cmpa ≠ 0 ∧
    (refusing.probe (agentPath refusedTask.agent) refusedTask.asid refusedTask.trec.cmpa .write true).2 = .ok (page refusing 0x300) ∧
    refusedTask.trec.cmpa % 8 = 0 ∧ (page refusing 0x300).base % 65536 = 0 ∧ InM refusing (page refusing 0x300).leaf.key 0x4000300 8 ∧ bufferFree refusing 0x4000300 8 ∧
    ∀ e ∈ refusing.wb, e.agent ≠ .yarrow refusedTask.agent :=
  ⟨rfl, rfl, rfl, rfl, by decide +kernel, by decide +kernel, rfl, by decide, (by
    rw [show refusedTask.asid = 7 from rfl, show refusedTask.trec.cmpa = 0x300 from rfl,
      tabled_probe refusing_tabled _ (by decide) .write (by decide)]), by decide, by decide, tabled_inM refusing_tabled _ (by decide),
    by simp [bufferFree, refusing, tasked, machine], by simp [refusing, tasked, machine]⟩

/-- A cohort of one wave that waits at the head of die 0's queue, its spill area at 0x10000. -/
def spilling : Grid := { grid with launch := { launch with spill := 0x10000 } }
def waitingCohort : Cohort := { cohort' with place := .queued, started := false }
def seat : Seat := ⟨⟨0, 0, 1⟩, [31]⟩
def placing : State :=
  { machine wave with cohorts := [cohort, waitingCohort], ensembles := [ens, ens'], grids := [spilling],
                      dies := [{ die := 0, queue := [⟨[13]⟩] }] }

theorem witness_CohortsPlace : (placing.dieOf 0).queue = ⟨[waitingCohort.uid]⟩ :: [] ∧
    placing.cohort? waitingCohort.uid = some waitingCohort ∧ placing.grid? waitingCohort.grid = some spilling ∧
    waitingCohort.started = false ∧ waitingCohort.place = .queued ∧ spilling.launch.spill ≠ 0 ∧
    (placing.spillAreas spilling waitingCohort 0).2.isSome = true ∧ placing.seatsFit 0 [waitingCohort] [seat] = true ∧
    ∀ w ∈ placing.waves, w.cohort ≠ waitingCohort.uid ∧ w.uid < placing.nextUid :=
  ⟨rfl, rfl, rfl, rfl, rfl, by decide, by decide +kernel, by decide +kernel, by decide +kernel⟩

theorem witness_CohortsMigrate : let s := machine wave
    s.cohort? cohort.uid = some cohort ∧ s.ens? cohort.ens = some ens ∧ ens.cohorts = [cohort.uid] ∧ cohort.place = .resident ∧
    cohort.lastMove = none ∧ seat.core ≠ cohort.core ∧ seat.core.die = cohort.core.die ∧ AtRest s cohort ∧ s.seatFits cohort seat = true ∧
    (s.waves.map (fun w => w.uid)).Nodup ∧ ∀ w ∈ s.liveWaves cohort.uid, (w.park = .none ∨ w.parkedFor false = true) ∧
      ∀ k : Fin 4, w.arrE[k.val] ≠ ens.bars[k.val].gen := by
  refine ⟨rfl, rfl, rfl, rfl, rfl, by decide, rfl, ⟨rfl, by simp [machine], by simp [machine], by simp [machine], ?_⟩, by decide +kernel, by decide, ?_⟩
  · intro w hw; simp [machine] at hw; subst hw; intro _; exact ⟨rfl, rfl, rfl, rfl, rfl, rfl⟩
  · intro w hw; simp [State.liveWaves, machine] at hw; obtain ⟨rfl, _⟩ := hw; exact ⟨.inl rfl, by decide +kernel⟩

/-- A core whose one cohort has waited at BAR for yar.fp cycles, and an entry of its die that then fits; a cohort that has left. -/
def swapping : State :=
  { machine (parked (.bar 0)) with
    cohorts := [cohort, waitingCohort], ensembles := [ens, ens'], dies := [{ die := 0, queue := [⟨[13]⟩] }],
    cores := [{ id := ⟨0, 0, 0⟩, idle := 0x40000 }] }
def goneCohort : Cohort := { cohort' with place := .gone }
def leaving : State := { machine wave with cohorts := [cohort, goneCohort] }

theorem witness_CohortsLeave : (swapping.dieOf 0).fp ≠ 0 ∧ (swapping.dieOf 0).fp.toNat ≤ (swapping.coreOf ⟨0, 0, 0⟩).idle ∧
    (swapping.dieOf 0).queue ≠ [] ∧ swapping.swapChoice ⟨0, 0, 0⟩ = some cohort ∧ swapping.ensembleOf cohort = [cohort] ∧
    swapping.cohort? cohort.uid = some cohort ∧ swapping.poolUsed 0 + swapping.imageSize cohort ≤ swapping.poolSize ∧ swapping.still cohort 3 = true ∧
    (swapping.liftCohort cohort .away).headFits ⟨0, 0, 0⟩ = true ∧
    leaving.cohort? goneCohort.uid = some goneCohort ∧ leaving.grid? goneCohort.grid = some grid ∧ leaving.packets = [] ∧
    grid.finished = false :=
  ⟨by decide +kernel, by decide +kernel, by decide +kernel, by decide +kernel, by decide +kernel, rfl, by decide +kernel, by decide +kernel,
    by decide +kernel, rfl, rfl, rfl, rfl⟩

/-- The vector rail on its way to OP3. -/
def ramping : State :=
  { machine wave with mod := { ready := true, rails := (Vector.replicate 4 {}).set 1 { ramp := some (3, 1000) } } }

theorem witness_RampsComplete : ramping.mod.rails[(railIdx .vector).val].ramp = some (3, 1000) := by decide

/-! ## Witnesses: faults, the host, the module -/

/-- A space with a ring of 16 records at 0x7000, FLT.VEC and a service wave at location 0. -/
def ringSpace : Space :=
  { space with fltCfg := 0x7004, ringPa := [0x4000000], ringKeys := [0], fltVec := 0x8000000000000005, fltSvc := 0x8000000000000000 }
def fault : FaultRec := { id := 70, asid := 7, page := 0x200, kind := 1, why := 1, loc := 0, seq := 3, pc := 0x10000 }
def posted : FaultRec := { fault with rid := some 1 }
def faulting (w : Wave) (f : FaultRec) : State := { machine w with spaces := [ringSpace], faults := [f] }

theorem witness_FaultsPost : let s := faulting wave fault
    s.faults.find? (fun x => x.id == fault.id) = some fault ∧ fault.rid = none ∧ s.space? fault.asid = some ringSpace ∧
    4 ≤ ringSpace.fltCfg.toNat % 16 ∧
    (s.faults.filter (fun x => x.asid == fault.asid && x.rid.isSome)).length < 2 ^ (ringSpace.fltCfg.toNat % 16) ∧
    InM s (areaKey ringSpace.ringKeys (ringSpace.fltCfg &&& 0xFFFFFFFFFFFFF000).toNat
      (32 * (ringSpace.posted % 2 ^ (ringSpace.fltCfg.toNat % 16)))) (areaPa ringSpace.ringPa (ringSpace.fltCfg &&& 0xFFFFFFFFFFFFF000).toNat
      (32 * (ringSpace.posted % 2 ^ (ringSpace.fltCfg.toNat % 16)))) 32 ∧
    ringSpace.fltSvc.getLsbD 63 = true ∧ Target s fault.asid (ringSpace.fltSvc.setWidth 14) wave :=
  ⟨rfl, rfl, rfl, by decide, by decide, by unfold InM; decide +kernel, by decide,
    ⟨by decide +kernel, rfl, rfl, rfl⟩⟩

/-- A fetch held on the fault; and a lane of a load. -/
def starved : Wave := { wave with fetch := .held 70 }
def stuck : Access := { access .load with held := some 70, defId := some 41 }

theorem witness_FaultsResolve : (∀ f ∈ (machine wave).faults, ¬(f.asid = 7 ∧ f.rid = some 1)) ∧
    (let s := faulting starved posted
     s.faults.find? (fun x => x.asid == posted.asid && x.rid == some 1) = some posted ∧ (∀ a ∈ s.accs, a.held ≠ some posted.id) ∧
     (∀ e ∈ s.side, e.fault ≠ posted.id) ∧ s.wave? starved.uid = some starved ∧ starved.nests = [] ∧ starved.fetch = .held posted.id) ∧
    let s : State := { faulting waiting posted with accs := [stuck] }
    s.faults.find? (fun x => x.asid == posted.asid && x.rid == some 1) = some posted ∧
    s.accs.filter (fun a => a.held == some posted.id) = [stuck] ∧ (∀ e ∈ s.side, e.fault ≠ posted.id) ∧
    s.wave? waiting.uid = some waiting ∧ stuck.agent = .wave waiting.uid ∧ stuck.defId = some result.id ∧ waiting.defs = [result] ∧
    stuck.lane < 32 :=
  ⟨by simp [machine], ⟨rfl, by simp [faulting, machine], by simp [faulting, machine], rfl, rfl, rfl⟩, rfl, rfl,
    by simp [faulting, machine], rfl, rfl, rfl, rfl, by decide⟩

/-- A logged word store to the page at 0, whose fault has been mended. -/
def logged : SideEntry :=
  { id := 80, wave := 5, core := ⟨0, 0, 0⟩, loc := 0, grid := 2, pc := 0x10000, seq := 1, instr := 40, asid := 7, page := 0, user := true, ord := .plain,
      level := 3, evp := 0, rmw := none, lanes := [⟨0, 0x100, [1, 2, 3, 4]⟩], fault := 70, ready := true }
def logging : State := { machine wave with side := [logged] }

theorem witness_SideLogReplays : logging.side.find? (fun y => y.id == logged.id) = some logged ∧ logged.ready = true ∧ logged.rmw = none ∧
    logged.lanes = [⟨0, 0x100, [1, 2, 3, 4]⟩] ∧ logged.ord = .plain ∧
    ∃ x, (logging.translate logged.core logged.asid (logged.page * 65536) .write (!logged.user)).2 = .ok x ∧ x.leaf.mt = 0 ∧
      (logging.translate logged.core logged.asid (logged.page * 65536) .write (!logged.user)).1.replayable logged
        (logged.access x 0 ⟨0, 0x100, [1, 2, 3, 4]⟩) = true := by
  have h : (match (logging.translate logged.core logged.asid (logged.page * 65536) .write (!logged.user)) with
    | (s, .ok x) => x.leaf.mt == 0 && s.replayable logged (logged.access x 0 ⟨0, 0x100, [1, 2, 3, 4]⟩)
    | _ => false) = true := by decide +kernel
  refine ⟨rfl, rfl, rfl, rfl, rfl, ?_⟩
  split at h
  · next s x e =>
    simp only [Bool.and_eq_true, beq_iff_eq] at h
    exact ⟨x, by rw [e], h.1, by rw [e]; exact h.2⟩
  · cases h

theorem witness_HostRegisters : (machine wave).wave? wave.uid = some wave ∧ (machine wave).space? 7 = some space ∧
    (∀ v ∈ [(0x7003 : Word), 0x700D], v.toNat % 16 < 4 ∨ 12 < v.toNat % 16) ∧
    TranslatesTo (machine wave) [.root] 7 0x7000 (32 * 2 ^ 4) [0x4000000] [0] ∧
    ((machine wave).probe [.root] 7 ((0x10001 : Word) &&& 0x000FFFFFFFFF0000).toNat .update true).2 = .ok (page (machine wave) 0x10000) :=
  ⟨rfl, rfl, by simp, ⟨by simp, rfl, fun k hk m => (by
    obtain rfl : k = 0 := by simpa using hk
    exact ⟨_, by rw [tabled_probe ((machine_tabled wave).redrawn m) _ (by decide) .update (by decide)], rfl, by simp only [page]; decide +kernel⟩)⟩, (by
    rw [show ((0x10001 : Word) &&& 0x000FFFFFFFFF0000).toNat = 0x10000 by decide +kernel,
      tabled_probe (machine_tabled wave) _ (by decide) .update (by decide)])⟩

/-- A space whose grids have all finished, and one with a grid that runs. -/
theorem witness_RegisterWrites : let s : State := { machine wave with grids := [{ grid with finished := true }] }
    (∀ r ∈ [HostReg.asPtb 7, .fltVec 7, .trapBase 7, .fltSvc 7, .mftN 7, .tlbLease 7, .tlbiVa 7, .eyebright 7 47], regSpace r = some 7) ∧
    s.space? 7 = some space ∧ ¬GridRuns s 7 ∧ GridRuns (machine wave) 7 ∧ GridRuns (tasked wave [{ task with state := .running }]) 7 ∧
    s.mod.ready = true :=
  ⟨by decide, rfl, by simp [GridRuns, machine], .inl ⟨grid, by simp [machine], rfl, rfl⟩, .inr ⟨{ task with state := .running }, by simp [tasked], rfl, rfl, by decide⟩, rfl⟩

def event : MbxEvent := { evt := 1, loc := 0, name := 1, pc := 0x10000, seq := 1, mask := 1, em := 1, addr := 0, task := 0, coh := 0 }
def mailSpace : Space := { space with eb := space.eb.set 0x30 1, mbxPa := 0x4000000, mbxCount := 1022, mbxQueue := [event] }

/-- The last free slot of the mailbox. -/
theorem witness_MailboxPosts : let s : State := { machine wave with spaces := [mailSpace] }
    s.space? 7 = some mailSpace ∧ mailSpace.mbxQueue = event :: [] ∧ mailSpace.eb[0x30].getLsbD 0 = true ∧
    (mailSpace.mbxCount + 2 ^ 64 - leVal (s.mem.readN (mailSpace.mbxPa + 8) 8)) % 2 ^ 64 ≠ 1023 ∧
    InM s mailSpace.mbxKey (mailSpace.mbxPa + 64 * (1 + mailSpace.mbxCount % 1023)) 64 ∧ InM s mailSpace.mbxKey mailSpace.mbxPa 16 :=
  ⟨rfl, rfl, by decide, by decide +kernel, by unfold InM; decide +kernel, by unfold InM; decide +kernel⟩

/-- A port that has waited 16 cycles; a space whose sample is due. -/
def stalled : State :=
  { machine wave with cores := [{ id := ⟨0, 0, 0⟩, ports := (Vector.replicate 4 {}).set 3 { stall := 16 } }] }
def sampleSpace : Space := { space with eb := (space.eb.set 0x31 0x8000000000000100).set 0x32 0x7004, smpPa := [0x4000000], smpKeys := [0] }
def sampling : State :=
  { machine wave with spaces := [sampleSpace], cores := [{ id := ⟨0, 0, 0⟩, samplers := [⟨7, 1, 0⟩] }] }

theorem witness_CyclesCount : (machine wave).mustResume ⟨0, 0, 0⟩ = false ∧ (machine wave).sampleWaits ⟨0, 0, 0⟩ = false ∧
    (∀ p ∈ ((machine wave).coreOf ⟨0, 0, 0⟩).ports.toList, p.stall < 16 ∨ p.grant = true) ∧ (∀ a ∈ (machine wave).spaces, Idle a) ∧
    16 ≤ (stalled.coreOf ⟨0, 0, 0⟩).ports[3].stall ∧ sampling.sampleDue ⟨0, 0, 0⟩ = some sampleSpace ∧
    sampling.space? sampleSpace.asid = some sampleSpace ∧ sampleSpace.eb[0x31].toNat / 2 ^ 48 % 16 = 0 ∧
    InM sampling (areaKey sampleSpace.smpKeys (sampleSpace.eb[0x32].toNat / 4096 * 4096) (64 * (sampleSpace.smpCount %
      2 ^ (sampleSpace.eb[0x32].toNat % 16)))) (areaPa sampleSpace.smpPa (sampleSpace.eb[0x32].toNat / 4096 * 4096) (64 * (sampleSpace.smpCount %
      2 ^ (sampleSpace.eb[0x32].toNat % 16)))) 64 :=
  ⟨by decide +kernel, by decide +kernel, by decide +kernel, (by intro a h; simp [machine] at h; subst h; exact space_idle), by decide +kernel,
    by decide +kernel, rfl, by decide, by unfold InM; decide +kernel⟩

theorem witness_HostAccesses : (machine wave).mod.ready = true ∧ (machine wave).poison = [] ∧
    (machine wave).space? 7 = some space ∧ Idle space := ⟨rfl, rfl, rfl, space_idle⟩

theorem witness_SpacesLive : (machine wave).mod.ready = true ∧ (machine wave).space? 4095 = none ∧ (machine wave).space? 7 = some space ∧
    (∀ t ∈ (machine wave).tasks, t.asid ≠ 9) ∧ (∀ g ∈ (machine wave).grids, g.asid ≠ 9) ∧ (∀ q ∈ (machine wave).queues, q.asid ≠ 9) ∧
    (∃ t ∈ (tasked wave [task]).tasks, t.asid = 7) ∧ ∀ v ∈ [(0x10003 : Word), 0x10006, 0xFF07],
      v.toNat % 65536 = 3 ∨ v.toNat % 65536 = 6 ∨ 7 ≤ v.toNat % 256 :=
  ⟨rfl, by decide +kernel, rfl, by simp [machine], by simp [machine, grid], by simp [machine], ⟨task, by simp [tasked], rfl⟩, by simp⟩

def replaying : State :=
  { machine wave with mod := { ready := true, links := (Vector.replicate 12 {}).set 11 { replays := 16 } } }

/-- The last word of first-tier memory, and a peer without a key. -/
theorem witness_LinksCarry : LinkUp (machine wave) 11 ∧ PlainMem (machine wave) 0x5FFFFFFFFC 4 ∧
    (∀ i < 4, (machine wave).keyDiffers (⟨1, 0⟩ : LanbySrc).key ((0x5FFFFFFFFC + i) / 128) = false) ∧ replaying.mod.links[11].up = true ∧
    16 ≤ replaying.mod.links[11].replays := ⟨⟨rfl, rfl⟩, ⟨rfl, by decide +kernel, rfl⟩, by decide +kernel, rfl, by decide⟩

/-- A load of another module's memory, over a route that is up. -/
def farLoad : Access := { access .load with place := .mem (2 ^ 46), defId := some 41 }
def far : State :=
  { holding waiting farLoad with mod := { ready := true, cfg := ⟨0, 0, 0xFF, 3, 2 ^ 41, 0, [[], [11]], Vector.replicate 8 0, []⟩ } }

theorem witness_PeersPoison : LinkUp far 11 ∧ 0 < farLoad.size ∧ Enabled far farLoad ∧ farLoad.kind = .load ∧ farLoad.ord = .plain ∧
    farLoad.place = .mem (2 ^ 46) ∧ 2 ^ 46 / 2 ^ 46 ≠ far.mod.cfg.modno.val ∧ farLoad.agent = .wave waiting.uid ∧
    far.wave? waiting.uid = some waiting ∧ awaits waiting farLoad result :=
  ⟨⟨rfl, rfl⟩, by decide, enabled_of (by decide +kernel), rfl, rfl, rfl, by decide, rfl, rfl,
    rfl, by simp [waiting], by simp [waiting], by simp [result]⟩

def secured (x : SpdmSt) : State := { machine wave with mod := { ready := true, spdm := x, imageVersion := 1 } }

/-- A wave that has written v9. -/
def written : Wave := { wave with v := wave.v.set 9 (.uni 1) }

theorem witness_ErrorsCount : (secured { session := true }).mod.spdm.session = true ∧ (∀ e ∈ (secured { session := true }).wb, e.key ≠ 255) ∧
    (machine written).wave? written.uid = some written ∧ written.vreg 9 ≠ .none :=
  ⟨rfl, by simp [secured, machine], rfl, by decide +kernel⟩

/-- A responder that allows every request, and one that has answered none and allows the first. -/
theorem witness_SpdmAnswers : (secured { version := true, caps := true, algs := true, handshake := true, session := true }).mod.ready = true ∧
    (∀ x ∈ spdmTable, x.2.1 { version := true, caps := true, algs := true, handshake := true, session := true } = true) ∧
    ∃ x ∈ spdmTable, x.2.1 {} = true := ⟨rfl, by simp [spdmTable], ⟨.spdmGetVersion, fun _ => true, fun _ => { version := true }⟩,
    by simp [spdmTable], rfl⟩

/-- A record of a version. -/
def versioned (n : BitVec 16) : CfgRecord := ⟨0, n, 0xFF, 1, 0, 0, [], Vector.replicate 8 0, []⟩

/-- Before bring-up, of an image that the counter has passed too; and images of a higher version and of the same. -/
theorem witness_ModuleComesUp : State.reset.mod.ready = false ∧ State.reset.mod.recovery = false ∧
    (secured { session := true }).mod.spdm.session = true ∧
    (secured { session := true }).mod.imageVersion < (versioned 2).version.toNat ∧
    (versioned 1).version.toNat ≤ (secured { session := true }).mod.imageVersion ∧
    (match ({ pendingCfg := some (versioned 0), imageVersion := 1 } : ModSt).pendingCfg with
      | some r => r
      | none => ({} : ModSt).cfg).version.toNat < ({ pendingCfg := some (versioned 0), imageVersion := 1 } : ModSt).imageVersion :=
  ⟨rfl, rfl, rfl, by decide, by decide, by decide⟩

/-! ## Witnesses: leaving, leases, guards, steps -/

/-- The last wave of a cohort. -/
theorem witness_WavesEnd : Calm h0 (machine wave) wave ∧ (machine wave).cohort? wave.cohort = some cohort ∧
    ((machine wave).waves.filter (fun x => x.cohort == wave.cohort && !x.exited && x.uid != wave.uid)).length = 0 ∧
    Calm h0 (pair { other with cohort := 3, widx := 1 }) lead ∧ (pair { other with cohort := 3, widx := 1 }).cohort? lead.cohort = some cohort :=
  ⟨wave_calm, rfl, by decide, calm_of rfl (by decide +kernel), rfl⟩

theorem witness_LeaseExpires : (machine wave).packets = [] := rfl

/-- A guard on a predicate bit of s5, false in the wave. -/
def hg (y : Bool) : Head := ⟨.ifSet 5 12, y⟩
def skipped (y : Bool) : Instr := .fadd (hg y) 10 v1 v2

theorem witness_GuardSkips : ∀ y, ∃ r g, (skipped y).raw = some r ∧ guardOf r = some g ∧ (skipped y).wf = true ∧
    (machine wave).wave? (machine wave).cur = some wave ∧ guardPasses g wave = false ∧
    (∀ u ∈ (machine wave).poison, unitWave u ≠ some wave.uid) ∧ (machine wave).breakpoint wave false = none ∧ markOf r = y ∧ wave.defs = [] ∧ wave.pends = [] ∧
    privileged (opcOf r) = false :=
  fun y => ⟨_, .ifSet 5 12, rfl, by cases y <;> decide +kernel, by cases y <;> decide, rfl, by decide, by simp [machine], by decide +kernel, by cases y <;> rfl,
    rfl, rfl, by cases y <;> decide +kernel⟩

theorem witness_PrivilegeTraps : ∀ i ∈ [Instr.eret h0, .wsave h0 1 2 3, .wrest h0 1 2, .tlbi h0 1 2 3, .dbgmRead h0 1 0, .haltQuery h0 1 2 3,
      .perfsRead h0 1 0], i.wf = true ∧ (∃ r, i.raw = some r ∧ privileged (opcOf r) = true) ∧
    (machine wave).wave? (machine wave).cur = some wave ∧ Deliverable (machine wave) wave ∧
    (∀ u ∈ (machine wave).poison, unitWave u ≠ some wave.uid) ∧ (machine wave).breakpoint wave false = none := by
  intro i hi
  simp at hi
  rcases hi with rfl | rfl | rfl | rfl | rfl | rfl | rfl <;> exact ⟨rfl, ⟨_, rfl, by decide +kernel⟩, rfl, wave_deliverable, by simp [machine], by decide +kernel⟩

/-- A wave beyond its address space, on a page that does not translate, and on a barred page. -/
def outside : Wave := { wave with pc := 0x10000000000000 }
def astray : Wave := { wave with pc := 0x2000000 }
def barSpace : Space := { space with mftN := 1, barObj := [0], barPage := [1] }
def barring : State := { machine wave with spaces := [barSpace] }

theorem witness_FetchEnds : (machine wave).wave? (machine wave).cur = some wave ∧ Deliverable (machine wave) wave ∧
    (machine wave).breakpoint wave false = none ∧ Deliverable (machine outside) outside ∧ (machine outside).gridOf outside = some grid ∧ 2 ^ 52 ≤ outside.pc.toNat ∧
    (∃ y f, ((machine astray).translate astray.core grid.asid (astray.pc.toNat / 65536 * 65536) .fetch astray.priv).2 = .error y ∧
      (((machine astray).translate astray.core grid.asid (astray.pc.toNat / 65536 * 65536) .fetch astray.priv).1.raiseFault grid.asid
        (astray.pc.toNat / 65536 * 65536) .fetch y astray.loc astray.seq astray.pc).2 = some f) ∧
    (barring.fetch wave).2 = .barred ∧ (barring.fetch wave).1.wave? wave.uid = some wave ∧
    ((barring.fetch wave).1.gridOf wave).isSome = true ∧ ∀ a ∈ (barring.fetch wave).1.accs, a.agent ≠ .wave wave.uid :=
  ⟨rfl, wave_deliverable, by decide +kernel, deliverable_of (by decide +kernel), rfl, by decide, ⟨1, 100, by decide +kernel, by decide +kernel⟩, by decide +kernel,
    by decide +kernel, by decide +kernel, by decide +kernel⟩

/-- The wave's turn, at NOPW.y and at a word that decodes to none. -/
def turned (word : List Byte) : State :=
  { machine wave with sched := [⟨0, .issue 5⟩], mem := Memory.writeAll tables (bytesAt 0x4010000 word) }

theorem has_turn (word : List Byte) (h : ((turned word).eligible wave && (turned word).alone wave &&
    ((turned word).coreOf wave.core).ports[wave.port.val].issued.isNone) = true) : HasTurn (turned word) wave [] := by
  simp at h
  exact ⟨rfl, rfl, rfl, rfl, rfl, h.1.1, by simpa using h.2, h.1.2, rfl, by simp [turned, machine], by simp [wave]⟩

/-- The wave's fetch gives bytes, which decode or do not. -/
def fetches (s : State) (ok : Bool) : Bool :=
  match (s.fetch wave).2 with
  | .bytes l => (decode l).isSome == ok
  | _ => false

theorem witness_StepRunsDecoded : ∀ x ∈ [([0x5C, 1, 0, 0, 0, 0, 0, 0], true), ([0, 8, 0, 0, 0, 0, 0, 0], false)],
    HasTurn (turned x.1) wave [] ∧ fetches (begun (turned x.1) wave []) x.2 = true := by
  intro x hx
  simp only [List.mem_cons, List.not_mem_nil, or_false] at hx
  rcases hx with rfl | rfl
  · exact ⟨has_turn _ (by decide +kernel), by decide +kernel⟩
  · exact ⟨has_turn _ (by decide +kernel), by decide +kernel⟩

theorem witness_DecodeEncode : (Instr.nest h0 (copyArgs 0xFFF)).raw ≠ none ∧ (Instr.nest h0 (copyArgs 0xFFF)).wf = true :=
  ⟨by decide +kernel, by decide⟩

theorem witness_StepsKeepCanonical : ∃ t, Canonical (turned [0x5C, 1, 0, 0, 0, 0, 0, 0]) ∧
    step (turned [0x5C, 1, 0, 0, 0, 0, 0, 0]) = .next t := by
  have c : Canonical (turned [0x5C, 1, 0, 0, 0, 0, 0, 0]) := ⟨by decide +kernel, by decide +kernel, by decide +kernel⟩
  have n : (match step (turned [0x5C, 1, 0, 0, 0, 0, 0, 0]) with
    | .next _ => true
    | _ => false) = true := by decide +kernel
  split at n
  · next t h => exact ⟨t, c, h⟩
  · cases n

end Sys2Proof.Tests
end

section
/-! PROOF. The machine after reset (O60). -/

namespace Sys2Proof.Machine

/-- Settles O60: every record that the reset state does not list stands at its default. -/
theorem resetState : Obligations.ResetState := by
  unfold Obligations.ResetState
  refine ⟨rfl, rfl, rfl, rfl, rfl, rfl, rfl, rfl, rfl, rfl, fun _ _ => rfl, fun c => ⟨rfl, rfl, fun p => ?_⟩, fun _ => rfl,
    fun _ _ => rfl, ?_⟩
  · show (Vector.replicate 4 ({} : PortSt))[p.val].latch = none
    rw [Vector.getElem_replicate]
  · exact ⟨wf_nil, fun c h => absurd h List.not_mem_nil, fun g h => absurd h List.not_mem_nil⟩

end Sys2Proof.Machine
end

section
/-! SUPPORT. What walks, probes and reads of an engine leave (R39, R319), and the writes of a queue's header (R40, R248). -/

namespace Sys2Proof.Machine

/-! ## What a walk leaves -/

theorem State.walked.queues {s t : State} (h : s.walked t) : t.queues = s.queues := (congrArg State.queues h :)
theorem State.walked.waves {s t : State} (h : s.walked t) : t.waves = s.waves := (congrArg State.waves h :)
theorem State.walked.accs {s t : State} (h : s.walked t) : t.accs = s.accs := (congrArg State.accs h :)
theorem State.walked.packets {s t : State} (h : s.walked t) : t.packets = s.packets := (congrArg State.packets h :)
theorem State.walked.poison {s t : State} (h : s.walked t) : t.poison = s.poison := (congrArg State.poison h :)
theorem State.walked.mem {s t : State} (h : s.walked t) : t.mem = s.mem := (congrArg State.mem h :)
theorem State.walked.clk {s t : State} (h : s.walked t) : t.clk = s.clk := (congrArg State.clk h :)
theorem State.walked.nextUid {s t : State} (h : s.walked t) : t.nextUid = s.nextUid := (congrArg State.nextUid h :)

/-- A read at home under a leaf's key draws free values and nothing else. -/
theorem readHome_walked (s : State) (path : List NodeId) (a : Nat) (key : Option (BitVec 8)) :
    s.walked (s.readHome path a key).2 := by
  unfold State.readHome
  split
  · split <;> rfl
  · split
    · rfl
    · split
      · simp only [State.readM]
        split <;> rfl
      · rfl

theorem readHomes_walked (s : State) (path : List NodeId) (pa n : Nat) (key : Option (BitVec 8)) :
    s.walked (s.readHomes path pa n key).2 := by
  induction n with
  | zero => rfl
  | succ n ih =>
    simp only [State.readHomes, List.range_succ, List.foldl_append, List.foldl_cons, List.foldl_nil] at ih ⊢
    exact ih.trans (readHome_walked _ path (pa + n) key)

/-- A word read as an acquire under a leaf's key draws free values and empties caches. -/
theorem readEntry_walked_keyed (s : State) (path : List NodeId) (pa : Nat) (key : Option (BitVec 8)) :
    s.walked (s.readEntry path pa key).2 :=
  (readHomes_walked s path pa 8 key).trans rfl

theorem probe_walked (s : State) (path : List NodeId) (asid va : Nat) (n : Need) (normal : Bool) :
    s.walked (s.probe path asid va n normal).1 := by
  unfold State.probe
  split
  · rfl
  · split
    · rfl
    · next a _ =>
      have h := walk_walked s path a.ptb.toNat va
      split <;> next e => rw [e] at h; exact h

theorem queuePage_walked (s : State) (path : List NodeId) (asid va : Nat) : s.walked (s.queuePage path asid va).1 := by
  have h := probe_walked s path asid va .update true
  unfold State.queuePage
  split <;> next e => rw [e] at h; exact h

theorem queuePages_walked (s : State) (path : List NodeId) (asid : Nat) (vas : List Nat) :
    s.walked (s.queuePages path asid vas).1 := by
  unfold State.queuePages
  have key : ∀ (l : List Nat) (x : State × List (Option Xlat)), s.walked x.1 →
      s.walked (l.foldl (fun (x : State × List (Option Xlat)) va =>
        ((x.1.queuePage path asid va).1, x.2 ++ [(x.1.queuePage path asid va).2])) x).1 := by
    intro l
    induction l with
    | nil => exact fun x h => h
    | cons va l ih => exact fun x h => ih _ (h.trans (queuePage_walked x.1 path asid va))
  exact key vas (s, []) rfl

theorem queueNamed_walked (s : State) (path : List NodeId) (asid hdr : Nat) : s.walked (s.queueNamed path asid hdr).1 := by
  have h := probe_walked s path asid hdr .read false
  unfold State.queueNamed
  split
  · rfl
  · split <;> next e => rw [e] at h; exact h

theorem probeAt_walked (s : State) (asid : Nat) (ch : ChanId) (n : Need) (va : Int) : s.walked (s.probeAt asid ch n va).1 := by
  unfold State.probeAt
  split
  · rfl
  · simp only
    split
    · rfl
    · rfl
    · split
      · rfl
      · exact walk_walked s _ _ _

theorem probeList_walked (asid : Nat) (ch : ChanId) : ∀ (ps : List (Need × Int × Int)) (s : State) (l : List PageMap),
    s.walked (s.probeList asid ch ps l).1
  | [], s, _ => .refl s
  | (n, va, last) :: ps, s, l => by
    have h := probeAt_walked s asid ch n va
    unfold State.probeList
    split
    · next e => rw [e] at h; exact h
    · next e =>
      rw [e] at h
      split
      · exact h
      · exact h.trans (probeList_walked asid ch ps _ l)
    · next e => rw [e] at h; exact h.trans (probeList_walked asid ch ps _ _)

/-- The probes of a packet draw free values and empty caches (R248, R319). -/
theorem probePacket_walked (s : State) (asid : Nat) (ch : ChanId) (p : List W32) : s.walked (s.probePacket asid ch p).1 :=
  probeList_walked asid ch _ s []

/-! ## Writes of a queue's header -/

theorem no_access {s : State} {n : Nat} (h : ∀ a ∈ s.accs, a.id ≠ n) : s.accs.any (fun a => a.id == n) = false :=
  List.any_eq_false.mpr fun a ha => by simpa using h a ha

/-- A write of a header word stores the queue's record and joins the accesses (R40, R248). -/
theorem putHeader_eq (s : State) (q : TQueue) (ofs v : Nat) : s.putHeader q ofs v =
    ({ s.putQueue q with nextUid := s.nextUid + 1, accs := s.accs ++ [headerWrite q s.nextUid ofs v] }, s.nextUid) := rfl

theorem stat_eq (q : TQueue) : q.stat = statWord q := by
  simp only [TQueue.stat, statWord, Nat.mul_comm]

theorem putStat_eq (s : State) (q : TQueue) : s.putStat q = (statQueued s q, s.nextUid) := by
  simp only [State.putStat, putHeader_eq, stat_eq, statQueued]

theorem statQueued_queue {s : State} {q : TQueue} (h : (s.queue? q.id).isSome) : (statQueued s q).queue? q.id = some q :=
  queue_putQueue_self s q h

/-- A wave that is stored over itself changes nothing. -/
theorem putWave_same {s : State} {w : Wave} (h : s.wave? w.uid = some w) (hn : (s.waves.map (fun y => y.uid)).Nodup) :
    s.putWave w = s := by
  have hm : modWhere (fun x => x.uid == w.uid) (fun _ => w) s.waves = s.waves := by
    refine (List.map_congr_left fun y hy => ?_).trans (List.map_id _)
    split
    · next e => exact (List.inj_on_of_nodup_map hn hy (List.mem_of_find?_eq_some h) (eq_of_beq e)).symm
    · rfl
  simp only [State.putWave, hm]

/-- The bytes of a range that stands under no other key read as they are (R367). -/
theorem readKeyed_own {s : State} {k : BitVec 8} {a n : Nat} (h : ∀ i < n, s.keyDiffers k ((a + i) / 128) = false) :
    s.readKeyed k a n = (s.mem.readN a n, s) := by
  induction n with
  | zero => rfl
  | succ n ih =>
    have e := ih (fun i hi => h i (by omega))
    simp only [State.readKeyed, Memory.readN, List.range_succ, List.foldl_append, List.foldl_cons, List.foldl_nil,
      List.map_append, List.map_cons, List.map_nil] at e ⊢
    rw [e]
    simp [State.readM, h n (by omega)]

end Sys2Proof.Machine
end

section
/-! SUPPORT. CPYX (R247): an instruction that has begun comes to its body again, and what a CPYX leaves that ends or waits. -/

namespace Sys2Proof.Machine

/-! ## Instructions that wait at their address -/

/-- Where nothing is outstanding or spilled, an instruction that is no switch point, neither deferred nor privileged, fits its
wave. -/
theorem fits_unprivileged {h : Head} {s : State} {w : Wave} (hr : Open h s w) (r : Req) (hp : privOpc r.opc = false)
    (hsw : switchOpc r.opc = false) (hd : deferOpc r.opc = false) (hf : r.opc ≠ 0x208) (hs : r.sideWait = false)
    (hdr : r.drains = false) (hn : r.denied = false) : r.Fits s w :=
  ⟨by simp [hp], by simp [hsw, hd], owesPend_plain w r hs hf, sideHolds_plain s w r hs hf, by simp [Wave.depends, hr.board],
    by simp [hdr], by simp [hr.whole], hn⟩

/-- An instruction that has begun reaches its body again at each turn of its wave: no breakpoint, poison or trap stands before
it (R90, R313). -/
theorem issue_begun {r : Req} {body : Body} {s : State} {w : Wave} (h : Begun r.h s w) (hb : w.inProg ≠ .none)
    (hp : privOpc r.opc = false) (hf : r.opc ≠ 0x208) (hs : r.sideWait = false) (hdr : r.drains = false)
    (hn : r.denied = false) (hsw : switchOpc r.opc = false) (hd : deferOpc r.opc = false) :
    issue r body s = .next (runBody r body s w) := by
  have hbody : issueBody r body s w = runBody r body s w := by
    have hdep : w.depends (s.clkOf w.core) r = false := by simp [Wave.depends, h.board]
    simp [issueBody, hb, hdep, hdr, sideHolds_plain s w r hs hf]
  have hg : guarded r body s w = runBody r body s w := by
    unfold guarded
    simp only [hp, hn, Bool.false_and, Bool.or_self, Bool.false_eq_true, if_false, h.guard, if_true, hsw, hd, Bool.or_false]
    split
    · next hy => rw [atSwitch_nil s w _ (h.marked hy).1 (h.marked hy).2, hbody]
    · rw [owesPend_plain w r hs hf, hbody]; rfl
  have hw : (w.inProg != .none) = true := by simpa using hb
  simp [issue, h.current, issueWave, hw, hg]

/-! ## Fields that freeing registers leaves -/

@[simp] theorem freeV_uid (w : Wave) (l : List VNum) : (w.freeV l).uid = w.uid := by rw [freeV_fields]
@[simp] theorem freeV_core (w : Wave) (l : List VNum) : (w.freeV l).core = w.core := by rw [freeV_fields]
@[simp] theorem freeV_seq (w : Wave) (l : List VNum) : (w.freeV l).seq = w.seq := by rw [freeV_fields]
@[simp] theorem freeV_spillPa (w : Wave) (l : List VNum) : (w.freeV l).spillPa = w.spillPa := by rw [freeV_fields]
@[simp] theorem freeV_inProg (w : Wave) (l : List VNum) : (w.freeV l).inProg = w.inProg := by rw [freeV_fields]
@[simp] theorem freeV_promises (w : Wave) (l : List VNum) : (w.freeV l).promises = w.promises := by rw [freeV_fields]

/-! ## CPYX (R247) -/

/-- What a CPYX of queue operand `x` asks of the issue logic. -/
def cpyxReq (h : Head) (d : SReg) (x : VSrc) : Req :=
  { h := h, opc := 0x30A, len := 16, rs := srcSregs x, ws := [d], rv := srcRegs x, fv := srcFrees x, ignoreEm := true,
    uses := [.one x] }

/-- The body of a CPYX with the op `k`. -/
def cpyxBody (d : SReg) (x : VSrc) (k : State → Wave → Wave → Bool → TQueue → Res) : Body := fun s w v =>
  match w.inProg with
  | .cpyx id hdr acc key drain => cpyxWait s w v d (w.src x).isUA id hdr acc key drain
  | _ =>
    match w.uniform64 x with
    | .error m => .trap s w (w.unf 0x30A m)
    | .ok qa =>
      match s.headerTrap w 0x30A qa with
      | some t => .trap s w t
      | none =>
        match s.queueNamed (corePath w.core) (s.asidOf w) qa.toNat with
        | (s, none) => .trap s w { w.trapInfo 4 8 with aux := 6, addr := qa, seq := w.seq + 1 }
        | (s, some t) => k s w v (w.src x).isUA t

theorem cpyxForm_eq (h : Head) (d : SReg) (x : VSrc) (k : State → Wave → Wave → Bool → TQueue → Res) :
    cpyxForm h d x k = issue (cpyxReq h d x) (cpyxBody d x k) := rfl

/-- A CPYX that has begun waits for its end, whatever its op. -/
theorem cpyxBody_begun {w : Wave} {id hdr acc : Nat} {key : BitVec 8} {drain : Bool} (hb : w.inProg = .cpyx id hdr acc key drain)
    (s : State) (v : Wave) (d : SReg) (x : VSrc) (k : State → Wave → Wave → Bool → TQueue → Res) :
    cpyxBody d x k s w v = cpyxWait s w v d (w.src x).isUA id hdr acc key drain := by
  simp only [cpyxBody, hb]

/-- A CPYX that begins and names an attached queue comes to its op. -/
theorem cpyxBody_named {s s1 : State} {w : Wave} {x : VSrc} {qa : Word} {t : TQueue} (hb : w.inProg = .none)
    (hn : Names s s1 w 0x30A x qa t) (v : Wave) (d : SReg) (k : State → Wave → Wave → Bool → TQueue → Res) :
    cpyxBody d x k s w v = k s1 w v (w.src x).isUA t := by
  simp only [cpyxBody, hb, hn.uniform, hn.sound, hn.named]

/-- A CPYX waits for nothing of its wave where nothing is outstanding. -/
theorem cpyxReq_fits {h : Head} {s : State} {w : Wave} (hr : Open h s w) (d : SReg) (x : VSrc) : (cpyxReq h d x).Fits s w :=
  fits_unprivileged hr _ rfl rfl rfl (show (0x30A : Nat) ≠ 0x208 by decide) rfl rfl rfl

theorem Names.walked {s s1 : State} {w : Wave} {opc : Nat} {x : VSrc} {qa : Word} {t : TQueue} (h : Names s s1 w opc x qa t) :
    s.walked s1 := by
  have e := queueNamed_walked s (corePath w.core) (s.asidOf w) qa.toNat
  rwa [h.named] at e

theorem Names.still_held {s s1 : State} {w : Wave} {opc : Nat} {x : VSrc} {qa : Word} {t : TQueue} (h : Names s s1 w opc x qa t) :
    s1.queue? t.id = some t := by
  rw [State.queue?, h.walked.queues]; exact h.held

/-- The wave that an ended CPYX leaves: `n` in sD, its operand freed. -/
def cpyxEnded (w : Wave) (d : SReg) (x : VSrc) (n : Word) : Wave :=
  { (w.freeV (srcFrees x)).sset d n with inProg := .none, pc := w.pc + 16, seq := w.seq + 1 }

theorem ended_cpyx (w : Wave) (h : Head) (d : SReg) (x : VSrc) (n : Word) :
    ended (cpyxReq h d x) w ((w.freeV (srcFrees x)).sset d n) (w.pc + BitVec.ofNat 64 16) = cpyxEnded w d x n := by
  have hd : deferOpc (cpyxReq h d x).opc = false := rfl
  have hn : namedOpc (cpyxReq h d x).opc = true := rfl
  have hv : (cpyxReq h d x).writesV w.em = [] := ite_self _
  have hq : (cpyxReq h d x).writesQ w.em = [] := ite_self _
  simp only [ended, hd, hn, hv, hq, killDefs_nil, if_true, Bool.false_eq_true, if_false, cpyxEnded, sset_seq, freeV_seq]
  rfl

/-- A CPYX that has nothing to wait for completes with STAT as it stands. -/
theorem cpyx_completes {i : Instr} {h : Head} {s s1 : State} {w : Wave} {d : SReg} {x : VSrc} {qa : Word} {t : TQueue}
    {k : State → Wave → Wave → Bool → TQueue → Res} (hr : Open h s w) (hn : Names s s1 w 0x30A x qa t)
    (hi : exec i s = cpyxForm h d x k s)
    (hk : ∀ sp, k s1 w (w.freeV (srcFrees x)) sp t = cpyxDone s1 (w.freeV (srcFrees x)) d sp t.id t.hdrPa t.hdrKey) :
    RunsIn i s s1 w { (w.freeV (srcFrees x)).sset d (BitVec.ofNat 64 (statWord t)) with pc := w.pc + 16, seq := w.seq + 1 } := by
  have hbody : cpyxBody d x k s w ((w.freeV (srcFrees x)).freeQ []) =
      .ok s1 ((w.freeV (srcFrees x)).sset d (BitVec.ofNat 64 (statWord t))) (w.src x).isUA := by
    rw [cpyxBody_named hr.begins hn, freeQ_nil, hk]
    simp only [cpyxDone, hn.still_held, stat_eq]
  have hf : (w.freeV (srcFrees x)).inProg = .none := by rw [freeV_inProg]; exact hr.begins
  refine runs_ok (r := cpyxReq h d x) hr.toReady (cpyxReq_fits hr d x)
    (hi.trans (congrFun (cpyxForm_eq h d x k) s)) hbody hn.walked.poison hn.walked.waves ?_ ?_ ?_ ?_
  · rw [sset_uid, freeV_uid]
  · rw [sset_core, freeV_core]
  · rw [sset_spillPa, freeV_spillPa]
  · rw [show (cpyxReq h d x).len = 16 from rfl, ended_cpyx, cpyxEnded, ← hf, ← sset_inProg _ d (BitVec.ofNat 64 (statWord t))]

/-- A CPYX whose op leaves something to wait for holds the wave at its address. -/
theorem cpyx_holds {i : Instr} {h : Head} {s s1 s' : State} {w v : Wave} {d : SReg} {x : VSrc} {qa : Word} {t : TQueue}
    {k : State → Wave → Wave → Bool → TQueue → Res} (hr : Open h s w) (hn : Names s s1 w 0x30A x qa t)
    (hi : exec i s = cpyxForm h d x k s) (hv : v.spilled = w.spilled)
    (hk : ∀ sp, k s1 w (w.freeV (srcFrees x)) sp t = .hold s' v .order) :
    exec i s = .next (s'.putWave { v with hold := .order }) := by
  have hbody : cpyxBody d x k s w ((w.freeV (srcFrees x)).freeQ []) = .hold s' v .order := by
    rw [cpyxBody_named hr.begins hn, freeQ_nil, hk]
  rw [hi, cpyxForm_eq, issue_body (r := cpyxReq h d x) hr.toReady (cpyxReq_fits hr d x)]
  show Host.Outcome.next (resState _ w (cpyxBody d x k s w ((w.freeV (srcFrees x)).freeQ []))) = _
  rw [hbody]
  simp only [resState, refit_same w s' v hv]

/-- A CPYX whose write has performed is at its end, where no fetched packet keeps it. -/
theorem cpyxWait_done {s : State} {id acc : Nat} {drain : Bool} (ha : ∀ a ∈ s.accs, a.id ≠ acc)
    (hd : drain = true → s.inFlight id = []) (w v : Wave) (d : SReg) (sp : Bool) (hdr : Nat) (key : BitVec 8) :
    cpyxWait s w v d sp id hdr acc key drain = cpyxDone s v d sp id hdr key := by
  have ho : (s.accs.any (fun a => a.id == acc) || (drain && !(s.inFlight id).isEmpty)) = false := by
    cases drain with
    | false => simp [no_access ha]
    | true => simp [no_access ha, hd rfl]
  rw [cpyxWait, if_neg (by rw [ho]; exact Bool.false_ne_true)]

/-- An op that does nothing leaves a CPYX at its end, where no fetched packet keeps it. -/
theorem cpyxOp_idle {s : State} {w : Wave} {t : TQueue} {drain : Bool} {f : State → State × Nat} (hw : s.wave? w.uid = some w)
    (hu : (s.waves.map (fun y => y.uid)).Nodup) (hf : f s = (s, 0)) (ha : ∀ a ∈ s.accs, a.id ≠ 0)
    (hd : drain = true → s.inFlight t.id = []) (l : List VNum) (d : SReg) (sp : Bool) :
    cpyxOp s w (w.freeV l) d sp t drain f = cpyxDone s (w.freeV l) d sp t.id t.hdrPa t.hdrKey := by
  have hn : s.waveNow w = w := by simp [State.waveNow, hw]
  have hp : ({ w.freeV l with promises := w.promises } : Wave) = w.freeV l := by rw [← freeV_promises w l]
  simp only [cpyxOp, putWave_same hw hu, hf, hn, hp, cpyxWait_done ha hd]

/-- An op that queues a write of the header keeps a CPYX at its address until that write has performed. -/
theorem cpyxOp_waits {s s' : State} {w : Wave} {t : TQueue} {acc : Nat} {f : State → State × Nat} (hw : s.wave? w.uid = some w)
    (hu : (s.waves.map (fun y => y.uid)).Nodup) (hf : f s = (s', acc)) (hs : s'.waves = s.waves)
    (ha : ∃ a ∈ s'.accs, a.id = acc) (v : Wave) (d : SReg) (sp drain : Bool) :
    cpyxOp s w v d sp t drain f = .hold s' { w with inProg := .cpyx t.id t.hdrPa acc t.hdrKey drain } .order := by
  have ho : s'.accs.any (fun a => a.id == acc) = true := by
    obtain ⟨a, h1, h2⟩ := ha
    exact List.any_eq_true.mpr ⟨a, h1, by simpa using h2⟩
  have hn : s'.waveNow w = w := by
    have : s'.wave? w.uid = some w := by rw [State.wave?, hs]; exact hw
    simp [State.waveNow, this]
  simp only [cpyxOp, putWave_same hw hu, hf, cpyxWait, ho, Bool.true_or, if_true, hn]

/-! ## The ends of a CPYX -/

/-- A CPYX that has waited for its write ends with STAT of its queue, or of the header where the queue is gone. -/
theorem cpyxDone_eq {s : State} {id hdr : Nat} {key : BitVec 8}
    (hk : ∀ k < 8, s.keyDiffers key ((hdr + 0x98 + k) / 128) = false) (v : Wave) (d : SReg) (sp : Bool) :
    cpyxDone s v d sp id hdr key = .ok s (v.sset d (match s.queue? id with
      | some q => BitVec.ofNat 64 (statWord q)
      | none => BitVec.ofNat 64 (leVal (s.mem.readN (hdr + 0x98) 8)))) sp := by
  unfold cpyxDone
  cases s.queue? id with
  | some q => simp only [stat_eq]
  | none => simp only [State.headerWord, readKeyed_own hk]

/-- A CPYX that has begun completes once its write has performed and no fetched packet keeps it. -/
theorem cpyx_resumes {i : Instr} {h : Head} {s : State} {w : Wave} {d : SReg} {x : VSrc}
    {k : State → Wave → Wave → Bool → TQueue → Res} {id hdr acc : Nat} {key : BitVec 8} {drain : Bool} (hb : Begun h s w)
    (hw : w.inProg = .cpyx id hdr acc key drain) (ha : ∀ a ∈ s.accs, a.id ≠ acc) (hd : drain = true → s.inFlight id = [])
    (hk : ∀ k < 8, s.keyDiffers key ((hdr + 0x98 + k) / 128) = false) (hi : exec i s = cpyxForm h d x k s) :
    RunsIn i s s w (cpyxEnded w d x (match s.queue? id with
      | some q => BitVec.ofNat 64 (statWord q)
      | none => BitVec.ofNat 64 (leVal (s.mem.readN (hdr + 0x98) 8)))) := by
  generalize hn : (match s.queue? id with
      | some q => BitVec.ofNat 64 (statWord q)
      | none => BitVec.ofNat 64 (leVal (s.mem.readN (hdr + 0x98) 8))) = n
  have hbody : cpyxBody d x k s w ((w.freeV (srcFrees x)).freeQ []) =
      .ok s ((w.freeV (srcFrees x)).sset d n) (w.src x).isUA := by
    rw [cpyxBody_begun hw, freeQ_nil, cpyxWait_done ha hd, cpyxDone_eq hk, hn]
  have hrun : runBody (cpyxReq h d x) (cpyxBody d x k) s w =
      finish (cpyxReq h d x) s w ((w.freeV (srcFrees x)).sset d n) (w.src x).isUA (w.pc + BitVec.ofNat 64 16) := by
    simp only [runBody]
    rw [refill_whole s w _ (by simp [hb.whole])]
    simp only
    rw [show (cpyxReq h d x).fq = [] from rfl, show (cpyxReq h d x).fv = srcFrees x from rfl, hbody]
    rfl
  have hu : w.uid = s.cur := wave_uid hb.current
  have hv : ((w.freeV (srcFrees x)).sset d n).uid = w.uid := by rw [sset_uid, freeV_uid]
  obtain ⟨w', h1, h2, h3⟩ := finish_only (cpyxReq h d x) s w ((w.freeV (srcFrees x)).sset d n) (w.src x).isUA
    (w.pc + BitVec.ofNat 64 16) hb.clean hv (by rw [sset_core, freeV_core]) (by rw [sset_spillPa, freeV_spillPa])
    (by rw [hv, hu, hb.current]; rfl)
  refine ⟨_, w', ?_, ?_, ?_, h3⟩
  · rw [hi, cpyxForm_eq, issue_begun (r := cpyxReq h d x) hb (by rw [hw]; simp) rfl
      (show (0x30A : Nat) ≠ 0x208 by decide) rfl rfl rfl rfl rfl, hrun]
  · rw [← hu, ← hv]; exact h1
  · rw [← ended_cpyx w h d x n]; exact h2

end Sys2Proof.Machine
end

section
/-! PROOF. CPYX by op and STATE (R247). -/

namespace Sys2Proof.Machine

/-! ## The ops of a CPYX -/

theorem State.walked.wave {s t : State} (h : s.walked t) (u : Nat) : t.wave? u = s.wave? u := by
  rw [State.wave?, h.waves]; rfl

theorem State.walked.inFlight {s t : State} (h : s.walked t) (q : Nat) : t.inFlight q = s.inFlight q := by
  rw [State.inFlight, h.packets]; rfl

/-- A CPYX whose op queues a write of the header holds its wave until that write has performed. -/
theorem cpyx_op_waits {i : Instr} {h : Head} {s s1 s' : State} {w : Wave} {d : SReg} {x : VSrc} {qa : Word} {t : TQueue}
    {acc : Nat} {drain : Bool} {f : State → TQueue → State × Nat} (hr : Open h s w) (hn : Names s s1 w 0x30A x qa t)
    (hu : (s.waves.map (fun y => y.uid)).Nodup)
    (hi : exec i s = cpyxForm h d x (fun s w v sp t => cpyxOp s w v d sp t drain (fun s => f s t)) s)
    (hf : f s1 t = (s', acc)) (hs : s'.waves = s1.waves) (ha : ∃ a ∈ s'.accs, a.id = acc) :
    exec i s = .next (s'.putWave { w with inProg := .cpyx t.id t.hdrPa acc t.hdrKey drain, hold := .order }) := by
  have hw : s1.wave? w.uid = some w := by rw [hn.walked.wave, wave_uid hr.current, hr.current]
  have hu1 : (s1.waves.map (fun y => y.uid)).Nodup := by rw [hn.walked.waves]; exact hu
  exact cpyx_holds (v := { w with inProg := .cpyx t.id t.hdrPa acc t.hdrKey drain }) hr hn hi rfl
    (fun sp => cpyxOp_waits hw hu1 hf hs ha _ d sp drain)

/-- A CPYX whose op finds nothing to change completes, where no fetched packet keeps it. -/
theorem cpyx_op_completes {i : Instr} {h : Head} {s s1 : State} {w : Wave} {d : SReg} {x : VSrc} {qa : Word} {t : TQueue}
    {drain : Bool} {f : State → TQueue → State × Nat} (hr : Open h s w) (hn : Names s s1 w 0x30A x qa t)
    (hu : (s.waves.map (fun y => y.uid)).Nodup) (ha : ∀ a ∈ s.accs, a.id ≠ 0)
    (hi : exec i s = cpyxForm h d x (fun s w v sp t => cpyxOp s w v d sp t drain (fun s => f s t)) s)
    (hf : f s1 t = (s1, 0)) (hd : drain = true → s.inFlight t.id = []) :
    RunsIn i s s1 w { (w.freeV (srcFrees x)).sset d (BitVec.ofNat 64 (statWord t)) with pc := w.pc + 16, seq := w.seq + 1 } := by
  have hw : s1.wave? w.uid = some w := by rw [hn.walked.wave, wave_uid hr.current, hr.current]
  have hu1 : (s1.waves.map (fun y => y.uid)).Nodup := by rw [hn.walked.waves]; exact hu
  have ha1 : ∀ a ∈ s1.accs, a.id ≠ 0 := by rw [hn.walked.accs]; exact ha
  exact cpyx_completes hr hn hi (fun sp => cpyxOp_idle hw hu1 hf ha1 (fun e => (hn.walked.inFlight _).trans (hd e)) _ d sp)

/-- A CPYX whose op changes STATE alone leaves the machine with the write of STAT on its way. -/
theorem cpyx_op_begins {i : Instr} {h : Head} {s s1 : State} {w : Wave} {d : SReg} {x : VSrc} {qa : Word} {t u : TQueue}
    {drain : Bool} {f : State → TQueue → State × Nat} (hr : Open h s w) (hn : Names s s1 w 0x30A x qa t)
    (hu : (s.waves.map (fun y => y.uid)).Nodup)
    (hi : exec i s = cpyxForm h d x (fun s w v sp t => cpyxOp s w v d sp t drain (fun s => f s t)) s)
    (hf : f s1 t = s1.putStat u) :
    exec i s = .next ((statQueued s1 u).putWave
      { w with inProg := .cpyx t.id t.hdrPa s.nextUid t.hdrKey drain, hold := .order }) := by
  rw [← hn.walked.nextUid]
  exact cpyx_op_waits hr hn hu hi (hf.trans (putStat_eq s1 u)) rfl
    ⟨headerWrite u s1.nextUid 0x98 (statWord u), List.mem_append_right _ List.mem_cons_self, rfl⟩

theorem exec_cpyxSt (h : Head) (d : SReg) (x : VSrc) (s : State) : exec (.cpyxSt h d x) s =
    cpyxForm h d x (fun s _ v sp t => cpyxDone s v d sp t.id t.hdrPa t.hdrKey) s := rfl

theorem exec_cpyxStop (h : Head) (d : SReg) (x : VSrc) (s : State) : exec (.cpyxStop h d x) s =
    cpyxForm h d x (fun s w v sp t => cpyxOp s w v d sp t true (fun s => s.stopPackets t)) s := rfl

theorem exec_cpyxSkip (h : Head) (d : SReg) (x : VSrc) (s : State) : exec (.cpyxSkip h d x) s =
    cpyxForm h d x (fun s w v sp t => cpyxOp s w v d sp t false (fun s => s.skipPacket t)) s := rfl

theorem exec_cpyxRetry (h : Head) (d : SReg) (x : VSrc) (s : State) : exec (.cpyxRetry h d x) s =
    cpyxForm h d x (fun s w v sp t => cpyxOp s w v d sp t false (fun s => s.retryPacket t)) s := rfl

theorem stopPackets_running {t : TQueue} (h : t.state = 1) (s : State) : s.stopPackets t = s.putStat { t with state := 2 } :=
  if_pos h

theorem stopPackets_idle {t : TQueue} (h : t.state ≠ 1) (s : State) : s.stopPackets t = (s, 0) := if_neg h

theorem skipPacket_stopped {t : TQueue} (h : t.state = 2) (s : State) : s.skipPacket t = s.putStat { t with state := 1 } := by
  simp only [State.skipPacket, h, Nat.reduceEqDiff, if_false, if_true]

theorem skipPacket_idle {t : TQueue} (h2 : t.state ≠ 2) (h3 : t.state ≠ 3) (s : State) : s.skipPacket t = (s, 0) := by
  simp only [State.skipPacket, h2, h3, if_false]

theorem retryPacket_stopped {t : TQueue} (h : t.state = 2) (s : State) : s.retryPacket t = s.putStat { t with state := 1 } := by
  simp only [State.retryPacket, h, Nat.reduceEqDiff, true_or, if_true, false_and, if_false]

theorem retryPacket_idle {t : TQueue} (h2 : t.state ≠ 2) (h3 : t.state ≠ 3) (s : State) : s.retryPacket t = (s, 0) := by
  simp only [State.retryPacket, h2, h3, or_self, if_false]

/-- CPYX by op and STATE, and the end of one that has begun (R247). -/
theorem cpyxForms : CpyxForms := by
  refine ⟨fun s s1 w h d x qa t hr hn hu ha => ?_, fun s w h d x id hdr acc key drain hb hw ha hd hk i hi => ?_⟩
  · have stop := exec_cpyxStop h d x s
    have skip := exec_cpyxSkip h d x s
    have retry := exec_cpyxRetry h d x s
    refine ⟨cpyx_completes hr hn (exec_cpyxSt h d x s) (fun _ => rfl), fun h1 hf => ?_, fun h2 h3 => ⟨?_, ?_⟩, fun h1 => ?_,
      fun h2 => ⟨?_, ?_⟩⟩
    · exact cpyx_op_completes hr hn hu ha stop (stopPackets_idle h1 s1) (fun _ => hf)
    · exact cpyx_op_completes hr hn hu ha skip (skipPacket_idle h2 h3 s1) (fun e => absurd e Bool.false_ne_true)
    · exact cpyx_op_completes hr hn hu ha retry (retryPacket_idle h2 h3 s1) (fun e => absurd e Bool.false_ne_true)
    · exact cpyx_op_begins hr hn hu stop (stopPackets_running h1 s1)
    · exact cpyx_op_begins hr hn hu skip (skipPacket_stopped h2 s1)
    · exact cpyx_op_begins hr hn hu retry (retryPacket_stopped h2 s1)
  · simp only [List.mem_cons, List.not_mem_nil, or_false] at hi
    rcases hi with rfl | rfl | rfl | rfl
    · exact cpyx_resumes hb hw ha hd hk (exec_cpyxSt h d x s)
    · exact cpyx_resumes hb hw ha hd hk (exec_cpyxStop h d x s)
    · exact cpyx_resumes hb hw ha hd hk (exec_cpyxSkip h d x s)
    · exact cpyx_resumes hb hw ha hd hk (exec_cpyxRetry h d x s)

end Sys2Proof.Machine
end

section
/-! PROOF. CPYX.skip and CPYX.retry of a faulted queue, and the end of a packet that is skipped (R247 to R249). -/

namespace Sys2Proof.Machine

/-! ## Records that other updates leave -/

@[simp] theorem queue_putWave (s : State) (w : Wave) (k : Nat) : (s.putWave w).queue? k = s.queue? k := rfl
@[simp] theorem pkt_putWave (s : State) (w : Wave) (k : Nat) : (s.putWave w).pkt? k = s.pkt? k := rfl
@[simp] theorem queue_putPkt (s : State) (p : Packet) (k : Nat) : (s.putPkt p).queue? k = s.queue? k := rfl
@[simp] theorem queue_leasePages (s : State) (asid k n : Nat) (l : List PageMap) :
    (s.leasePages asid k l).queue? n = s.queue? n := rfl
@[simp] theorem pkt_leasePages (s : State) (asid k n : Nat) (l : List PageMap) : (s.leasePages asid k l).pkt? n = s.pkt? n := rfl
@[simp] theorem putHeader_waves (s : State) (q : TQueue) (ofs v : Nat) : (s.putHeader q ofs v).1.waves = s.waves := rfl
@[simp] theorem putHeader_packets (s : State) (q : TQueue) (ofs v : Nat) : (s.putHeader q ofs v).1.packets = s.packets := rfl
@[simp] theorem statQueued_waves (s : State) (q : TQueue) : (statQueued s q).waves = s.waves := rfl
@[simp] theorem statQueued_packets (s : State) (q : TQueue) : (statQueued s q).packets = s.packets := rfl
@[simp] theorem leasePages_accs (s : State) (asid k : Nat) (l : List PageMap) : (s.leasePages asid k l).accs = s.accs := rfl

/-! ## Resuming a faulted queue -/

/-- A queue that `.skip` lets run: RIDX past the faulted slot (R247). -/
def TQueue.resumed (t : TQueue) : TQueue := { t with ridx := t.fidx + 1, state := 1 }

/-- A packet that `.skip` leaves to complete with a CAUSE and without a completion word. -/
def Packet.skipped (p : Packet) (cause : Nat) : Packet := { p with state := .skipped, cause := cause, cmp := none }

/-- Whether a packet of a queue stood fetched behind the faulted slot: `.skip` makes it one to fetch again. -/
def TQueue.refetches (t : TQueue) (p : Packet) : Bool := p.queue == t.id && decide (t.fidx < p.slot) && p.state == .fetched

/-- The same packet as it stood before its fetch. -/
def TQueue.unfetched (t : TQueue) (p : Packet) : Packet := if t.refetches p then { p with state := .admitted } else p

theorem foldl_dropLeases : ∀ (l : List Packet) (s : State), l.foldl (fun s p => s.dropLeases (.packet p.id)) s =
    { s with leases := (l.foldl (fun s p => s.dropLeases (.packet p.id)) s).leases }
  | [], _ => rfl
  | p :: l, s => foldl_dropLeases l (s.dropLeases (.packet p.id))

/-- Making later slots ones to fetch again touches leases and packets alone. -/
theorem unfetch_eq (s : State) (t : TQueue) : s.unfetch t = { s with
    leases := (s.unfetch t).leases,
    packets := (s.packets.filter (fun p => !(t.refetches p && p.promise.isNone))).map t.unfetched } := by
  simp only [State.unfetch]
  rw [foldl_dropLeases]
  rfl

/-- A search finds the same member after others are left out or changed, where the change keeps what it looks for. -/
theorem find_map_filter_of_find {α : Type} {keep pred : α → Bool} {f : α → α} {p : α} (hf : ∀ a, pred (f a) = pred a)
    (hk : keep p = true) (hp : f p = p) : ∀ l : List α, l.find? pred = some p → ((l.filter keep).map f).find? pred = some p
  | [], h => by simp at h
  | a :: l, h => by
    by_cases ha : pred a = true
    · have e : a = p := by simpa [ha] using h
      subst e
      simp [hk, hp, ha]
    · have ih := find_map_filter_of_find hf hk hp l (by simpa [ha] using h)
      by_cases hka : keep a = true
      · simpa [hka, hf, ha] using ih
      · simpa [hka] using ih

theorem faultedPkt_state {s : State} {t : TQueue} {p : Packet} (h : s.faultedPkt t = some p) : p.state = .faulted := by
  have := List.find?_some h
  simp only [Bool.and_eq_true, beq_iff_eq] at this
  exact this.2

theorem refetches_faulted {p : Packet} (h : p.state = .faulted) (t : TQueue) : t.refetches p = false := by
  simp [TQueue.refetches, h]

theorem unfetched_faulted {p : Packet} (h : p.state = .faulted) (t : TQueue) : t.unfetched p = p :=
  if_neg (by rw [refetches_faulted h]; exact Bool.false_ne_true)

theorem unfetched_id (t : TQueue) (p : Packet) : (t.unfetched p).id = p.id := by
  unfold TQueue.unfetched; split <;> rfl

/-- The faulted packet still stands as the one that stopped the queue. -/
theorem unfetch_faultedPkt {s : State} {t : TQueue} {p : Packet} (h : s.faultedPkt t = some p) :
    (s.unfetch t).faultedPkt t = some p := by
  have hs := faultedPkt_state h
  rw [unfetch_eq]
  refine find_map_filter_of_find (fun a => ?_) (by simp [refetches_faulted hs]) (unfetched_faulted hs t) _ h
  unfold TQueue.unfetched
  split
  · next e =>
    have ha : a.state = .fetched := by
      simp only [TQueue.refetches, Bool.and_eq_true, beq_iff_eq] at e
      exact e.2
    simp only [ha]
    rfl
  · rfl

theorem unfetch_pkt {s : State} {t : TQueue} {p : Packet} (hs : p.state = .faulted) (h : s.pkt? p.id = some p) :
    (s.unfetch t).pkt? p.id = some p := by
  rw [unfetch_eq]
  exact find_map_filter_of_find (fun a => by rw [unfetched_id]) (by simp [refetches_faulted hs]) (unfetched_faulted hs t) _ h

/-- The machine with a skipped queue running again, and the writes of RIDX and STAT on their way. -/
def State.resumeQueue (s : State) (t : TQueue) : State :=
  statQueued ((s.unfetch t).putHeader t.resumed 0x80 (t.fidx + 1)).1 t.resumed

theorem resumeQueue_waves (s : State) (t : TQueue) : (s.resumeQueue t).waves = s.waves := by
  rw [State.resumeQueue, statQueued_waves, putHeader_waves, unfetch_eq]

theorem resumeQueue_packets (s : State) (t : TQueue) : (s.resumeQueue t).packets = (s.unfetch t).packets := by
  rw [State.resumeQueue, statQueued_packets, putHeader_packets]

theorem resumeQueue_accs (s : State) (t : TQueue) : (s.resumeQueue t).accs =
    s.accs ++ [headerWrite t s.nextUid 0x80 (t.fidx + 1), headerWrite t (s.nextUid + 1) 0x98 (16 * t.cause + 1)] := by
  show ((s.unfetch t).accs ++ [headerWrite t (s.unfetch t).nextUid 0x80 (t.fidx + 1)]) ++
    [headerWrite t ((s.unfetch t).nextUid + 1) 0x98 (16 * t.cause + 1)] = _
  rw [unfetch_eq, List.append_assoc]
  rfl

theorem resumeQueue_queue {s : State} {t : TQueue} (h : s.queue? t.id = some t) :
    (s.resumeQueue t).queue? t.id = some t.resumed := by
  have h0 : ((s.unfetch t).queue? t.resumed.id).isSome := by
    rw [unfetch_eq]; show (s.queue? t.id).isSome; rw [h]; rfl
  have h1 : (((s.unfetch t).putHeader t.resumed 0x80 (t.fidx + 1)).1.queue? t.resumed.id).isSome := by
    show (((s.unfetch t).putQueue t.resumed).queue? t.resumed.id).isSome
    rw [queue_putQueue_self _ _ h0]; rfl
  exact statQueued_queue h1

/-- A completion waits for the accesses of its channel (R40). -/
theorem mayFinish_queued {s : State} {p : Packet} (h : ∃ a ∈ s.accs, a.agent = .channel p.chan)
    (cmp : Option (Place × BitVec 8)) : s.mayFinish p cmp = false := by
  obtain ⟨a, ha, e⟩ := h
  have : s.accs.any (fun a => a.agent == .channel p.chan) = true := List.any_eq_true.mpr ⟨a, ha, by simp [e]⟩
  simp [State.mayFinish, this]

/-- `.skip` of a faulted queue lets it run, and leaves its packet to complete behind the header's writes. -/
theorem skipPacket_faulted {s : State} {t : TQueue} {p : Packet} (h3 : t.state = 3) (hp : s.faultedPkt t = some p)
    (hc : p.chan = t.chan) (hv : pktCmpv p.words = false) :
    s.skipPacket t = ((s.resumeQueue t).putPkt (p.skipped t.cause), s.nextUid + 1) := by
  have hn : (s.unfetch t).nextUid = s.nextUid := by rw [unfetch_eq]
  have hf : (s.resumeQueue t).faultedPkt t = some p := by
    rw [State.faultedPkt, resumeQueue_packets]; exact unfetch_faultedPkt hp
  have hm : (s.resumeQueue t).mayFinish (p.skipped t.cause) (p.skipped t.cause).cmp = false :=
    mayFinish_queued ⟨headerWrite t (s.nextUid + 1) 0x98 (16 * t.cause + 1),
      by rw [resumeQueue_accs]; simp, congrArg Agent.channel hc.symm⟩ _
  have hs : (s.resumeQueue t).finishSkipped (p.skipped t.cause) = (s.resumeQueue t).putPkt (p.skipped t.cause) := by
    rw [State.finishSkipped, hm]; rfl
  simp only [State.skipPacket, h3, if_true, putStat_eq]
  change (match (s.resumeQueue t).faultedPkt t with
    | none => _
    | some p => _) = _
  rw [hf]
  simp only [hv, Bool.false_eq_true, if_false]
  exact Prod.ext hs (congrArg (fun n => n + 1) hn)

/-- `.retry` of a faulted queue, with room in the channel, fetches the packet whose probes now succeed. -/
theorem retryPacket_faulted {s s2 : State} {t : TQueue} {p : Packet} {maps : List PageMap} (h3 : t.state = 3)
    (hp : s.faultedPkt t = some p) (hr : s.chanFlight t.chan < 4) (hv : pktValid p.words = true)
    (hm : (statQueued s { t with state := 1 }).probePacket p.asid p.chan p.words = (s2, .ok maps)) :
    s.retryPacket t =
      ((s2.putPkt { p with state := .fetched, maps := maps, withdrawn := false }).leasePages p.asid p.id maps, s.nextUid) := by
  have hr' : (statQueued s { t with state := 1 }).chanFlight t.chan < 4 := hr
  have hp' : (statQueued s { t with state := 1 }).faultedPkt t = some p := hp
  simp only [State.retryPacket, h3, or_true, if_true, putStat_eq, hr', and_self, hp', State.probeFetched, hv, Bool.not_true,
    Bool.false_eq_true, if_false, hm]

/-! ## The end of a skipped packet -/

/-- A queue's packet after the queue is detached: one that was admitted never moves (R237). -/
def TQueue.loses (q : TQueue) (p : Packet) : Packet :=
  if p.queue == q.id && p.state == .admitted then { p with state := .dead } else p

/-- Whether a detachment takes effect now (R237). -/
def State.mayUnbind (s : State) (q : TQueue) : Bool :=
  q.detaching && (s.inFlight q.id).isEmpty && !s.accs.any (fun a => a.id == q.acc)

/-- The machine with a queue unbound: its leases gone, and chq.att reading RES 2. -/
def State.unbind (s : State) (q : TQueue) : State :=
  { (s.dropLeases (.queue q.id)).chqResult q.asid q.chan (q.left + 2) with
      queues := s.queues.filter (fun x => x.id != q.id), packets := s.packets.map q.loses }

theorem finishDetach_eq (s : State) (q : TQueue) : s.finishDetach q = if s.mayUnbind q then s.unbind q else s := rfl

theorem finishDetach_waves (s : State) (q : TQueue) : (s.finishDetach q).waves = s.waves := by
  rw [finishDetach_eq]; split <;> rfl

theorem finishDetach_mem (s : State) (q : TQueue) : (s.finishDetach q).mem = s.mem := by
  rw [finishDetach_eq]; split <;> rfl

theorem loses_id (q : TQueue) (p : Packet) : (q.loses p).id = p.id := by
  unfold TQueue.loses; split <;> rfl

theorem unbind_pkt (s : State) (q : TQueue) (k : Nat) : (s.unbind q).pkt? k = (s.pkt? k).map q.loses := by
  show (s.packets.map q.loses).find? (fun p => p.id == k) = _
  rw [List.find?_map]
  congr 2
  funext p
  simp only [Function.comp_apply, loses_id]

/-- A detachment's end leaves alone a packet that is not admitted. -/
theorem finishDetach_pkt {s : State} {k : Nat} {o : Option Packet} (h : s.pkt? k = o) (ho : ∀ p, o = some p → p.state ≠ .admitted)
    (q : TQueue) : (s.finishDetach q).pkt? k = o := by
  rw [finishDetach_eq]
  split
  · rw [unbind_pkt, h]
    cases o with
    | none => rfl
    | some p => exact congrArg some (if_neg (by simp [ho p rfl]))
  · exact h

theorem decTask_eq (s : State) (id : W32) (n level : Nat) :
    s.decTask id n level = { s with tasks := (s.decTask id n level).tasks } := by
  simp only [State.decTask]
  split
  · split
    · rfl
    · split <;> rfl
  · rfl

/-- Whether a packet's promise is yet to come. -/
def State.early (s : State) (p : Packet) : Bool :=
  match p.promise with
  | some x => decide (s.clk < x)
  | none => false

/-- A packet is done, or gone with its leases where its promise has passed (R251). -/
def State.retire (s : State) (p : Packet) : State :=
  if s.early p then s.putPkt { p with state := .done }
  else { s.dropLeases (.packet p.id) with packets := s.packets.filter (fun x => x.id != p.id) }

/-- A queue notes the scope at which a packet of it completed, and a detachment that waited for the packet may end. -/
def State.noteDone (s : State) (p : Packet) : State :=
  match s.queue? p.queue with
  | none => s
  | some q => (s.putQueue { q with doneScope := max q.doneScope p.scope }).finishDetach { q with doneScope := max q.doneScope p.scope }

/-- The decrement that a packet's completion makes (R267). -/
def State.countDown (s : State) (p : Packet) : State :=
  if pktTaskv p.words then s.decTask ((pword p.words 14) &&& 0xFFFF) 1 p.scope else s

/-- The completion of a packet that stores no completion word. -/
theorem finishPacket_wordless (s : State) (p : Packet) (status cause : Nat) :
    s.finishPacket p status cause none = (((s.countDown p).promisesDone p.id).retire p).noteDone p := rfl

theorem countDown_eq (s : State) (p : Packet) : s.countDown p = { s with tasks := (s.countDown p).tasks } := by
  unfold State.countDown
  split
  · exact decTask_eq s _ _ _
  · rfl

theorem retire_waves (s : State) (p : Packet) : (s.retire p).waves = s.waves := by
  unfold State.retire; split <;> rfl

theorem retire_mem (s : State) (p : Packet) : (s.retire p).mem = s.mem := by
  unfold State.retire; split <;> rfl

theorem retire_early {s : State} {p : Packet} (h : s.pkt? p.id = some p) (he : s.early p = true) :
    (s.retire p).pkt? p.id = some { p with state := .done } := by
  rw [State.retire, if_pos he]
  exact pkt_putPkt_self s { p with state := .done } (Option.isSome_of_eq_some h)

theorem retire_late {s : State} {p : Packet} (he : s.early p = false) : (s.retire p).pkt? p.id = none := by
  rw [State.retire, if_neg (by rw [he]; exact Bool.false_ne_true)]
  exact List.find?_eq_none.mpr fun x hx => by simpa using (List.mem_filter.mp hx).2

theorem noteDone_waves (s : State) (p : Packet) : (s.noteDone p).waves = s.waves := by
  unfold State.noteDone
  split
  · rfl
  · exact finishDetach_waves _ _

theorem noteDone_mem (s : State) (p : Packet) : (s.noteDone p).mem = s.mem := by
  unfold State.noteDone
  split
  · rfl
  · exact finishDetach_mem _ _

theorem noteDone_pkt {s : State} {k : Nat} {o : Option Packet} (h : s.pkt? k = o) (ho : ∀ p, o = some p → p.state ≠ .admitted)
    (p : Packet) : (s.noteDone p).pkt? k = o := by
  unfold State.noteDone
  split
  · exact h
  · exact finishDetach_pkt (s := s.putQueue _) h ho _

theorem promisesDone_complete (s : State) (k : Nat) :
    ∀ y ∈ (s.promisesDone k).waves, ∀ e ∈ y.promises, e.pkt = k → e.complete = true := by
  intro y hy e he hk
  obtain ⟨w, _, rfl⟩ := List.mem_map.mp hy
  obtain ⟨a, _, rfl⟩ := List.mem_map.mp he
  by_cases h : a.pkt == k
  · rw [if_pos h]
  · rw [if_neg h] at hk
    exact absurd (by simpa using hk) h

/-- What the completion of a packet without a completion word leaves: M as it was, its promises complete, and the packet done
until its promise, or gone (R249, R251). -/
theorem finishPacket_wordless_spec {s : State} {p : Packet} (h : s.pkt? p.id = some p) (status cause : Nat) :
    (s.finishPacket p status cause none).mem = s.mem ∧
    (∀ y ∈ (s.finishPacket p status cause none).waves, ∀ e ∈ y.promises, e.pkt = p.id → e.complete = true) ∧
    (s.early p = true → (s.finishPacket p status cause none).pkt? p.id = some { p with state := .done }) ∧
    (s.early p = false → (s.finishPacket p status cause none).pkt? p.id = none) := by
  have hc := countDown_eq s p
  have hm : ((s.countDown p).promisesDone p.id).mem = s.mem := by rw [hc]; rfl
  have hp : ((s.countDown p).promisesDone p.id).pkt? p.id = some p := by rw [hc]; exact h
  have he : ((s.countDown p).promisesDone p.id).early p = s.early p := by rw [hc]; rfl
  rw [finishPacket_wordless]
  refine ⟨?_, ?_, fun e => ?_, fun e => ?_⟩
  · rw [noteDone_mem, retire_mem, hm]
  · rw [noteDone_waves, retire_waves]
    exact promisesDone_complete _ _
  · exact noteDone_pkt (retire_early hp (he.trans e)) (fun x hx => by rw [← Option.some.inj hx]; exact PktState.noConfusion) p
  · exact noteDone_pkt (retire_late (he.trans e)) (fun x hx => absurd hx (Option.some_ne_none x).symm) p

/-- COPY_COMPLETION of a skipped packet without a completion word takes its effects once the channel has nothing on its way. -/
theorem copyCompletion_skipped {s : State} {p : Packet} (h : s.pkt? p.id = some p) (hs : p.state = .skipped) (hc : p.cmp = none)
    (ha : ∀ a ∈ s.accs, a.agent ≠ .channel p.chan) (hw : ∀ e ∈ s.wb, e.agent ≠ .channel p.chan) :
    exec (.copyCompletion p.id) s = .next (s.finishPacket p 1 p.cause none) := by
  have h1 : s.accs.any (fun a => a.agent == .channel p.chan) = false := by
    rw [List.any_eq_false]; intro a h; simpa using ha a h
  have h2 : s.agentDrained (chanPath p.chan) (.channel p.chan) p.scope = true := by
    have : s.wb.any (fun e => e.agent == .channel p.chan && (chanPath p.chan).contains e.node &&
        decide (nodeLevel e.node < p.scope)) = false := by
      rw [List.any_eq_false]; intro e h; simp [hw e h]
    simp only [State.agentDrained, this, Bool.not_false]
  have hf : s.mayFinish p none = true := by simp [State.mayFinish, h1, h2, State.wordClear]
  show execCopyCompletion p.id s = _
  simp only [execCopyCompletion, h, hs, if_true, State.finishSkipped, hc, hf]

theorem early_promise {s : State} {p : Packet} {y : Nat} (h : p.promise = some y) : s.early p = decide (s.clk < y) := by
  simp only [State.early, h]

theorem early_unpromised {s : State} {p : Packet} (h : p.promise = none) : s.early p = false := by
  simp only [State.early, h]

/-- A wave stored over the current one is the current one. -/
theorem wave_putWave_current {s u : State} {w v : Wave} (hw : s.wave? s.cur = some w) (hu : u.waves = s.waves)
    (hv : v.uid = w.uid) : (u.putWave v).wave? s.cur = some v := by
  have h : u.wave? v.uid = some w := by rw [hv, wave_uid hw, State.wave?, hu]; exact hw
  rw [← wave_uid hw, ← hv]
  exact wave_putWave_self u v (by rw [h]; rfl)

/-- A CPYX whose op queues a write of the header leaves its wave at its address, begun, and the machine as the op leaves it. -/
theorem cpyx_op_parks {i : Instr} {h : Head} {s s1 s' : State} {w : Wave} {d : SReg} {x : VSrc} {qa : Word} {t : TQueue}
    {acc : Nat} {drain : Bool} {f : State → TQueue → State × Nat} (hr : Open h s w) (hn : Names s s1 w 0x30A x qa t)
    (hu : (s.waves.map (fun y => y.uid)).Nodup)
    (hi : exec i s = cpyxForm h d x (fun s w v sp t => cpyxOp s w v d sp t drain (fun s => f s t)) s)
    (hf : f s1 t = (s', acc)) (hs : s'.waves = s1.waves) (ha : ∃ a ∈ s'.accs, a.id = acc) :
    ∃ w', exec i s = .next (s'.putWave w') ∧ (s'.putWave w').wave? s.cur = some w' ∧ w'.pc = w.pc ∧
      w'.inProg = .cpyx t.id t.hdrPa acc t.hdrKey drain :=
  ⟨_, cpyx_op_waits hr hn hu hi hf hs ha, wave_putWave_current hr.current (hs.trans hn.walked.waves) rfl, rfl, rfl⟩

/-- CPYX.skip and CPYX.retry of a faulted queue, and the completion of the packet that is skipped (R247 to R249). -/
theorem cpyxResumes : CpyxResumes := by
  intro s s1 w h d x qa t p hr hn h3 _ hf hp _ hc _ hu
  have hk := hn.walked
  have hf1 : s1.faultedPkt t = some p := by rw [State.faultedPkt, hk.packets]; exact hf
  have hp1 : s1.pkt? p.id = some p := by rw [State.pkt?, hk.packets]; exact hp
  refine ⟨fun hv => ?_, fun s2 maps hv hroom hm => ?_⟩
  · have hskip := skipPacket_faulted h3 hf1 hc hv
    have hwaves : ((s1.resumeQueue t).putPkt (p.skipped t.cause)).waves = s1.waves := resumeQueue_waves s1 t
    have hpk : (s1.resumeQueue t).pkt? p.id = some p := by
      rw [State.pkt?, resumeQueue_packets]; exact unfetch_pkt (faultedPkt_state hf) hp1
    obtain ⟨w', hex, hw, hpc, hprog⟩ := cpyx_op_parks hr hn hu (exec_cpyxSkip h d x s) hskip hwaves
      ⟨headerWrite t (s1.nextUid + 1) 0x98 (16 * t.cause + 1), by rw [putPkt_accs, resumeQueue_accs]; simp, rfl⟩
    refine ⟨_, w', s1.nextUid + 1, hex, hw, hpc, hprog, ?_, ?_, ?_, fun s' hp' _ ha hw => ?_⟩
    · rw [queue_putWave, queue_putPkt, resumeQueue_queue hn.still_held]; rfl
    · rw [putWave_accs, putPkt_accs, resumeQueue_accs, hk.accs, hk.nextUid]
    · rw [pkt_putWave]
      exact pkt_putPkt_self (s1.resumeQueue t) (p.skipped t.cause) (Option.isSome_of_eq_some hpk)
    · obtain ⟨hmem, hprom, done, gone⟩ := finishPacket_wordless_spec (p := p.skipped t.cause) hp' 1 t.cause
      refine ⟨_, copyCompletion_skipped (p := p.skipped t.cause) hp' rfl rfl ha hw, hmem, hprom, ?_⟩
      cases hy : p.promise with
      | none => exact gone (early_unpromised hy)
      | some y =>
        by_cases hlt : s'.clk < y
        · simpa only [hlt, if_true, hy, Packet.skipped] using done ((early_promise hy).trans (decide_eq_true hlt))
        · simpa only [hlt, if_false, Packet.skipped] using gone ((early_promise hy).trans (decide_eq_false hlt))
  · have hk2 := probePacket_walked (statQueued s1 { t with state := 1 }) p.asid p.chan p.words
    rw [hm] at hk2
    have hroom1 : s1.chanFlight t.chan < 4 := by rw [State.chanFlight, hk.packets]; exact hroom
    have haccs : s2.accs = s.accs ++ [headerWrite t s.nextUid 0x98 (16 * t.cause + 1)] := by
      rw [← hk.accs, ← hk.nextUid]; exact hk2.accs
    have hp2 : s2.pkt? p.id = some p := by rw [State.pkt?, hk2.packets]; exact hp1
    have hq2 : s2.queue? t.id = some { t with state := 1 } := by
      rw [State.queue?, hk2.queues]
      exact statQueued_queue (q := { t with state := 1 }) (Option.isSome_of_eq_some hn.still_held)
    have hclk : s2.clk = s.clk := hk2.clk.trans hk.clk
    obtain ⟨w', hex, hw, hpc, hprog⟩ := cpyx_op_parks hr hn hu (exec_cpyxRetry h d x s)
      (retryPacket_faulted h3 hf1 hroom1 hv hm) hk2.waves
      ⟨headerWrite t s.nextUid 0x98 (16 * t.cause + 1), haccs ▸ List.mem_append_right _ List.mem_cons_self, hk.nextUid.symm⟩
    refine ⟨_, w', hex, hw, hpc, by rw [hprog, hk.nextUid], ?_, ?_, ?_, fun m hm' => ?_⟩
    · rw [queue_putWave, queue_leasePages, queue_putPkt, hq2]
    · rw [putWave_accs, leasePages_accs, putPkt_accs, haccs]
    · rw [pkt_putWave, pkt_leasePages]
      exact pkt_putPkt_self s2 { p with state := .fetched, maps := maps, withdrawn := false } (Option.isSome_of_eq_some hp2)
    · rw [← hclk]
      exact List.mem_append_right _ (List.mem_map.mpr ⟨m, hm', rfl⟩)

end Sys2Proof.Machine
end

section
/-! PROOF. Attaching and detaching queues (R237), and with them the operations of queues (O38). -/

namespace Sys2Proof.Machine

/-! ## chq.att (R237) -/

/-- HDR and OP of a write of chq.att that names a header and an operation. -/
theorem chq_fields {hdr op : Nat} (hm : hdr % 256 = 0) (hlt : hdr < 2 ^ 52) (hop : op < 4) :
    field (BitVec.ofNat 64 (hdr + op)) 8 44 * 256 = hdr ∧ field (BitVec.ofNat 64 (hdr + op)) 0 2 = op := by
  simp only [field, BitVec.toNat_ushiftRight, BitVec.toNat_ofNat, Nat.shiftRight_eq_div_pow]
  omega

/-- A host's write of chq.att takes effect at once where none of its space is on its way. -/
theorem hostChq_quiet {s : State} {asid : Nat} {a : Space} (hs : s.space? asid = some a) (hq : ChqQuiet s a) (ch : ChanId)
    (v : Word) : s.hostChq asid ch v = s.writeChq asid ch v := by
  have hp : s.chqPending asid ch = false := by
    rw [State.chqPending, List.any_eq_false]
    intro q hmem
    by_cases he : q.asid = asid
    · obtain ⟨h1, h2⟩ := hq.queues q hmem (he.trans (space_asid hs).symm)
      simp [h1, no_access h2]
    · simp [he]
  simp [State.hostChq, hs, hp, hq.cmds]

theorem writeChq_attach {hdr : Nat} (hm : hdr % 256 = 0) (hlt : hdr < 2 ^ 52) (s : State) (asid : Nat) (ch : ChanId) :
    s.writeChq asid ch (BitVec.ofNat 64 hdr) = s.attach asid ch hdr := by
  obtain ⟨h1, h2⟩ := chq_fields hm hlt (show 0 < 4 by decide)
  simp only [Nat.add_zero] at h1 h2
  simp only [State.writeChq, h1, h2]

theorem writeChq_detach {hdr : Nat} (hm : hdr % 256 = 0) (hlt : hdr < 2 ^ 52) (s : State) (asid : Nat) (ch : ChanId) :
    s.writeChq asid ch (BitVec.ofNat 64 (hdr + 1)) = s.detach asid ch hdr := by
  obtain ⟨h1, h2⟩ := chq_fields hm hlt (show 1 < 4 by decide)
  simp only [State.writeChq, h1, h2]

theorem exec_queueAttach {hdr : Nat} (hm : hdr % 256 = 0) (hlt : hdr < 2 ^ 52) {s : State} {asid : Nat} {a : Space}
    (hs : s.space? asid = some a) (hq : ChqQuiet s a) (ch : ChanId) :
    exec (.queueAttach asid ch hdr) s = .next (s.attach asid ch hdr) := by
  have hc : (hdr % 256 != 0 || decide (2 ^ 52 ≤ hdr)) = false := by
    rw [hm, decide_eq_false (Nat.not_le.mpr hlt)]; rfl
  show execQueueAttach asid ch hdr s = _
  simp only [execQueueAttach, hc, Bool.false_eq_true, if_false, hostChq_quiet hs hq, writeChq_attach hm hlt]

theorem exec_queueDetach {hdr : Nat} (hm : hdr % 256 = 0) (hlt : hdr < 2 ^ 52) {s : State} {asid : Nat} {a : Space}
    (hs : s.space? asid = some a) (hq : ChqQuiet s a) (ch : ChanId) :
    exec (.queueDetach asid ch hdr) s = .next (s.detach asid ch hdr) := by
  have hc : (hdr % 256 != 0 || decide (2 ^ 52 ≤ hdr)) = false := by
    rw [hm, decide_eq_false (Nat.not_le.mpr hlt)]; rfl
  show execQueueDetach asid ch hdr s = _
  simp only [execQueueDetach, hc, Bool.false_eq_true, if_false, hostChq_quiet hs hq, writeChq_detach hm hlt]

/-- chq.att reads the result that was recorded last. -/
theorem chqRead_chqResult (s : State) (asid : Nat) (ch : ChanId) (v : Nat) :
    (s.chqResult asid ch v).chqRead asid ch = BitVec.ofNat 64 v := by
  simp [State.chqRead, State.chqResult]

@[simp] theorem chqResult_queues (s : State) (asid : Nat) (ch : ChanId) (v : Nat) : (s.chqResult asid ch v).queues = s.queues := rfl
@[simp] theorem chqResult_accs (s : State) (asid : Nat) (ch : ChanId) (v : Nat) : (s.chqResult asid ch v).accs = s.accs := rfl
@[simp] theorem chqResult_mem (s : State) (asid : Nat) (ch : ChanId) (v : Nat) : (s.chqResult asid ch v).mem = s.mem := rfl
@[simp] theorem chqResult_leases (s : State) (asid : Nat) (ch : ChanId) (v : Nat) : (s.chqResult asid ch v).leases = s.leases := rfl
theorem putQueue_queues (s : State) (q : TQueue) :
    (s.putQueue q).queues = modWhere (fun x => x.id == q.id) (fun _ => q) s.queues := rfl

/-! ## Attachment -/

/-- The machine with a queue's record and the leases of its pages added. -/
def State.addQueue (s : State) (q : TQueue) (held : List Nat) : State :=
  { s with nextUid := s.nextUid + 1, queues := s.queues ++ [q],
           leases := s.leases ++ held.map (fun v => ⟨q.asid, v, .queue q.id, s.clk⟩) }

@[simp] theorem addQueue_nextUid (s : State) (q : TQueue) (l : List Nat) : (s.addQueue q l).nextUid = s.nextUid + 1 := rfl
@[simp] theorem addQueue_queues (s : State) (q : TQueue) (l : List Nat) : (s.addQueue q l).queues = s.queues ++ [q] := rfl
@[simp] theorem addQueue_accs (s : State) (q : TQueue) (l : List Nat) : (s.addQueue q l).accs = s.accs := rfl
@[simp] theorem addQueue_mem (s : State) (q : TQueue) (l : List Nat) : (s.addQueue q l).mem = s.mem := rfl

/-- The machine with the channel's first writes of a queue's header on their way: WIDX, RIDX, FIDX and STAT. -/
def State.openHeader (s : State) (q : TQueue) : State :=
  statQueued (((s.putHeader q 0x00 0).1.putHeader q 0x80 0).1.putHeader q 0xA0 0).1 q

theorem openHeader_accs (s : State) (q : TQueue) : (s.openHeader q).accs = s.accs ++ [headerWrite q s.nextUid 0x00 0,
    headerWrite q (s.nextUid + 1) 0x80 0, headerWrite q (s.nextUid + 2) 0xA0 0,
    headerWrite q (s.nextUid + 3) 0x98 (statWord q)] := by
  simp only [State.openHeader, statQueued, putHeader_eq, List.append_assoc, List.cons_append, List.nil_append]

/-- A record that stands last, alone of its identity, is replaced in its place. -/
theorem modWhere_last {l : List TQueue} {q r : TQueue} (hl : ∀ x ∈ l, x.id ≠ r.id) (hq : q.id = r.id) :
    modWhere (fun x => x.id == r.id) (fun _ => r) (l ++ [q]) = l ++ [r] := by
  have h : l.map (fun x => if x.id == r.id then r else x) = l :=
    (List.map_congr_left fun x hx => if_neg (by simpa using hl x hx)).trans (List.map_id l)
  rw [modWhere, List.map_append, h, List.map_singleton, if_pos (by simpa using hq)]

theorem openHeader_queues {s : State} {l : List TQueue} {q : TQueue} (hs : s.queues = l ++ [q]) (hl : ∀ x ∈ l, x.id ≠ q.id) :
    (s.openHeader q).queues = l ++ [q] := by
  simp only [State.openHeader, statQueued, putHeader_eq, State.putQueue, hs, modWhere_last hl rfl]

theorem openHeader_mem (s : State) (q : TQueue) : (s.openHeader q).mem = s.mem := by
  simp only [State.openHeader, statQueued, putHeader_eq, putQueue_mem]

theorem openHeader_leases (s : State) (q : TQueue) : (s.openHeader q).leases = s.leases := by
  simp only [State.openHeader, statQueued, putHeader_eq, putQueue_leases]

/-- A queue is bound with its pages leased, its header's first writes on their way, and chq.att reading RES 1 (R237). -/
theorem bind_eq (s : State) (asid : Nat) (ch : ChanId) (hdr ring cfg : Nat) (page : Xlat) (frames : List Xlat) :
    s.bind asid ch hdr (page.base + hdr % 65536) page.leaf.key ring cfg (frames.map (fun x => x.base))
      (frames.map (fun x => x.leaf.key)) =
    (((s.addQueue (newQueue s.nextUid asid ch hdr page ring cfg frames 0)
        (hdr / 65536 :: (ringPages ring cfg).map (fun a => a / 65536)).dedup).openHeader
      (newQueue s.nextUid asid ch hdr page ring cfg frames 0)).putQueue
      (newQueue s.nextUid asid ch hdr page ring cfg frames (s.nextUid + 4))).chqResult asid ch (hdr + 1) := by
  simp only [State.bind, putStat_eq]
  rfl

/-- RING and CFG that keep R236 are what the channel reads of a header. -/
theorem queueShape_sound {s1 s2 s3 : State} {ch : ChanId} {pa ring cfg : Nat} {key : BitVec 8}
    (h1 : s1.readEntry (chanPath ch) (pa + 0x88) (some key) = (ring, s2))
    (h2 : s2.readEntry (chanPath ch) (pa + 0x90) (some key) = (cfg, s3)) (hr : ring < 2 ^ 52) (ha : ring % 4096 = 0)
    (hlo : 4 ≤ cfg) (hhi : cfg ≤ 15) : s1.queueShape ch pa key = (s3, some (ring, cfg)) := by
  have hc : ¬(2 ^ 52 ≤ ring ∨ ring % 4096 ≠ 0 ∨ cfg < 4 ∨ 15 < cfg) := by omega
  simp only [State.queueShape, h1, h2, hc, if_false]

/-- An attachment that no condition refuses binds the queue. -/
theorem attach_sound {s s1 s3 s4 : State} {asid hdr ring cfg : Nat} {ch : ChanId} {page : Xlat} {frames : List Xlat}
    (hd : s.mod.cfg.dies.getLsbD ch.die.val = true) (hp : s.queuePage (chanPath ch) asid hdr = (s1, some page))
    (hsh : s1.queueShape ch (page.base + hdr % 65536) page.leaf.key = (s3, some (ring, cfg)))
    (hroom : (s3.queues.filter (fun q => q.chan == ch)).length < 16) (hnew : ∀ q ∈ s3.queues, q.hdrPa ≠ page.base + hdr % 65536)
    (hr : s3.queuePages (chanPath ch) asid (ringPages ring cfg) = (s4, frames.map some)) :
    s.attach asid ch hdr = s4.bind asid ch hdr (page.base + hdr % 65536) page.leaf.key ring cfg
      (frames.map (fun x => x.base)) (frames.map (fun x => x.leaf.key)) := by
  have hany : s3.queues.any (fun q => q.hdrPa == page.base + hdr % 65536) = false := by
    rw [List.any_eq_false]; intro q hq; simpa using hnew q hq
  have hnone : (frames.map some).any (fun x => x.isNone) = false := by simp
  have hmap : ∀ {β : Type} (f : Xlat → β), (frames.map some).filterMap (fun x => x.map f) = frames.map f := by
    intro β f
    rw [List.filterMap_map, ← List.filterMap_eq_map]
    rfl
  simp only [State.attach, hd, Bool.not_true, Bool.false_eq_true, if_false, hp, hsh, hany, or_false, Nat.not_le.mpr hroom, hr,
    hnone, hmap]

/-- What binding a queue leaves: its record last of all, the first writes of its header, the leases of its pages, RES 1. -/
theorem bind_spec {s : State} (hid : ∀ q ∈ s.queues, q.id < s.nextUid) (asid : Nat) (ch : ChanId) (hdr ring cfg : Nat)
    (page : Xlat) (frames : List Xlat) :
    let u := s.bind asid ch hdr (page.base + hdr % 65536) page.leaf.key ring cfg (frames.map (fun x => x.base))
      (frames.map (fun x => x.leaf.key))
    let q := newQueue s.nextUid asid ch hdr page ring cfg frames (s.nextUid + 4)
    u.queues = s.queues ++ [q] ∧ u.chqRead asid ch = BitVec.ofNat 64 (hdr + 1) ∧ u.mem = s.mem ∧
      u.accs = s.accs ++ [headerWrite q (s.nextUid + 1) 0x00 0, headerWrite q (s.nextUid + 2) 0x80 0,
        headerWrite q (s.nextUid + 3) 0xA0 0, headerWrite q (s.nextUid + 4) 0x98 1] ∧
      ∀ v ∈ hdr :: ringPages ring cfg, ⟨asid, v / 65536, .queue s.nextUid, s.clk⟩ ∈ u.leases := by
  have hne : ∀ x ∈ s.queues, x.id ≠ s.nextUid := fun x hx => (hid x hx).ne
  simp only [bind_eq]
  refine ⟨?_, chqRead_chqResult _ _ _ _, ?_, ?_, fun v hv => ?_⟩
  · rw [chqResult_queues, putQueue_queues, openHeader_queues (addQueue_queues _ _ _) hne]
    exact modWhere_last hne rfl
  · rw [chqResult_mem, putQueue_mem, openHeader_mem, addQueue_mem]
  · rw [chqResult_accs, putQueue_accs, openHeader_accs, addQueue_accs, addQueue_nextUid]
    rfl
  · rw [chqResult_leases, putQueue_leases, openHeader_leases]
    refine List.mem_append_right _ (List.mem_map.mpr ⟨v / 65536, List.mem_dedup.mpr ?_, rfl⟩)
    exact List.mem_map_of_mem (f := fun a => a / 65536) hv

/-! ## Detachment -/

/-- A queue that is detached: STATE 0, and the header address that the detachment named (R237). -/
def TQueue.detached (q : TQueue) (hdr acc : Nat) : TQueue := { q with state := 0, detaching := true, left := hdr, acc := acc }

/-- An attached queue is named by its own header address, where no other of its space has it. -/
theorem queueNamed_own {s : State} {q : TQueue} (hm : q ∈ s.queues)
    (hone : ∀ x ∈ s.queues, x.asid = q.asid → x.hdr = q.hdr → x = q) (hop : s.opening q = false) (path : List NodeId) :
    s.queueNamed path q.asid q.hdr = (s, some q) := by
  have hf : s.queues.find? (fun x => x.asid == q.asid && x.hdr == q.hdr && !s.opening x) = some q := by
    cases h : s.queues.find? (fun x => x.asid == q.asid && x.hdr == q.hdr && !s.opening x) with
    | none =>
      have := List.find?_eq_none.mp h q hm
      simp [hop] at this
    | some x =>
      have hx := List.find?_some h
      simp only [Bool.and_eq_true, beq_iff_eq] at hx
      obtain ⟨⟨h1, h2⟩, -⟩ := hx
      rw [hone x (List.mem_of_find?_eq_some h) h1 h2]
  simp only [State.queueNamed, hf]

/-- A detachment that names an attached queue sets STATE to 0 and writes STAT. -/
theorem detach_named {s : State} {q : TQueue} {hdr : Nat} (hn : s.queueNamed (chanPath q.chan) q.asid hdr = (s, some q))
    (hd : q.detaching = false) : s.detach q.asid q.chan hdr =
      (statQueued s (q.detached hdr q.acc)).putQueue (q.detached hdr s.nextUid) := by
  have hc : q.chan = q.chan ∧ (!q.detaching) = true := ⟨rfl, by rw [hd]; rfl⟩
  simp only [State.detach, hn, hc, and_self, if_true, putStat_eq]
  rfl

/-! ## The end of a detachment -/

theorem foldl_finishDetach_attached : ∀ (l : List TQueue) (s : State), (∀ x ∈ l, x.detaching = false) →
    l.foldl State.finishDetach s = s
  | [], _, _ => rfl
  | q :: l, s, h => by
    have hq : s.mayUnbind q = false := by simp [State.mayUnbind, h q List.mem_cons_self]
    rw [List.foldl_cons, finishDetach_eq, hq, if_neg Bool.false_ne_true]
    exact foldl_finishDetach_attached l s (fun x hx => h x (List.mem_cons_of_mem _ hx))

/-- The one queue that is being detached is unbound once it may be. -/
theorem finishDetaches_one {s : State} {q : TQueue} (hq : s.queues.filter (fun y => y.detaching) = [q])
    (hm : s.mayUnbind q = true) : s.finishDetaches = s.unbind q := by
  obtain ⟨l1, l2, e, h1, -, h2⟩ := List.filter_eq_cons_iff.mp hq
  rw [List.filter_eq_nil_iff] at h2
  have attached : ∀ {l : List TQueue}, (∀ x ∈ l, ¬x.detaching = true) → ∀ x ∈ l, x.detaching = false :=
    fun h x hx => by simpa using h x hx
  rw [State.finishDetaches, e, List.foldl_append, List.foldl_cons, foldl_finishDetach_attached l1 s (attached h1), finishDetach_eq,
    hm, if_pos rfl, foldl_finishDetach_attached l2 _ (attached h2)]

/-- What the end of a detachment leaves (R237). -/
theorem unbind_spec (s : State) (q : TQueue) : (s.unbind q).queues = s.queues.filter (fun y => y.id != q.id) ∧
    (s.unbind q).chqRead q.asid q.chan = BitVec.ofNat 64 (q.left + 2) ∧ (∀ l ∈ (s.unbind q).leases, l.holder ≠ .queue q.id) ∧
    (s.unbind q).mem = s.mem := by
  refine ⟨rfl, chqRead_chqResult _ _ _ _, fun l hl => ?_, rfl⟩
  simpa using (List.mem_filter.mp hl).2

/-! ## A write into M of bytes that stand under their own key -/

theorem tagLine_own {s : State} {k : BitVec 8} {n : Nat} (h : s.keyDiffers k n = false) :
    s.tagLine k n = { s with mod := { s.mod with keyTags := (s.tagLine k n).mod.keyTags } } := by
  unfold State.tagLine
  split
  · rw [h]; rfl
  · rfl

/-- A line tagged with a key differs from it no more, and every other line stands as before. -/
theorem keyDiffers_tagLine {s : State} {k : BitVec 8} {n l : Nat} (hn : s.keyDiffers k n = false) (hl : s.keyDiffers k l = false) :
    (s.tagLine k n).keyDiffers k l = false := by
  unfold State.tagLine
  split
  · rw [hn]
    simp only [Bool.false_eq_true, if_false]
    by_cases e : n = l
    · simp [State.keyDiffers, State.keyGenOf, e]
    · have hf : (s.mod.keyTags.filter (fun x => x.1 != n)).find? (fun x => x.1 == l) = s.mod.keyTags.find? (fun x => x.1 == l) := by
        rw [List.find?_filter]
        congr 1
        funext x
        by_cases hx : x.1 = l
        · simp [hx, Ne.symm e]
        · simp [hx]
      have hnl : (n == l) = false := by simpa using e
      simp only [State.keyDiffers, State.keyGenOf, List.find?_cons, hnl, hf] at hl ⊢
      exact hl
  · exact hl

theorem foldl_tagLine_own {k : BitVec 8} : ∀ (l : List Nat) (s : State), (∀ n ∈ l, s.keyDiffers k n = false) →
    ∃ tags, l.foldl (fun s n => s.tagLine k n) s = { s with mod := { s.mod with keyTags := tags } }
  | [], s, _ => ⟨s.mod.keyTags, rfl⟩
  | n :: l, s, h => by
    have hn := h n List.mem_cons_self
    obtain ⟨tags, e⟩ := foldl_tagLine_own l (s.tagLine k n)
      (fun m hm => keyDiffers_tagLine hn (h m (List.mem_cons_of_mem _ hm)))
    refine ⟨tags, ?_⟩
    rw [List.foldl_cons, e, tagLine_own hn]

theorem cleanse_eq (s : State) (u : PoisonUnit) (size i a : Nat) : s.cleanse u size i a =
    { s with poison := (s.cleanse u size i a).poison, poisonSeen := (s.cleanse u size i a).poisonSeen } := by
  simp only [State.cleanse]
  split
  · split <;> split <;> rfl
  · rfl

theorem foldl_cleanse (i : Nat) : ∀ (l : List (Nat × Byte)) (s : State), ∃ ps seen,
    l.foldl (fun s x => s.cleanse (.mem (x.1 / 32)) 32 i x.1) s = { s with poison := ps, poisonSeen := seen }
  | [], s => ⟨s.poison, s.poisonSeen, rfl⟩
  | x :: l, s => by
    obtain ⟨ps, seen, e⟩ := foldl_cleanse i l (s.cleanse (.mem (x.1 / 32)) 32 i x.1)
    refine ⟨ps, seen, ?_⟩
    rw [List.foldl_cons, e, cleanse_eq]

/-- Bytes enter M where their lines stand under no other key; beside M only tags, poison marks and wakes change. -/
theorem writeM_own {s : State} {l : List (Nat × Byte)} {k : BitVec 8} (h : ∀ x ∈ l, s.keyDiffers k (x.1 / 128) = false) (i : Nat) :
    ∃ md ps seen ws, s.writeM l (some k) i =
      { s with mem := s.mem.writeAll l, mod := md, poison := ps, poisonSeen := seen, waves := ws } := by
  obtain ⟨tags, e1⟩ := foldl_tagLine_own (k := k) ((l.map (fun x => x.1 / 128)).dedup) s (fun n hn => by
    obtain ⟨x, hx, rfl⟩ := List.mem_map.mp (List.mem_dedup.mp hn)
    exact h x hx)
  obtain ⟨ps, seen, e2⟩ := foldl_cleanse i l
    { s with mod := { s.mod with keyTags := tags }, mem := s.mem.writeAll l }
  have e : s.writeM l (some k) i = State.wakeMem
      { s with mem := s.mem.writeAll l, mod := { s.mod with keyTags := tags }, poison := ps, poisonSeen := seen } .root
      (l.map (fun x => x.1)) := by
    simp only [State.writeM, e1, e2]
  exact ⟨_, _, _, _, e⟩

/-- A release of an engine at the root enters M where routes stand and no register window takes it. -/
theorem enter_root_inM {s : State} {e : WbEntry} {a : Nat} {l : List Byte} (hn : e.node = .root) (hb : e.bytes = bytesAt a l)
    (hp : e.poison = false) (h : InM s e.key a l.length) :
    ∃ md ps seen ws, s.enter e =
      { s with mem := s.mem.writeAll (bytesAt a l), mod := md, poison := ps, poisonSeen := seen, waves := ws } := by
  have inM : ∀ x ∈ bytesAt a l, s.reachable x.1 = true ∧ deviceWindow x.1 = false ∧ s.keyDiffers e.key (x.1 / 128) = false := by
    intro x hx
    obtain ⟨h1, h2⟩ := bytesAt_mem a l x hx
    have := h (x.1 - a) (by omega)
    rwa [Nat.add_sub_cancel' h1] at this
  have hall : (bytesAt a l).all (fun x => s.reachable x.1) = true := List.all_eq_true.mpr fun x hx => (inM x hx).1
  have hfil : (bytesAt a l).filter (fun x => s.reachable x.1 && !deviceWindow x.1) = bytesAt a l :=
    List.filter_eq_self.mpr fun x hx => by simp [(inM x hx).1, (inM x hx).2.1]
  have hown : ∀ t : State, (bytesAt a l).filter (fun x => t.ownWindow x.1) = [] := fun t =>
    List.filter_eq_nil_iff.mpr fun x hx => by simp [State.ownWindow, (inM x hx).2.1]
  obtain ⟨md, ps, seen, ws, ew⟩ := writeM_own (fun x hx => (inM x hx).2.2) e.instr
  refine ⟨md, ps, seen, ws, ?_⟩
  have he : s.enterNode e = s.writeM (bytesAt a l) (some e.key) e.instr := by
    unfold State.enterNode
    simp only [hn, hb, hall, if_true, hfil, hp, Bool.false_eq_true, if_false]
  rw [State.enter, he, if_pos hn, hb, ew]
  simp only [State.barStore, hown, List.map_nil, List.dedup_nil, List.foldl_nil]

/-- The performance of a header's write: its bytes stand in M, its access is gone, and beside these only identities, caches,
tags, poison marks and wakes have changed before a detachment that waited for it ends (R237, R248). -/
theorem performWrite_header {s : State} {q : TQueue} {id ofs v : Nat} (h : InM s q.hdrKey (q.hdrPa + ofs) 8) :
    ∃ t : State, s.performWrite (headerWrite q id ofs v) = t.finishDetaches ∧
      t = { s with mem := s.mem.writeAll (bytesAt (q.hdrPa + ofs) (leOf 8 v)), accs := s.accs.filter (fun a => a.id != id),
                   nextUid := t.nextUid, caches := t.caches, mod := t.mod, poison := t.poison, poisonSeen := t.poisonSeen,
                   waves := t.waves } := by
  obtain ⟨md, ps, seen, ws, e⟩ := enter_root_inM (s := s.fresh.2.dropBelow (chanPath q.chan) 5
      ((bytesAt (q.hdrPa + ofs) (leOf 8 v)).map (fun y => y.1)))
    (e := (headerWrite q id ofs v).entry s.nextUid .root (bytesAt (q.hdrPa + ofs) (leOf 8 v)))
    rfl rfl rfl h
  have hw : s.writeFor (headerWrite q id ofs v) = _ := e
  have hn : s.nestStore (headerWrite q id ofs v) = (s, headerWrite q id ofs v) := rfl
  refine ⟨(s.writeFor (headerWrite q id ofs v)).popAcc id, ?_, ?_⟩
  · simp only [State.performWrite, hn]
    rfl
  · rw [hw]
    rfl

/-- The write of STAT that a detachment waits for ends it (R237). -/
theorem performStore_unbinds {s : State} {q : TQueue} {v : Nat} (he : Enabled s (headerWrite q q.acc 0x98 v))
    (hq : s.queues.filter (fun y => y.detaching) = [q]) (hf : s.inFlight q.id = []) (hm : InM s q.hdrKey (q.hdrPa + 0x98) 8) :
    ∃ t : State, exec (.performStore (.acc q.acc)) s = .next (t.unbind q) ∧ t.queues = s.queues ∧
      t.mem = s.mem.writeAll (bytesAt (q.hdrPa + 0x98) (leOf 8 v)) := by
  obtain ⟨t, e, ht⟩ := performWrite_header (id := q.acc) (v := v) hm
  have hqueues : t.queues = s.queues := by rw [ht]
  have hgo : (headerWrite q q.acc 0x98 v).kind = .store ∧ s.mayGo (headerWrite q q.acc 0x98 v) = true := ⟨rfl, he.may⟩
  have hunbind : t.mayUnbind q = true := by
    have hin : q ∈ s.queues.filter (fun y => y.detaching) := by rw [hq]; exact List.mem_cons_self
    have hd : q.detaching = true := (List.mem_filter.mp hin).2
    have hfl : t.inFlight q.id = [] := by rw [ht]; exact hf
    have hgone : ∀ a ∈ t.accs, a.id ≠ q.acc := by
      rw [ht]; intro a ha; simpa using (List.mem_filter.mp ha).2
    rw [State.mayUnbind, hd, hfl, no_access hgone]
    rfl
  refine ⟨t, ?_, hqueues, by rw [ht]⟩
  have hfind : s.accs.find? (fun a => a.id == q.acc) = some (headerWrite q q.acc 0x98 v) := he.queued
  show execPerformStore (.acc q.acc) s = _
  simp only [execPerformStore, hfind, hgo, and_self, if_true, e]
  rw [finishDetaches_one (by rw [hqueues]; exact hq) hunbind]

/-- Attaching and detaching queues (R3, R236, R237, R359). -/
theorem queuesAttach : QueuesAttach := by
  refine ⟨?_, fun s q a hs hq hm hlt hin hone hself => ?_, fun s q v he hq _ hf hm => ?_⟩
  · intro s s1 s2 s3 s4 asid hdr ring cfg ch a page frames pa q hs hq hm hlt hid hd hp h1 h2 hr ha hlo hhi hroom hnew hring
    have w1 := queuePage_walked s (chanPath ch) asid hdr
    rw [hp] at w1
    have w2 := readEntry_walked_keyed s1 (chanPath ch) (pa + 0x88) (some page.leaf.key)
    rw [h1] at w2
    have w3 := readEntry_walked_keyed s2 (chanPath ch) (pa + 0x90) (some page.leaf.key)
    rw [h2] at w3
    have w4 := queuePages_walked s3 (chanPath ch) asid (ringPages ring cfg)
    rw [hring] at w4
    have k3 : s.walked s3 := (w1.trans w2).trans w3
    have k4 : s.walked s4 := k3.trans w4
    have hb := attach_sound hd hp (queueShape_sound h1 h2 hr ha hlo hhi) (by rw [k3.queues]; exact hroom)
      (by rw [k3.queues]; exact hnew) hring
    obtain ⟨b1, b2, b3, b4, b5⟩ := bind_spec (s := s4) (by rw [k4.queues, k4.nextUid]; exact hid) asid ch hdr ring cfg page frames
    rw [k4.nextUid] at b1 b4 b5
    rw [k4.queues] at b1
    rw [k4.accs] at b4
    rw [k4.clk] at b5
    exact ⟨_, (exec_queueAttach hm hlt hs hq ch).trans (congrArg _ hb), b1, b2, b3.trans k4.mem, b4, b5⟩
  · obtain ⟨hd, hacc⟩ := hq.queues q hin (space_asid hs).symm
    have hop : s.opening q = false := by simp [State.opening, no_access hacc]
    have hdet := detach_named (queueNamed_own hin hone hop (chanPath q.chan)) hd
    refine ⟨_, (exec_queueDetach hm hlt hs hq q.chan).trans (congrArg _ hdet), rfl, ?_, rfl⟩
    exact queue_putQueue_self _ (q.detached q.hdr s.nextUid)
      (Option.isSome_of_eq_some (statQueued_queue (q := q.detached q.hdr q.acc) (Option.isSome_of_eq_some hself)))
  · obtain ⟨t, hex, htq, htm⟩ := performStore_unbinds he hq hf hm
    obtain ⟨h1, h2, h3, h4⟩ := unbind_spec t q
    exact ⟨_, hex, by rw [h1, htq], h2, h3, h4.trans htm⟩

/-- Settles O38: each CPYX ends or waits as its op and STATE ask, and chq.att's attachments and detachments follow their writes
of the header. -/
theorem queueOperations : Obligations.QueueOperations := ⟨cpyxForms, cpyxResumes, queuesAttach⟩

end Sys2Proof.Machine
end

section
/-! SUPPORT. What a wave's end leaves (R16, R22, R56): its cohort's barriers, the cohort's own end, and the fields of the machine
that each of them keeps. -/

namespace Sys2Proof.Machine

/-! ## Records found after a change that keeps their keys -/

theorem find_modWhere_key {α β : Type} [BEq β] (key : α → β) {f : α → α} (hf : ∀ x, key (f x) = key x) (p : α → Bool) (k : β)
    (l : List α) : (modWhere p f l).find? (fun x => key x == k) =
      (l.find? (fun x => key x == k)).map (fun x => if p x then f x else x) := by
  have hk : ((fun x => key x == k) ∘ fun x => if p x then f x else x) = fun x => key x == k := by
    funext x
    by_cases hx : p x <;> simp [hx, hf]
  rw [modWhere, List.find?_map, hk]

theorem cohort_uid {s : State} {u : Nat} {c : Cohort} (h : s.cohort? u = some c) : c.uid = u := by
  simpa using List.find?_some h

theorem grid_uid {s : State} {u : Nat} {g : Grid} (h : s.grid? u = some g) : g.uid = u := by
  simpa using List.find?_some h

/-- The wave's grid, by its cohort (R19). -/
theorem gridOf_eq_some {s : State} {w : Wave} {g : Grid} :
    s.gridOf w = some g ↔ ∃ c, s.cohort? w.cohort = some c ∧ s.grid? c.grid = some g := by
  unfold State.gridOf State.cohortOf
  cases s.cohort? w.cohort <;> simp

/-! ## What each part of an end changes -/

theorem putCore_frame (s : State) (k : CoreSt) : ∃ cs, s.putCore k = { s with cores := cs } :=
  ⟨_, (putCore_only s k.id k rfl).1⟩

theorem unlatch_frame (s : State) (w : Wave) (l : List VNum) : ∃ cs, s.unlatch w l = { s with cores := cs } :=
  ⟨_, (unlatch_only s w l).1⟩

theorem release_frame (s : State) (c : Cohort) : ∃ cs, s.release c = { s with cores := cs } := putCore_frame s _

theorem postEvent_frame (s : State) (w : Wave) (evt : Nat) (cause pc : Word) (seq : BitVec 32) (mask : Mask) (addr : Word)
    (loc : Option (BitVec 14)) : ∃ sp, s.postEvent w evt cause pc seq mask addr loc = { s with spaces := sp } := by
  unfold State.postEvent
  split
  · exact ⟨_, rfl⟩
  · dsimp only
    split <;> exact ⟨_, rfl⟩

theorem checkBar_frame (s : State) (u b : Nat) : ∃ cs, s.checkBar u b = { s with cohorts := cs } := by
  unfold State.checkBar
  split
  · exact ⟨_, rfl⟩
  · split
    · dsimp only
      split <;> exact ⟨_, rfl⟩
    · exact ⟨_, rfl⟩

theorem checkEBar_frame (s : State) (e b : Nat) : ∃ cs es, s.checkEBar e b = { s with cohorts := cs, ensembles := es } := by
  unfold State.checkEBar
  split
  · exact ⟨_, _, rfl⟩
  · split
    · dsimp only
      split <;> exact ⟨_, _, rfl⟩
    · exact ⟨_, _, rfl⟩

theorem foldl_checkBar_frame (u : Nat) (l : List Nat) (s : State) :
    ∃ cs, l.foldl (fun s b => s.checkBar u b) s = { s with cohorts := cs } :=
  List.foldlRecOn (motive := fun t : State => ∃ cs, t = { s with cohorts := cs }) l _ ⟨_, rfl⟩ fun t ⟨cs, ht⟩ b _ => by
    subst ht
    exact checkBar_frame _ u b

theorem foldl_checkEBar_frame (e : Nat) (l : List Nat) (s : State) :
    ∃ cs es, l.foldl (fun s b => s.checkEBar e b) s = { s with cohorts := cs, ensembles := es } :=
  List.foldlRecOn (motive := fun t : State => ∃ cs es, t = { s with cohorts := cs, ensembles := es }) l _ ⟨_, _, rfl⟩
    fun t ⟨cs, es, ht⟩ b _ => by
      subst ht
      exact checkEBar_frame _ e b

theorem checkBars_frame (s : State) (c : Cohort) : ∃ cs es, s.checkBars c = { s with cohorts := cs, ensembles := es } := by
  obtain ⟨cs, e1⟩ := foldl_checkBar_frame c.uid (List.range 16) s
  obtain ⟨ds, es, e2⟩ := foldl_checkEBar_frame c.ens (List.range 4) { s with cohorts := cs }
  exact ⟨ds, es, by rw [State.checkBars, e1, e2]⟩

theorem cohortLeft_live {s : State} {u : Nat} (h : s.liveWaves u ≠ []) : s.cohortLeft u = s := by
  unfold State.cohortLeft
  split
  · rfl
  · rw [if_neg (by simpa using h)]

/-- A cohort with no wave left is gone (R22). -/
theorem cohortLeft_empty {s : State} {u : Nat} {c : Cohort} (hc : s.cohort? u = some c) (h : s.liveWaves u = []) :
    ∃ ls ks, s.cohortLeft u = { s.putCohort { c with place := .gone } with leases := ls, cores := ks } := by
  have given : ∀ (busy : Bool) (t : State), ∃ ks, (if busy then t else t.release c) = { t with cores := ks } := fun busy t => by
    cases busy
    · exact release_frame t c
    · exact ⟨_, rfl⟩
  unfold State.cohortLeft
  simp only [hc, h, List.isEmpty_nil, if_true]
  obtain ⟨ks, e⟩ := given _ _
  exact ⟨_, ks, e⟩

theorem cohortLeft_frame {s : State} {u : Nat} {c : Cohort} (hc : s.cohort? u = some c) :
    ∃ cs ls ks, s.cohortLeft u = { s with cohorts := cs, leases := ls, cores := ks } := by
  by_cases h : s.liveWaves u = []
  · obtain ⟨ls, ks, e⟩ := cohortLeft_empty hc h
    exact ⟨_, ls, ks, e⟩
  · exact ⟨_, _, _, cohortLeft_live h⟩

theorem cohortLeft_cohort {s : State} {u : Nat} {c : Cohort} (hc : s.cohort? u = some c) :
    (s.cohortLeft u).cohort? u = some { c with place := if s.liveWaves u = [] then .gone else c.place } := by
  by_cases h : s.liveWaves u = []
  · obtain rfl := cohort_uid hc
    obtain ⟨ls, ks, e⟩ := cohortLeft_empty hc h
    rw [e, if_pos h]
    exact cohort_putCohort_self s { c with place := .gone } (Option.isSome_of_eq_some hc)
  · rw [cohortLeft_live h, if_neg h]
    exact hc

/-- The wave that has left its core (R22, R156, R204). -/
def Wave.gone (w : Wave) : Wave :=
  { w.disarm with exited := true, park := .none, hold := .none, inProg := .none, halted := false, haltReq := false, step := none,
                  fatal := none, defs := [], stk := none }

theorem waveExit_eq {s : State} {w : Wave} {c : Cohort} (h : s.cohort? w.cohort = some c) :
    s.waveExit w = ((((s.unlatchWave w).putWave w.gone).checkBars c).cohortLeft w.cohort) := by
  have hc : ((s.unlatchWave w).putWave w.gone).cohortOf w = some c := by
    obtain ⟨ks, e⟩ := unlatch_frame s w (List.finRange 256)
    rw [State.unlatchWave, e]
    exact h
  unfold State.waveExit
  dsimp only
  split
  · next c' h' =>
    obtain rfl : c' = c := Option.some.inj (h'.symm.trans hc)
    rw [cohort_uid h]
    rfl
  · next h' => cases h'.symm.trans hc

/-! ## Barriers that a wave's end may complete (R22, R56) -/

/-- A cohort barrier of which `n` waves are expected, after it has been checked (R56). -/
def Bar.checked (n : Nat) (b : Bar) : Bar := if n ≠ 0 ∧ b.arrived = n then ⟨0, b.gen + 1⟩ else b

theorem checkBar_cohort {s : State} {u : Nat} {c : Cohort} (h : s.cohort? u = some c) (b : Fin 16) :
    ∃ done, (s.checkBar u b.val).cohort? u = some { c with
      bars := c.bars.set b.val (c.bars[b.val].checked (s.liveWaves u).length), bdone := done } := by
  obtain rfl := cohort_uid h
  unfold State.checkBar Bar.checked
  rw [h]
  simp only [b.isLt, dite_true]
  split
  · exact ⟨_, cohort_putCohort_self s _ (Option.isSome_of_eq_some h)⟩
  · exact ⟨c.bdone, by rw [h, Vector.set_getElem_self]⟩

/-- A check of an ensemble barrier notes completions in cohorts and changes nothing else of them. -/
theorem checkEBar_cohorts (s : State) (e b : Nat) : ∃ f : Cohort → Cohort, (s.checkEBar e b).cohorts = s.cohorts.map f ∧
    ∀ x, ∃ done, f x = { x with edone := done } := by
  unfold State.checkEBar
  split
  · exact ⟨id, (List.map_id _).symm, fun x => ⟨_, rfl⟩⟩
  · split
    · dsimp only
      split
      · exact ⟨_, rfl, fun x => by dsimp only; split <;> exact ⟨_, rfl⟩⟩
      · exact ⟨id, (List.map_id _).symm, fun x => ⟨_, rfl⟩⟩
    · exact ⟨id, (List.map_id _).symm, fun x => ⟨_, rfl⟩⟩

theorem checkEBar_cohort {s : State} {u : Nat} {c : Cohort} (h : s.cohort? u = some c) (e b : Nat) :
    ∃ done, (s.checkEBar e b).cohort? u = some { c with edone := done } := by
  obtain ⟨f, hs, hf⟩ := checkEBar_cohorts s e b
  obtain ⟨done, hd⟩ := hf c
  have hk : ((fun x : Cohort => x.uid == u) ∘ f) = fun x => x.uid == u := by
    funext x
    obtain ⟨d, hd⟩ := hf x
    simp [hd]
  refine ⟨done, ?_⟩
  rw [State.cohort?, hs, List.find?_map, hk, show s.cohorts.find? (fun x => x.uid == u) = some c from h, Option.map_some, hd]

/-- The checks of a cohort's first `k` barriers. -/
theorem foldl_checkBar_cohort {s : State} {u : Nat} {c : Cohort} (h : s.cohort? u = some c) : ∀ k ≤ 16, ∃ bars done,
    ((List.range k).foldl (fun s b => s.checkBar u b) s).cohort? u = some { c with bars := bars, bdone := done } ∧
      ∀ b : Fin 16, bars[b.val] = if b.val < k then c.bars[b.val].checked (s.liveWaves u).length else c.bars[b.val]
  | 0, _ => ⟨c.bars, c.bdone, h, fun b => by simp⟩
  | k + 1, hk => by
    obtain ⟨bars, done, e, hb⟩ := foldl_checkBar_cohort h k (by omega)
    obtain ⟨cs, hs⟩ := foldl_checkBar_frame u (List.range k) s
    obtain ⟨done', e'⟩ := checkBar_cohort e ⟨k, hk⟩
    have hl : ((List.range k).foldl (fun s b => s.checkBar u b) s).liveWaves u = s.liveWaves u := by rw [hs]; rfl
    rw [hl] at e'
    refine ⟨_, done', by rw [List.range_succ, List.foldl_append]; exact e', fun b => ?_⟩
    have hbk := hb ⟨k, hk⟩
    simp only [lt_irrefl, if_false] at hbk
    by_cases hbk' : b.val = k
    · simp [hbk', hbk]
    · have : b.val < k ↔ b.val < k + 1 := by omega
      rw [Vector.getElem_set_ne _ _ (Ne.symm hbk'), hb b]
      simp only [this]

theorem foldl_checkEBar_cohort {u : Nat} (e : Nat) : ∀ (l : List Nat) {s : State} {c : Cohort}, s.cohort? u = some c →
    ∃ done, (l.foldl (fun s b => s.checkEBar e b) s).cohort? u = some { c with edone := done }
  | [], _, c, h => ⟨c.edone, h⟩
  | b :: l, _, _, h => by
    obtain ⟨_, h'⟩ := checkEBar_cohort h e b
    obtain ⟨done, h''⟩ := foldl_checkEBar_cohort e l h'
    exact ⟨done, h''⟩

/-- Every barrier of the cohort has been checked, and nothing of it has changed but barriers and their completions (R22). -/
theorem checkBars_cohort {s : State} {u : Nat} {c : Cohort} (h : s.cohort? u = some c) : ∃ bars done edone,
    (s.checkBars c).cohort? u = some { c with bars := bars, bdone := done, edone := edone } ∧
      ∀ b : Fin 16, bars[b.val] = c.bars[b.val].checked (s.liveWaves u).length := by
  obtain rfl := cohort_uid h
  obtain ⟨bars, done, e, hb⟩ := foldl_checkBar_cohort h 16 le_rfl
  obtain ⟨edone, e'⟩ := foldl_checkEBar_cohort c.ens (List.range 4) e
  exact ⟨bars, done, edone, e', fun b => by rw [hb b, if_pos b.isLt]⟩

/-! ## The end of a wave (R22, R156, R204) -/

/-- Of a cohort's waves those stay that are not the one that leaves. -/
theorem liveWaves_putWave_exited {w : Wave} (h : w.exited = true) (s : State) (u : Nat) : (s.putWave w).liveWaves u =
    s.waves.filter (fun x => x.cohort == u && !x.exited && x.uid != w.uid) := by
  simp only [State.liveWaves, State.putWave, modWhere]
  induction s.waves with
  | nil => rfl
  | cons a l ih =>
    by_cases ha : a.uid = w.uid
    · simpa [ha, h] using ih
    · have hb : (a.uid != w.uid) = true := by simpa using ha
      simp only [beq_iff_eq] at ih
      simp only [List.map_cons, beq_iff_eq, ha, if_false, List.filter_cons, hb, Bool.and_true, ih]

/-- What is left of wave `w`'s cohort once it has gone. -/
def State.mates (s : State) (w : Wave) : List Wave :=
  s.waves.filter (fun x => x.cohort == w.cohort && !x.exited && x.uid != w.uid)

theorem waveExit_frame {s : State} {w : Wave} {c : Cohort} (hc : s.cohort? w.cohort = some c) :
    ∃ cs es ls ks, s.waveExit w = { s.putWave w.gone with cohorts := cs, ensembles := es, leases := ls, cores := ks } := by
  obtain ⟨ks, e1⟩ := unlatch_frame s w (List.finRange 256)
  have hput : (s.unlatchWave w).putWave w.gone = { s.putWave w.gone with cores := ks } := by rw [State.unlatchWave, e1]; rfl
  obtain ⟨_, _, _, hc1, -⟩ := checkBars_cohort (s := (s.unlatchWave w).putWave w.gone) (by rw [hput]; exact hc)
  obtain ⟨_, es, e2⟩ := checkBars_frame ((s.unlatchWave w).putWave w.gone) c
  obtain ⟨cs, ls, ks', e3⟩ := cohortLeft_frame hc1
  exact ⟨cs, es, ls, ks', by rw [waveExit_eq hc, e3, e2, hput]⟩

/-- A wave's end checks its cohort's barriers against the waves that are left; with none left, the cohort is gone. -/
theorem waveExit_cohort {s : State} {w : Wave} {c : Cohort} (hc : s.cohort? w.cohort = some c) :
    ∃ c', (s.waveExit w).cohort? w.cohort = some c' ∧ c'.place = (if (s.mates w).length = 0 then .gone else c.place) ∧
      ∀ b : Fin 16, c'.bars[b.val] = c.bars[b.val].checked (s.mates w).length := by
  obtain ⟨ks, e1⟩ := unlatch_frame s w (List.finRange 256)
  have hput : (s.unlatchWave w).putWave w.gone = { s.putWave w.gone with cores := ks } := by rw [State.unlatchWave, e1]; rfl
  have hl : ((s.unlatchWave w).putWave w.gone).liveWaves w.cohort = s.mates w := by
    rw [hput]; exact liveWaves_putWave_exited (w := w.gone) rfl s w.cohort
  obtain ⟨bars, done, edone, hc1, hb⟩ := checkBars_cohort (s := (s.unlatchWave w).putWave w.gone) (by rw [hput]; exact hc)
  obtain ⟨_, _, e2⟩ := checkBars_frame ((s.unlatchWave w).putWave w.gone) c
  rw [hl] at hb
  have hl2 : (((s.unlatchWave w).putWave w.gone).checkBars c).liveWaves w.cohort = s.mates w := by rw [e2]; exact hl
  refine ⟨_, by rw [waveExit_eq hc]; exact cohortLeft_cohort hc1, ?_, hb⟩
  simp only [hl2, List.length_eq_zero_iff]

end Sys2Proof.Machine
end

section
/-! PROOF. The end of a wave: EXIT, and a trap that cannot be delivered (O51). -/

namespace Sys2Proof.Machine

/-! ## A trap that cannot be delivered (R314) -/

/-- A wave with nothing on its way takes a trap at once (R312). -/
theorem takeTrap_calm {s : State} {w : Wave} (hd : w.defs = []) (hp : w.pends = []) (hs : w.sb = []) (hn : w.nests = [])
    (hq : ∀ a ∈ s.accs, a.agent ≠ .wave w.uid) (t : TrapInfo) : s.takeTrap w t = s.deliver w t := by
  have hquiet : s.quiet w = true := by
    have : s.accs.any (fun a => a.agent == .wave w.uid && a.gen) = false :=
      List.any_eq_false.mpr fun a ha => by simp [hq a ha]
    simp [State.quiet, Wave.quiescent, Wave.returned, hd, hs, hn, this]
  simp only [State.takeTrap, State.atBoundary, hquiet, if_true, commitNow_nil s w hd]
  simp [oldestPend, hp]

/-- The wave as its trap's delivery finds it: what it held or waited for is over. -/
def Wave.interrupted (w : Wave) : Wave := { w with exempt := false, hold := .none, inProg := .none, fetch := .free }

/-- A trap of a privileged wave, or with no handler, ends the wave where the mailbox is off (R314). -/
theorem deliver_ends {s : State} {w : Wave} (hm : s.mbxOn w = false) (hu : w.priv = true ∨ s.trapBase w = 0) (t : TrapInfo) :
    s.deliver w t = s.endWave w.interrupted t.cls := by
  unfold State.deliver
  dsimp only
  split
  · next h => cases ((Bool.and_eq_true_iff.mp h).2.symm.trans hm :)
  · split
    · split
      · next h => cases (h.symm.trans hm :)
      · rfl
    · next h => exact absurd hu h

/-- The grid of a wave that ends so records the class, and so of it alone of the grids (R263, R314). -/
theorem markUndelivered_eq {s : State} {w : Wave} {g : Grid} (hg : s.gridOf w = some g) (hn : g.undelivered = none) (cls : Nat) :
    s.markUndelivered w cls = s.putGrid { g with undelivered := some cls } := by
  simp only [State.markUndelivered, hg, hn]

theorem grid_putGrid_self (s : State) (g : Grid) (h : (s.grid? g.uid).isSome) : (s.putGrid g).grid? g.uid = some g :=
  find_modWhere_self (fun x : Grid => x.uid) g s.grids h

theorem trapUndelivered : TrapUndelivered := by
  intro s w t g hw hd hp hs hn hq hstep hm hu _ hg hnone
  obtain ⟨c, hc, hgc⟩ := gridOf_eq_some.mp hg
  have hg' : s.gridOf w.interrupted = some g := hg
  have hgs : (s.grid? g.uid).isSome := by rw [grid_uid hgc, hgc]; rfl
  have he : s.takeTrap w t = (s.putGrid { g with undelivered := some t.cls }).waveExit w.interrupted := by
    rw [takeTrap_calm hd hp hs hn hq, deliver_ends hm hu, State.endWave, ← markUndelivered_eq hg' hnone]
    simp [Wave.interrupted, hstep]
  obtain ⟨cs, es, ls, ks, e⟩ := waveExit_frame (s := s.putGrid { g with undelivered := some t.cls }) (w := w.interrupted) hc
  rw [he, e]
  exact ⟨w.interrupted.gone, _, wave_putWave_self _ w.interrupted.gone (Option.isSome_of_eq_some hw), rfl,
    grid_putGrid_self s { g with undelivered := some t.cls } hgs, rfl, rfl⟩

/-! ## EXIT (R22, R156) -/

/-- The machine in which an EXIT leaves: a stepped one has posted event 7 (R345). -/
def State.exitNoted (s : State) (w : Wave) : State := if w.step.isSome then s.postEvent w 7 0 w.pc w.seq w.em 0 else s

theorem exitNoted_frame (s : State) (w : Wave) : ∃ sp, s.exitNoted w = { s with spaces := sp } := by
  unfold State.exitNoted
  split
  · exact postEvent_frame s w 7 0 w.pc w.seq w.em 0 none
  · exact ⟨_, rfl⟩

theorem exec_exit {h : Head} {s : State} {w : Wave} (hw : Calm h s w) :
    exec (.exit h) s = .next (((s.exitNoted w).waveExit w).account w w.pc 1 0) := by
  have hf : (creq h 0x029 []).Fits s w :=
    ⟨by simp [creq, privOpc], fun _ => ⟨hw.defs, hw.pends⟩, owesPend_plain w _ rfl (by simp [creq]),
      sideHolds_plain s w _ rfl (by simp [creq]), by simp [Wave.depends, hw.board], by simp [creq], by simp [creq], rfl⟩
  exact issue_body (r := creq h 0x029 []) hw.toReady hf

theorem wavesEnd : WavesEnd := by
  intro s w h c hw hc n
  have hcur : s.wave? w.uid = some w := by rw [wave_uid hw.current, hw.current]
  obtain ⟨sp, en⟩ := exitNoted_frame s w
  have hc' : (s.exitNoted w).cohort? w.cohort = some c := by rw [en]; exact hc
  have hmates : ((s.exitNoted w).mates w).length = n := by rw [en]; rfl
  obtain ⟨cs, es, ls, ks, ee⟩ := waveExit_frame hc'
  obtain ⟨c', hc1, hplace, hbars⟩ := waveExit_cohort hc'
  rw [hmates] at hplace hbars
  obtain ⟨ks', ea⟩ : ∃ ks', ((s.exitNoted w).waveExit w).account w w.pc 1 0 = { (s.exitNoted w).waveExit w with cores := ks' } :=
    ⟨_, (account_only _ w w.pc 1 0).1⟩
  have et : ((s.exitNoted w).waveExit w).account w w.pc 1 0 =
      { s.putWave w.gone with spaces := sp, cohorts := cs, ensembles := es, leases := ls, cores := ks' } := by
    rw [ea, ee, en]
    rfl
  have ecoh : (((s.exitNoted w).waveExit w).account w w.pc 1 0).cohort? w.cohort = some c' := by rw [ea]; exact hc1
  refine ⟨_, w.gone, c', exec_exit hw, ?_, rfl, rfl, fun u hu => ?_, by rw [et]; rfl, ecoh, fun hn => ⟨?_, ?_⟩,
    fun hn => ⟨?_, fun b => ?_⟩⟩
  · rw [et]; exact wave_putWave_self s w.gone (Option.isSome_of_eq_some hcur)
  · rw [et]; exact wave_putWave_other s w.gone u hu
  · rw [hplace, if_pos hn]
  · refine Vector.ext fun b hb => ?_
    simpa [Bar.checked, hn] using hbars ⟨b, hb⟩
  · rw [hplace, if_neg hn]
  · simp only [hbars b, Bar.checked, hn, ne_eq, not_false_eq_true, true_and]

/-- Settles O51: the end of a wave checks its cohort's barriers and ends a cohort that it leaves empty, at an EXIT and
at a trap that no handler takes. -/
theorem wavesLeave : Obligations.WavesLeave := ⟨trapUndelivered, wavesEnd⟩

end Sys2Proof.Machine
end

section
/-! SUPPORT. Interrupts (R316): the wave at a location, before and after a change that leaves waves where they stand, and what a
write of an engine into M leaves of the waves (R39, R59). -/

namespace Sys2Proof.Machine

/-! ## The wave at a location -/

/-- An interrupt reaches the wave that stands at the location in the space (R316). -/
theorem sendInt_target {s : State} {asid : Nat} {loc : BitVec 14} {t : Wave} (h : Target s asid loc t) :
    s.sendInt asid loc = s.putWave { t with intp := true } := by
  simp [State.sendInt, h.here, h.space]

/-- With none there nothing happens (R316). -/
theorem sendInt_nobody {s : State} {loc : BitVec 14} (h : s.waveAt loc = none) (asid : Nat) : s.sendInt asid loc = s := by
  simp [State.sendInt, h]

theorem sendInt_frame (s : State) (asid : Nat) (loc : BitVec 14) : ∃ ws, s.sendInt asid loc = { s with waves := ws } := by
  unfold State.sendInt
  split
  · split <;> exact ⟨_, rfl⟩
  · exact ⟨_, rfl⟩

/-- Storing the first record of a key over all records of it keeps the first record that has a property, where that is of
another key. -/
theorem find_modWhere_first {α β : Type} [BEq β] [LawfulBEq β] (key : α → β) {p : α → Bool} {w : α} {o : Option α}
    (ho : ∀ t, o = some t → key t ≠ key w) : ∀ l : List α, l.find? p = o →
      (p w = false ∨ l.find? (fun y => key y == key w) = some w) →
      (modWhere (fun y => key y == key w) (fun _ => w) l).find? p = o
  | [], h, _ => h
  | a :: l, h, hw => by
    by_cases ha : key a = key w
    · have hpa : p a = false := by
        by_contra hc
        rw [List.find?_cons_of_pos (by simpa using hc)] at h
        exact ho a h.symm ha
      have hpw : p w = false := by
        rcases hw with hw | hw
        · exact hw
        · rw [List.find?_cons_of_pos (by simpa using ha)] at hw
          rw [← Option.some.inj hw, hpa]
      rw [List.find?_cons_of_neg (by simp [hpa])] at h
      simpa [modWhere, ha, hpw] using find_modWhere_first key ho l h (.inl hpw)
    · have hkey : (key a == key w) = false := by simpa using ha
      rw [List.find?_cons_of_neg (by simp [hkey])] at hw
      by_cases hpa : p a = true
      · rw [List.find?_cons_of_pos hpa] at h
        simpa [modWhere, hkey, hpa] using h
      · rw [List.find?_cons_of_neg hpa] at h
        simpa [modWhere, hkey, hpa] using find_modWhere_first key ho l h hw

/-- Storing a wave over itself leaves each other wave at its location, and keeps a location free. -/
theorem waveAt_putWave_same {s : State} {w : Wave} (hw : s.wave? w.uid = some w) {loc : BitVec 14} {o : Option Wave}
    (h : s.waveAt loc = o) (ho : ∀ t, o = some t → t.uid ≠ w.uid) : (s.putWave w).waveAt loc = o :=
  find_modWhere_first (fun y : Wave => y.uid) ho s.waves h (.inr hw)

/-- Two changes of wave `w`, the first of waves only, are one change of it. -/
theorem only_of_waves {s u t : State} {w : Wave} (hu : u = { s with waves := u.waves })
    (hw : ∀ x, x ≠ w.uid → u.wave? x = s.wave? x) (h : Only u t w) : Only s t w := by
  have hcore : ∀ k, u.coreOf k = s.coreOf k := fun k => by rw [hu]; rfl
  refine ⟨?_, fun x hx => ?_, fun x hx => (h.others x hx).trans (hw x hx), fun a ha => ?_, fun k hk => ?_, ?_⟩
  · rw [h.rest, hu]
  · rw [h.marks x hx, hu]
  · rw [h.bytes a ha, hu]
  · rw [h.far k hk, hcore]
  · rw [h.near, hcore]

/-! ## A write into M wakes waves and leaves them where they are (R59) -/

theorem addWake_woken (w : Wave) (why slot : Nat) : (w.addWake why slot).woken w := by
  unfold Wave.addWake
  split <;> rfl

theorem wakeSlots_woken (w : Wave) (hit : MonSlot → Bool) : (w.wakeSlots hit).woken w := by
  refine List.foldlRecOn (motive := fun v : Wave => v.woken w) (List.finRange 4) _ rfl fun v hv k _ => ?_
  split
  · split
    · have := addWake_woken v 1 k.val
      unfold Wave.woken at this hv ⊢
      rw [this, hv]
    · exact hv
  · exact hv

theorem wakeMem_woken (s : State) (n : NodeId) (as : List Nat) :
    ∃ f : Wave → Wave, (∀ w, (f w).woken w) ∧ s.wakeMem n as = { s with waves := s.waves.map f } := by
  refine ⟨_, ?_, rfl⟩
  exact fun w => wakeSlots_woken w _

/-- Bytes enter M where their lines stand under no other key: beside M only tags and poison marks change, and waves wake. -/
theorem writeM_wakes {s : State} {l : List (Nat × Byte)} {k : BitVec 8} (h : ∀ x ∈ l, s.keyDiffers k (x.1 / 128) = false)
    (i : Nat) : ∃ tags ps seen, ∃ f : Wave → Wave, (∀ w, (f w).woken w) ∧ s.writeM l (some k) i =
      { s with mem := s.mem.writeAll l, mod := { s.mod with keyTags := tags }, poison := ps, poisonSeen := seen,
               waves := s.waves.map f } := by
  obtain ⟨tags, e1⟩ := foldl_tagLine_own (k := k) ((l.map (fun x => x.1 / 128)).dedup) s (fun n hn => by
    obtain ⟨x, hx, rfl⟩ := List.mem_map.mp (List.mem_dedup.mp hn)
    exact h x hx)
  obtain ⟨ps, seen, e2⟩ := foldl_cleanse i l { s with mod := { s.mod with keyTags := tags }, mem := s.mem.writeAll l }
  obtain ⟨f, hf, e3⟩ := wakeMem_woken
    { s with mem := s.mem.writeAll l, mod := { s.mod with keyTags := tags }, poison := ps, poisonSeen := seen } .root
    (l.map (fun x => x.1))
  refine ⟨tags, ps, seen, f, hf, ?_⟩
  simp only [State.writeM, e1, e2]
  exact e3

/-- A release of an engine into M, of bytes that stand there. -/
theorem storeM_inM {s : State} {key : BitVec 8} {a : Nat} {l : List Byte} (h : InM s key a l.length) (path : List NodeId) :
    ∃ cs tags ps seen, ∃ f : Wave → Wave, (∀ w, (f w).woken w) ∧ s.storeM path key a l =
      { s with nextUid := s.nextUid + 1, caches := cs, mem := s.mem.writeAll (bytesAt a l),
               mod := { s.mod with keyTags := tags }, poison := ps, poisonSeen := seen, waves := s.waves.map f } := by
  have inM : ∀ x ∈ bytesAt a l, s.reachable x.1 = true ∧ deviceWindow x.1 = false ∧ s.keyDiffers key (x.1 / 128) = false := by
    intro x hx
    obtain ⟨h1, h2⟩ := bytesAt_mem a l x hx
    have := h (x.1 - a) (by omega)
    rwa [Nat.add_sub_cancel' h1] at this
  have hall : (bytesAt a l).filter (fun x => s.reachable x.1 && !deviceWindow x.1) = bytesAt a l :=
    List.filter_eq_self.mpr fun x hx => by simp [(inM x hx).1, (inM x hx).2.1]
  obtain ⟨tags, ps, seen, f, hf, e⟩ := writeM_wakes (s := s.fresh.2.dropBelow path 5 ((bytesAt a l).map (fun x => x.1)))
    (fun x hx => (inM x hx).2.2) s.nextUid
  refine ⟨(s.fresh.2.dropBelow path 5 ((bytesAt a l).map (fun x => x.1))).caches, tags, ps, seen, f, hf, ?_⟩
  unfold State.storeM
  rw [hall]
  exact e

/-- A wave that has woken stands where it stood, in its space. -/
theorem target_woken {s u : State} {f : Wave → Wave} (hf : ∀ w, (f w).woken w) (hw : u.waves = s.waves.map f)
    (hc : u.cohorts = s.cohorts) (hg : u.grids = s.grids) {asid : Nat} {loc : BitVec 14} {t : Wave} (h : Target s asid loc t) :
    Target u asid loc (f t) := by
  have hcohort : ∀ w, u.cohortOf (f w) = s.cohortOf w := fun w => by
    rw [State.cohortOf, State.cohort?, hc, hf w]; rfl
  have huid : ∀ w, (f w).uid = w.uid := fun w => by rw [hf w]
  refine ⟨?_, ?_, ?_, ?_⟩
  · have hp : ((fun w => u.resident w && w.loc == loc) ∘ f) = fun w => s.resident w && w.loc == loc := by
      funext w
      have hl : (f w).loc = w.loc := by rw [hf w]; rfl
      have he : (f w).exited = w.exited := by rw [hf w]
      simp only [Function.comp, State.resident, hcohort, hl, he]
    rw [State.waveAt, hw, List.find?_map, hp, show s.waves.find? _ = some t from h.here, Option.map_some]
  · have hp : ((fun w : Wave => w.uid == (f t).uid) ∘ f) = fun w => w.uid == t.uid := by
      funext w
      simp only [Function.comp, huid]
    rw [State.wave?, hw, List.find?_map, hp, show s.waves.find? _ = some t from h.known, Option.map_some]
  · rw [← h.space]
    simp only [State.asidOf, State.gridOf, hcohort, State.grid?, hg]
  · rw [hf t]; exact h.live

end Sys2Proof.Machine
end

section
/-! PROOF. SWR of int.send, INT_SEND and FAULT_POST (O42). -/

namespace Sys2Proof.Machine

/-! ## Interrupts that waves send (R316) -/

/-- A body that changes the state beside its wave goes on with the wave as the change leaves it. -/
theorem onState_found {s : State} {v v' : Wave} {f : State → State} (h : (f (s.putWave v)).wave? v.uid = some v') :
    onState s v f = .ok (f (s.putWave v)) v' true := by
  simp only [onState, h]

/-- What SWR of int.send asks of the issue logic. -/
def intSendReq (h : Head) (r : SReg) : Req := { h := h, opc := 0x383, len := 8, rs := [r] }

/-- Its body: an interrupt to the location in the wave's space. -/
def intSendBody (r : SReg) : Body := fun s w v => onState s v (fun s => s.sendInt (s.asidOf w) ((w.sget r).setWidth 14))

theorem exec_swrIntSend {h : Head} {s : State} {w : Wave} (hw : Ready h s w) (hp : w.priv = true) (r : SReg) :
    exec (.swr h 0x170 r) s = issue (intSendReq h r) (intSendBody r) s := by
  have hd : (s.wave? s.cur).any (fun w => decide (w.view 0x170 = .ro ∨ w.view 0x170 = .hidden)) = false := by
    simp [hw.current, Wave.view, hp, privView]
  show execSwr h 0x170 r s = _
  have hwf : (Instr.swr h 0x170 r).wf = true := rfl
  have hn : (0x170 : BitVec 12).toNat = 0x170 := rfl
  simp only [execSwr, hwf, Bool.not_true, Bool.false_eq_true, if_false, hn, hd]
  rfl

/-- The machine in which an interrupt that wave `w` sends has arrived. -/
def State.intSent (s : State) (w : Wave) (r : SReg) : State := (s.putWave w).sendInt (s.asidOf w) ((w.sget r).setWidth 14)

/-- A SWR of int.send leaves the other waves as the interrupt leaves them. -/
theorem swrIntSend_runs {h : Head} {s u : State} {w : Wave} {r : SReg} (hw : Ready h s w) (hp : w.priv = true)
    (hself : (s.intSent w r).wave? w.uid = some w) (hu : s.intSent w r = { u with waves := (s.intSent w r).waves })
    (hothers : ∀ x, x ≠ w.uid → (s.intSent w r).wave? x = u.wave? x) :
    RunsIn (.swr h 0x170 r) s u w { w with pc := w.pc + 8 } := by
  obtain ⟨ws, es⟩ : ∃ ws, s.intSent w r = { s with waves := ws } := by
    obtain ⟨ws, e⟩ := sendInt_frame (s.putWave w) (s.asidOf w) ((w.sget r).setWidth 14)
    exact ⟨ws, e⟩
  have hb : intSendBody r s w ((w.freeV (intSendReq h r).fv).freeQ (intSendReq h r).fq) = .ok (s.intSent w r) w true :=
    onState_found (f := fun s => s.sendInt (s.asidOf w) ((w.sget r).setWidth 14)) hself
  have hf : (intSendReq h r).Fits s w :=
    fits_scalar _ s w rfl rfl rfl rfl ⟨rfl, rfl, rfl, rfl, rfl, rfl, rfl, rfl, rfl, rfl, rfl⟩
  obtain ⟨t, w', e1, e2, e3, e4⟩ := issue_ok (r := intSendReq h r) hw hf hb (by rw [es]; exact hw.clean) rfl rfl rfl
    (Option.isSome_of_eq_some hself)
  rw [ended_nowrite (intSendReq h r) w w _ rfl hw.begins rfl rfl rfl] at e3
  exact ⟨t, w', (exec_swrIntSend hw hp r).trans e1, e2, e3, only_of_waves hu hothers e4⟩

theorem intSendSets : IntSendSets := by
  refine ⟨fun s w t h r hw hp hne ht => ?_, fun s w h r hw hp hnone => ?_, fun s asid loc t a ha ht => ?_⟩
  · have hcur : s.wave? w.uid = some w := by rw [wave_uid hw.current, hw.current]
    have hput : (s.putWave w).wave? w.uid = some w := wave_putWave_self s w (Option.isSome_of_eq_some hcur)
    have hother : ∀ x, x ≠ w.uid → (s.putWave w).wave? x = s.wave? x := wave_putWave_other s w
    have ht' : Target (s.putWave w) (s.asidOf w) ((w.sget r).setWidth 14) t :=
      ⟨waveAt_putWave_same hcur ht.here (by rintro _ ⟨⟩; exact hne), (hother _ hne).trans ht.known, ht.space, ht.live⟩
    have es : s.intSent w r = (s.putWave w).putWave { t with intp := true } := sendInt_target ht'
    refine swrIntSend_runs hw hp ?_ (by rw [es]; rfl) fun x hx => ?_
    · rw [es, wave_putWave_other _ { t with intp := true } _ (Ne.symm hne), hput]
    · rw [es]
      by_cases hxt : x = t.uid
      · subst hxt
        rw [wave_putWave_self _ { t with intp := true } (Option.isSome_of_eq_some ht'.known),
          wave_putWave_self _ { t with intp := true } (Option.isSome_of_eq_some ht.known)]
      · rw [wave_putWave_other _ { t with intp := true } x hxt, wave_putWave_other _ { t with intp := true } x hxt, hother x hx]
  · have hcur : s.wave? w.uid = some w := by rw [wave_uid hw.current, hw.current]
    have es : s.intSent w r = s.putWave w := sendInt_nobody (waveAt_putWave_same hcur hnone (by rintro _ ⟨⟩)) _
    exact swrIntSend_runs hw hp (by rw [es]; exact wave_putWave_self s w (Option.isSome_of_eq_some hcur)) (by rw [es]; rfl)
      fun x hx => by rw [es]; exact wave_putWave_other s w x hx
  · show execIntSend asid loc s = _
    simp only [execIntSend, ha, sendInt_target ht]

/-! ## Faults posted (R27, R320) -/

theorem faultBytes_eq (f : FaultRec) (rid : Nat) : faultBytes f rid = recordBytes f rid := by
  simp only [faultBytes, recordBytes, nameBytes, List.append_assoc]

theorem recordBytes_length (f : FaultRec) (rid : Nat) : (recordBytes f rid).length = 32 := rfl

/-- The machine with a record's RID given and counted (R320). -/
def State.ridGiven (s : State) (f : FaultRec) (a : Space) : State :=
  { s.putSpace { a with posted := (a.posted + 1) % 2 ^ 32 } with
    faults := modWhere (fun x => x.id == f.id) (fun x => { x with rid := some (BitVec.ofNat 32 (a.posted + 1)) }) s.faults }

/-- The machine with the host signalled where FLT.VEC is enabled (R320, R362). -/
def State.hostSignalled (s : State) (a : Space) : State :=
  if a.fltVec.getLsbD 63 then { s with mod := { s.mod with msix := s.mod.msix ++ [field a.fltVec 0 11] } } else s

/-- The machine with the service wave signalled where flt.svc is valid (R316, R320). -/
def State.serviceSignalled (s : State) (f : FaultRec) (a : Space) : State :=
  if a.fltSvc.getLsbD 63 then s.sendInt f.asid (a.fltSvc.setWidth 14) else s

theorem exec_faultPost {s : State} {f : FaultRec} {a : Space} (hf : s.faults.find? (fun x => x.id == f.id) = some f)
    (hr : f.rid = none) (ha : s.space? f.asid = some a) (hlog : 4 ≤ a.fltCfg.toNat % 16)
    (hroom : (s.faults.filter (fun x => x.asid == f.asid && x.rid.isSome)).length < 2 ^ (a.fltCfg.toNat % 16)) :
    let base := (a.fltCfg &&& 0xFFFFFFFFFFFFF000).toNat
    let ofs := 32 * (a.posted % 2 ^ (a.fltCfg.toNat % 16))
    exec (.faultPost f.id) s = .next (((((s.storeM [.root] (areaKey a.ringKeys base ofs) (areaPa a.ringPa base ofs)
      (recordBytes f (a.posted + 1))).ridGiven f a).hostSignalled a).serviceSignalled f a)) := by
  have hl : field a.fltCfg 0 4 = a.fltCfg.toNat % 16 := by simp [field]
  have hm : (~~~0xFFF : Word) = 0xFFFFFFFFFFFFF000 := by decide
  have hgo : ¬(f.rid.isSome = true ∨ a.fltCfg.toNat % 16 = 0 ∨ 2 ^ (a.fltCfg.toNat % 16) ≤ s.unresolved f.asid) := by
    rw [hr, State.unresolved]
    simp only [Option.isSome_none, Bool.false_eq_true, false_or]
    omega
  show execFaultPost f.id s = _
  unfold execFaultPost
  rw [hf]
  dsimp only
  rw [ha]
  dsimp only
  rw [hl, if_neg hgo, faultBytes_eq, hm]
  generalize s.storeM _ _ _ _ = t
  rfl

theorem serviceSignalled_frame (s : State) (f : FaultRec) (a : Space) :
    ∃ ws, s.serviceSignalled f a = { s with waves := ws } := by
  unfold State.serviceSignalled
  split
  · exact sendInt_frame s f.asid _
  · exact ⟨_, rfl⟩

theorem hostSignalled_eq (s : State) (a : Space) : s.hostSignalled a = { s with mod := { s.mod with
    msix := if a.fltVec.getLsbD 63 then s.mod.msix ++ [a.fltVec.toNat % 2 ^ 11] else s.mod.msix } } := by
  have hv : field a.fltVec 0 11 = a.fltVec.toNat % 2 ^ 11 := by simp [field]
  unfold State.hostSignalled
  split
  · rw [hv]
  · rfl

/-- What a posted record's end leaves beside its bytes in M: the record's RID, the count of records, and signals. -/
theorem signalled_eq (s : State) (f : FaultRec) (a : Space) : ∃ ws, ((s.ridGiven f a).hostSignalled a).serviceSignalled f a =
    { s with
      spaces := (s.putSpace { a with posted := (a.posted + 1) % 2 ^ 32 }).spaces
      faults := modWhere (fun x => x.id == f.id) (fun x => { x with rid := some (BitVec.ofNat 32 (a.posted + 1)) }) s.faults
      mod := { s.mod with msix := if a.fltVec.getLsbD 63 then s.mod.msix ++ [a.fltVec.toNat % 2 ^ 11] else s.mod.msix }
      waves := ws } := by
  obtain ⟨ws, e⟩ := serviceSignalled_frame ((s.ridGiven f a).hostSignalled a) f a
  rw [hostSignalled_eq] at e ⊢
  exact ⟨ws, e⟩

/-- The service wave has its interrupt (R316, R320). -/
theorem signalled_service {s : State} {f : FaultRec} {a : Space} {t : Wave} (hv : a.fltSvc.getLsbD 63 = true)
    (ht : Target s f.asid (a.fltSvc.setWidth 14) t) :
    (((s.ridGiven f a).hostSignalled a).serviceSignalled f a).wave? t.uid = some { t with intp := true } := by
  have ht' : Target ((s.ridGiven f a).hostSignalled a) f.asid (a.fltSvc.setWidth 14) t := by
    rw [hostSignalled_eq]
    exact ⟨ht.here, ht.known, ht.space, ht.live⟩
  rw [State.serviceSignalled, if_pos hv, sendInt_target ht']
  exact wave_putWave_self _ { t with intp := true } (Option.isSome_of_eq_some ht'.known)

theorem faultsPost : FaultsPost := by
  intro s f a hf hr ha hlog hroom base ofs hin
  obtain ⟨cs, tags, ps, seen, fw, hfw, e1⟩ :=
    storeM_inM (l := recordBytes f (a.posted + 1)) (by rw [recordBytes_length]; exact hin) [.root]
  refine ⟨_, exec_faultPost hf hr ha hlog hroom, ?_⟩
  generalize s.storeM _ _ _ _ = t at e1
  obtain ⟨ws, e2⟩ := signalled_eq t f a
  refine ⟨?_, ?_, ?_, ?_, fun w hsvc hw => ⟨{ fw w with intp := true }, ?_, rfl⟩⟩
  · rw [e2, e1]
  · rw [e2, e1]
    refine (find_modWhere_key FaultRec.id (f := fun x => { x with rid := some (BitVec.ofNat 32 (a.posted + 1)) })
      (fun _ => rfl) _ f.id s.faults).trans ?_
    rw [hf]
    simp
  · rw [e2, e1, ← space_asid ha]
    exact space_putSpace_self s { a with posted := (a.posted + 1) % 2 ^ 32 } (by rw [space_asid ha, ha]; rfl)
  · rw [e2, e1]
  · have hw' : Target t f.asid (a.fltSvc.setWidth 14) (fw w) :=
      target_woken hfw (by rw [e1]) (by rw [e1]) (by rw [e1]) hw
    rw [← signalled_service hsvc hw', show (fw w).uid = w.uid by rw [hfw w]]

/-- Settles O42: an interrupt reaches the wave that stands at its location, and a posted fault stands in the ring and signals. -/
theorem interrupts : Obligations.Interrupts := ⟨intSendSets, faultsPost⟩

end Sys2Proof.Machine
end

section
/-! SUPPORT. Waves that are stored one after another under identities of their own, and the waves of a cohort among them. -/

namespace Sys2Proof.Machine

/-! ## Waves stored one after another -/

/-- The machine with each of some waves stored. -/
def State.putWaves (s : State) (vs : List Wave) : State := vs.foldl State.putWave s

@[simp] theorem putWaves_nil (s : State) : s.putWaves [] = s := rfl

theorem putWaves_append (s : State) (vs : List Wave) (v : Wave) : s.putWaves (vs ++ [v]) = (s.putWaves vs).putWave v := by
  simp [State.putWaves, List.foldl_append]

theorem putWaves_frame (s : State) (vs : List Wave) : s.putWaves vs = { s with waves := (s.putWaves vs).waves } := by
  induction vs generalizing s with
  | nil => rfl
  | cons v vs ih => exact ih (s.putWave v)

theorem putWaves_waves_congr {s t : State} (h : s.waves = t.waves) (vs : List Wave) :
    (s.putWaves vs).waves = (t.putWaves vs).waves := by
  induction vs generalizing s t with
  | nil => exact h
  | cons v vs ih => exact ih (s := s.putWave v) (t := t.putWave v) (by simp only [State.putWave, h])

/-- A fold whose steps store a wave each stores them all. -/
theorem foldl_waves {step : State → Wave → State} {f : Wave → Wave} : ∀ (l : List Wave) (s : State),
    (∀ w ∈ l, ∀ s, (step s w).waves = (s.putWave (f w)).waves) → (l.foldl step s).waves = (s.putWaves (l.map f)).waves
  | [], _, _ => rfl
  | w :: l, s, h => by
    have ih := foldl_waves l (step s w) fun v hv => h v (List.mem_cons_of_mem _ hv)
    exact ih.trans (putWaves_waves_congr (h w List.mem_cons_self s) (l.map f))

theorem liveWaves_congr {s t : State} (h : s.waves = t.waves) (u : Nat) : s.liveWaves u = t.liveWaves u := by
  simp only [State.liveWaves, h]

theorem find_of_nodup_keys {α β : Type} [BEq β] [LawfulBEq β] (key : α → β) {x : α} : ∀ {l : List α}, (l.map key).Nodup → x ∈ l →
    l.find? (fun y => key y == key x) = some x
  | a :: l, hn, hx => by
    obtain ⟨ha, hn'⟩ := List.nodup_cons.mp hn
    rcases List.mem_cons.mp hx with rfl | hx'
    · simp
    · have hne : key a ≠ key x := fun e => ha (e ▸ List.mem_map_of_mem hx')
      rw [List.find?_cons_of_neg (by simpa using hne)]
      exact find_of_nodup_keys key hn' hx'

/-- A wave after some waves have been stored: the one stored under its identity, or as it was. -/
def restored (vs : List Wave) (w : Wave) : Wave := (vs.find? (fun v => v.uid == w.uid)).getD w

theorem restored_uid (vs : List Wave) (w : Wave) : (restored vs w).uid = w.uid := by
  unfold restored
  cases h : vs.find? (fun v => v.uid == w.uid) with
  | none => rfl
  | some v => simpa using List.find?_some h

theorem restored_of_mem {vs : List Wave} {w v : Wave} (hn : (vs.map (fun x => x.uid)).Nodup) (hv : v ∈ vs) (hu : v.uid = w.uid) :
    restored vs w = v := by
  rw [restored, ← hu, find_of_nodup_keys (fun x : Wave => x.uid) hn hv, Option.getD_some]

theorem restored_other {vs : List Wave} {w : Wave} (h : w.uid ∉ vs.map (fun x => x.uid)) : restored vs w = w := by
  have : vs.find? (fun v => v.uid == w.uid) = none := by
    rw [List.find?_eq_none]
    intro v hv e
    exact h (eq_of_beq e ▸ List.mem_map_of_mem (f := fun x : Wave => x.uid) hv)
  rw [restored, this, Option.getD_none]

theorem putWaves_waves : ∀ (vs : List Wave) (s : State), (vs.map (fun v => v.uid)).Nodup →
    (s.putWaves vs).waves = s.waves.map (restored vs)
  | [], s, _ => by
    refine ((List.map_congr_left fun w _ => ?_).trans (List.map_id _)).symm
    rfl
  | v :: vs, s, hn => by
    obtain ⟨hv, hn'⟩ := List.nodup_cons.mp hn
    have ih := putWaves_waves vs (s.putWave v) hn'
    refine ih.trans ?_
    simp only [State.putWave, modWhere, List.map_map]
    refine List.map_congr_left fun w _ => ?_
    by_cases hw : v.uid = w.uid
    · simp only [Function.comp, hw, beq_self_eq_true, if_true]
      rw [restored_of_mem (vs := v :: vs) hn List.mem_cons_self hw, restored_other hv]
    · simp [Function.comp, Ne.symm hw, hw, restored]

theorem putWaves_uids (vs : List Wave) (s : State) (hn : (vs.map (fun v => v.uid)).Nodup) :
    (s.putWaves vs).waves.map (fun w => w.uid) = s.waves.map (fun w => w.uid) := by
  rw [putWaves_waves vs s hn, List.map_map]
  exact List.map_congr_left fun w _ => restored_uid vs w

/-! ## The waves of a cohort -/

/-- The live waves of a cohort have identities of their own. -/
structure OwnUids (s : State) (u : Nat) : Prop where
  nodup : ((s.liveWaves u).map (fun w => w.uid)).Nodup
  own : ∀ w ∈ s.waves, w.uid ∈ (s.liveWaves u).map (fun w => w.uid) → w ∈ s.liveWaves u

theorem ownUids_of_nodup {s : State} (h : (s.waves.map (fun w => w.uid)).Nodup) (u : Nat) : OwnUids s u := by
  have hsub : (s.liveWaves u).Sublist s.waves := List.filter_sublist
  refine ⟨h.sublist (hsub.map _), fun w hw hu => ?_⟩
  obtain ⟨v, hv, e⟩ := List.mem_map.mp hu
  rwa [← List.inj_on_of_nodup_map h (hsub.subset hv) hw e]

theorem mem_liveWaves {s : State} {u : Nat} {w : Wave} : w ∈ s.liveWaves u ↔ w ∈ s.waves ∧ w.cohort = u ∧ w.exited = false := by
  simp [State.liveWaves]

/-- Waves stored over a cohort's live waves are its live waves. -/
theorem liveWaves_putWaves {s : State} {u : Nat} {vs : List Wave} (h : OwnUids s u)
    (hu : vs.map (fun v => v.uid) = (s.liveWaves u).map (fun w => w.uid)) (hv : ∀ v ∈ vs, v.cohort = u ∧ v.exited = false) :
    (s.putWaves vs).liveWaves u = vs := by
  have hn : (vs.map (fun v => v.uid)).Nodup := hu ▸ h.nodup
  have hlive : ∀ w ∈ s.waves, ((restored vs w).cohort == u && !(restored vs w).exited) = (w.cohort == u && !w.exited) := by
    intro w hw
    by_cases hm : w.uid ∈ vs.map (fun v => v.uid)
    · obtain ⟨v, hvm, e⟩ := List.mem_map.mp hm
      obtain ⟨-, hwc, hwe⟩ := mem_liveWaves.mp (h.own w hw (hu ▸ hm))
      obtain ⟨hvc, hve⟩ := hv v hvm
      simp [restored_of_mem hn hvm e, hvc, hve, hwc, hwe]
    · rw [restored_other hm]
  have e1 : (s.putWaves vs).liveWaves u = (s.liveWaves u).map (restored vs) := by
    simp only [State.liveWaves, putWaves_waves vs s hn, List.filter_map]
    congr 1
    exact List.filter_congr hlive
  rw [e1]
  have hlen : (s.liveWaves u).length = vs.length := by simpa using (congrArg List.length hu).symm
  refine List.ext_getElem (by simpa using hlen) fun i h1 h2 => ?_
  rw [List.getElem_map]
  refine restored_of_mem hn (List.getElem_mem h2) ?_
  have := congrArg (fun l => l[i]?) hu
  simpa [h2, hlen ▸ h2] using this

/-- A wave of another identity stays. -/
theorem mem_putWaves_other {s : State} {vs : List Wave} {w : Wave} (hn : (vs.map (fun v => v.uid)).Nodup) (hw : w ∈ s.waves)
    (h : w.uid ∉ vs.map (fun v => v.uid)) : w ∈ (s.putWaves vs).waves := by
  rw [putWaves_waves vs s hn]
  exact List.mem_map.mpr ⟨w, hw, restored_other h⟩

/-- With identities all distinct, a wave that is there is found by its identity. -/
theorem wave_of_mem {s : State} {w : Wave} (h : (s.waves.map (fun w => w.uid)).Nodup) (hw : w ∈ s.waves) :
    s.wave? w.uid = some w := find_of_nodup_keys (fun x : Wave => x.uid) h hw

end Sys2Proof.Machine
end

section
/-! SUPPORT. Cohorts on cores: granules (R16), and what lifting, re-timing and seating a cohort's waves leave (R13, R204, R209,
R274, R275). -/

namespace Sys2Proof.Machine

/-! ## Granules (R16) -/

theorem room_congr {k k' : CoreSt} (h : k.granules = k'.granules) : k.room = k'.room := by
  have hr : k.reserves = k'.reserves := by funext b; simp only [CoreSt.reserves, h]
  simp only [CoreSt.room, hr, h]

/-- The granules of every core stand. -/
def State.storesKept (s t : State) : Prop := ∀ k, (t.coreOf k).granules = (s.coreOf k).granules

theorem storesKept_of_cores {s t : State} (h : t.cores = s.cores) : s.storesKept t := fun k => by simp only [State.coreOf, h]

theorem State.storesKept.trans {s t u : State} (h : s.storesKept t) (g : t.storesKept u) : s.storesKept u :=
  fun k => (g k).trans (h k)

theorem reserve_frame (s : State) (c : Cohort) (k : CoreId) : ∃ cs, s.reserve c k = { s with cores := cs } := putCore_frame s _

theorem reserve_coreOf (s : State) (c : Cohort) (k : CoreId) : (s.reserve c k).coreOf k = { s.coreOf k with
    granules := (s.coreOf k).granules ++
      ((s.coreOf k).room.take (reservation c (s.budgetOf c))).map (fun x => ⟨x.1, x.2, c.uid⟩) } := by
  have h := coreOf_putCore_self s { s.coreOf k with
    granules := (s.coreOf k).granules ++
      ((s.coreOf k).room.take (reservation c (s.budgetOf c))).map (fun x => ⟨x.1, x.2, c.uid⟩) }
  rwa [show (s.coreOf k).id = k from coreOf_id s k] at h

theorem reserve_coreOf_other (s : State) (c : Cohort) {k j : CoreId} (h : j ≠ k) : (s.reserve c k).coreOf j = s.coreOf j :=
  coreOf_putCore_other s _ j (by rw [show _ = k from coreOf_id s k]; exact h)

/-- A reservation for which there is room adds its granules to the cohort's. -/
theorem reserve_count {s : State} {c : Cohort} {k : CoreId} (h : reservation c (s.budgetOf c) ≤ (s.coreOf k).room.length) :
    (((s.reserve c k).coreOf k).granules.filter (fun y => y.cohort == c.uid)).length =
      ((s.coreOf k).granules.filter (fun y => y.cohort == c.uid)).length + reservation c (s.budgetOf c) := by
  have hall : (((s.coreOf k).room.take (reservation c (s.budgetOf c))).map (fun x => Granule.mk x.1 x.2 c.uid)).filter
      (fun y => y.cohort == c.uid) = _ := List.filter_eq_self.mpr fun y hy => by
    obtain ⟨x, -, rfl⟩ := List.mem_map.mp hy
    simp
  rw [reserve_coreOf, List.filter_append, List.length_append, hall, List.length_map, List.length_take, Nat.min_eq_left h]

theorem seatFits_room {s : State} {c : Cohort} {x : Seat} (h : s.seatFits c x = true) :
    reservation c (s.budgetOf c) ≤ (s.coreOf x.core).room.length := by
  unfold State.seatFits State.fits at h
  simp only [Bool.and_eq_true, decide_eq_true_eq] at h
  obtain ⟨⟨⟨⟨-, hroom⟩, -⟩, -⟩, -⟩ := h
  exact hroom

theorem release_coreOf (s : State) (c : Cohort) : (s.release c).coreOf c.core = { s.coreOf c.core with
    granules := (s.coreOf c.core).granules.filter (fun g => g.cohort != c.uid) } := by
  have h := coreOf_putCore_self s { s.coreOf c.core with
    granules := (s.coreOf c.core).granules.filter (fun g => g.cohort != c.uid) }
  rwa [show (s.coreOf c.core).id = c.core from coreOf_id s c.core] at h

theorem release_coreOf_other (s : State) {c : Cohort} {k : CoreId} (h : k ≠ c.core) : (s.release c).coreOf k = s.coreOf k :=
  coreOf_putCore_other s _ k (by rw [show _ = c.core from coreOf_id s c.core]; exact h)

theorem unlatch_storesKept (s : State) (w : Wave) (l : List VNum) : s.storesKept (s.unlatch w l) := by
  obtain ⟨-, hfar, hnear⟩ := unlatch_only s w l
  intro k
  by_cases hk : k = w.core
  · rw [hk, hnear]
  · rw [hfar k hk]

theorem putDie_frame (s : State) (k : DieSt) : ∃ ds, s.putDie k = { s with dies := ds } := by
  unfold State.putDie
  split <;> exact ⟨_, rfl⟩

/-! ## Commits and refills (R130, R141) -/

/-- A fold whose steps draw free values draws free values. -/
theorem foldl_drawn {α β : Type} {f : State × α → β → State × α} (h : ∀ x i, ∃ n, (f x i).1 = { x.1 with drawn := n })
    (l : List β) (x : State × α) : ∃ n, (l.foldl f x).1 = { x.1 with drawn := n } := by
  refine List.foldlRecOn (motive := fun y : State × α => ∃ n, y.1 = { x.1 with drawn := n }) l _ ⟨_, rfl⟩ fun y ⟨n, hy⟩ i _ => ?_
  obtain ⟨m, e⟩ := h y i
  exact ⟨m, by rw [e, hy]⟩

theorem refillOne_frame (s : State) (w : Wave) (r : VNum) :
    ∃ ps n, (refillOne s w r).1 = { s with poison := ps, drawn := n } := by
  unfold refillOne
  dsimp only
  split
  · exact ⟨_, _, rfl⟩
  · generalize hF : List.foldl _ _ (List.range 128) = F
    obtain ⟨n, e⟩ : ∃ n, F.1 = { s with drawn := n } := by
      rw [← hF]
      exact foldl_drawn (fun x i => by dsimp only; split <;> exact ⟨_, rfl⟩) (List.range 128) (s, [])
    rw [e]
    exact ⟨_, _, rfl⟩

theorem refill_frame (l : List VNum) (s : State) (w : Wave) : ∃ ps n, (refill s w l).1 = { s with poison := ps, drawn := n } := by
  refine List.foldlRecOn (motive := fun x : State × Wave => ∃ ps n, x.1 = { s with poison := ps, drawn := n }) l _ ⟨_, _, rfl⟩
    fun x ⟨ps, n, hx⟩ r _ => ?_
  obtain ⟨ps', n', e⟩ := refillOne_frame x.1 x.2 r
  exact ⟨ps', n', by rw [e, hx]⟩

theorem foldl_cleanWords_frame (w : Wave) (l : List Def) (s : State) : ∃ ps,
    l.foldl (fun s d => s.cleanWords w (d.mask &&& ~~~d.lost) d.regs d.qregs) s = { s with poison := ps } :=
  List.foldlRecOn (motive := fun t : State => ∃ ps, t = { s with poison := ps }) l _ ⟨_, rfl⟩ fun t ⟨ps, ht⟩ d _ => by
    subst ht
    exact ⟨_, rfl⟩

/-- A commit changes latches, spill copies and poison beside its wave (R130, R141, R288). -/
theorem commitNow_frame (s : State) (w : Wave) : ∃ m ps n cs, (s.commitNow w).1 =
    { s with mem := m, poison := ps, drawn := n, cores := cs } := by
  unfold State.commitNow
  split
  · exact ⟨_, _, _, _, rfl⟩
  · unfold State.commitAll
    dsimp only
    obtain ⟨cs, e1⟩ := unlatch_frame s w (w.defs.flatMap Def.regs)
    obtain ⟨ps, e2⟩ := foldl_cleanWords_frame w w.defs (s.unlatch w (w.defs.flatMap Def.regs))
    rw [e2, e1]
    generalize hr : refill { s with cores := cs, poison := ps } w (w.defs.flatMap Def.partialRegs) = r
    obtain ⟨ps', n, e3⟩ := refill_frame (w.defs.flatMap Def.partialRegs) { s with cores := cs, poison := ps } w
    rw [hr] at e3
    obtain ⟨m, _, ps'', e4, -⟩ := spillFit_spec 256 r.1 (Wave.touch { r.2.commitFaults with
      spilled := r.2.commitFaults.spilled.filter (fun r => !(w.defs.flatMap Def.regs).contains r) } (w.defs.flatMap Def.regs))
    rw [e4, e3]
    exact ⟨m, ps'', n, cs, rfl⟩

/-! ## Waves that leave their core (R204, R274) -/

/-- A wave with nothing pending and no register spilled leaves its core as it stands, its lines disarmed. -/
theorem liftWave_rested {w : Wave} (hd : w.defs = []) (hs : w.spilled = []) (s : State) :
    s.liftWave w = (s.unlatchWave w).putWave w.disarmSwitched := by
  simp only [State.liftWave, commitNow_nil s w hd, hs]
  rfl

theorem disarmSwitched_wakes (w : Wave) : ⟨3, 0⟩ ∈ w.disarmSwitched.wakes := by
  show _ ∈ (w.disarm.addWake 3 0).wakes
  unfold Wave.addWake
  split
  · next h => exact List.contains_iff_mem.mp h
  · simp

/-- A wave that has left its core keeps all but its lines and wakes. -/
theorem disarmSwitched_eq (w : Wave) : w.disarmSwitched = { w with
    mons := Vector.replicate 4 none, wakes := w.disarmSwitched.wakes, wakeLevel := w.disarmSwitched.wakeLevel } := by
  unfold Wave.disarmSwitched Wave.addWake
  split <;> rfl

theorem foldl_liftWave_rested {l : List Wave} (h : ∀ w ∈ l, w.defs = [] ∧ w.spilled = []) (s : State) :
    (∃ ws cs, l.foldl State.liftWave s = { s with waves := ws, cores := cs }) ∧ s.storesKept (l.foldl State.liftWave s) ∧
      (l.foldl State.liftWave s).waves = (s.putWaves (l.map Wave.disarmSwitched)).waves := by
  refine ⟨?_, ?_, foldl_waves l s fun w hw s => ?_⟩
  · refine List.foldlRecOn (motive := fun t : State => ∃ ws cs, t = { s with waves := ws, cores := cs }) l _ ⟨_, _, rfl⟩ ?_
    rintro t ⟨ws, cs, rfl⟩ w hw
    obtain ⟨cs', e⟩ := unlatch_frame { s with waves := ws, cores := cs } w (List.finRange 256)
    rw [liftWave_rested (h w hw).1 (h w hw).2, State.unlatchWave, e]
    exact ⟨_, _, rfl⟩
  · refine List.foldlRecOn (motive := fun t : State => s.storesKept t) l _ (fun _ => rfl) fun t ht w hw => ?_
    rw [liftWave_rested (h w hw).1 (h w hw).2]
    exact ht.trans ((unlatch_storesKept t w _).trans fun _ => rfl)
  · obtain ⟨cs, e⟩ := unlatch_frame s w (List.finRange 256)
    rw [liftWave_rested (h w hw).1 (h w hw).2, State.unlatchWave, e]
    rfl

/-! ## Waves on the return of their cohort (R209) -/

theorem foldl_retimeWave (new old : Nat) : ∀ (l : List Wave) (s : State),
    l.foldl (fun s w => s.putWave (s.retimeWave w new old)) s = s.putWaves (l.map (fun w => s.retimeWave w new old))
  | [], _ => rfl
  | w :: l, s => by
    have hsame : (fun v => (s.putWave (s.retimeWave w new old)).retimeWave v new old) = fun v => s.retimeWave v new old := rfl
    have ih := foldl_retimeWave new old l (s.putWave (s.retimeWave w new old))
    rw [hsame] at ih
    exact ih

theorem retimeCohort_eq (s : State) (c : Cohort) (new old : Nat) : s.retimeCohort c new old =
    (s.putWaves ((s.liveWaves c.uid).map (fun w => s.retimeWave w new old))).putCohort (c.retime new old) := by
  simp only [State.retimeCohort, foldl_retimeWave]

/-! ## A fused L1 (R17) -/

theorem beginFused_frame (s : State) (g : Grid) (k : CoreId) : ∃ cs, s.beginFused g k = { s with caches := cs } := by
  unfold State.beginFused
  split <;> exact ⟨_, rfl⟩

/-! ## Waves that take their seats (R13) -/

/-- The seat of the cohort's wave number `i`. -/
def seated (s : State) (x : Seat) (area : Wave → Option Nat) (i : Nat) (w : Wave) : Wave :=
  w.seat x.core (x.slots.getD i 0) ((s.coreOf x.core).portPtr + Fin.ofNat 4 i) (area w)

/-- The one step of seating: the wave spills until it fits its budget (R130). -/
def seatStep (s0 : State) (ws : List Wave) (x : Seat) (area : Wave → Option Nat) (s : State) (i : Nat) : State :=
  match ws[i]? with
  | none => s
  | some w => (spillFit 256 s (seated s0 x area i w)).1.putWave (spillFit 256 s (seated s0 x area i w)).2

theorem seatWaves_eq (s : State) (c : Cohort) (x : Seat) (area : Wave → Option Nat) : s.seatWaves c x area =
    ((List.range (s.liveWaves c.uid).length).foldl (seatStep s (s.liveWaves c.uid) x area) s).putCore
      { s.coreOf x.core with portPtr := (s.coreOf x.core).portPtr + Fin.ofNat 4 (s.liveWaves c.uid).length } := by
  unfold State.seatWaves
  dsimp only
  congr 2

theorem foldl_seatStep (s : State) (ws : List Wave) (x : Seat) (area : Wave → Option Nat) : ∀ k ≤ ws.length, ∃ vs m ps,
    (List.range k).foldl (seatStep s ws x area) s = { s.putWaves vs with mem := m, poison := ps } ∧ vs.length = k ∧
      ∀ (i : Nat) (w v : Wave), ws[i]? = some w → vs[i]? = some v → ∃ sp, v = { seated s x area i w with spilled := sp }
  | 0, _ => ⟨[], s.mem, s.poison, rfl, rfl, by simp⟩
  | k + 1, hk => by
    obtain ⟨vs, m, ps, e, rfl, hvs⟩ := foldl_seatStep s ws x area k (by omega)
    have hget : ws[vs.length]? = some ws[vs.length] := List.getElem?_eq_getElem hk
    obtain ⟨m', sp, ps', es, -⟩ := spillFit_spec 256 { s.putWaves vs with mem := m, poison := ps }
      (seated s x area vs.length ws[vs.length])
    refine ⟨vs ++ [{ seated s x area vs.length ws[vs.length] with spilled := sp }], m', ps', ?_, by simp, fun i w v hw hv => ?_⟩
    · rw [List.range_succ, List.foldl_append, e, List.foldl_cons, List.foldl_nil, seatStep, hget]
      dsimp only
      rw [es, putWaves_append]
      rfl
    · rcases Nat.lt_or_ge i vs.length with hi | hi
      · exact hvs i w v hw (by rwa [List.getElem?_append_left hi] at hv)
      · obtain rfl : i = vs.length := by
          have := (List.getElem?_eq_some_iff.mp hv).1
          rw [List.length_append, List.length_singleton] at this
          omega
        rw [List.getElem?_concat_length] at hv
        rw [hget] at hw
        exact ⟨sp, by rw [← Option.some.inj hv, ← Option.some.inj hw]⟩

/-- Waves `vs` are `ws` on the slots and ports of a seat, each with the registers it spilled to fit its budget (R13, R130). -/
structure SeatedAs (s : State) (x : Seat) (area : Wave → Option Nat) (ws vs : List Wave) : Prop where
  length : vs.length = ws.length
  get : ∀ (i : Nat) (w : Wave), ws[i]? = some w → ∃ sp, vs[i]? = some { seated s x area i w with spilled := sp }

theorem SeatedAs.back {s : State} {x : Seat} {area : Wave → Option Nat} {ws vs : List Wave} (h : SeatedAs s x area ws vs)
    {i : Nat} {v : Wave} (hv : vs[i]? = some v) : ∃ w sp, ws[i]? = some w ∧ v = { seated s x area i w with spilled := sp } := by
  obtain ⟨hi, -⟩ := List.getElem?_eq_some_iff.mp hv
  rw [h.length] at hi
  obtain ⟨sp, e⟩ := h.get i _ (List.getElem?_eq_getElem hi)
  exact ⟨_, sp, List.getElem?_eq_getElem hi, Option.some.inj (hv.symm.trans e)⟩

theorem SeatedAs.uids {s : State} {x : Seat} {area : Wave → Option Nat} {ws vs : List Wave} (h : SeatedAs s x area ws vs) :
    vs.map (fun v => v.uid) = ws.map (fun w => w.uid) := by
  refine List.ext_getElem? fun i => ?_
  rw [List.getElem?_map, List.getElem?_map]
  cases hw : ws[i]? with
  | none => rw [List.getElem?_eq_none (by rw [h.length]; exact List.getElem?_eq_none_iff.mp hw)]
  | some w =>
    obtain ⟨sp, e⟩ := h.get i w hw
    rw [e]
    rfl

theorem SeatedAs.live {s : State} {x : Seat} {area : Wave → Option Nat} {ws vs : List Wave} (h : SeatedAs s x area ws vs)
    {u : Nat} (hw : ∀ w ∈ ws, w.cohort = u ∧ w.exited = false) : ∀ v ∈ vs, v.cohort = u ∧ v.exited = false := by
  intro v hv
  obtain ⟨i, e⟩ := List.mem_iff_getElem?.mp hv
  obtain ⟨w, sp, ew, rfl⟩ := h.back e
  exact hw w (List.mem_iff_getElem?.mpr ⟨i, ew⟩)

theorem liveWaves_live {s : State} {u : Nat} : ∀ w ∈ s.liveWaves u, w.cohort = u ∧ w.exited = false :=
  fun _ hw => (mem_liveWaves.mp hw).2

/-- A cohort's live waves take their seats, and the granules of every core stand. -/
theorem seatWaves_spec (s : State) (c : Cohort) (x : Seat) (area : Wave → Option Nat) : ∃ vs m ps cs,
    s.seatWaves c x area = { s.putWaves vs with mem := m, poison := ps, cores := cs } ∧ s.storesKept { s with cores := cs } ∧
      SeatedAs s x area (s.liveWaves c.uid) vs := by
  obtain ⟨vs, m, ps, e, hl, hvs⟩ := foldl_seatStep s (s.liveWaves c.uid) x area _ le_rfl
  rw [seatWaves_eq, e]
  set p := (s.coreOf x.core).portPtr + Fin.ofNat 4 (s.liveWaves c.uid).length
  obtain ⟨cs, ec⟩ := putCore_frame { s.putWaves vs with mem := m, poison := ps } { s.coreOf x.core with portPtr := p }
  have hcores : (s.putWaves vs).cores = s.cores := by rw [putWaves_frame]
  have hco : ∀ k, State.coreOf { s.putWaves vs with mem := m, poison := ps } k = s.coreOf k := fun k => by
    simp only [State.coreOf, hcores]
  refine ⟨vs, m, ps, cs, ec, fun k => ?_, hl, fun i w hw => ?_⟩
  · have hk : State.coreOf { s with cores := cs } k =
        (State.putCore { s.putWaves vs with mem := m, poison := ps } { s.coreOf x.core with portPtr := p }).coreOf k := by
      rw [ec]
      rfl
    rw [hk]
    by_cases hx : k = x.core
    · have h := coreOf_putCore_self { s.putWaves vs with mem := m, poison := ps } { s.coreOf x.core with portPtr := p }
      rw [show CoreSt.id _ = x.core from coreOf_id s x.core] at h
      rw [hx, h]
    · rw [coreOf_putCore_other _ _ _ (by rw [show CoreSt.id _ = x.core from coreOf_id s x.core]; exact hx), hco]
  · obtain ⟨hi, -⟩ := List.getElem?_eq_some_iff.mp hw
    rw [← hl] at hi
    obtain ⟨sp, e⟩ := hvs i w _ hw (List.getElem?_eq_getElem hi)
    exact ⟨sp, by rw [List.getElem?_eq_getElem hi, e]⟩

end Sys2Proof.Machine
end

section
/-! PROOF. A cohort moves to another core of its die (R13, R16, R35, R204, R274). -/

namespace Sys2Proof.Machine

/-! ## A cohort at rest -/

theorem AtRest.still {s : State} {c : Cohort} (h : AtRest s c) (level : Nat) : s.still c level = true := by
  have hw : ∀ w ∈ s.waves, w.cohort = c.uid → (s.sideOf w.uid).isEmpty = true ∧
      s.accs.any (fun a => a.agent == .wave w.uid) = false ∧
      s.wb.any (fun e => e.agent == .wave w.uid && decide (nodeLevel e.node < level)) = false := by
    intro w hw hc
    refine ⟨?_, ?_, ?_⟩
    · rw [State.sideOf, List.isEmpty_iff, List.filter_eq_nil_iff]
      exact fun e he hu => h.side e he w hw hc (eq_of_beq hu)
    · rw [List.any_eq_false]
      exact fun a ha hu => h.accs a ha w hw hc (eq_of_beq hu)
    · rw [List.any_eq_false]
      intro e he hu
      exact h.wb e he w hw hc (eq_of_beq (Bool.and_eq_true_iff.mp hu).1)
  have hq : ∀ w ∈ s.liveWaves c.uid, s.quiet w = true := by
    intro w hl
    obtain ⟨hw', hc, -⟩ := mem_liveWaves.mp hl
    obtain ⟨hd, hsb, hn, -⟩ := h.waves w hw' hc
    have ha : s.accs.any (fun a => a.agent == .wave w.uid && a.gen) = false := by
      rw [List.any_eq_false]
      intro a ha hu
      exact h.accs a ha w hw' hc (eq_of_beq (Bool.and_eq_true_iff.mp hu).1)
    simp [State.quiet, Wave.quiescent, Wave.returned, hd, hsb, hn, ha]
  have hall : (s.waves.filter (fun w => w.cohort == c.uid)).all (fun w => (s.sideOf w.uid).isEmpty &&
      !s.accs.any (fun a => a.agent == .wave w.uid) &&
      !s.wb.any (fun e => e.agent == .wave w.uid && decide (nodeLevel e.node < level))) = true := by
    rw [List.all_eq_true]
    intro w hm
    obtain ⟨hm, hc⟩ := List.mem_filter.mp hm
    obtain ⟨h1, h2, h3⟩ := hw w hm (eq_of_beq hc)
    simp only [h1, h2, h3, Bool.not_false, Bool.and_self]
  unfold State.still
  dsimp only
  rw [hall, List.all_eq_true.mpr hq, h.packets]
  cases s.grid? c.grid <;> rfl

/-! ## The cohort on its way -/

/-- The cohort's waves have left their core, and its granules are reserved on the seat's. -/
def State.lifted (s : State) (c : Cohort) (x : Seat) : State :=
  ((s.liveWaves c.uid).foldl State.liftWave (s.release c)).reserve c x.core

/-- The cohort stands on the seat's core, before its waves take their slots. -/
def State.moved (s : State) (c : Cohort) (x : Seat) : State :=
  let t := (s.lifted c x).retimeCohort c ((s.lifted c x).clkOf x.core) ((s.lifted c x).clkOf c.core)
  { t with cohorts := modWhere (fun y => y.uid == c.uid) (fun y => { y with core := x.core, lastMove := some t.clk }) t.cohorts }

/-- A fused L1 begins at the cluster of the cohort's grid (R17). -/
def State.fusedFor (s : State) (c : Cohort) (k : CoreId) : State :=
  match s.grid? c.grid with
  | some g => s.beginFused g k
  | none => s

theorem fusedFor_frame (s : State) (c : Cohort) (k : CoreId) : ∃ cs, s.fusedFor c k = { s with caches := cs } := by
  unfold State.fusedFor
  split
  · exact beginFused_frame s _ k
  · exact ⟨_, rfl⟩

theorem exec_migration {s : State} {c : Cohort} {e : Ensemble} {x : Seat} (hc : s.cohort? c.uid = some c)
    (he : s.ens? c.ens = some e) (hone : e.cohorts = [c.uid]) (hp : c.place = .resident) (hm : c.lastMove = none)
    (hk : x.core ≠ c.core) (hd : x.core.die = c.core.die) (hr : AtRest s c) (hf : s.seatFits c x = true)
    (hw : ∀ w ∈ s.liveWaves c.uid, (w.park = .none ∨ w.parkedFor false = true) ∧ ∀ k : Fin 4, w.arrE[k.val] ≠ e.bars[k.val].gen) :
    exec (.migration c.uid x) s = .next ((((s.moved c x).fusedFor c x.core).seatWaves c x (fun w => w.spillPa)).acquire x.core
      (if x.core.clu = c.core.clu then 2 else 3)) := by
  unfold exec execMigration
  simp only [hc, he, hone, hp, hm, hd, hk, hr.still, hf, beq_self_eq_true, Bool.not_true, ne_eq, not_true_eq_false,
    Bool.false_eq_true, false_or]
  split
  · next h =>
    obtain ⟨w, hl, h⟩ := List.any_eq_true.mp h
    obtain ⟨hw', hco, -⟩ := mem_liveWaves.mp hl
    obtain ⟨hdefs, -, -, hin, hh, -⟩ := hr.waves w hw' hco
    have hens : s.ensOf w = some e := by simp only [State.ensOf, State.cohortOf, hco, hc, he]
    obtain ⟨hpark, harr⟩ := hw w hl
    have hpark' : (w.parkedFor false || (w.park == .none && w.defs.isEmpty)) = true := by
      rcases hpark with h | h <;> simp [h, hdefs]
    simp [hens, hin, hh, hpark', harr] at h
  · rfl

/-! ## Granules on the core it left and on the one it comes to (R16) -/

theorem AtRest.lifts {s : State} {c : Cohort} (h : AtRest s c) : ∀ w ∈ s.liveWaves c.uid, w.defs = [] ∧ w.spilled = [] := by
  intro w hl
  obtain ⟨hw, hc, -⟩ := mem_liveWaves.mp hl
  obtain ⟨hd, -, -, -, -, hs⟩ := h.waves w hw hc
  exact ⟨hd, hs⟩

theorem lifted_frame {s : State} {c : Cohort} (h : AtRest s c) (x : Seat) : ∃ cs, s.lifted c x =
    { s.putWaves ((s.liveWaves c.uid).map Wave.disarmSwitched) with cores := cs } := by
  obtain ⟨⟨ws, cs, e⟩, -, hw⟩ := foldl_liftWave_rested h.lifts (s.release c)
  obtain ⟨cs1, e1⟩ := release_frame s c
  obtain ⟨cs2, e2⟩ := reserve_frame ((s.liveWaves c.uid).foldl State.liftWave (s.release c)) c x.core
  have hw' : ws = (s.putWaves ((s.liveWaves c.uid).map Wave.disarmSwitched)).waves := by
    rw [e] at hw
    exact hw.trans (putWaves_waves_congr (by rw [e1]) _)
  refine ⟨cs2, ?_⟩
  rw [State.lifted, e2, e, e1, hw', putWaves_frame s]

theorem lifted_granules {s : State} {c : Cohort} {x : Seat} (h : AtRest s c) (hk : x.core ≠ c.core) (hf : s.seatFits c x = true) :
    (((s.lifted c x).coreOf x.core).granules.filter (fun y => y.cohort == c.uid)).length =
        ((s.coreOf x.core).granules.filter (fun y => y.cohort == c.uid)).length + reservation c (s.budgetOf c) ∧
      ∀ y ∈ ((s.lifted c x).coreOf c.core).granules, y.cohort ≠ c.uid := by
  obtain ⟨⟨ws, cs, e⟩, hst, -⟩ := foldl_liftWave_rested h.lifts (s.release c)
  obtain ⟨cs1, e1⟩ := release_frame s c
  have hb : State.budgetOf ((s.liveWaves c.uid).foldl State.liftWave (s.release c)) c = s.budgetOf c := by rw [e, e1]; rfl
  unfold State.lifted
  generalize (s.liveWaves c.uid).foldl State.liftWave (s.release c) = t at hst hb ⊢
  have hx : (t.coreOf x.core).granules = (s.coreOf x.core).granules := by rw [hst, release_coreOf_other s hk]
  constructor
  · have hroom := seatFits_room hf
    rw [← room_congr hx, ← hb] at hroom
    rw [reserve_count hroom, hx, hb]
  · rw [reserve_coreOf_other t c (Ne.symm hk), hst, release_coreOf]
    intro y hy
    simpa using (List.mem_filter.mp hy).2

/-! ## Its waves on the way -/

theorem disarmSwitched_spec (w : Wave) : ∃ wk lv, w.disarmSwitched =
    { w with mons := Vector.replicate 4 none, wakes := wk, wakeLevel := lv } ∧ ⟨3, 0⟩ ∈ wk :=
  ⟨_, _, disarmSwitched_eq w, disarmSwitched_wakes w⟩

/-- A wave between its cores: lines disarmed, and the counts of the old core carried over to the new (R209, R274). -/
def State.travelled (s : State) (c : Cohort) (x : Seat) (w : Wave) : Wave :=
  (s.lifted c x).retimeWave w.disarmSwitched ((s.lifted c x).clkOf x.core) ((s.lifted c x).clkOf c.core)

theorem disarmSwitched_live {s : State} {u : Nat} : ∀ w ∈ (s.liveWaves u).map Wave.disarmSwitched, w.cohort = u ∧
    w.exited = false := by
  intro v hv
  obtain ⟨w, hw, rfl⟩ := List.mem_map.mp hv
  rw [disarmSwitched_eq w]
  exact liveWaves_live w hw

theorem disarmSwitched_uid (w : Wave) : w.disarmSwitched.uid = w.uid := by rw [disarmSwitched_eq w]

theorem map_disarmSwitched_uids (l : List Wave) : (l.map Wave.disarmSwitched).map (fun w => w.uid) = l.map (fun w => w.uid) := by
  rw [List.map_map]
  exact List.map_congr_left fun w _ => disarmSwitched_uid w

theorem lifted_waves {s : State} {c : Cohort} (h : AtRest s c) (hn : (s.waves.map (fun w => w.uid)).Nodup) (x : Seat) :
    (s.lifted c x).liveWaves c.uid = (s.liveWaves c.uid).map Wave.disarmSwitched ∧
      ((s.lifted c x).waves.map (fun w => w.uid)).Nodup := by
  have hown := ownUids_of_nodup hn c.uid
  have hu := map_disarmSwitched_uids (s.liveWaves c.uid)
  obtain ⟨cs, e⟩ := lifted_frame h x
  rw [e]
  refine ⟨liveWaves_putWaves hown hu disarmSwitched_live, ?_⟩
  exact (putWaves_uids _ s (hu ▸ hown.nodup)).symm ▸ hn

theorem moved_waves {s : State} {c : Cohort} (h : AtRest s c) (hn : (s.waves.map (fun w => w.uid)).Nodup) (x : Seat) :
    (s.moved c x).liveWaves c.uid = (s.liveWaves c.uid).map (s.travelled c x) ∧
      ((s.moved c x).waves.map (fun w => w.uid)).Nodup := by
  obtain ⟨hl, hn'⟩ := lifted_waves h hn x
  have hown := ownUids_of_nodup hn' c.uid
  have hmap : ((s.lifted c x).liveWaves c.uid).map (fun w => (s.lifted c x).retimeWave w ((s.lifted c x).clkOf x.core)
      ((s.lifted c x).clkOf c.core)) = (s.liveWaves c.uid).map (s.travelled c x) := by
    rw [hl, List.map_map]
    rfl
  have hu : ((s.liveWaves c.uid).map (s.travelled c x)).map (fun w => w.uid) =
      ((s.lifted c x).liveWaves c.uid).map (fun w => w.uid) := by
    rw [hl, List.map_map, List.map_map]
    rfl
  have hlive : ∀ v ∈ (s.liveWaves c.uid).map (s.travelled c x), v.cohort = c.uid ∧ v.exited = false := by
    intro v hv
    obtain ⟨w, hw, rfl⟩ := List.mem_map.mp hv
    exact disarmSwitched_live w.disarmSwitched (List.mem_map_of_mem hw)
  have hw : (s.moved c x).waves = ((s.lifted c x).putWaves ((s.liveWaves c.uid).map (s.travelled c x))).waves := by
    unfold State.moved
    rw [retimeCohort_eq, hmap]
    rfl
  rw [liveWaves_congr hw, hw]
  exact ⟨liveWaves_putWaves hown hu hlive, (putWaves_uids _ _ (hu ▸ hown.nodup)).symm ▸ hn'⟩

theorem moved_storesKept (s : State) (c : Cohort) (x : Seat) : (s.lifted c x).storesKept (s.moved c x) := by
  refine storesKept_of_cores ?_
  unfold State.moved
  rw [retimeCohort_eq, putWaves_frame]
  rfl

theorem moved_cohort {s : State} {c : Cohort} (h : AtRest s c) (hc : s.cohort? c.uid = some c) (x : Seat) : ∃ c',
    (s.moved c x).cohort? c.uid = some c' ∧ c'.core = x.core ∧ c'.place = c.place ∧ c'.lastMove = some s.clk ∧ c'.spad = c.spad ∧
      c'.bars = c.bars := by
  obtain ⟨cs, e⟩ := lifted_frame h x
  have hco : (s.lifted c x).cohorts = s.cohorts := by rw [e, putWaves_frame]
  have hclk : (s.lifted c x).clk = s.clk := by rw [e, putWaves_frame]
  unfold State.moved
  generalize s.lifted c x = t at hco hclk ⊢
  rw [retimeCohort_eq]
  generalize (t.liveWaves c.uid).map _ = vs
  have hput : ((t.putWaves vs).putCohort (c.retime (t.clkOf x.core) (t.clkOf c.core))).cohort? c.uid =
      some (c.retime (t.clkOf x.core) (t.clkOf c.core)) := by
    refine cohort_putCohort_self (t.putWaves vs) (c.retime (t.clkOf x.core) (t.clkOf c.core)) ?_
    rw [putWaves_frame, State.cohort?, hco]
    exact Option.isSome_of_eq_some hc
  have hclk' : ((t.putWaves vs).putCohort (c.retime (t.clkOf x.core) (t.clkOf c.core))).clk = s.clk := by
    rw [putWaves_frame]
    exact hclk
  generalize (t.putWaves vs).putCohort _ = t' at hput hclk' ⊢
  rw [← hclk']
  refine ⟨{ c.retime (t.clkOf x.core) (t.clkOf c.core) with core := x.core, lastMove := some t'.clk }, ?_, rfl, rfl, rfl,
    rfl, rfl⟩
  rw [State.cohort?] at hput ⊢
  rw [find_modWhere_key (f := fun y => { y with core := x.core, lastMove := some t'.clk }) Cohort.uid (fun _ => rfl), hput]
  exact congrArg some (if_pos (by simp [Cohort.retime]))

/-- A cohort's live wave number `i` on its seat. -/
theorem seatWaves_wave {s : State} {c : Cohort} {i : Nat} {w : Wave} (hn : (s.waves.map (fun w => w.uid)).Nodup)
    (hi : (s.liveWaves c.uid)[i]? = some w) (x : Seat) (area : Wave → Option Nat) :
    ∃ sp, (s.seatWaves c x area).wave? w.uid = some { seated s x area i w with spilled := sp } := by
  obtain ⟨vs, m, ps, cs, e, -, hvs⟩ := seatWaves_spec s c x area
  obtain ⟨sp, hv⟩ := hvs.get i w hi
  have hown := ownUids_of_nodup hn c.uid
  have hl := liveWaves_putWaves hown hvs.uids (hvs.live liveWaves_live)
  have hmem : { seated s x area i w with spilled := sp } ∈ (s.putWaves vs).liveWaves c.uid :=
    by rw [hl]; exact List.mem_iff_getElem?.mpr ⟨i, hv⟩
  have hn' : ((s.putWaves vs).waves.map (fun w => w.uid)).Nodup := by
    rw [putWaves_uids vs s (hvs.uids ▸ hown.nodup)]
    exact hn
  refine ⟨sp, ?_⟩
  rw [e]
  exact wave_of_mem hn' (mem_liveWaves.mp hmem).1

/-- What a wave keeps between its cores (R204, R274). -/
theorem travelled_spec (s : State) (c : Cohort) (x : Seat) (w : Wave) : ∃ wk lv back at' order, s.travelled c x w =
    { w with mons := Vector.replicate 4 none, wakes := wk, wakeLevel := lv, backAt := back, barwAt := at', parkOrder := order } ∧
      ⟨3, 0⟩ ∈ wk := by
  obtain ⟨wk, lv, e, hwk⟩ := disarmSwitched_spec w
  unfold State.travelled
  rw [e]
  exact ⟨wk, lv, _, _, _, rfl, hwk⟩

theorem cohortsMigrate : CohortsMigrate := by
  intro s c e x hc he hone hp hm hk hd hr hf hn hw
  obtain ⟨c', hc', hcore, hplace, hlast, hspad, hbars⟩ := moved_cohort hr hc x
  obtain ⟨hlive, hnd⟩ := moved_waves hr hn x
  obtain ⟨hnew, hold⟩ := lifted_granules hr hk hf
  have hst := moved_storesKept s c x
  rw [exec_migration hc he hone hp hm hk hd hr hf hw]
  generalize s.moved c x = t at hc' hlive hnd hst ⊢
  obtain ⟨cs, ef⟩ := fusedFor_frame t c x.core
  rw [ef]
  obtain ⟨vs, m, ps, ks, es, hst', -⟩ := seatWaves_spec { t with caches := cs } c x (fun w => w.spillPa)
  have hwave := fun i w hi => seatWaves_wave (s := { t with caches := cs }) (c := c) (i := i) (w := w)
    hnd hi x (fun w => w.spillPa)
  have hkept := hst.trans ((storesKept_of_cores rfl : t.storesKept { t with caches := cs }).trans hst')
  refine ⟨_, c', rfl, ?_, hcore, hplace.trans hp, hlast, hspad, hbars, ?_, ?_, ?_⟩
  · rw [es, putWaves_frame]
    exact hc'
  · rw [es, ← hnew, ← hkept]
    rfl
  · rw [es]
    intro y hy
    exact hold y (hkept c.core ▸ hy)
  · intro w hl
    obtain ⟨i, hi⟩ := List.mem_iff_getElem?.mp hl
    obtain ⟨sp, e⟩ := hwave i (s.travelled c x w) (by
      show (t.liveWaves c.uid)[i]? = _
      rw [hlive, List.getElem?_map, hi, Option.map_some])
    obtain ⟨wk, lv, back, at', order, ew, hwk⟩ := travelled_spec s c x w
    rw [ew] at e
    exact ⟨_, e, rfl, rfl, rfl, rfl, rfl, rfl, rfl, rfl, rfl, rfl, rfl, rfl, hwk, rfl⟩

end Sys2Proof.Machine
end

section
/-! PROOF. A cohort's first placement (R13, R16, R127, R131, R261, R273). -/

namespace Sys2Proof.Machine

/-! ## Its spill areas (R131) -/

theorem spillAreas_walked (s : State) (g : Grid) (c : Cohort) (d : Fin 8) : s.walked (s.spillAreas g c d).1 := by
  refine List.foldlRecOn (motive := fun x : State × Option (List (Nat × Nat)) => s.walked x.1) (List.range c.nwaves) _
    (State.walked.refl s) fun x hx i _ => ?_
  have hp := hx.trans (probe_walked x.1 (pathOf (.die d)) g.asid (g.launch.spill + 32768 * (16 * c.cid + i)) .update false)
  dsimp only
  split
  · next h =>
    rw [h] at hp
    exact hp
  · next h _ =>
    rw [h] at hp
    exact hp

/-- The machine once the entry has left its queue and a fused L1 has begun (R17, R273). -/
def State.opened (s : State) (g : Grid) (c : Cohort) (d : Fin 8) (es : List PlaceEntry) (k : CoreId) : State :=
  ((s.spillAreas g c d).1.putDie { s.dieOf d with queue := es }).beginFused g k

theorem opened_spec (s : State) (g : Grid) (c : Cohort) (d : Fin 8) (es : List PlaceEntry) (k : CoreId) : ∃ n cs ds,
    s.opened g c d es k = { s with drawn := n, caches := cs, dies := ds } ∧ ((s.opened g c d es k).dieOf d).queue = es := by
  have hw : (s.spillAreas g c d).1 = _ := spillAreas_walked s g c d
  obtain ⟨ds, ed⟩ := putDie_frame (s.spillAreas g c d).1 { s.dieOf d with queue := es }
  obtain ⟨cs, ec⟩ := beginFused_frame ((s.spillAreas g c d).1.putDie { s.dieOf d with queue := es }) g k
  have hd := dieOf_putDie_self (s.spillAreas g c d).1 { s.dieOf d with queue := es }
  rw [show DieSt.die _ = d from dieOf_die s d] at hd
  refine ⟨_, cs, ds, by rw [State.opened, ec, ed, hw], ?_⟩
  rw [State.opened, ec]
  exact congrArg DieSt.queue hd

theorem exec_cohortPlace {s : State} {d : Fin 8} {c : Cohort} {g : Grid} {es : List PlaceEntry} {x : Seat}
    (hq : (s.dieOf d).queue = ⟨[c.uid]⟩ :: es) (hc : s.cohort? c.uid = some c) (hg : s.grid? c.grid = some g)
    (hsp : g.launch.spill ≠ 0) (ha : (s.spillAreas g c d).2.isSome = true) (hf : s.seatsFit d [c] [x] = true) :
    exec (.cohortPlace d [x]) s = .next ((s.opened g c d es x.core).placeCohort g c x (s.spillAreas g c d).2) := by
  have hn : (s.spillAreas g c d).2.isNone = false := by simpa using ha
  simp only [exec, execCohortPlace, hq, List.filterMap_cons, List.filterMap_nil, hc, hg, hf, State.entryAreas,
    State.poolRoom, hsp, List.foldl_cons, List.foldl_nil, List.nil_append, List.any_cons, List.any_nil, hn, List.zip_cons_cons,
    List.zip_nil_right, Bool.not_true, Bool.or_false, Bool.false_eq_true, if_false]
  rfl

/-! ## Its waves (R127, R261) -/

/-- The waves of a cohort's first placement, numbered from the machine's next identity on. -/
def State.newcomers (s : State) (g : Grid) (c : Cohort) : List Wave :=
  (List.range c.nwaves).map (fun i => newWave g c (s.nextUid + i) i)

theorem newWaves_eq (s : State) (g : Grid) (c : Cohort) : s.newWaves g c =
    { s with waves := s.waves ++ s.newcomers g c, nextUid := s.nextUid + c.nwaves } := by
  unfold State.newWaves State.newcomers
  generalize c.nwaves = n
  induction n with
  | zero => simp
  | succ n ih =>
    rw [List.range_succ, List.foldl_append, ih]
    simp [State.fresh, Nat.add_assoc]

theorem newcomers_uids (s : State) (g : Grid) (c : Cohort) :
    (s.newcomers g c).map (fun w => w.uid) = (List.range c.nwaves).map (s.nextUid + ·) := by
  simp [State.newcomers, newWave]

theorem newWaves_live {s : State} {g : Grid} {c : Cohort} (h : ∀ w ∈ s.waves, w.cohort ≠ c.uid) :
    (s.newWaves g c).liveWaves c.uid = s.newcomers g c := by
  rw [newWaves_eq, State.liveWaves, List.filter_append, List.filter_eq_nil_iff.mpr fun w hw => by simp [h w hw], List.nil_append,
    List.filter_eq_self]
  intro w hw
  obtain ⟨i, -, rfl⟩ := List.mem_map.mp hw
  simp [newWave]

theorem newWaves_own {s : State} {g : Grid} {c : Cohort} (h : ∀ w ∈ s.waves, w.cohort ≠ c.uid ∧ w.uid < s.nextUid) :
    OwnUids (s.newWaves g c) c.uid := by
  have hl := newWaves_live (g := g) fun w hw => (h w hw).1
  constructor
  · rw [hl, newcomers_uids]
    exact List.nodup_range.map fun a b e => Nat.add_left_cancel e
  · intro w hw hu
    rw [hl] at hu ⊢
    rw [newWaves_eq] at hw
    rcases List.mem_append.mp hw with hw | hw
    · rw [newcomers_uids] at hu
      obtain ⟨i, -, e⟩ := List.mem_map.mp hu
      have := (h w hw).2
      omega
    · exact hw

/-! ## On its seat -/

/-- The cohort once it is resident, its waves before they take their slots. -/
def State.entered (s : State) (g : Grid) (c : Cohort) (x : Seat) : State :=
  let t := (s.reserve c x.core).newWaves g c
  t.putCohort { c with core := x.core, place := .resident, started := true, granules := reservation c (t.budgetOf c) }

/-- The frame of a wave's spill area. -/
def spillFrame (areas : Option (List (Nat × Nat))) (w : Wave) : Option Nat :=
  match areas with
  | some l => (l[w.widx]?).map (fun y => y.2)
  | none => none

theorem placeCohort_first {s : State} {c : Cohort} (hc : s.cohort? c.uid = some c) (hs : c.started = false) (g : Grid) (x : Seat)
    (areas : Option (List (Nat × Nat))) : ∃ cs ls, s.placeCohort g c x areas =
      { (s.entered g c x).seatWaves c x (spillFrame areas) with caches := cs, leases := ls } := by
  have hc' : ((s.reserve c x.core).newWaves g c).cohort? c.uid = some c := by
    obtain ⟨cs, e⟩ := reserve_frame s c x.core
    rw [newWaves_eq, e]
    exact hc
  unfold State.placeCohort
  simp only [hs, hc', Bool.false_eq_true, if_false, Bool.and_false, Bool.false_and, List.filter_false, List.foldl_nil]
  exact ⟨_, _, rfl⟩

theorem seatsFit_seatFits {s : State} {d : Fin 8} {c : Cohort} {x : Seat} (h : s.seatsFit d [c] [x] = true) :
    s.seatFits c x = true := by
  unfold State.seatsFit at h
  simpa using (Bool.and_eq_true_iff.mp h).2

/-- A wave that was made with its cohort and has taken its seat stands at the entry (R13, R127, R261). -/
theorem seated_freshWave {s t : State} (g : Grid) (c : Cohort) (x : Seat) (area : Wave → Option Nat) (u i : Nat) (sp : List VNum)
    (hp : (t.coreOf x.core).portPtr = (s.coreOf x.core).portPtr) :
    freshWave s g c x.core x.slots i { seated t x area i (newWave g c u i) with spilled := sp } := by
  refine ⟨rfl, rfl, rfl, rfl, congrArg (· + Fin.ofNat 4 i) hp, rfl, rfl, rfl, rfl, rfl, rfl, rfl, fun r => ?_⟩
  exact Vector.getElem_ofFn _

theorem entered_frame (s : State) (g : Grid) (c : Cohort) (x : Seat) : ∃ cs ks, s.reserve c x.core = { s with cores := cs } ∧
    s.entered g c x = { s with
      cores := cs, cohorts := ks, waves := s.waves ++ s.newcomers g c, nextUid := s.nextUid + c.nwaves } := by
  obtain ⟨cs, e⟩ := reserve_frame s c x.core
  unfold State.entered
  rw [newWaves_eq, e]
  exact ⟨cs, _, rfl, rfl⟩

theorem entered_cohort {s : State} {c : Cohort} (hc : s.cohort? c.uid = some c) (g : Grid) (x : Seat) : ∃ c',
    (s.entered g c x).cohort? c.uid = some c' ∧ c'.place = .resident ∧ c'.core = x.core := by
  have hc' : ((s.reserve c x.core).newWaves g c).cohort? c.uid = some c := by
    obtain ⟨cs, e⟩ := reserve_frame s c x.core
    rw [newWaves_eq, e]
    exact hc
  unfold State.entered
  generalize (s.reserve c x.core).newWaves g c = t at hc' ⊢
  exact ⟨_, cohort_putCohort_self t { c with
    core := x.core, place := .resident, started := true, granules := reservation c (t.budgetOf c) }
      (Option.isSome_of_eq_some hc'), rfl, rfl⟩

/-- A cohort's first placement, on a core with the slots and granules for it. -/
theorem placeCohort_stands {s : State} {c : Cohort} {g : Grid} {x : Seat} (hc : s.cohort? c.uid = some c)
    (hst : c.started = false) (hroom : reservation c (s.budgetOf c) ≤ (s.coreOf x.core).room.length)
    (hw : ∀ w ∈ s.waves, w.cohort ≠ c.uid ∧ w.uid < s.nextUid) (areas : Option (List (Nat × Nat))) :
    ∃ c', (s.placeCohort g c x areas).cohort? c.uid = some c' ∧ c'.place = .resident ∧ c'.core = x.core ∧
      (s.placeCohort g c x areas).dies = s.dies ∧ ((s.placeCohort g c x areas).liveWaves c.uid).length = c.nwaves ∧
      (∀ i < c.nwaves, ∃ w ∈ (s.placeCohort g c x areas).waves, freshWave s g c x.core x.slots i w) ∧
      (((s.placeCohort g c x areas).coreOf x.core).granules.filter (fun y => y.cohort == c.uid)).length =
        ((s.coreOf x.core).granules.filter (fun y => y.cohort == c.uid)).length + reservation c (s.budgetOf c) ∧
      ∀ w ∈ s.waves, w ∈ (s.placeCohort g c x areas).waves := by
  obtain ⟨c', hc', hplace, hcore⟩ := entered_cohort hc g x
  obtain ⟨cs, ls, ep⟩ := placeCohort_first hc hst g x areas
  obtain ⟨ks, cos, er, ee⟩ := entered_frame s g c x
  obtain ⟨vs, m, ps, ks', es, hkept, hvs⟩ := seatWaves_spec (s.entered g c x) c x (spillFrame areas)
  have hco : ∀ k, (s.entered g c x).coreOf k = (s.reserve c x.core).coreOf k := fun k => by rw [ee, er]; rfl
  have hnew : (s.entered g c x).waves = (s.newWaves g c).waves := by rw [ee, newWaves_eq]
  have hlive : (s.entered g c x).liveWaves c.uid = s.newcomers g c :=
    (liveWaves_congr hnew c.uid).trans (newWaves_live fun w hm => (hw w hm).1)
  have hown : OwnUids (s.entered g c x) c.uid := by
    obtain ⟨hn, ho⟩ := newWaves_own (g := g) hw
    rw [← liveWaves_congr hnew] at hn ho
    exact ⟨hn, hnew ▸ ho⟩
  have hseated := liveWaves_putWaves hown hvs.uids (hvs.live liveWaves_live)
  rw [ep, es]
  rw [hlive] at hvs
  have hlen : vs.length = c.nwaves := by rw [hvs.length, State.newcomers, List.length_map, List.length_range]
  refine ⟨c', ?_, hplace, hcore, ?_, ?_, fun i hi => ?_, ?_, fun w hm => ?_⟩
  · rw [putWaves_frame]
    exact hc'
  · rw [putWaves_frame, ee]
  · exact (congrArg List.length hseated).trans hlen
  · have hi' : (s.newcomers g c)[i]? = some (newWave g c (s.nextUid + i) i) := by simp [State.newcomers, hi]
    obtain ⟨sp, e⟩ := hvs.get i _ hi'
    refine ⟨_, (mem_liveWaves.mp (hseated.symm ▸ List.mem_iff_getElem?.mpr ⟨i, e⟩)).1, seated_freshWave g c x _ _ i sp ?_⟩
    rw [hco, reserve_coreOf]
  · rw [← reserve_count hroom, ← hco, ← hkept]
    rfl
  · refine mem_putWaves_other (hvs.uids ▸ hlive ▸ hown.nodup) ?_ ?_
    · rw [ee]
      exact List.mem_append_left _ hm
    · rw [hvs.uids, newcomers_uids]
      intro hu
      obtain ⟨i, -, e⟩ := List.mem_map.mp hu
      have := (hw w hm).2
      omega

theorem cohortsPlace : CohortsPlace := by
  intro s d c g es x hq hc hg hst _ hsp ha hf hw
  have hb : s.budgetOf c = g.launch.regs := by simp only [State.budgetOf, hg]
  have hroom := seatFits_room (seatsFit_seatFits hf)
  rw [exec_cohortPlace hq hc hg hsp ha hf]
  obtain ⟨n, cs, ds, eo, hes⟩ := opened_spec s g c d es x.core
  rw [eo] at hes ⊢
  obtain ⟨c', hc', hplace, hcore, hdies, hlive, hfresh, hgran, hold⟩ :=
    placeCohort_stands (s := { s with drawn := n, caches := cs, dies := ds }) (g := g) hc hst hroom hw (s.spillAreas g c d).2
  refine ⟨_, c', rfl, hc', hplace, hcore, ?_, hlive, hfresh, ?_, hold⟩
  · rw [State.dieOf, hdies]
    exact hes
  · rw [← hb]
    exact hgran

end Sys2Proof.Machine
end

section
/-! PROOF. Cohorts leave their cores (R16, R252, R273, R275). -/

namespace Sys2Proof.Machine

/-! ## What a cohort's leaving changes -/

theorem liftWave_frame (s : State) (w : Wave) : ∃ m ps n ws cs, s.liftWave w =
    { s with mem := m, poison := ps, drawn := n, waves := ws, cores := cs } := by
  unfold State.liftWave
  dsimp only
  obtain ⟨m, ps, n, cs, e1⟩ := commitNow_frame s w
  obtain ⟨ps', n', e2⟩ := refill_frame (s.commitNow w).2.spilled (s.commitNow w).1 (s.commitNow w).2
  generalize refill (s.commitNow w).1 (s.commitNow w).2 (s.commitNow w).2.spilled = r at e2 ⊢
  obtain ⟨cs', e3⟩ := unlatch_frame r.1 r.2 (List.finRange 256)
  rw [State.unlatchWave, e3, e2, e1]
  exact ⟨_, _, _, _, _, rfl⟩

theorem foldl_liftWave_frame (l : List Wave) (s : State) : ∃ m ps n ws cs, l.foldl State.liftWave s =
    { s with mem := m, poison := ps, drawn := n, waves := ws, cores := cs } := by
  refine List.foldlRecOn (motive := fun t : State => ∃ m ps n ws cs, t =
    { s with mem := m, poison := ps, drawn := n, waves := ws, cores := cs }) l _ ⟨_, _, _, _, _, rfl⟩ ?_
  rintro t ⟨m, ps, n, ws, cs, rfl⟩ w -
  obtain ⟨_, _, _, _, _, e⟩ := liftWave_frame { s with mem := m, poison := ps, drawn := n, waves := ws, cores := cs } w
  exact ⟨_, _, _, _, _, e⟩

/-- A cohort that leaves its core changes, beside memory, waves, cores and leases, its own place. -/
theorem liftCohort_frame (s : State) (c : Cohort) (p : CPlace) : ∃ m ps n ws cs ls, s.liftCohort c p =
    { s.putCohort { c with place := p } with mem := m, poison := ps, drawn := n, waves := ws, cores := cs, leases := ls } := by
  obtain ⟨m, ps, n, ws, cs, e⟩ := foldl_liftWave_frame (s.liveWaves c.uid) s
  obtain ⟨cs', e'⟩ := release_frame (((s.liveWaves c.uid).foldl State.liftWave s).dropLeases (.cohort c.uid)) c
  rw [State.liftCohort, e', e]
  exact ⟨m, ps, n, ws, cs', _, rfl⟩

/-! ## FORWARD_PROGRESS_SWAP and RESERVATION_RELEASE -/

theorem swapChoice_core {s : State} {k : CoreId} {c : Cohort} (h : s.swapChoice k = some c) : c.core = k := by
  have hmem : c ∈ s.cohorts.filter (fun c => c.place == .resident && c.core == k && s.swappable c) := by
    refine List.foldlRecOn (motive := fun o : Option Cohort => ∀ x, o = some x →
      x ∈ s.cohorts.filter (fun c => c.place == .resident && c.core == k && s.swappable c)) _ _ (by simp) ?_ c h
    rintro (_ | b) ih a ha x hx
    · exact Option.some.inj hx ▸ ha
    · dsimp only at hx
      split at hx
      · exact Option.some.inj hx ▸ ha
      · exact ih x hx
  obtain ⟨-, h⟩ := List.mem_filter.mp hmem
  simp only [Bool.and_eq_true, beq_iff_eq] at h
  obtain ⟨⟨-, hcore⟩, -⟩ := h
  exact hcore

theorem exec_forwardProgressSwap {s : State} {k : CoreId} {c : Cohort} (hfp : (s.dieOf k.die).fp ≠ 0)
    (hidle : (s.dieOf k.die).fp.toNat ≤ (s.coreOf k).idle) (hq : (s.dieOf k.die).queue ≠ []) (hc : s.swapChoice k = some c)
    (he : s.ensembleOf c = [c]) (hpool : s.poolUsed k.die + s.imageSize c ≤ s.poolSize) (hs : s.still c 3 = true)
    (hf : (s.liftCohort c .away).headFits k = true) : exec (.forwardProgressSwap k) s =
      let t := s.liftCohort c .away
      let t := t.putDie { t.dieOf k.die with queue := (t.dieOf k.die).queue ++ [⟨[c.uid]⟩] }
      .next (t.putCore { t.coreOf c.core with idle := 0 }) := by
  have hpool' : ¬ s.poolSize < s.poolUsed k.die + (0 + s.imageSize c) := by omega
  simp only [exec, execForwardProgressSwap, hfp, Nat.not_lt.mpr hidle, hq, hc, he, List.map_cons, List.map_nil, List.foldl_cons,
    List.foldl_nil, hpool', List.any_cons, List.any_nil, hs, hf, Bool.not_true, Bool.or_false, Bool.false_eq_true,
      or_false, if_false]

theorem forwardProgressSwaps {s : State} {k : CoreId} {c : Cohort} (hfp : (s.dieOf k.die).fp ≠ 0)
    (hidle : (s.dieOf k.die).fp.toNat ≤ (s.coreOf k).idle) (hq : (s.dieOf k.die).queue ≠ []) (hc : s.swapChoice k = some c)
    (he : s.ensembleOf c = [c]) (hu : s.cohort? c.uid = some c) (hpool : s.poolUsed k.die + s.imageSize c ≤ s.poolSize)
    (hs : s.still c 3 = true) (hf : (s.liftCohort c .away).headFits k = true) :
    ∃ (u : State) (c' : Cohort), exec (.forwardProgressSwap k) s = .next u ∧ u.cohort? c.uid = some c' ∧ c'.place = .away ∧
      c'.spad = c.spad ∧ (u.dieOf k.die).queue = (s.dieOf k.die).queue ++ [⟨[c.uid]⟩] ∧ (u.coreOf k).idle = 0 := by
  obtain ⟨m, ps, n, ws, cs, ls, e⟩ := liftCohort_frame s c .away
  have hco : (s.liftCohort c .away).cohort? c.uid = some { c with place := .away } := by
    rw [e]
    exact cohort_putCohort_self s { c with place := .away } (Option.isSome_of_eq_some hu)
  have hd : (s.liftCohort c .away).dieOf k.die = s.dieOf k.die := by rw [e]; rfl
  obtain rfl := swapChoice_core hc
  rw [exec_forwardProgressSwap hfp hidle hq hc he hpool hs hf]
  generalize s.liftCohort c .away = t at hco hd
  dsimp only
  rw [hd]
  refine ⟨_, { c with place := .away }, rfl, ?_, rfl, rfl, ?_, ?_⟩
  · simpa only [State.cohort?, putCore_cohorts, putDie_cohorts] using hco
  · have h := dieOf_putDie_self t { s.dieOf c.core.die with queue := (s.dieOf c.core.die).queue ++ [⟨[c.uid]⟩] }
    rw [show DieSt.die _ = c.core.die from dieOf_die s c.core.die] at h
    simp only [State.dieOf, putCore_dies] at h ⊢
    exact congrArg DieSt.queue h
  · generalize State.putDie _ _ = t'
    have h := coreOf_putCore_self t' { t'.coreOf c.core with idle := 0 }
    rw [show CoreSt.id _ = c.core from coreOf_id t' c.core] at h
    rw [h]

theorem reservationReleases {s : State} {c : Cohort} {g : Grid} (hc : s.cohort? c.uid = some c) (hg : s.grid? c.grid = some g)
    (hp : c.place = .gone) (hk : s.packets = []) (hf : g.finished = false) :
    exec (.reservationRelease c.uid) s = .next (s.release c) := by
  simp [exec, execReservationRelease, hc, hg, hp, hk, hf]

theorem cohortsLeave : CohortsLeave :=
  ⟨fun _ _ _ hfp hidle hq hc he hu hpool hs hf => forwardProgressSwaps hfp hidle hq hc he hu hpool hs hf,
    fun _ _ _ hc hg hp hk hf => reservationReleases hc hg hp hk hf⟩

/-- Settles O41: a cohort's placement, its migration, and its swap and release, each from what its steps leave unchanged. -/
theorem cohortsStand : Obligations.CohortsStand := ⟨cohortsPlace, cohortsMigrate, cohortsLeave⟩

end Sys2Proof.Machine
end

section
/-! PROOF. Decoding the encoding of a well-formed instruction gives it back (O58), and words of the spec (O57). -/

namespace Sys2Proof

/-! ## Fields that several words share -/

/-- An immediate stands in two fields of its word (R72). -/
theorem imm_fields (x : BitVec 24) : x.extractLsb' 6 18 ++ x.extractLsb' 0 6 = x := by
  apply BitVec.eq_of_getLsbD_eq
  intro i hi
  simp only [BitVec.getLsbD_append, BitVec.getLsbD_extractLsb']
  split
  · simp [*]
  · simp [show i - 6 < 18 by omega, show 6 + (i - 6) = i by omega]

theorem toFin_evp (e : Fin 8) : (encEvp e).toFin = e := rfl

theorem decMMod_enc (ofs : BitVec 26) (z : BitVec 4) (o : MMod) :
    decMMod ⟨ofs, z, encEvp o.evp, encScope o.scope, encOrd o.ord⟩ = some o := by
  simp [decMMod, toFin_evp]

theorem decMem_enc (b : SReg) (x : VSrc) (ofs : BitVec 26) : decMem (encSca b) (encSrc x) ofs = some ⟨b, x, ofs⟩ := by
  simp [decMem]

theorem decMem20_enc (b : SReg) (x : VSrc) (ofs : BitVec 20) : decMem20 (encSca b) (encSrc x) ofs = some ⟨b, x, ofs⟩ := by
  simp [decMem20]

theorem decTile_enc (m : TileOp) :
    decTile (encSca m.base) (encSca m.index) (RawMem.ofBits (encTile m)) = some m := by
  simp only [decTile, encTile, ofBits_toBits_mem, decSca_enc]
  simp (disch := omega) only [field_low, field_high, field_all, Nat.reduceSub, decScope_enc, finOf_ofNat, toFin_evp]
  rfl

/-- An operand that must be a vector register decodes to itself (R78); VSQZ's is one. -/
theorem decVec_of_wf {h : Head} {d : VNum} {x : VSrc} (hw : (Instr.vsqz h d x).wf = true) : decVec (encSrc x) = some x := by
  cases x with
  | vec r p l => exact decVec_enc r p l
  | sca s => cases hw

theorem keepIf_true {b : Bool} {i : Instr} (h : b = true) : keepIf b i = some i := by rw [keepIf, if_pos h]

/-! ## A word's instruction -/

/-- The instruction of a word's fields under the head that its head fields stand for. -/
def Raw.instr (r : Raw) (h : Head) : Option Instr :=
  match r with
  | .s r => decodeS r h
  | .v r => decodeV r h
  | .n r => decodeN r h

/-- A word's length and head fields are those of head `h` (R65, R69 to R71). -/
def Raw.Headed (r : Raw) (h : Head) : Prop :=
  match r with
  | .s r => r.len = 0 ∧ decGuard r.gc r.gs r.gb = some h.guard ∧ (r.y == 1) = h.y
  | .v r => r.len = 1 ∧ decGuard r.gc r.gs r.gb = some h.guard ∧ (r.y == 1) = h.y
  | .n r => r.len = 2 ∧ decGuard r.gc r.gs r.gb = some h.guard ∧ (r.y == 1) = h.y

/-- The bytes of a word decode to its instruction, whatever stands behind them. -/
theorem decode_bytes {r : Raw} {h : Head} {i : Instr} (rest : List Byte) (hh : r.Headed h) (hi : r.instr h = some i)
    (hw : i.wf = true) : decode (r.bytes ++ rest) = some (i, rest) := by
  cases r <;> obtain ⟨hl, hg, hy⟩ := hh
  · exact decode_word_s _ h i rest hl hg hy hi hw
  · exact decode_word_v _ h i rest hl hg hy hi hw
  · exact decode_word_n _ h i rest hl hg hy hi hw

/-! ## Words whose fields share bits with a selector or stand in halves -/

theorem instr_ssel (h : Head) (d a b sc : SReg) :
    (mkS h 0x012 ((0 : BitVec 12) ++ sbits sc) (sbits b) (sbits a) (sbits d)).instr h = some (.ssel h d a b sc) := by
  refine (keepIf_true ?_).trans ?_ <;> simp (disch := omega) only [field_low, field_high, field_all] <;> rfl

theorem instr_vmovi (h : Head) (d : VNum) (imm : BitVec 32) :
    (mkV h 0x081 (vbits d) 0 0 0 ((0 : BitVec 6) ++ imm)).instr h = some (.vmovi h d imm) := by
  refine (keepIf_true ?_).trans ?_ <;> simp (disch := omega) only [field_low, field_high, field_all] <;> rfl

theorem instr_srd (h : Head) (d : SReg) (reg : BitVec 12) :
    (mkS h 0x382 ((0 : BitVec 6) ++ reg) 0 0 (sbits d)).instr h = some (.srd h d reg) := by
  refine (keepIf_true ?_).trans ?_ <;> simp (disch := omega) only [field_low, field_high, field_all] <;> rfl

theorem instr_swr (h : Head) (reg : BitVec 12) (a : SReg) :
    (mkS h 0x383 ((0 : BitVec 6) ++ reg) 0 (sbits a)).instr h = some (.swr h reg a) := by
  refine (keepIf_true ?_).trans ?_ <;> simp (disch := omega) only [field_low, field_high, field_all] <;> rfl

theorem instr_brk (h : Head) (code : BitVec 16) :
    (mkI h 0x387 ((0 : BitVec 8) ++ code)).instr h = some (.brk h code) := by
  have e := imm_fields ((0 : BitVec 8) ++ code)
  refine (keepIf_true ?_).trans ?_ <;> rw [e]
  · rw [field_high (0 : BitVec 8) code 16 8 (by omega)]
    rfl
  · rw [field_low (0 : BitVec 8) code 0 16 (by omega), field_all]

theorem instr_dbgmRead (h : Head) (d : SReg) (reg : BitVec 10) :
    (mkS h 0x388 ((0 : BitVec 7) ++ (0 : BitVec 1) ++ reg) 0 0 (sbits d)).instr h = some (.dbgmRead h d reg) := by
  refine (if_neg ?_).trans ((keepIf_true ?_).trans ?_) <;>
    simp (disch := omega) only [field_low, field_high, field_all, Nat.reduceSub]
  · decide
  · rfl
  · rfl

theorem instr_dbgmWrite (h : Head) (d a : SReg) (reg : BitVec 10) :
    (mkS h 0x388 ((0 : BitVec 7) ++ (1 : BitVec 1) ++ reg) 0 (sbits a) (sbits d)).instr h = some (.dbgmWrite h d reg a) := by
  refine (if_pos ?_).trans ((keepIf_true ?_).trans ?_) <;>
    simp (disch := omega) only [field_low, field_high, field_all, Nat.reduceSub] <;> rfl

/-- The bits of SEL under a reading of the counters themselves (R348). -/
theorem perfs_direct : ∀ n : Fin 14, let m : BitVec 18 := (0 : BitVec 13) ++ BitVec.ofNat 5 n.val
    (m.extractLsb' 6 12 == 0) = true ∧ m.extractLsb' 0 6 ≠ 16 ∧ (m.extractLsb' 0 6).extractLsb' 5 1 = 0 ∧
      finOf 14 (m.extractLsb' 0 6) = some n := by decide

/-- The bits of SEL under a reading of the shadow (R348). -/
theorem perfs_shadow : ∀ n : Fin 14, let m : BitVec 18 := (0 : BitVec 12) ++ (1 : BitVec 1) ++ BitVec.ofNat 5 n.val
    (m.extractLsb' 6 12 == 0) = true ∧ m.extractLsb' 0 6 ≠ 16 ∧ (m.extractLsb' 0 6).extractLsb' 5 1 ≠ 0 ∧
      finOf 14 ((m.extractLsb' 0 6).extractLsb' 0 5) = some n := by decide

theorem instr_perfsRead (h : Head) (d : SReg) (sel : Fin 14) :
    (mkS h 0x38B ((0 : BitVec 13) ++ BitVec.ofNat 5 sel.val) 0 0 (sbits d)).instr h = some (.perfsRead h d sel) := by
  obtain ⟨hz, hs, hb, hn⟩ := perfs_direct sel
  refine (if_pos hz).trans ((if_neg hs).trans ((if_pos hb).trans ?_))
  dsimp only
  rw [hn]
  rfl

theorem instr_perfsShadowRead (h : Head) (d : SReg) (sel : Fin 14) :
    (mkS h 0x38B ((0 : BitVec 12) ++ (1 : BitVec 1) ++ BitVec.ofNat 5 sel.val) 0 0 (sbits d)).instr h =
      some (.perfsShadowRead h d sel) := by
  obtain ⟨hz, hs, hb, hn⟩ := perfs_shadow sel
  refine (if_pos hz).trans ((if_neg hs).trans ((if_neg hb).trans ?_))
  dsimp only
  rw [hn]
  rfl

/-- The word of every instruction stands for it. -/
theorem raw_instr {i : Instr} {r : Raw} (hr : i.raw = some r) (hw : i.wf = true) : ∃ h, r.Headed h ∧ r.instr h = some i := by
  cases i
  all_goals cases hr
  all_goals refine ⟨_, ⟨rfl, decGuard_enc _, boolBit_eq _⟩, ?_⟩
  case ssel => exact instr_ssel ..
  case vmovi => exact instr_vmovi ..
  case srd => exact instr_srd ..
  case swr => exact instr_swr ..
  case brk => exact instr_brk ..
  case dbgmRead => exact instr_dbgmRead ..
  case dbgmWrite => exact instr_dbgmWrite ..
  case perfsRead => exact instr_perfsRead ..
  case perfsShadowRead => exact instr_perfsShadowRead ..
  all_goals conv => lhs; whnf
  case cpyxSt | cpyxStop | cpyxSkip | cpyxRetry => simp [decSd_enc, decSrc_enc]
  case vsqz h d x =>
    rw [decVec_of_wf (h := h) (d := d) hw]
    rfl
  case cpyq h _ _ x =>
    rw [decVec_of_wf (h := h) (d := 0) hw]
    simp only [decSd_enc, decSrc_enc]
    rfl
  case qsolvLu h _ _ _ _ =>
    simp only [decQd_enc, decQ_enc]
    rw [decVec_of_wf (h := h) (d := 0) hw]
    rfl
  all_goals
    simp (disch := omega) only [keepIf, imm_fields, encMem, decGrp_enc, decSrc_enc, decSca_enc, decQ_enc, decSd_enc,
      decQd_enc, decOrd_enc, decSzt_enc, decAop_enc, decCc_enc, decFmt_enc, decEop_enc, decScope_enc, toFin_sbits,
      toFin_vbits, decExt_enc, decStr_enc, boolBit_eq, field_low, field_high, field_all, finOf_ofNat, Nat.reduceSub,
      decMem_enc, decMem20_enc, decMMod_enc, decTile_enc, ofBits_toBits_mem, BitVec.toFin_ofFin, toFin_evp] <;> rfl

/-- Settles O58: the fields of each word decode one by one to its instruction (`raw_instr`), and its bytes to the word. -/
theorem decodeEncode : Obligations.DecodeEncode := by
  intro i rest hne hw
  obtain ⟨r, hr⟩ := Option.ne_none_iff_exists'.mp hne
  obtain ⟨h, hh, hi⟩ := raw_instr hr hw
  rw [show encode i = r.bytes by rw [encode, hr]]
  exact decode_bytes rest hh hi hw

/-- Settles O57: nine closed words, decoded by evaluation. -/
theorem wordsDecode : Obligations.WordsDecode := by
  unfold Obligations.WordsDecode
  decide +kernel

end Sys2Proof
end

section
/-! SUPPORT. What every instruction of a wave tells the issue logic (R69 to R71, R84, R87), and traps that enter the handler
(R312). -/

namespace Sys2Proof.Machine

/-! ## Requests -/

/-- The bytes of a word of each length (R65). -/
def rawSize : Raw → Nat
  | .s _ => 8
  | .v _ => 16
  | .n _ => 32

theorem bytes_length (r : Raw) : r.bytes.length = rawSize r := by
  cases r <;> simp [Raw.bytes, rawSize]

/-- A request says of head, opcode and length what the instruction's word says. -/
structure AsksAs (q : Req) (r : Raw) : Prop where
  guard : guardOf r = some q.h.guard
  mark : markOf r = q.h.y
  opc : opcOf r = q.opc
  len : rawSize r = q.len

/-- Whether the view of an SWR's wave keeps the register from it (R87); of no other instruction. -/
def viewDenies (s : State) : Instr → Bool
  | .swr _ reg _ => (s.wave? s.cur).any (fun w => decide (w.view reg.toNat = .ro ∨ w.view reg.toNat = .hidden))
  | _ => false

/-- Every instruction of a wave issues with a request that its word gives, denied by the view alone. -/
theorem exec_asks {i : Instr} {r : Raw} (hr : i.raw = some r) (hw : i.wf = true) (s : State) :
    ∃ q body, exec i s = issue q body s ∧ AsksAs q r ∧ q.denied = viewDenies s i := by
  cases i
  all_goals cases hr
  case srd | swr | dbgmRead | dbgmWrite =>
    exact ⟨_, _, if_neg (by simp [hw]), ⟨decGuard_enc _, boolBit_eq _, rfl, rfl⟩, rfl⟩
  all_goals exact ⟨_, _, rfl, ⟨decGuard_enc _, boolBit_eq _, rfl, rfl⟩, rfl⟩

/-! ## Views (R87, R308, R309) -/

/-- A view keeps SWR from a register exactly where it does not take it. -/
theorem view_denies (w : Wave) {reg : BitVec 12} (hr : sysRegAssigned reg = true) :
    (w.view reg.toNat = .ro ∨ w.view reg.toNat = .hidden) ↔ takesSwr w.priv reg.toNat = false := by
  unfold sysRegAssigned at hr
  simp only [Bool.or_eq_true, Bool.and_eq_true, decide_eq_true_eq, beq_iff_eq] at hr
  generalize reg.toNat = n at hr ⊢
  cases hp : w.priv with
  | false =>
    simp only [Wave.view, hp, userView, takesSwr, Bool.false_eq_true, if_false]
    split_ifs <;> simp <;> omega
  | true =>
    simp only [Wave.view, hp, privView, takesSwr, if_true]
    split_ifs <;> simp <;> omega

theorem viewDenies_swr {s : State} {w : Wave} {h : Head} {reg : BitVec 12} {a : SReg} (hw : s.wave? s.cur = some w)
    (hr : (Instr.swr h reg a).wf = true) : viewDenies s (.swr h reg a) = !takesSwr w.priv reg.toNat := by
  have hv := view_denies w hr
  cases ht : takesSwr w.priv reg.toNat <;> simpa [viewDenies, hw, ht] using hv

theorem viewDenies_taken {s : State} {w : Wave} {i : Instr} (hw : s.wave? s.cur = some w) (hr : i.wf = true)
    (hv : ∀ h reg a, i = .swr h reg a → takesSwr w.priv reg.toNat = true) : viewDenies s i = false := by
  cases i
  case swr h reg a => rw [viewDenies_swr hw hr, hv h reg a rfl]; rfl
  all_goals rfl

/-! ## Traps that enter the handler (R312) -/

/-- What a wave with nothing on its way takes at its boundary it takes at once (R143, R312). -/
theorem atBoundary_calm {s : State} {w : Wave} (hd : w.defs = []) (hp : w.pends = []) (hs : w.sb = []) (hn : w.nests = [])
    (hq : ∀ a ∈ s.accs, a.agent ≠ .wave w.uid) (k : State → Wave → State) : s.atBoundary w k = k s w := by
  have hquiet : s.quiet w = true := by
    have : s.accs.any (fun a => a.agent == .wave w.uid && a.gen) = false :=
      List.any_eq_false.mpr fun a ha => by simp [hq a ha]
    simp [State.quiet, Wave.quiescent, Wave.returned, hd, hs, hn, this]
  simp only [State.atBoundary, hquiet, if_true, commitNow_nil s w hd]
  simp [oldestPend, hp]

/-- trap.cause is the sum of its fields (R311). -/
theorem causeWord_eq {t : TrapInfo} (h : t.cls < 256) :
    causeWord t = BitVec.ofNat 64 (t.detail % 65536 * 65536 + t.aux % 256 * 256 + t.cls) := by
  have h1 := Nat.shiftLeft_add_eq_or_of_lt (i := 8) (b := t.cls) (by omega) (t.aux % 256)
  have h2 := Nat.shiftLeft_add_eq_or_of_lt (i := 16) (b := t.aux % 256 * 256 + t.cls) (by omega) (t.detail % 65536)
  simp only [Nat.shiftLeft_eq, Nat.reducePow] at h1 h2
  apply BitVec.eq_of_toNat_eq
  simp (disch := omega) only [causeWord, place, BitVec.toNat_or, BitVec.toNat_ofNat, Nat.reducePow, pow_zero, Nat.mul_one,
    Nat.mod_eq_of_lt]
  rw [Nat.or_assoc, ← h1, ← h2, Nat.add_assoc]

/-- A deliverable trap enters the handler (R312). -/
theorem deliver_enters {s : State} {w : Wave} {t : TrapInfo} (hd : Deliverable s w) (hm : t.mbx = false) (hc : t.cls < 256) :
    s.deliver w t = s.putWave (trapped s w t) := by
  obtain ⟨-, -, -, -, -, hu, hb, hs⟩ := hd
  simp only [State.deliver]
  rw [hm, if_neg (by simp), if_neg (by simp [hu]; exact hb)]
  simp only [State.endStepAtTrap, hs, causeWord_eq hc, trapped]
  rfl

theorem takeTrap_enters {s : State} {w : Wave} {t : TrapInfo} (hd : Deliverable s w) (hm : t.mbx = false) (hc : t.cls < 256) :
    s.takeTrap w t = s.putWave (trapped s w t) :=
  (takeTrap_calm hd.defs hd.pends hd.board hd.nests hd.queue t).trans (deliver_enters hd hm hc)

/-- An instruction that its mode does not allow raises PRV before its guard is looked at (R90). -/
theorem issue_denied {q : Req} {body : Body} {s : State} {w : Wave} (hw : s.wave? s.cur = some w) (hd : Deliverable s w)
    (hc : ∀ u ∈ s.poison, unitWave u ≠ some w.uid) (hb : s.breakpoint w false = none)
    (hq : (privOpc q.opc && !w.priv || q.denied) = true) :
    issue q body s = .next (s.putWave (trapped s w { cls := 2, mask := w.em, seq := w.seq, rpc := w.pc })) := by
  simp only [issue, hw, issueWave, poisonedS_clean s w _ hc, hb, ite_self, guarded, hq, if_true]
  rw [takeTrap_enters hd rfl (show 2 < 256 by decide)]
  rfl

end Sys2Proof.Machine
end

section
/-! PROOF. A false guard skips an instruction of any kind (O53). -/

namespace Sys2Proof.Machine

/-- Settles O53: the request of any instruction says what its word says (`exec_asks`), and one whose guard is false is skipped
(`issue_skip`). -/
theorem guardSkips : Obligations.GuardSkips := by
  intro i s w r g hr hgr hwf hw hg hc hb hy hp hv
  obtain ⟨q, body, he, ⟨qg, qy, qo, ql⟩, hn⟩ := exec_asks hr hwf s
  have hguard : q.h.guard = g := Option.some.inj (qg.symm.trans hgr)
  have hlen : (encode i).length = q.len := by rw [← ql, ← bytes_length, encode, hr]
  obtain ⟨w', hw', hs, ho⟩ := skip_only (r := q) hw
  refine ⟨_, w', he.trans (issue_skip hw (hguard ▸ hg) hc hb (qy ▸ hy) (qo ▸ hp)
    (hn.trans (viewDenies_taken hw hwf hv))), hw', ?_, ho⟩
  rw [hlen]
  exact hs

end Sys2Proof.Machine
end

section
/-! PROOF. Privileged opcodes and registers that the view keeps raise PRV (O54). -/

namespace Sys2Proof.Machine

theorem swrTraps : SwrTraps := by
  intro s w h reg r hw hd hc hb hwf hv
  obtain ⟨q, body, he, -, hn⟩ := exec_asks (i := .swr h reg r) rfl hwf s
  rw [he]
  exact issue_denied hw hd hc hb (by rw [hn, viewDenies_swr hw hwf, hv]; simp)

theorem privilegeTraps : PrivilegeTraps := by
  intro i s w r hr hwf ho hw hd hc hb
  obtain ⟨q, body, he, ⟨-, -, qo, -⟩, -⟩ := exec_asks hr hwf s
  have hp : privOpc q.opc = true := qo ▸ ho
  rw [he]
  exact issue_denied hw hd hc hb (by simp [hp, hd.user])

/-- Settles O54: both are denied before the guard is tested (`issue_denied`). -/
theorem modeTraps : Obligations.ModeTraps := ⟨swrTraps, privilegeTraps⟩

end Sys2Proof.Machine
end

section
/-! PROOF. How a fetch ends (O55), and a step runs what it fetched (O56). -/

namespace Sys2Proof.Machine

/-! ## Fetches that give no instruction (R67, R88, R320, R332) -/

/-- A word that is no instruction raises IIL with detail 0 (R88). -/
theorem illegalEncoding_traps {s : State} {w : Wave} (hw : s.wave? s.cur = some w) (hd : Deliverable s w)
    (hb : s.breakpoint w false = none) : exec .illegalEncoding s =
      .next (s.putWave (trapped s w { cls := 1, mask := w.em, seq := w.seq, rpc := w.pc })) := by
  show illegalWord s = _
  simp only [illegalWord, hw, hb]
  rw [takeTrap_enters hd rfl (show 1 < 256 by decide)]
  rfl

/-- A held fetch keeps the wave at its fault. -/
theorem fetchFault_held {s v : State} {w : Wave} {f : Nat} (hw : s.wave? s.cur = some w) (hf : s.fetch w = (v, .held f)) :
    exec .fetchFault s = .next (v.putWave { w with fetch := .held f, hold := .none }) := by
  show execFetchFault s = _
  simp only [execFetchFault, hw, hf]

theorem fetchFault_barred {s v : State} {w : Wave} (hw : s.wave? s.cur = some w) (hf : s.fetch w = (v, .barred)) :
    exec .fetchFault s = .next (v.takeBar w) := by
  show execFetchFault s = _
  simp only [execFetchFault, hw, hf]

/-- A PGF of a fetch is taken as any trap. -/
theorem fetchFault_traps {s v : State} {w : Wave} {t : TrapInfo} (hw : s.wave? s.cur = some w) (hf : s.fetch w = (v, .trap t))
    (hc : t.cls ≠ 11) : exec .fetchFault s = .next (v.takeTrap w t) := by
  show execFetchFault s = _
  simp only [execFetchFault, hw, hf, hc, if_false, State.takeTrap]

theorem fetch_outside {s : State} {w : Wave} {g : Grid} (hg : s.gridOf w = some g) (hb : w.inProg = .none) (hf : w.fetch = .free)
    (hpc : 2 ^ 52 ≤ w.pc.toNat) : s.fetch w = (s, .trap (w.fetchPgf 2 0)) := by
  simp only [State.fetch, hg, hb, hf, ne_eq, not_true_eq_false, if_false, if_pos hpc]

theorem fetch_held {s u v : State} {w : Wave} {g : Grid} {y f : Nat} (hg : s.gridOf w = some g) (hb : w.inProg = .none)
    (hf : w.fetch = .free) (hpc : w.pc.toNat < 2 ^ 52)
    (ht : s.translate w.core g.asid (w.pc.toNat / 65536 * 65536) .fetch w.priv = (u, .error y))
    (hr : u.raiseFault g.asid (w.pc.toNat / 65536 * 65536) .fetch y w.loc w.seq w.pc = (v, some f)) :
    s.fetch w = (v, .held f) := by
  simp only [State.fetch, hg, hb, hf, ne_eq, not_true_eq_false, if_false, if_neg (Nat.not_le.mpr hpc), State.fetchPart, ht, hr]

/-- A wave at a barred page ends as EXIT has it, and its grid records the violation (R332). -/
theorem takeBar_ends {s : State} {w : Wave} {g : Grid} (hw : s.wave? w.uid = some w) (hg : s.gridOf w = some g)
    (hd : w.defs = []) (hp : w.pends = []) (hs : w.sb = []) (hn : w.nests = []) (hq : ∀ a ∈ s.accs, a.agent ≠ .wave w.uid) :
    ∃ w', (s.takeBar w).wave? w.uid = some w' ∧ w'.exited = true ∧ (s.takeBar w).mem = s.mem ∧
      (s.takeBar w).grid? g.uid = some { g with civ := true } := by
  obtain ⟨c, hc, hgc⟩ := gridOf_eq_some.mp hg
  have hgs : (s.grid? g.uid).isSome := by rw [grid_uid hgc, hgc]; rfl
  obtain ⟨sp, en⟩ := exitNoted_frame (s.putGrid { g with civ := true }) w
  have he : s.takeBar w = ((s.putGrid { g with civ := true }).exitNoted w).waveExit w := by
    rw [State.takeBar, atBoundary_calm hd hp hs hn hq, hg]
    rfl
  have hc' : ((s.putGrid { g with civ := true }).exitNoted w).cohort? w.cohort = some c := by rw [en]; exact hc
  obtain ⟨cs, es, ls, ks, ee⟩ := waveExit_frame hc'
  rw [he, ee, en]
  exact ⟨w.gone, wave_putWave_self _ w.gone (Option.isSome_of_eq_some hw), rfl, rfl, grid_putGrid_self s { g with civ := true } hgs⟩

/-- Settles O55: how the fetch ends (`fetch_outside`, `fetch_held`), and what the end comes to (`takeTrap_enters`, `takeBar_ends`). -/
theorem fetchEnds : Obligations.FetchEnds := by
  refine ⟨fun s w => illegalEncoding_traps, ?_, ?_, ?_⟩
  · intro s w g hw hd hg hb hf hpc
    rw [fetchFault_traps hw (fetch_outside hg hb hf hpc) (show 4 ≠ 11 by decide)]
    exact congrArg _ (takeTrap_enters hd rfl (show 4 < 256 by decide))
  · intro s u v w g y f hw hg hb hf hpc ht hr
    exact fetchFault_held hw (fetch_held hg hb hf hpc ht hr)
  · intro s u w g hw hf hu hg hd hp hs hn hq
    obtain ⟨w', h1, h2, h3, h4⟩ := takeBar_ends hu hg hd hp hs hn hq
    exact ⟨_, w', fetchFault_barred hw hf, h1, h2, h3, h4⟩

/-! ## A wave's turn (R68, R90) -/

/-- A wave that has its turn comes to what its fetch gives. -/
theorem step_turn {s : State} {w : Wave} {ts : List Turn} (h : HasTurn s w ts) : step s = { s with sched := ts }.attempt w := by
  have hn : s.nextTurn = (⟨0, .issue w.uid⟩, { s with sched := ts }) := by simp only [State.nextTurn, h.sched]
  have hover : ∀ t : State, t.overdue 0 = false := fun _ => rfl
  have hknown : ({ s with sched := ts } : State).wave? w.uid = some w := h.known
  have he : ({ s with sched := ts } : State).eligible w = true := h.eligible
  have ha : ({ s with sched := ts } : State).alone w = true := h.alone
  have hs : (({ s with sched := ts } : State).coreOf w.core).sampled = false := h.unsampled
  have hi : (({ s with sched := ts } : State).coreOf w.core).ports[w.port.val].issued = none := h.free
  simp only [step, h.powered, if_true, hn, State.take, State.passing, hover, State.tick, State.issueTurn, hknown, h.asked, he, hs,
    hi, ha]
  simp

/-- With nothing to take before it, a turn runs what the fetched bytes decode to, or ILLEGAL_ENCODING. -/
theorem turn_bytes {s t : State} {w : Wave} {l : List Byte} (hc : s.poison.contains (.control w.uid) = false)
    (hp : w.pends.any (fun p => p.now) = false) (hf : { s with cur := w.uid }.fetch w = (t, .bytes l)) :
    s.turn w = .run t (((decode l).map Prod.fst).getD .illegalEncoding) := by
  simp only [State.turn, hc, hp, hf, Bool.and_false, Bool.false_eq_true, if_false]
  cases decode l <;> rfl

/-- Settles O56: the turn fetches and runs what the bytes decode to (`turn_bytes`). -/
theorem stepRunsDecoded : Obligations.StepRunsDecoded := by
  intro s t w ts l h hf
  have hp : w.pends.any (fun p => p.now) = false := List.any_eq_false.mpr fun p hp => by simp [h.later p hp]
  rw [step_turn h, State.attempt, turn_bytes (by simpa using h.sound) hp hf]
  exact ⟨fun i rest hd => by rw [hd]; rfl, fun hd => by rw [hd]; rfl⟩

end Sys2Proof.Machine
end

section
/-! SUPPORT. What the operations on words come to on integers and bit by bit (R154, R159). -/

namespace Sys2Proof.Machine

variable {k : Nat}

/-! ## Integers -/

theorem add_eq_ofInt (x y : BitVec k) : x + y = BitVec.ofInt k (x.toInt + y.toInt) := by
  rw [BitVec.ofInt_add, BitVec.ofInt_toInt, BitVec.ofInt_toInt]

theorem mul_eq_ofInt (x y : BitVec k) : x * y = BitVec.ofInt k (x.toInt * y.toInt) := by
  rw [BitVec.ofInt_mul, BitVec.ofInt_toInt, BitVec.ofInt_toInt]

theorem neg_eq_ofInt (x : BitVec k) : -x = BitVec.ofInt k (-x.toInt) := by
  rw [BitVec.ofInt_neg, BitVec.ofInt_toInt]

theorem sub_eq_ofInt (x y : BitVec k) : x - y = BitVec.ofInt k (x.toInt - y.toInt) := by
  rw [BitVec.sub_eq_add_neg, add_eq_ofInt, Int.sub_eq_add_neg, BitVec.ofInt_add, BitVec.ofInt_add, BitVec.ofInt_toInt, BitVec.ofInt_toInt, neg_eq_ofInt]

theorem minS_eq_ofInt (x y : BitVec k) : minS x y = BitVec.ofInt k (min x.toInt y.toInt) := by
  unfold minS
  split
  · next h => rw [min_eq_left (BitVec.slt_iff_toInt_lt.mp h).le, BitVec.ofInt_toInt]
  · next h => rw [min_eq_right (by simpa [BitVec.slt_iff_toInt_lt] using h), BitVec.ofInt_toInt]

theorem maxS_eq_ofInt (x y : BitVec k) : maxS x y = BitVec.ofInt k (max x.toInt y.toInt) := by
  unfold maxS
  split
  · next h => rw [max_eq_right (BitVec.slt_iff_toInt_lt.mp h).le, BitVec.ofInt_toInt]
  · next h => rw [max_eq_left (by simpa [BitVec.slt_iff_toInt_lt] using h), BitVec.ofInt_toInt]

theorem abs_eq_ofNat (x : BitVec k) : (if x.slt 0 then -x else x) = BitVec.ofNat k x.toInt.natAbs := by
  rw [← BitVec.ofInt_natCast]
  split
  · next h =>
    have : x.toInt < 0 := by simpa using BitVec.slt_iff_toInt_lt.mp h
    rw [neg_eq_ofInt, Int.natCast_natAbs, abs_of_neg this]
  · next h =>
    have : 0 ≤ x.toInt := by simpa [BitVec.slt_iff_toInt_lt] using h
    rw [Int.natCast_natAbs, abs_of_nonneg this, BitVec.ofInt_toInt]

theorem shiftLeft_eq_ofNat (x : BitVec k) (n : Nat) : x <<< n = BitVec.ofNat k (x.toNat * 2 ^ n) := by
  apply BitVec.eq_of_toNat_eq
  simp [Nat.shiftLeft_eq]

theorem shiftRight_eq_ofNat (x : BitVec k) (n : Nat) : x >>> n = BitVec.ofNat k (x.toNat / 2 ^ n) := by
  apply BitVec.eq_of_toNat_eq
  have : x.toNat / 2 ^ n < 2 ^ k := (Nat.div_le_self _ _).trans_lt x.isLt
  simp [Nat.shiftRight_eq_div_pow, Nat.mod_eq_of_lt this]

theorem sshiftRight_eq_ofInt (x : BitVec k) (n : Nat) : x.sshiftRight n = BitVec.ofInt k (x.toInt / 2 ^ n) := by
  rw [BitVec.sshiftRight, Int.shiftRight_eq_div_pow]
  norm_cast

/-- The high half of a signed product. -/
theorem mulHigh32_eq_ofInt (x y : W32) : mulHigh32 x y = BitVec.ofInt 32 (x.toInt * y.toInt / 2 ^ 32) := by
  have hp : x.signExtend 64 * y.signExtend 64 = BitVec.ofInt 64 (x.toInt * y.toInt) := (BitVec.ofInt_mul _ _).symm
  rw [mulHigh32, hp]
  generalize x.toInt * y.toInt = m
  apply BitVec.eq_of_toNat_eq
  simp only [BitVec.toNat_setWidth, BitVec.toNat_ushiftRight, BitVec.toNat_ofInt, Nat.shiftRight_eq_div_pow, Nat.reducePow]
  omega

/-! ## Bits -/

theorem popUpTo_eq_countP (x : BitVec k) : ∀ n, popUpTo x n = (List.range n).countP (fun i => x.getLsbD i)
  | 0 => rfl
  | n + 1 => by
    rw [popUpTo, popUpTo_eq_countP x n, List.range_succ, List.countP_append]
    cases h : x.getLsbD n <;> simp [h]

theorem leadingZeros_eq_find (x : BitVec k) : ∀ n, leadingZeros x n =
    ((List.range n).find? (fun i => x.getLsbD (n - 1 - i))).getD n
  | 0 => rfl
  | n + 1 => by
    rw [leadingZeros, List.range_succ_eq_map, List.find?_cons, leadingZeros_eq_find x n]
    simp only [Nat.add_sub_cancel, Nat.sub_zero, List.find?_map]
    cases h : x.getLsbD n with
    | true => simp
    | false =>
      have : (fun i => x.getLsbD (n - i)) ∘ Nat.succ = fun i => x.getLsbD (n - 1 - i) := by
        funext i; simp [Nat.sub_sub, Nat.add_comm]
      simp only [this, Bool.false_eq_true, if_false]
      cases (List.range n).find? (fun i => x.getLsbD (n - 1 - i)) <;> simp

theorem toNat_lowOnes {n : Nat} (h : n ≤ k) : (lowOnes k n).toNat = 2 ^ n - 1 := by
  rw [lowOnes, BitVec.toNat_ofNat, Nat.mod_eq_of_lt]
  have := Nat.pow_le_pow_right (n := 2) (by decide) h
  have := Nat.two_pow_pos n
  omega

theorem bitField_eq_ofNat (x : BitVec k) (pos : Nat) {wid : Nat} (h : wid ≤ k) :
    bitField x pos wid = BitVec.ofNat k (x.toNat / 2 ^ pos % 2 ^ wid) := by
  apply BitVec.eq_of_toNat_eq
  rw [bitField, BitVec.toNat_and, toNat_lowOnes h, BitVec.toNat_ushiftRight, Nat.shiftRight_eq_div_pow, Nat.and_two_pow_sub_one_eq_mod,
    BitVec.toNat_ofNat]
  exact (Nat.mod_eq_of_lt ((Nat.mod_le _ _).trans_lt ((Nat.div_le_self _ _).trans_lt x.isLt))).symm

theorem getLsbD_lowOnes {n : Nat} (h : n ≤ k) (i : Nat) : (lowOnes k n).getLsbD i = decide (i < n) := by
  rw [BitVec.getLsbD, toNat_lowOnes h, Nat.testBit_two_pow_sub_one]

theorem bitInsert_eq_ofFnLE (old x : BitVec k) {pos wid : Nat} (h : pos + wid ≤ k) : bitInsert old x pos wid =
    BitVec.ofFnLE (fun i : Fin k => if pos ≤ i.val ∧ i.val < pos + wid then x.getLsbD (i.val - pos) else old.getLsbD i.val) := by
  apply BitVec.eq_of_getLsbD_eq
  intro i hi
  rw [BitVec.getLsbD_ofFnLE, dif_pos hi, bitInsert]
  simp only [BitVec.getLsbD_or, BitVec.getLsbD_and, BitVec.getLsbD_not, BitVec.getLsbD_shiftLeft, getLsbD_lowOnes (show wid ≤ k by omega)]
  by_cases h1 : i < pos
  · simp [h1, hi, Nat.not_le.mpr h1]
  · by_cases h2 : i < pos + wid
    · simp [h1, h2, hi, show i - pos < wid by omega, Nat.not_lt.mp h1]
    · simp [h1, h2, hi, show ¬ i - pos < wid by omega]

end Sys2Proof.Machine
end

section
/-! SUPPORT. Lanes of the results that are no lift of a word operation: SCAN, REDU, VPERM, PACK, the packed dots (R159, R165,
R168, R169). -/

namespace Sys2Proof.Machine

/-! ## The packed dots -/

theorem dotInt_eq_ofInt (n : Nat) (x y c : W32) : dotInt n x y c = BitVec.ofInt 32 (dotSum n x y c) := by
  have h : ∀ (l : List Nat) (t : Int), l.foldl (fun t k => t + intElem n x k * intElem n y k) t =
      t + (l.map (fun k => intElem n x k * intElem n y k)).sum := by
    intro l
    induction l with
    | nil => simp
    | cons a l ih => intro t; rw [List.foldl_cons, ih, List.map_cons, List.sum_cons, Int.add_assoc]
  rw [dotInt, h]
  rfl

/-! ## SCAN -/

/-- One lane's part in a running value (R169). -/
def scanStep (op : Aop) (em : Mask) (x : Fin 32 → W32) (r : Option W32) (k : Fin 32) : Option W32 :=
  if em.getLsbD k.val then aopOpt op r (some (x k)) else r

/-- A running value takes in the lanes up to its own. -/
theorem scanRun_getD (op : Aop) (em : Mask) (v : VReg) : ∀ (ls : List (Fin 32)) (r : Option W32) (i : Nat), i < ls.length →
    (scanRun op em v ls r).getD i 0 = aopCanon op (((ls.take (i + 1)).foldl (scanStep op em v.lane) r).getD 0)
  | l :: ls, r, 0, _ => by simp [scanRun, scanStep]
  | l :: ls, r, i + 1, h => by
    simpa [scanRun, scanStep] using scanRun_getD op em v ls (scanStep op em v.lane r l) i (by simpa using h)

theorem runTo_eq_foldl (op : Aop) (em : Mask) (x : Fin 32 → W32) (l : Nat) : runTo op em x l =
    (List.finRange 32).foldl (fun r k => if k.val ≤ l then scanStep op em x r k else r) none := by
  unfold runTo
  congr 1
  funext r k
  by_cases hk : k.val ≤ l <;> cases r <;> simp [hk, scanStep, aopOpt]

/-- Lanes above lane `l` take no part in its running value. -/
theorem runTo_eq_take (op : Aop) (em : Mask) (x : Fin 32 → W32) (l : Fin 32) :
    runTo op em x l.val = ((List.finRange 32).take (l.val + 1)).foldl (scanStep op em x) none := by
  have hlow : ∀ k ∈ (List.finRange 32).take (l.val + 1), k.val ≤ l.val := by
    intro k hk
    obtain ⟨i, hi, rfl⟩ := List.mem_take_iff_getElem.mp hk
    simp at hi ⊢
    omega
  have hhigh : ∀ k ∈ (List.finRange 32).drop (l.val + 1), ¬k.val ≤ l.val := by
    intro k hk
    obtain ⟨i, hi, rfl⟩ := List.mem_drop_iff_getElem.mp hk
    simp
    omega
  rw [runTo_eq_foldl]
  conv_lhs => rw [← List.take_append_drop (l.val + 1) (List.finRange 32), List.foldl_append]
  rw [List.foldl_ext _ (scanStep op em x) none (fun r k hk => if_pos (hlow k hk)),
    List.foldl_ext _ (fun r _ => r) _ (fun r k hk => if_neg (hhigh k hk)), List.foldl_fixed]

/-- Under a full mask a value that every lane has is combined with itself, once for each lane. -/
theorem runTo_const (op : Aop) (u : W32) (l : Fin 32) :
    runTo op 0xFFFFFFFF (fun _ => u) l.val = (fun r => aopOpt op r (some u))^[l.val + 1] none := by
  have hall : ∀ k : Fin 32, (0xFFFFFFFF#32).getLsbD k.val = true := by decide
  have hstep : scanStep op 0xFFFFFFFF (fun _ => u) = fun r _ => aopOpt op r (some u) := by
    funext r k
    exact if_pos (hall k)
  rw [runTo_eq_take, hstep, List.foldl_const]
  simp

/-- An operation that keeps a property of a value when it takes in `u` keeps it for the running value. -/
theorem runTo_const_ind {op : Aop} {u : W32} {P : Nat → W32 → Prop} (h0 : P 0 u)
    (hs : ∀ n x, P n x → P (n + 1) (aopValue op x u)) (l : Fin 32) :
    ∃ y, runTo op 0xFFFFFFFF (fun _ => u) l.val = some y ∧ P l.val y := by
  rw [runTo_const]
  induction l.val with
  | zero => exact ⟨u, rfl, h0⟩
  | succ n ih =>
    obtain ⟨y, hy, hp⟩ := ih
    exact ⟨_, by rw [Function.iterate_succ_apply', hy]; rfl, hs n y hp⟩

/-- The running value of a uniform register under an operation that gives back a value taken with itself. -/
theorem runTo_same {op : Aop} {u : W32} (h : aopValue op u u = u) (l : Fin 32) :
    runTo op 0xFFFFFFFF (fun _ => u) l.val = some u := by
  obtain ⟨y, hy, rfl⟩ := runTo_const_ind (P := fun _ x => x = u) rfl (fun n x hx => by rw [hx, h]) l
  exact hy

theorem runTo_add (u : W32) (l : Fin 32) :
    runTo .add 0xFFFFFFFF (fun _ => u) l.val = some (u + BitVec.ofNat 32 l.val * u) := by
  obtain ⟨y, hy, rfl⟩ := runTo_const_ind (op := .add) (u := u) (P := fun n x => x = u + BitVec.ofNat 32 n * u) (by simp)
    (fun n x hx => by
      rw [hx, aopValue, BitVec.ofNat_add, BitVec.add_mul, BitVec.add_assoc]
      simp) l
  exact hy

theorem isNan_of_canon {x u : W32} (h : canon x = canon u) : (num32 x).isNan = (num32 u).isNan := by
  have hn : (num32 nan32).isNan = true := by decide
  unfold canon at h
  split_ifs at h with hx hu hu
  · rw [hx, hu]
  · exact absurd (h ▸ hn) hu
  · exact absurd (h ▸ hn) hx
  · rw [h]

/-- A NaN taken with a NaN is one, and any other value taken with itself that value, by FMIN and FMAX (R161). -/
theorem canon_select {op : Aop} (ho : op = .fmin ∨ op = .fmax) {x u : W32} (h : canon x = canon u) :
    canon (aopValue op x u) = canon u := by
  have hxu := isNan_of_canon h
  cases hu : (num32 u).isNan with
  | true =>
    have hx := hxu.trans hu
    have he : aopValue op x u = nan32 := by rcases ho with rfl | rfl <;> simp [aopValue, fMin, fMax, fCompare, hx, hu]
    have hn : canon u = nan32 := if_pos hu
    rw [he, hn]
    decide
  | false =>
    have hx : x = u := by simpa [canon, hxu, hu] using h
    subst hx
    have he : aopValue op x x = x := by
      rcases ho with rfl | rfl <;> simp only [aopValue, fMin, fMax, fCompare, hu, Bool.or_self, Bool.false_eq_true, if_false] <;>
        cases cmpNum (num32 x) (num32 x) <;> simp
    rw [he]

theorem runTo_select {op : Aop} (ho : op = .fmin ∨ op = .fmax) (u : W32) (l : Fin 32) :
    ∃ y, runTo op 0xFFFFFFFF (fun _ => u) l.val = some y ∧ canon y = canon u :=
  runTo_const_ind (P := fun _ x => canon x = canon u) rfl (fun _ _ h => canon_select ho h) l

theorem scanLanes_lane (op : Aop) (em : Mask) (v : VReg) (l : Fin 32) :
    (scanLanes op em v).lane l = aopCanon op ((runTo op em v.lane l.val).getD 0) := by
  rw [scanLanes, lane_gen, scanRun_getD op em v _ none l.val (by simp), ← runTo_eq_take]

/-- The shapes of a uniform register's running values hold them (R169). -/
theorem scanValue_lane (op : Aop) (v : VReg) (l : Fin 32) :
    (scanValue op 0xFFFFFFFF v).lane l = aopCanon op ((runTo op 0xFFFFFFFF v.lane l.val).getD 0) := by
  have hgen : scanValue op 0xFFFFFFFF v = scanLanes op 0xFFFFFFFF v →
      (scanValue op 0xFFFFFFFF v).lane l = aopCanon op ((runTo op 0xFFFFFFFF v.lane l.val).getD 0) := by
    intro h
    rw [h, scanLanes_lane]
  cases v with
  | uni u =>
    have hsame : ∀ {p : Aop}, aopValue p u u = u → aopFloat p = false →
        u = aopCanon p ((runTo p 0xFFFFFFFF (fun _ => u) l.val).getD 0) := by
      intro p h hf
      rw [runTo_same h]
      simp [aopCanon, hf]
    cases op with
    | add =>
      show u + BitVec.ofNat 32 l.val * u = aopCanon .add ((runTo .add 0xFFFFFFFF (fun _ => u) l.val).getD 0)
      rw [runTo_add]
      rfl
    | band => exact hsame (by simp [aopValue]) rfl
    | bor => exact hsame (by simp [aopValue]) rfl
    | mins => exact hsame (by simp [aopValue, minS]) rfl
    | maxs => exact hsame (by simp [aopValue, maxS]) rfl
    | minu => exact hsame (by simp [aopValue, minU]) rfl
    | maxu => exact hsame (by simp [aopValue, maxU]) rfl
    | fmin =>
      obtain ⟨y, hy, hc⟩ := runTo_select (.inl rfl) u l
      show canon u = aopCanon .fmin ((runTo .fmin 0xFFFFFFFF (fun _ => u) l.val).getD 0)
      rw [hy]
      exact hc.symm
    | fmax =>
      obtain ⟨y, hy, hc⟩ := runTo_select (.inr rfl) u l
      show canon u = aopCanon .fmax ((runTo .fmax 0xFFFFFFFF (fun _ => u) l.val).getD 0)
      rw [hy]
      exact hc.symm
    | bxor | swap | cas | fadd => exact hgen rfl
  | none | aff | gen => exact hgen (by cases op <;> rfl)

end Sys2Proof.Machine
end

section
/-! PROOF. Vector instructions write each active lane of vD and change nothing else (O2). -/

namespace Sys2Proof.Machine

/-! ## Instructions with one vector destination -/

/-- Instruction `i` completes with `f` in the active lanes of vD, and changes nothing else (R135, R79). -/
def WritesLanes (i : Instr) (s : State) (w : Wave) (l : List VNum) (d : VNum) (f : Fin 32 → W32) : Prop :=
  ∃ r, Runs i s w (w.wrote l d r) ∧ ∀ k, r.lane k = w.merged l d f k

/-- A request that differs from the V-form's in what it reads and frees alone, and a body that writes `x` under the mask. -/
theorem writesLanes_of {i : Instr} {q : Req} {body : Body} {s : State} {w : Wave} {d : VNum} {x : VReg} {sp : Bool}
    {f : Fin 32 → W32} (hr : Open q.h s w) (he : exec i s = issue q body s)
    (hq : q = { vreq q.h q.opc d [] with rs := q.rs, rv := q.rv, fv := q.fv, uses := q.uses }) (hp : plainOpc q.opc = true)
    (hb : body s w (w.freeV q.fv) = .ok s ((w.freeV q.fv).vwrite d x) sp) (hx : ∀ k, x.lane k = f k) :
    WritesLanes i s w q.fv d f := by
  have hem : (w.freeV q.fv).em = w.em := by rw [freeV_fields]
  obtain ⟨t, w', h1, h2, h3, h4⟩ := issue_vput (d := d) hr hp (congrArg Req.len hq) (congrArg Req.sideWait hq)
    (congrArg Req.drains hq) (congrArg Req.denied hq) (congrArg Req.wv hq) ⟨congrArg Req.wq hq, congrArg Req.fq hq⟩
    (congrArg Req.ignoreEm hq) hb rfl rfl
  refine ⟨_, ⟨t, w', he.trans h1, h2, h3, h4⟩, fun k => ?_⟩
  rw [lane_mergeMask, hem, lane_norm, hx, Wave.merged]

section
variable {i : Instr} {s : State} {w : Wave} {h : Head} {opc : Nat} {d : VNum} {a b c : VSrc} {f : Fin 32 → W32}

theorem vec1_writes {g : VReg → VReg} (hr : Open h s w) (he : exec i s = vec1 h opc d a g s) (hp : plainOpc opc = true)
    (hx : ∀ k, (g (w.src a)).lane k = f k) : WritesLanes i s w (frees [a]) d f :=
  writesLanes_of (q := vreq h opc d [a]) hr he rfl hp rfl hx

theorem vec2_writes {g : VReg → VReg → VReg} (hr : Open h s w) (he : exec i s = vec2 h opc d a b g s) (hp : plainOpc opc = true)
    (hx : ∀ k, (g (w.src a) (w.src b)).lane k = f k) : WritesLanes i s w (frees [a, b]) d f :=
  writesLanes_of (q := vreq h opc d [a, b]) hr he rfl hp rfl hx

theorem vec3_writes {g : VReg → VReg → VReg → VReg} (hr : Open h s w) (he : exec i s = vec3 h opc d a b c g s)
    (hp : plainOpc opc = true) (hx : ∀ k, (g (w.src a) (w.src b) (w.src c)).lane k = f k) :
    WritesLanes i s w (frees [a, b, c]) d f :=
  writesLanes_of (q := vreq h opc d [a, b, c]) hr he rfl hp rfl hx

/-- An instruction that does one word operation in each lane. -/
theorem lift1_writes {g : W32 → W32} (hr : Open h s w) (he : exec i s = vec1 h opc d a (lift1 g) s) (hp : plainOpc opc = true)
    (hg : ∀ k, g (w.laneOf a k) = f k) : WritesLanes i s w (frees [a]) d f :=
  vec1_writes hr he hp fun k => by rw [lane_lift1, src_lane, hg]

theorem lift2_writes {g : W32 → W32 → W32} (hr : Open h s w) (he : exec i s = vec2 h opc d a b (lift2 g) s)
    (hp : plainOpc opc = true) (hg : ∀ k, g (w.laneOf a k) (w.laneOf b k) = f k) : WritesLanes i s w (frees [a, b]) d f :=
  vec2_writes hr he hp fun k => by rw [lane_lift2, src_lane, src_lane, hg]

theorem lift3_writes {g : W32 → W32 → W32 → W32} (hr : Open h s w) (he : exec i s = vec3 h opc d a b c (lift3 g) s)
    (hp : plainOpc opc = true) (hg : ∀ k, g (w.laneOf a k) (w.laneOf b k) (w.laneOf c k) = f k) :
    WritesLanes i s w (frees [a, b, c]) d f :=
  vec3_writes hr he hp fun k => by rw [lane_lift3, src_lane, src_lane, src_lane, hg]

end

/-! ## Forms of their own -/

theorem vmovi_writes {s : State} {w : Wave} {h : Head} (d : VNum) (imm : BitVec 32) (hr : Open h s w) :
    WritesLanes (.vmovi h d imm) s w [] d (fun _ => imm) :=
  writesLanes_of (q := vreq h 0x081 d []) (x := .uni imm) hr rfl rfl rfl rfl fun _ => rfl

theorem vlane_writes {s : State} {w : Wave} {h : Head} (d : VNum) (hr : Open h s w) :
    WritesLanes (.vlane h d) s w [] d (fun l => BitVec.ofNat 32 l.val) :=
  writesLanes_of (q := vreq h 0x09B d []) (x := vLane) hr rfl rfl rfl rfl fun k => by simp [vLane, VReg.lane]

/-- VBFI reads its destination before the frees (R159). -/
theorem vbfi_writes {s : State} {w : Wave} {h : Head} {d : VNum} {a : VSrc} {pos : Fin 32} {wid : Fin 33} (hr : Open h s w)
    (hf : pos.val + wid.val ≤ 32) : WritesLanes (.vbfi h d a pos wid) s w (frees [a]) d (fun l => BitVec.ofFnLE (fun i : Fin 32 =>
      if pos.val ≤ i.val ∧ i.val < pos.val + wid.val then (w.laneOf a l).getLsbD (i.val - pos.val)
      else ((w.vreg d).lane l).getLsbD i.val)) :=
  writesLanes_of (q := { vreq h 0x098 d [a] with rv := (vreq h 0x098 d [a]).rv ++ [d] }) hr rfl rfl rfl rfl fun k => by
    rw [lane_lift2, src_lane, lane_norm, bitInsert_eq_ofFnLE _ _ hf]

theorem pack_writes {s : State} {w : Wave} {h : Head} {d : VNum} {a : VGrp} {f : Fmt} (hr : Open h s w) :
    WritesLanes (.pack h d a f) s w (grpFrees a f.perWord) d (fun l =>
      packValue f ((groupRegs a.reg f.perWord).map (fun r => (w.vreg r).lane l))) := by
  refine writesLanes_of
    (q := { h := h, opc := 0x181, len := 16, rv := groupRegs a.reg f.perWord, wv := [d], fv := grpFrees a f.perWord })
    hr rfl rfl rfl rfl fun k => ?_
  split
  · next hu =>
    rw [lane_uni]
    exact congrArg (packValue f) (List.map_congr_left fun r hm => lane_isUni (List.all_eq_true.mp hu r hm) 0 k)
  · exact lane_gen _ k

theorem vperm_writes {s : State} {w : Wave} {h : Head} {d : VNum} {a b : VSrc} (hr : Open h s w) :
    WritesLanes (.vperm h d a b) s w (frees [a, b]) d (fun l =>
      if i : (w.laneOf b l).toNat < 32 then w.laneOf a ⟨(w.laneOf b l).toNat, i⟩ else 0) := by
  refine writesLanes_of (q := { vreq h 0x188 d [a, b] with uses := [.picked a b, .through b] }) hr rfl rfl rfl rfl fun k => ?_
  simp only [← src_lane]
  split
  · next u hu => simp only [lane_uni, hu]
  · exact lane_gen _ k

theorem redu_writes {s : State} {w : Wave} {h : Head} {d : VNum} {a : VSrc} {op : Aop} (hr : Open h s w) :
    WritesLanes (.redu h d a op) s w (frees [a]) d (fun _ => reduValue op w.em (.gen (lanesBy (w.laneOf a)))) :=
  writesLanes_of (q := vreq h 0x189 d [a]) (x := .uni (reduValue op w.em (w.src a))) hr rfl rfl rfl rfl fun k => by
    simp only [lane_uni, reduValue, lane_gen, src_lane]

theorem scan_writes {s : State} {w : Wave} {h : Head} {d : VNum} {a : VSrc} {op : Aop} (hr : Open h s w) :
    WritesLanes (.scan h d a op) s w (frees [a]) d (fun l => aopCanon op ((runTo op w.em (w.laneOf a) l.val).getD 0)) := by
  have hl : (w.src a).lane = w.laneOf a := funext (src_lane w a)
  refine writesLanes_of (q := vreq h 0x18A d [a]) hr rfl rfl rfl rfl fun k => ?_
  split
  · next hm => rw [hm, scanValue_lane, hl]
  · rw [scanLanes_lane, hl]

/-! ## Every one -/

theorem vec_writes {i : Instr} {s : State} {w : Wave} {h : Head} {l : List VNum} {d : VNum} {f : Fin 32 → W32}
    (hwf : i.wf = true) (hf : laneResult w i = some (h, l, d, f)) (hr : Open h s w) : WritesLanes i s w l d f := by
  cases i <;> cases hf
  case vmov => exact vec1_writes hr rfl rfl fun k => by rw [vMov, lane_norm, src_lane]
  case vmovi => exact vmovi_writes _ _ hr
  case vadd => exact vec2_writes hr rfl rfl fun k => by rw [lane_vAdd, src_lane, src_lane, add_eq_ofInt]
  case vadds => exact lift2_writes hr rfl rfl fun _ => rfl
  case vsub => exact vec2_writes hr rfl rfl fun k => by rw [lane_vSub, src_lane, src_lane, sub_eq_ofInt]
  case vmul => exact vec2_writes hr rfl rfl fun k => by rw [lane_vMul, src_lane, src_lane, mul_eq_ofInt]
  case vmulh => exact lift2_writes hr rfl rfl fun _ => mulHigh32_eq_ofInt _ _
  case vmad =>
    refine vec3_writes hr rfl rfl fun k => ?_
    rw [lane_vMad, src_lane, src_lane, src_lane, mul_eq_ofInt, BitVec.ofInt_add, BitVec.ofInt_toInt]
  case vand | vor | vxor => exact lift2_writes hr rfl rfl fun _ => rfl
  case vnot => exact lift1_writes hr rfl rfl fun _ => rfl
  case vshl => exact vec2_writes hr rfl rfl fun k => by rw [lane_vShl, src_lane, src_lane, shiftLeft_eq_ofNat]
  case vshr => exact lift2_writes hr rfl rfl fun _ => shiftRight_eq_ofNat _ _
  case vsar => exact lift2_writes hr rfl rfl fun _ => sshiftRight_eq_ofInt _ _
  case vmin => exact lift2_writes hr rfl rfl fun _ => minS_eq_ofInt _ _
  case vmax => exact lift2_writes hr rfl rfl fun _ => maxS_eq_ofInt _ _
  case vabs => exact lift1_writes hr rfl rfl fun _ => abs_eq_ofNat _
  case vneg => exact vec1_writes hr rfl rfl fun k => by rw [lane_vNeg, src_lane, neg_eq_ofInt]
  case vsel =>
    exact lift3_writes hr rfl rfl fun _ => ite_not ..
  case vbfx pos wid => exact lift1_writes hr rfl rfl fun _ => bitField_eq_ofNat _ _ (Nat.le_of_lt_succ wid.isLt)
  case vbfi pos wid =>
    simp only [Instr.wf, fieldFits, Bool.and_eq_true, decide_eq_true_eq] at hwf
    exact vbfi_writes hr hwf.2
  case vpopc => exact lift1_writes hr rfl rfl fun _ => congrArg _ (popUpTo_eq_countP _ 32)
  case vclz => exact lift1_writes hr rfl rfl fun _ => congrArg _ (leadingZeros_eq_find _ 32)
  case vlane => exact vlane_writes _ hr
  case vdot4 => exact lift3_writes hr rfl rfl fun _ => dotInt_eq_ofInt _ _ _ _
  case vdot8 => exact lift3_writes hr rfl rfl fun _ => dotInt_eq_ofInt _ _ _ _
  case fadd | fsub | fmul | fmin | fmax => exact lift2_writes hr rfl rfl fun _ => rfl
  case ffma | fdot2 | fdot4 => exact lift3_writes hr rfl rfl fun _ => rfl
  case fabs | fneg | fclass | ftrunc | ffloor | fceil | cvt | unpk => exact lift1_writes hr rfl rfl fun _ => rfl
  case fexp2 | flog2 | frcp | frsq | fsin | fcos | ftanh | fsigm | ferf => exact lift1_writes hr rfl rfl fun _ => rfl
  case pack => exact pack_writes hr
  case vperm => exact vperm_writes hr
  case redu => exact redu_writes hr
  case scan => exact scan_writes hr

/-- Settles O2: each instruction's request and value (`vec_writes`), from what its lanes come to. -/
theorem vectorLanes : Obligations.VectorLanes := fun _ _ _ _ _ _ _ hwf hf hr => vec_writes hwf hf hr

end Sys2Proof.Machine
end

section
/-! PROOF. VSQZ compacts, and QNT writes the codes of one block or raises IIL (O50). -/

namespace Sys2Proof.Machine

/-! ## Compact tags (R136) -/

theorem lanes_get (v : VReg) (k : Fin 32) : v.lanes[k.val] = v.lane k := lanesBy_get v.lane k

theorem lanes_eq_lanesBy {v : VReg} {f : Fin 32 → W32} : v.lanes = lanesBy f ↔ ∀ k, v.lane k = f k :=
  ⟨fun h k => by rw [← lanes_get, h, lanesBy_get], fun h => congrArg lanesBy (funext h)⟩

theorem lanes_eq_splat {v : VReg} {u : W32} : v.lanes = splat u ↔ ∀ k, v.lane k = u := by
  rw [← lanes_eq_lanesBy (f := fun _ => u)]
  have : splat u = lanesBy fun _ => u := Vector.ext fun i hi => by simp [splat, lanesBy]
  rw [this]

/-- The first lane, and the step from it to the second. -/
def VReg.first (v : VReg) : W32 := v.lane 0
def VReg.stride (v : VReg) : W32 := v.lane 1 - v.lane 0

/-- Compacting looks for one value in every lane, then for a stride. -/
theorem squeeze_eq (v : VReg) : squeeze v =
    if v.lanes = splat v.first then .uni v.first
    else if v.lanes = lanesBy (fun i => v.first + BitVec.ofNat 32 i.val * v.stride) then .aff v.first v.stride
    else .gen v.lanes := by
  have h0 : v.lanes[0] = v.lane 0 := lanes_get v 0
  have h1 : v.lanes[1] = v.lane 1 := lanes_get v 1
  simp only [squeeze, h0, h1, VReg.first, VReg.stride]
  rfl

/-- Compacting keeps every lane. -/
theorem squeeze_lane (v : VReg) (k : Fin 32) : (squeeze v).lane k = v.lane k := by
  rw [squeeze_eq]
  split_ifs with hu ha
  · exact (lanes_eq_splat.mp hu k).symm
  · exact (lanes_eq_lanesBy.mp ha k).symm
  · exact lanes_get v k

/-- No register with the same lanes has a more compact tag. -/
theorem squeeze_tag {v q : VReg} (h : ∀ k, q.lane k = v.lane k) : (squeeze v).tag ≤ q.tag := by
  have huni : (∀ k : Fin 32, v.lane k = v.first) → (squeeze v).tag = 0 := fun hc => by
    rw [squeeze_eq, if_pos (lanes_eq_splat.mpr hc)]
    rfl
  cases q with
  | none => exact (huni fun k => (h k).symm.trans (h 0)).le
  | uni u => exact (huni fun k => (h k).symm.trans (h 0)).le
  | aff b t =>
    have h0 : v.first = b := (h 0).symm.trans (by simp [VReg.lane])
    have h1 : v.stride = t := by
      have h1 : v.lane 1 = b + t := (h 1).symm.trans (by simp [VReg.lane])
      rw [VReg.stride, h1, show v.lane 0 = b from h0, BitVec.add_comm, BitVec.add_sub_cancel]
    rw [squeeze_eq]
    split_ifs with hu ha
    · exact Nat.zero_le 1
    · exact Nat.le_refl 1
    · refine absurd (lanes_eq_lanesBy.mpr fun k => ?_) ha
      rw [h0, h1]
      exact (h k).symm
  | gen l =>
    show (squeeze v).tag ≤ 2
    cases squeeze v <;> simp [VReg.tag]

/-! ## Instructions that write vector registers alone -/

/-- A plain instruction whose body leaves the wave `v`, changed in its vector registers alone. -/
theorem runs_vregs {i : Instr} {q : Req} {body : Body} {s : State} {w v : Wave} {sp : Bool} {vs : List VNum} {qs : List QNum}
    (hr : Open q.h s w) (he : exec i s = issue q body s) (hp : plainOpc q.opc = true) (hs : q.sideWait = false)
    (hd : q.drains = false) (hn : q.denied = false) (hq : q.fq = []) (hb : body s w (w.freeV q.fv) = .ok s v sp)
    (hv : v = { w with v := v.v }) (hvs : q.writesV w.em = vs) (hqs : q.writesQ w.em = qs) :
    Runs i s w { v.killDefs w.defs.length vs qs with pc := w.pc + BitVec.ofNat 64 q.len } :=
  runs_ok hr.toReady (fits_open hr q hp hs hd hn) he (by rw [hq, freeQ_nil, hb]) rfl rfl (by rw [hv]) (by rw [hv]) (by rw [hv])
    (hvs ▸ hqs ▸ ended_plain q w v _ hp hr.begins (by rw [hv]))

/-- A wave changed in its vector registers alone, its pending results killed. -/
theorem killDefs_fields {w u : Wave} (h : u = { w with v := u.v }) (n : Nat) (vs : List VNum) (qs : List QNum) (pc : Word) :
    { u.killDefs n vs qs with pc := pc } =
      { w with v := u.v, lmiss := u.lmiss, defs := (u.killDefs n vs qs).defs, pc := pc } :=
  congrArg (fun x : Wave => { x with lmiss := u.lmiss, defs := (u.killDefs n vs qs).defs, pc := pc }) h

theorem freeV_vput (w : Wave) (l : List VNum) (d : VNum) (x : VReg) :
    (w.freeV l).vput d x = { w with v := ((w.freeV l).vput d x).v } := congrArg (fun u : Wave => u.vput d x) (freeV_fields l w)

theorem squeezeCompact : SqueezeCompact := by
  intro s w h d a _ hr
  exact ⟨squeeze (w.src a),
    runs_vregs (q := { vreq h 0x185 d [a] with ignoreEm := true }) hr rfl rfl rfl rfl rfl rfl rfl (freeV_vput w (frees [a]) d _)
      (by simp [Req.writesV, vreq]) (by simp [Req.writesQ, vreq]),
    fun k => (squeeze_lane _ k).trans (src_lane w a k), fun r hq => squeeze_tag fun k => (hq k).trans (src_lane w a k).symm⟩

/-! ## QNT (R123, R167) -/

theorem qntTry_length (f : Fmt) (xs : List W32) (c : Int) : (qntTry f xs c).1.length = xs.length := by simp [qntTry]

/-- A block has one element code for each value. -/
theorem qntBlock_length (f : Fmt) (xs : List W32) : (qntBlock f xs).2.length = xs.length := by
  unfold qntBlock
  dsimp only
  split
  · simp
  · split
    · simp
    · split_ifs <;> simp [qntTry_length]

theorem mem_lanesOf {m : Mask} {k : Fin 32} : k ∈ lanesOf m ↔ m.getLsbD k.val = true := by simp [lanesOf]

theorem groupReg_one_ne (d : VNum) : groupReg d 1 ≠ d := fun h => by
  have h := congrArg Fin.val h
  simp only [groupReg] at h
  have := d.isLt
  omega

/-- What a write under the mask leaves of each register. -/
theorem vreg_vwrite_self (w : Wave) (d : VNum) (x : VReg) (k : Fin 32) :
    ((w.vwrite d x).vreg d).lane k = if w.em.getLsbD k.val then x.lane k else (w.vreg d).lane k := by
  rw [Wave.vwrite, vreg_vput_self, lane_mergeMask, lane_norm]

theorem vreg_vwrite_other (w : Wave) {d r : VNum} (x : VReg) (h : r ≠ d) : (w.vwrite d x).vreg r = w.vreg r :=
  vreg_vput_other w d r _ h

/-- vD of a QNT: uniform if every element code is equal (R167). -/
def qntCodes (em : Mask) (q : List Nat) : VReg :=
  if q.all (fun x => x == q.getD 0 0) then .uni (BitVec.ofNat 32 (q.getD 0 0))
  else .gen (lanesBy fun l => BitVec.ofNat 32 (q.getD ((lanesOf em).idxOf l) 0))

/-- Each active lane holds the code of its value, be it uniform or not. -/
theorem lane_qntCodes {em : Mask} {q : List Nat} (hq : q.length = (lanesOf em).length) {k : Fin 32} (hk : em.getLsbD k.val = true) :
    (qntCodes em q).lane k = BitVec.ofNat 32 (q.getD ((lanesOf em).idxOf k) 0) := by
  unfold qntCodes
  split
  · next hall =>
    have hi : (lanesOf em).idxOf k < q.length := hq ▸ List.idxOf_lt_length_of_mem (mem_lanesOf.mpr hk)
    have he := List.all_eq_true.mp hall _ (List.getElem_mem hi)
    rw [List.getD_eq_getElem _ _ hi, eq_of_beq he]
    rfl
  · exact lanesBy_get _ k

/-- QNT asks for vD and vD + 1. -/
def qntReq (h : Head) (d : VNum) (a : VSrc) : Req := { vreq h 0x183 d [a] with wv := groupRegs d 2 }

/-- The wave that an accepted QNT leaves, before its pending results are ended. -/
def Wave.quantized (w v : Wave) (d : VNum) (x : Nat × List Nat) : Wave :=
  (v.vwrite d (qntCodes w.em x.2)).vwrite (groupReg d 1) (.uni (BitVec.ofNat 32 x.1))

theorem quantized_fields (w : Wave) (l : List VNum) (d : VNum) (x : Nat × List Nat) :
    w.quantized (w.freeV l) d x = { w with v := (w.quantized (w.freeV l) d x).v } :=
  congrArg (fun u : Wave => { u with v := (w.quantized (w.freeV l) d x).v }) (freeV_fields l w)

/-- An accepted QNT writes codes and scale under the mask, and no other register. -/
theorem quantized_vregs {w v : Wave} (hem : v.em = w.em) (d : VNum) {x : Nat × List Nat} (hx : x.2.length = (lanesOf w.em).length) :
    (∀ k : Fin 32, ((w.quantized v d x).vreg d).lane k =
      if w.em.getLsbD k.val then BitVec.ofNat 32 (x.2.getD ((lanesOf w.em).idxOf k) 0) else (v.vreg d).lane k) ∧
    (∀ k : Fin 32, ((w.quantized v d x).vreg (groupReg d 1)).lane k =
      if w.em.getLsbD k.val then BitVec.ofNat 32 x.1 else (v.vreg (groupReg d 1)).lane k) ∧
    ∀ r, r ≠ d → r ≠ groupReg d 1 → (w.quantized v d x).vreg r = v.vreg r := by
  have hem' (y : VReg) : (v.vwrite d y).em = w.em := hem
  refine ⟨fun k => ?_, fun k => ?_, fun r h0 h1 => ?_⟩
  · rw [Wave.quantized, vreg_vwrite_other _ _ (groupReg_one_ne d).symm, vreg_vwrite_self, hem]
    split_ifs with hk
    · exact lane_qntCodes hx hk
    · rfl
  · rw [Wave.quantized, vreg_vwrite_self, vreg_vwrite_other _ _ (groupReg_one_ne d), hem']
    rfl
  · rw [Wave.quantized, vreg_vwrite_other _ _ h1, vreg_vwrite_other _ _ h0]

theorem qntBlocks : QntBlocks := by
  intro s w h d a fs _ hr
  have hlane : (w.src a).lane = w.laneOf a := funext (src_lane w a)
  intro act x v
  have hx : x = qntBlock (slotElem (s.slotOf w fs)) (act.map (w.laneOf a)) := rfl
  clear_value x
  refine ⟨fun hacc => ?_, fun hrej hd => ?_⟩
  · have hem : v.em = w.em := by rw [show v = w.freeV (frees [a]) from rfl, freeV_fields]
    have hlen : x.2.length = act.length := by rw [hx, qntBlock_length, List.length_map]
    have hu : w.quantized v d x = { w with v := (w.quantized v d x).v } := quantized_fields w _ d x
    have hrun := runs_vregs (q := qntReq h d a) (i := .qnt h d a fs) (v := w.quantized v d x) hr rfl rfl rfl rfl rfl rfl
      (by simp only [hacc, hlane, hx]; rfl) hu rfl rfl
    exact ⟨_, hrun, killDefs_fields hu _ _ _ _, quantized_vregs hem d hlen⟩
  · rw [show exec (.qnt h d a fs) s = issue (qntReq h d a) _ s from rfl,
      issue_body hr.toReady (fits_open hr (qntReq h d a) rfl rfl rfl rfl)]
    simp only [hrej, Bool.not_false, if_true, resState, refit_same]
    rw [takeTrap_enters hd rfl (show 1 < 256 by decide)]
    rfl

/-- Settles O50: compacting keeps the lanes and finds the most compact tag (`squeeze_lane`, `squeeze_tag`), and QNT of an accepted
slot writes codes and scale under the mask (`quantized_vregs`). -/
theorem squeezeAndQuantize : Obligations.SqueezeAndQuantize := ⟨squeezeCompact, qntBlocks⟩

end Sys2Proof.Machine
end

section
/-! PROOF. Deferred results return, and commit under their captured mask at a switch point (O29). -/

namespace Sys2Proof.Machine

/-! ## A result returns (R140) -/

theorem modWhere_split {α : Type} {p : α → Bool} {g : α → α} {f l : List α} {x : α} (hf : ∀ y ∈ f, p y = false)
    (hl : ∀ y ∈ l, p y = false) (hx : p x = true) : modWhere p g (f ++ x :: l) = f ++ g x :: l := by
  have hid {m : List α} (hm : ∀ y ∈ m, p y = false) : m.map (fun y => if p y then g y else y) = m :=
    (List.map_congr_left fun y hy => by simp [hm y hy]).trans (List.map_id m)
  simp [modWhere, hid hf, hid hl, hx]

theorem deferredReturns : DeferredReturns := by
  intro s w d f g hw hd hf hg hr ha hp
  have hf' : ∀ x ∈ f, (x.id == d.id) = false := fun x hx => beq_false_of_ne (hf x hx)
  have hg' : ∀ x ∈ g, (x.id == d.id) = false := fun x hx => beq_false_of_ne (hg x hx)
  have hfind : w.defs.find? (fun x => x.id == d.id) = some d := by
    rw [hd, List.find?_append, List.find?_eq_none.mpr fun x hx => by simp [hf' x hx]]
    simp
  have hacc : s.accs.any (fun a => a.defId == some d.id) = false := List.any_eq_false.mpr fun a h => by simp [ha a h]
  have hgot : d.got.any (fun x => x.poison) = false := List.any_eq_false.mpr fun x h => by simp [hp x h]
  have hmod : modWhere (fun x => x.id == d.id) (fun x => { x with returned := true }) w.defs =
      f ++ { d with returned := true } :: g := hd ▸ modWhere_split hf' hg' (beq_self_eq_true d.id)
  show execDeferredReturn w.uid d.id s = _
  simp only [execDeferredReturn, hw, hfind, hr, hacc, hgot, hmod, Bool.or_self, Bool.false_eq_true, if_false]

/-! ## What came back (R71, R192) -/

/-- A part of a lane comes back once, so its word is all that came back of it. -/
theorem word_eq_came {d : Def} (hp : ∀ x ∈ d.got, x.poison = false)
    (hd : d.got.Pairwise fun x y => (x.lane, x.part) ≠ (y.lane, y.part)) (l : Fin 32) (p : Nat) : d.word l.val p = d.came l p := by
  have hf := hd.filter fun x => x.lane == l.val && x.part == p
  unfold Def.word Def.came
  rw [← List.head?_filter]
  have hm : ∀ x ∈ d.got.filter (fun x => x.lane == l.val && x.part == p), x.poison = false ∧ (x.lane, x.part) = (l.val, p) := by
    intro x hx
    obtain ⟨hx, hk⟩ := List.mem_filter.mp hx
    simp only [Bool.and_eq_true, beq_iff_eq] at hk
    exact ⟨hp x hx, by rw [hk.1, hk.2]⟩
  generalize d.got.filter (fun x => x.lane == l.val && x.part == p) = m at hf hm
  match m with
  | [] => rfl
  | [x] => simp [(hm x (by simp)).1]
  | x :: y :: _ =>
    exact absurd ((hm x (by simp)).2.trans (hm y (by simp)).2.symm) (List.rel_of_pairwise_cons hf (by simp))

theorem poisoned_clean {d : Def} (hp : ∀ x ∈ d.got, x.poison = false) (l : Nat) : d.poisoned l = false :=
  List.any_eq_false.mpr fun x hx => by simp [hp x hx]

/-- A narrow word widened by zeros. -/
theorem setWidth_narrow (n x : Nat) : (BitVec.ofNat n x).setWidth 32 = BitVec.ofNat 32 (x % 2 ^ n) :=
  BitVec.eq_of_toNat_eq (by simp)

theorem loadValue_eq_loadWord (sz : Szt) (b : List Byte) (j : Nat) : loadValue sz b false j = loadWord sz (leVal b) j := by
  cases sz
  case z8 => exact setWidth_narrow 8 _
  case z16 => exact setWidth_narrow 16 _
  all_goals rfl

/-- The lowest lane of a mask that has one. -/
theorem lanesOf_lead {d : Def} {k : Fin 32} (hk : d.mask.getLsbD k.val = true) : ∃ t, lanesOf d.mask = d.lead :: t := by
  have hm : k ∈ lanesOf d.mask := mem_lanesOf.mpr hk
  unfold Def.lead
  cases h : lanesOf d.mask with
  | nil => rw [h] at hm; simp at hm
  | cons a t => exact ⟨t, rfl⟩

/-! ## Registers of a pending result (R79, R141) -/

theorem groupReg_inj {r : VNum} {i j : Nat} (hi : i < 256) (hj : j < 256) (h : groupReg r i = groupReg r j) : i = j := by
  have h := congrArg Fin.val h
  simp only [groupReg] at h
  have := r.isLt
  omega

theorem groupReg_zero (r : VNum) : groupReg r 0 = r := Fin.ext (Nat.mod_eq_of_lt r.isLt)

theorem vput_vreg (w : Wave) (r : VNum) : w.vput r (w.vreg r) = w := by
  simp [Wave.vput, Wave.vreg]

/-- A write to a vector register of a wave changed in such registers alone. -/
theorem vput_fields {w u : Wave} (h : u = { w with v := u.v }) (r : VNum) (x : VReg) :
    u.vput r x = { w with v := (u.vput r x).v } := congrArg (fun y : Wave => { y with v := (u.vput r x).v }) h

theorem dropPendingV_nil {w : Wave} (hs : w.sb = []) (r : VNum) : w.dropPendingV r = w :=
  congrArg (fun l => { w with sb := l }) (show w.sb.map _ = w.sb by rw [hs]; rfl)

theorem dropPendingQ_nil {w : Wave} (hs : w.sb = []) (q : QNum) : w.dropPendingQ q = w :=
  congrArg (fun l => { w with sb := l }) (show w.sb.map _ = w.sb by rw [hs]; rfl)

/-- Where no scoreboarded result is outstanding and no register is dead, a pending result is merged into its register. -/
theorem commitV_merges {w : Wave} {d : Def} (hs : w.sb = []) (hv : d.deadV = []) (r : VNum) (em : Mask) (x : VReg) :
    w.commitV d r em x = w.vput r (mergeMask em (w.vreg r) x) := by
  by_cases he : em = 0
  · simp [Wave.commitV, he, mergeMask, vput_vreg]
  · have hp : w.pendingV r = none := by simp [Wave.pendingV, hs, firstOf]
    simp [Wave.commitV, show em ≠ 0#32 from he, hv, hp, dropPendingV_nil hs]

/-- The results `x` of a pending instruction committed to the first `n` registers of a group. -/
def Wave.commitRegs (w : Wave) (d : Def) (r : VNum) (x : Nat → VReg) (n : Nat) : Wave :=
  (List.range n).foldl (fun w j => w.commitV d (groupReg r j) d.mask (x j)) w

theorem commitRegs_succ (w : Wave) (d : Def) (r : VNum) (x : Nat → VReg) (n : Nat) :
    w.commitRegs d r x (n + 1) = (w.commitRegs d r x n).commitV d (groupReg r n) d.mask (x n) := by
  simp [Wave.commitRegs, List.range_succ]

section
variable {w : Wave} {d : Def} (hs : w.sb = []) (hv : d.deadV = []) (r : VNum) (x : Nat → VReg)
include hs hv

/-- Committing changes vector registers alone. -/
theorem commitRegs_fields (n : Nat) : w.commitRegs d r x n = { w with v := (w.commitRegs d r x n).v } := by
  induction n with
  | zero => rfl
  | succ n ih =>
    have hs' : (w.commitRegs d r x n).sb = [] := by rw [ih]; exact hs
    rw [commitRegs_succ, commitV_merges hs' hv]
    exact vput_fields ih _ _

theorem commitRegs_step (n : Nat) : w.commitRegs d r x (n + 1) =
    (w.commitRegs d r x n).vput (groupReg r n) (mergeMask d.mask ((w.commitRegs d r x n).vreg (groupReg r n)) (x n)) := by
  rw [commitRegs_succ, commitV_merges (by rw [commitRegs_fields hs hv]; exact hs) hv]

theorem commitRegs_other {q : VNum} (n : Nat) (hq : q ∉ groupRegs r n) : (w.commitRegs d r x n).vreg q = w.vreg q := by
  induction n with
  | zero => rfl
  | succ n ih =>
    simp only [groupRegs, List.range_succ, List.map_append, List.mem_append, List.map_cons, List.map_nil, List.mem_singleton,
      not_or] at hq
    rw [commitRegs_step hs hv, vreg_vput_other _ _ _ _ hq.2]
    exact ih hq.1

/-- Each register of the group takes its result under the captured mask. -/
theorem commitRegs_reg {n j : Nat} (hn : n ≤ 256) (hj : j < n) :
    (w.commitRegs d r x n).vreg (groupReg r j) = mergeMask d.mask (w.vreg (groupReg r j)) (x j) := by
  induction n with
  | zero => omega
  | succ n ih =>
    rw [commitRegs_step hs hv]
    by_cases hjn : j = n
    · subst hjn
      rw [vreg_vput_self, commitRegs_other hs hv r x]
      intro hm
      obtain ⟨i, hi, he⟩ := List.mem_map.mp hm
      have hi := List.mem_range.mp hi
      have := groupReg_inj (by omega) (by omega) he
      omega
    · rw [vreg_vput_other _ _ _ _ fun h => hjn (groupReg_inj (by omega) (by omega) h)]
      exact ih (by omega) (by omega)

end

/-- A pending result of a group of registers is committed to each of them. -/
structure GroupOf (d : Def) (w : Wave) (r : VNum) (n : Nat) (x : Nat → VReg) : Prop where
  regs : d.dest.regs = groupRegs r n
  committed : w.applyDef d = w.commitRegs d r x n
  lanes : ∀ j < n, ∀ k : Fin 32, d.mask.getLsbD k.val = true → (x j).lane k = d.gives j k

/-- Every destination but a q register is a group, and takes what came back. -/
theorem groupOf_applyDef {d : Def} (w : Wave) (hl : d.lost = 0) (hp : ∀ x ∈ d.got, x.poison = false)
    (hd : d.got.Pairwise fun x y => (x.lane, x.part) ≠ (y.lane, y.part)) (hq : ∀ q r c f, d.dest ≠ .qload q r c f) :
    ∃ r n x, GroupOf d w r n x := by
  have hm : d.mask &&& ~~~d.lost = d.mask := by rw [hl]; exact BitVec.and_allOnes
  have hword := word_eq_came hp hd
  cases hdest : d.dest with
  | vload r sz same =>
    refine ⟨r, sz.regs, _, by rw [hdest]; rfl, by simp only [Wave.applyDef, hdest, hm]; rfl, fun j _ k hk => ?_⟩
    obtain ⟨t, ht⟩ := lanesOf_lead hk
    simp only [Def.gives, hdest, poisoned_clean hp, loadValue_eq_loadWord, ht]
    cases same
    · exact lanesBy_get _ k
    · rfl
  | vatom r =>
    refine ⟨r, 1, fun _ => .gen (lanesBy fun l => d.word l.val 0), by simp [hdest, DefDest.regs, groupRegs, groupReg_zero],
      by simp [Wave.applyDef, hdest, hm, Wave.commitRegs, groupReg_zero], fun j hj k _ => ?_⟩
    obtain rfl : j = 0 := by omega
    simp only [Def.gives, hdest]
    exact (lanesBy_get _ k).trans (hword k 0)
  | qload q r c f => exact absurd hdest (hq q r c f)
  | tile r n =>
    refine ⟨r, n, _, by rw [hdest]; rfl, by simp only [Wave.applyDef, hdest, hm]; rfl, fun j _ k _ => ?_⟩
    simp only [Def.gives, hdest, poisoned_clean hp, Bool.false_eq_true, if_false]
    exact (lanesBy_get _ k).trans (hword k j)

/-! ## Matrices of a pending result (R217, R222) -/

theorem getD_laneMatrix (q : QReg) (l : Fin 32) (k : Nat) : (laneMatrix q l).getD k 0 = (q.elems.getD k (splat 0))[l.val] := by
  have h0 : (splat 0)[l.val] = (0 : W32) := by simp [splat]
  refine (congrArg ((laneMatrix q l).getD k) h0.symm).trans ?_
  exact List.getD_map _ _ (fun e : Lanes => e[l.val])

theorem full_active (l : Fin 32) : (0xFFFFFFFF : Mask).getLsbD l.val = true := by
  revert l
  decide

/-- A mask with some lanes but not all makes a general register, lane by lane. -/
theorem mergeQ_partial {em : Mask} (h0 : em ≠ 0) (hf : em ≠ 0xFFFFFFFF) (old new : QReg) : mergeQ em old new =
    { rows := new.rows, cols := new.cols, general := true,
      elems := (List.range new.elems.length).map fun k => lanesBy fun l => if em.getLsbD l.val then (new.elems.getD k (splat 0))[l.val]
        else (if old.rows = 0 then splat 0 else old.elems.getD k (splat 0))[l.val],
      status := Vector.ofFn fun l => if em.getLsbD l.val then new.status[l.val]
        else if old.rows = 0 then .none else old.status[l.val] } := by
  rw [mergeQ, if_neg h0, if_neg hf]

/-- Merging a matrix under a mask (R217, R218). -/
theorem mergeQ_merged {c : QCall} {em : Mask} {old new : QReg} (hr : new.rows = c.rows) (hc : new.cols = c.cols)
    (he : new.elems.length = c.rows * c.cols)
    (hl : ∀ l : Fin 32, em.getLsbD l.val = true → new.status[l.val] = c.status l ∧
      ∀ k < c.rows * c.cols, (laneMatrix new l).getD k 0 = (c.lane l).getD k 0) : c.Merged em old (mergeQ em old new) := by
  by_cases h0 : em = 0
  · have : mergeQ em old new = old := by simp [mergeQ, h0]
    exact ⟨fun _ => this, fun h => absurd h0 h, fun l h => by simp [h0] at h, fun h => absurd h0 h⟩
  by_cases hf : em = 0xFFFFFFFF
  · have : mergeQ em old new = new := by simp [mergeQ, hf]
    rw [this]
    refine ⟨fun h => absurd h h0, fun _ => ⟨hr, hc⟩, hl, fun _ l h => ?_⟩
    rw [hf, full_active] at h
    exact absurd h (by simp)
  · have hm := mergeQ_partial h0 hf old new
    have hk (l : Fin 32) {k : Nat} (hk : k < c.rows * c.cols) : (laneMatrix (mergeQ em old new) l).getD k 0 =
        if em.getLsbD l.val then (laneMatrix new l).getD k 0 else if old.rows = 0 then 0 else (laneMatrix old l).getD k 0 := by
      simp only [hm, getD_laneMatrix]
      rw [List.getD_eq_getElem _ _ (by simpa [he] using hk), List.getElem_map, List.getElem_range, lanesBy_get]
      split_ifs <;> simp [splat]
    refine ⟨fun h => absurd h h0, fun _ => by rw [hm]; exact ⟨hr, hc⟩, fun l h => ⟨?_, fun k hlt => ?_⟩, fun _ l h => ⟨?_, fun k hlt => ?_⟩⟩
    · rw [hm]
      simp only [Vector.getElem_ofFn, h, if_true, (hl l h).1]
    · rw [hk l hlt, h, if_pos rfl]
      exact (hl l h).2 k hlt
    · rw [hm]
      simp only [Vector.getElem_ofFn, h, Bool.false_eq_true, if_false]
    · rw [hk l hlt, h]
      simp

/-- The matrix that a QLD's elements came back as, in the captured dimensions. -/
def Def.matrix (d : Def) (rows cols : Nat) (same : Bool) : QReg :=
  { rows := rows, cols := cols, general := !same,
    elems := (List.range (rows * cols)).map fun k => if same then splat (d.word d.lead.val k) else lanesBy fun l => d.word l.val k }

theorem getD_matrix (d : Def) {rows cols : Nat} (same : Bool) (l : Fin 32) {k : Nat} (hk : k < rows * cols) :
    (laneMatrix (d.matrix rows cols same) l).getD k 0 = d.word (if same then d.lead else l).val k := by
  rw [getD_laneMatrix, Def.matrix, List.getD_eq_getElem _ _ (by simpa using hk), List.getElem_map, List.getElem_range]
  cases same
  · exact lanesBy_get _ l
  · simp [splat]

theorem qput_qreg (w : Wave) (q : QNum) : w.qput q (w.qreg q) = w := by
  simp [Wave.qput, Wave.qreg]

theorem exists_active {em : Mask} (h : em ≠ 0) : ∃ k : Fin 32, em.getLsbD k.val = true := by
  by_contra hc
  refine h (BitVec.eq_of_getLsbD_eq fun i hi => ?_)
  have := not_exists.mp hc ⟨i, hi⟩
  simpa using this

/-- A returned QLD is merged into its register. -/
theorem applyDef_qload {w : Wave} {d : Def} {q : QNum} {rows cols : Nat} {same : Bool} (hs : w.sb = []) (hq : d.deadQ = false)
    (hl : d.lost = 0) (hd : d.dest = .qload q rows cols same) :
    w.applyDef d = w.qput q (mergeQ d.mask (w.qreg q) (d.matrix rows cols same)) := by
  have hm : d.mask &&& ~~~d.lost = d.mask := by rw [hl]; exact BitVec.and_allOnes
  simp only [Wave.applyDef, hd, hm, hq, Bool.false_or]
  by_cases h0 : d.mask = 0
  · simp [h0, mergeQ, qput_qreg]
  · obtain ⟨k, hk⟩ := exists_active h0
    obtain ⟨t, ht⟩ := lanesOf_lead hk
    have hp : w.pendingQ q = none := by simp [Wave.pendingQ, hs, firstOf]
    simp only [beq_false_of_ne h0, hp, ht, dropPendingQ_nil hs, Bool.false_eq_true, if_false, Def.matrix]

/-- The call whose result a returned QLD is. -/
def Def.call (d : Def) (h : Head) (q : QNum) (r c : Nat) (f : Bool) : QCall :=
  { head := h, fq := [], src := [], dst := q, rows := r, cols := c, fits := True,
    lane := fun l => (List.range (r * c)).map (fun k => d.came (if f then d.lead else l) k) }

theorem getD_call (d : Def) (h : Head) (q : QNum) {r c : Nat} (f : Bool) (l : Fin 32) {k : Nat} (hk : k < r * c) :
    ((d.call h q r c f).lane l).getD k 0 = d.came (if f then d.lead else l) k := by
  rw [Def.call, List.getD_eq_getElem _ _ (by simpa using hk), List.getElem_map, List.getElem_range]

/-! ## A pending result commits (R141) -/

/-- Wave `u` is `w` with pending result `d` committed under its captured mask. -/
structure Committed (d : Def) (h : Head) (w u : Wave) : Prop where
  fields : u = { w with v := u.v, q := u.q }
  kept : ∀ r, r ∉ d.dest.regs → u.vreg r = w.vreg r
  lanes : ∀ j < d.dest.regs.length, ∀ k : Fin 32, (u.vreg (d.dest.regs.getD j 0)).lane k =
    if d.mask.getLsbD k.val then d.gives j k else (w.vreg (d.dest.regs.getD j 0)).lane k
  qkept : ∀ q, (∀ r c f, d.dest ≠ .qload q r c f) → u.qreg q = w.qreg q
  matrix : ∀ q r c f, d.dest = .qload q r c f → (d.call h q r c f).Merged d.mask (w.qreg q) (u.qreg q)

/-- A result that came back whole, which nothing has overwritten (R140, R141). -/
structure Whole (d : Def) : Prop where
  found : d.lost = 0
  deadV : d.deadV = []
  deadQ : d.deadQ = false
  clean : ∀ x ∈ d.got, x.poison = false
  parts : d.got.Pairwise fun x y => (x.lane, x.part) ≠ (y.lane, y.part)
  group : d.dest.regs.length ≤ 256

theorem applyDef_commits {w : Wave} {d : Def} (h : Head) (hs : w.sb = []) (hw : Whole d) : Committed d h w (w.applyDef d) := by
  by_cases hq : ∃ q r c f, d.dest = .qload q r c f
  · obtain ⟨q, r, c, f, hd⟩ := hq
    rw [applyDef_qload hs hw.deadQ hw.found hd]
    have hregs : d.dest.regs = [] := by rw [hd]; rfl
    refine ⟨rfl, fun _ _ => rfl, fun j hj => by simp [hregs] at hj, fun p hp => ?_, fun p r' c' f' hd' => ?_⟩
    · exact qreg_qput_other w q p _ fun e => hp r c f (e ▸ hd)
    · obtain ⟨rfl, rfl, rfl, rfl⟩ := DefDest.qload.inj (hd.symm.trans hd')
      rw [qreg_qput_self]
      refine mergeQ_merged rfl rfl (by simp [Def.matrix, Def.call]) fun l _ => ⟨by simp [Def.matrix, Def.call], fun k hk => ?_⟩
      have hk : k < r * c := hk
      rw [getD_matrix d f l hk, getD_call d h q f l hk, word_eq_came hw.clean hw.parts]
  · have hq (q : QNum) (r c : Nat) (f : Bool) : d.dest ≠ .qload q r c f := fun e => hq ⟨q, r, c, f, e⟩
    obtain ⟨r, n, x, hregs, hc, hx⟩ := groupOf_applyDef w hw.found hw.clean hw.parts hq
    have hn : n ≤ 256 := by simpa [hregs, groupRegs] using hw.group
    have hfields := commitRegs_fields hs hw.deadV r x n
    rw [hc]
    refine ⟨?_, fun q hq' => commitRegs_other hs hw.deadV r x n (hregs ▸ hq'), fun j hj k => ?_, fun q _ => ?_,
      fun q r c f e => absurd e (hq q r c f)⟩
    · exact hfields.trans (by rw [hfields])
    · have hj : j < n := by simpa [hregs, groupRegs] using hj
      have hg : d.dest.regs.getD j 0 = groupReg r j := by
        rw [hregs, groupRegs, List.getD_eq_getElem _ _ (by simpa using hj), List.getElem_map, List.getElem_range]
      rw [hg, commitRegs_reg hs hw.deadV r x hn hj, lane_mergeMask]
      split_ifs with hk
      · exact hx j hj k hk
      · rfl
    · rw [hfields]
      rfl

/-! ## The switch point (R140) -/

theorem inSpill_congr {w u : Wave} (h : u.spillPa = w.spillPa) (a : Nat) : inSpill u a ↔ inSpill w a := by
  simp only [inSpill, h]

/-- Two steps that touch one wave alone. -/
theorem Only.trans {s t r : State} {w u : Wave} (h : Only s t w) (h' : Only t r u) (hu : u.uid = w.uid) (hc : u.core = w.core)
    (hp : u.spillPa = w.spillPa) : Only s r w := by
  have hin := inSpill_congr hp
  obtain ⟨rest, marks, others, bytes, far, near⟩ := h
  obtain ⟨rest', marks', others', bytes', far', near'⟩ := h'
  refine ⟨by rw [rest', rest], fun x hx => ?_, fun x hx => ?_, fun a ha => ?_, fun c hx => ?_, ?_⟩
  · exact (marks' x fun b hb => (hin _).not.mpr (hx b hb)).trans (marks x hx)
  · exact (others' x (hu ▸ hx)).trans (others x hx)
  · exact (bytes' a ((hin a).not.mpr ha)).trans (bytes a ha)
  · exact (far' c (hc ▸ hx)).trans (far c hx)
  · rw [hc] at near'
    rw [near', near]

/-- A step on one wave brings no poison to it. -/
theorem Only.clean {s t : State} {w : Wave} (h : Only s t w) (hc : ∀ u ∈ s.poison, unitWave u ≠ some w.uid) :
    ∀ u ∈ t.poison, unitWave u ≠ some w.uid := fun u hu he =>
  hc u ((h.marks u fun b hb => by rw [hb] at he; exact absurd he (by simp [unitWave])).mp hu) he

theorem cleanWords_clean {s : State} {w : Wave} (hc : ∀ u ∈ s.poison, unitWave u ≠ some w.uid) (em : Mask) (vs : List VNum)
    (qs : List QNum) : s.cleanWords w em vs qs = s := by
  have hf : s.poison.filter (fun p => !w.rewrites em vs qs p) = s.poison := List.filter_eq_self.mpr fun u hu => by
    have := hc u hu
    cases u <;> simp_all [Wave.rewrites, unitWave]
  exact congrArg (fun p => { s with poison := p }) hf

theorem near_of_ports {k l : CoreSt} (h : k = { l with ports := k.ports }) :
    k = { l with ports := k.ports, window := k.window, idle := k.idle } := by
  rw [h]

/-- A wave's one pending result commits: the wave takes it, and beside it latches and spill copies change (R130, R141, R288). -/
theorem commitNow_one {s : State} {w : Wave} {d : Def} (hd : w.defs = [d]) (hl : d.lost = 0) (hs : w.spilled = [])
    (hc : ∀ u ∈ s.poison, unitWave u ≠ some w.uid) (hf : w.applyDef d = { w with v := (w.applyDef d).v, q := (w.applyDef d).q }) :
    ∃ t l o, s.commitNow w = (t, { w.applyDef d with defs := [], spilled := l, lru := o }) ∧ Only s t w ∧ t.waves = s.waves := by
  have hfault : w.commitFaults = { w.applyDef d with defs := [] } := by
    simp [Wave.commitFaults, Wave.commit, hd, Def.fault, hl]
  obtain ⟨u1, u2, u3⟩ := unlatch_only s w d.regs
  have hclean : (s.unlatch w d.regs).cleanWords w (d.mask &&& ~~~d.lost) d.regs d.qregs = s.unlatch w d.regs :=
    cleanWords_clean (by rw [u1]; exact hc) _ _ _
  simp only [State.commitNow, hd, List.isEmpty_cons, Bool.false_eq_true, if_false, State.commitAll, List.flatMap_cons, List.flatMap_nil,
    List.append_nil, List.foldl_cons, List.foldl_nil, hclean, refill_whole _ w _ (fun r _ => by simp [hs]), hfault]
  obtain ⟨m, l, ps, e, hm, hp⟩ := spillFit_spec 256 (s.unlatch w d.regs) (Wave.touch { w.applyDef d with
    defs := [], spilled := (w.applyDef d).spilled.filter fun r => !d.regs.contains r } d.regs)
  have hin := inSpill_congr (u := w.applyDef d) (w := w) (by rw [hf])
  refine ⟨_, l, _, e, ⟨by rw [u1], fun u hu => ?_, fun u _ => by rw [u1]; rfl, fun a ha => ?_, u2,
    near_of_ports u3⟩, by rw [u1]⟩
  · exact (hp u fun b hb => (hin _).not.mpr (hu b hb)).trans (by rw [u1])
  · exact (hm a ((hin a).not.mpr ha)).trans (by rw [u1])

/-- NOPW with no result outstanding: its body waits for nothing. -/
theorem nopw_body {h : Head} {s : State} {w : Wave} (hs : w.sb = []) :
    issueBody (creq h 0x02B []) (fun s _ v => .ok s v true) s w = finish (creq h 0x02B []) s w w true (w.pc + 8) := by
  have hdep : w.depends (s.clkOf w.core) (creq h 0x02B []) = false := by simp [Wave.depends, hs]
  have hside : s.sideHolds w (creq h 0x02B []) = false := List.any_eq_false.mpr fun e _ => by simp [creq]
  have hunit : s.unitBusy w 0x02B true = false := rfl
  have hrefill : refill s w ((creq h 0x02B []).rv ++ (if (w.em != 0xFFFFFFFF && w.em != 0 && !(creq h 0x02B []).ignoreEm) then
      (creq h 0x02B []).wv else [])) = (s, w) := refill_whole s w _ fun r hr => by simp [creq] at hr
  simp only [issueBody, hdep, hside, runBody, hrefill]
  rfl

/-- NOPW.y passes its switch point once the pending result has committed. -/
theorem nopw_commits {h : Head} {s : State} {w : Wave} {d : Def} (hw : s.wave? s.cur = some w) (hy : h.y = true)
    (hg : guardPasses h.guard w = true) (hc : ∀ u ∈ s.poison, unitWave u ≠ some w.uid) (hb : s.breakpoint w false = none)
    (hs : w.sb = []) (hd : w.defs = [d]) (hr : d.returned = true) {t : State} {u : Wave} (hu : s.commitNow w = (t, u))
    (hp : u.pends = []) :
    exec (.nopw h) s = .next (issueBody (creq h 0x02B []) (fun s _ v => .ok s v true) t u) := by
  have hmay : s.mayCommit w = true := by simp [State.mayCommit, Wave.returned, hd, hr, hs]
  show issue (creq h 0x02B []) _ s = _
  simp only [issue, hw, issueWave, poisonedS_clean s w _ hc, hb, ite_self, guarded, atSwitch, hmay, hu, hp]
  simp [creq, privOpc, hg, hy]

/-- A wave that has gone on from a commit. -/
theorem same_of_commit {w u x : Wave} {l : List VNum} {o : List VNum}
    (h : u = { w with v := u.v, q := u.q, defs := [], spilled := l, lru := o }) (hx : x.same { u with pc := u.pc + 8 }) :
    x.same { w with v := x.v, q := x.q, defs := [], pc := w.pc + 8 } := by
  unfold Wave.same at hx ⊢
  have hv : x.v = u.v := by rw [hx]
  have hq : x.q = u.q := by rw [hx]
  have hpc : u.pc = w.pc := by rw [h]
  rw [hv, hq, ← hpc]
  exact hx.trans (congrArg (fun y : Wave => { y with
    pc := u.pc + 8, hold := x.hold, ready := x.ready, weights := x.weights, exempt := x.exempt, step := x.step, lru := x.lru,
    spilled := x.spilled }) h)

theorem switchCommits : SwitchCommits := by
  intro s w h d hw hy hg hc _ hb hi hs hsp hp hd hr hl hv hq hgot hpart hlen
  obtain ⟨hf, hkept, hlanes, hqkept, hmat⟩ := applyDef_commits h hs ⟨hl, hv, hq, hgot, hpart, hlen⟩
  obtain ⟨t, l, o, hcommit, honly, hwaves⟩ := commitNow_one hd hl hsp hc hf
  generalize hu : ({ w.applyDef d with defs := [], spilled := l, lru := o } : Wave) = u at hcommit
  have hu' : u = { w with v := u.v, q := u.q, defs := [], spilled := l, lru := o } := by rw [← hu, hf]
  have huid : u.uid = w.uid := by rw [hu']
  have hwave : t.wave? u.uid = some w := by
    rw [huid, State.wave?, hwaves, ← State.wave?, wave_uid hw, hw]
  have hclean : ∀ x ∈ t.poison, unitWave x ≠ some u.uid := huid ▸ honly.clean hc
  obtain ⟨w', h1, h2, h3⟩ := finish_only (creq h 0x02B []) t u u true (u.pc + 8) hclean rfl rfl rfl (by rw [hwave]; rfl)
  rw [ended_nowrite (creq h 0x02B []) u u _ rfl (by rw [hu']; exact hi) rfl rfl rfl] at h2
  have hreg (r : VNum) : w'.vreg r = (w.applyDef d).vreg r := by rw [h2, ← hu]; rfl
  have hqreg (q : QNum) : w'.qreg q = (w.applyDef d).qreg q := by rw [h2, ← hu]; rfl
  refine ⟨_, w', (nopw_commits hw hy hg hc hb hs hd hr hcommit (by rw [hu']; exact hp)).trans
    (by rw [nopw_body (by rw [hu']; exact hs)]), ?_, honly.trans h3 huid (by rw [hu']) (by rw [hu']), ?_, ?_, ?_, ?_, ?_⟩
  · rw [← wave_uid hw, ← huid]
    exact h1
  · exact same_of_commit hu' h2
  · exact fun r hr => (hreg r).trans (hkept r hr)
  · exact fun j hj k => by rw [hreg]; exact hlanes j hj k
  · exact fun q hq => (hqreg q).trans (hqkept q hq)
  · exact fun q r c f hdest => by rw [hqreg]; exact hmat q r c f hdest

/-- Settles O29: the one pending result is committed register by register or as a matrix (`applyDef_commits`), the state around it
changes as `commitNow_one` says, and NOPW goes on from there (`nopw_body`). -/
theorem deferredCommit : Obligations.DeferredCommit := ⟨deferredReturns, switchCommits⟩

end Sys2Proof.Machine
end

section
/-! PROOF. Scalar instructions write sD and change nothing else (O1). -/

namespace Sys2Proof.Machine

section
variable {k : Nat}

/-! ## Words as integers and bit by bit (R154) -/

/-- The high half of a signed product of two words. -/
theorem mulHigh_eq_ofInt (x y : Word) : mulHigh x y = BitVec.ofInt 64 (x.toInt * y.toInt / 2 ^ 64) := by
  have hp : x.signExtend 128 * y.signExtend 128 = BitVec.ofInt 128 (x.toInt * y.toInt) := (BitVec.ofInt_mul _ _).symm
  rw [mulHigh, hp]
  generalize x.toInt * y.toInt = m
  apply BitVec.eq_of_toNat_eq
  simp only [BitVec.toNat_setWidth, BitVec.toNat_ushiftRight, BitVec.toNat_ofInt, Nat.shiftRight_eq_div_pow, Nat.reducePow]
  omega

theorem divTrunc_eq_ofInt (x y : BitVec k) : divTrunc x y = BitVec.ofInt k (Int.tdiv x.toInt y.toInt) := by
  unfold divTrunc
  split
  · next h => simp [h]
  · rfl

theorem remTrunc_eq_ofInt (x y : BitVec k) : remTrunc x y = BitVec.ofInt k (Int.tmod x.toInt y.toInt) := by
  have h : x.toInt = y.toInt * Int.tdiv x.toInt y.toInt + Int.tmod x.toInt y.toInt := (Int.mul_tdiv_add_tmod ..).symm
  have hx : x = BitVec.ofInt k (Int.tdiv x.toInt y.toInt) * y + BitVec.ofInt k (Int.tmod x.toInt y.toInt) := by
    conv_lhs => rw [← BitVec.ofInt_toInt (x := x), h, BitVec.ofInt_add, BitVec.ofInt_mul, BitVec.ofInt_toInt, BitVec.mul_comm]
  rw [remTrunc, divTrunc_eq_ofInt]
  conv_lhs => lhs; rw [hx]
  rw [BitVec.add_comm, BitVec.add_sub_cancel]

theorem trailingZeros_eq_find (x : BitVec k) : ∀ n i, trailingZeros x i n =
    ((List.range n).find? (fun j => x.getLsbD (i + j))).getD n
  | 0, _ => rfl
  | n + 1, i => by
    have hs : (fun j => x.getLsbD (i + j)) ∘ Nat.succ = fun j => x.getLsbD (i + 1 + j) := by
      funext j
      simp only [Function.comp_apply, Nat.succ_eq_add_one, Nat.add_left_comm, Nat.add_comm]
    rw [trailingZeros, trailingZeros_eq_find x n, List.range_succ_eq_map, List.find?_cons]
    simp only [Nat.add_zero, List.find?_map, hs]
    cases x.getLsbD i with
    | true => rfl
    | false => cases (List.range n).find? (fun j => x.getLsbD (i + 1 + j)) <;> rfl

theorem slui_eq_ofNat (x : Word) (imm : BitVec 24) : luiValue x imm = BitVec.ofNat 64 (x.toNat * 2 ^ 24 + imm.toNat) := by
  rw [luiValue, BitVec.ofNat_add, ← shiftLeft_eq_ofNat]
  congr 1
  exact BitVec.eq_of_toNat_eq (by simp)

theorem intCompare_eq_ccHolds (cc : Cc) (a b : Word) : intCompare cc a b = ccHolds cc a b := by
  cases cc with
  | eq => simp [intCompare, ccHolds, BitVec.toNat_eq, Bool.beq_eq_decide_eq]
  | ne => simp [intCompare, ccHolds, BitVec.toNat_eq, bne, Bool.beq_eq_decide_eq]
  | lt | le | gt | ge | ltu | leu | gtu | geu | un => rfl

end

/-! ## Instructions with one scalar destination -/

section
variable {i : Instr} {s : State} {w : Wave} {h : Head} {d : SReg} {x : Word} {opc : Nat}

/-- An instruction whose body writes a value read from its wave to sD alone. -/
theorem sset_runs {rs : List SReg} {g : Wave → Word} (hr : Ready h s w)
    (he : exec i s = issue { h := h, opc := opc, len := 8, rs := rs, ws := [d] } (fun s w v => .ok s (v.sset d (g w)) true) s)
    (hp : plainOpc opc = true) (hx : g w = x) : Runs i s w { w.sset d x with pc := w.pc + 8 } := by
  obtain ⟨t, w', h1, h2, h3, h4⟩ := issue_sset hr opc rs d g hp
  exact ⟨t, w', he.trans h1, h2, hx ▸ h3, h4⟩

theorem scalar1_runs {a : SReg} (f : Word → Word) (hr : Ready h s w) (he : exec i s = scalar1 h opc d a f s)
    (hp : plainOpc opc = true) (hx : f (w.sget a) = x) : Runs i s w { w.sset d x with pc := w.pc + 8 } :=
  sset_runs (g := fun w => f (w.sget a)) hr he hp hx

theorem scalar2_runs {a b : SReg} (f : Word → Word → Word) (hr : Ready h s w) (he : exec i s = scalar2 h opc d a b f s)
    (hp : plainOpc opc = true) (hx : f (w.sget a) (w.sget b) = x) : Runs i s w { w.sset d x with pc := w.pc + 8 } :=
  sset_runs (g := fun w => f (w.sget a) (w.sget b)) hr he hp hx

end

theorem scalar_runs {i : Instr} {s : State} {w : Wave} {h : Head} {d : SReg} {x : Word} (hwf : i.wf = true)
    (hf : scalarResult w i = some (h, d, x)) (hr : Ready h s w) : Runs i s w { w.sset d x with pc := w.pc + 8 } := by
  cases i <;> cases hf
  case smov => exact scalar1_runs id hr rfl rfl rfl
  case smovi imm => exact sset_runs (g := fun _ => imm.signExtend 64) hr rfl rfl rfl
  case slui imm => exact scalar1_runs (luiValue · imm) hr rfl rfl (slui_eq_ofNat _ _)
  case sadd => exact scalar2_runs (· + ·) hr rfl rfl (add_eq_ofInt _ _)
  case saddImm imm => exact scalar1_runs (· + imm.signExtend 64) hr rfl rfl (by rw [BitVec.ofInt_add, BitVec.ofInt_toInt]; rfl)
  case ssub => exact scalar2_runs (· - ·) hr rfl rfl (sub_eq_ofInt _ _)
  case smul => exact scalar2_runs (· * ·) hr rfl rfl (mul_eq_ofInt _ _)
  case smulh => exact scalar2_runs mulHigh hr rfl rfl (mulHigh_eq_ofInt _ _)
  case sdiv => exact scalar2_runs divTrunc hr rfl rfl (divTrunc_eq_ofInt _ _)
  case srem => exact scalar2_runs remTrunc hr rfl rfl (remTrunc_eq_ofInt _ _)
  case sand => exact scalar2_runs (· &&& ·) hr rfl rfl rfl
  case sor => exact scalar2_runs (· ||| ·) hr rfl rfl rfl
  case sxor => exact scalar2_runs (· ^^^ ·) hr rfl rfl rfl
  case sandImm imm => exact scalar1_runs (· &&& imm.signExtend 64) hr rfl rfl rfl
  case sorImm imm => exact scalar1_runs (· ||| imm.signExtend 64) hr rfl rfl rfl
  case sxorImm imm => exact scalar1_runs (· ^^^ imm.signExtend 64) hr rfl rfl rfl
  case sshl => exact scalar2_runs (fun x y => x <<< amount6 y) hr rfl rfl (shiftLeft_eq_ofNat _ _)
  case sshlImm imm => exact scalar1_runs (· <<< amount6 imm) hr rfl rfl (shiftLeft_eq_ofNat _ _)
  case sshr => exact scalar2_runs (fun x y => x >>> amount6 y) hr rfl rfl (shiftRight_eq_ofNat _ _)
  case sshrImm imm => exact scalar1_runs (· >>> amount6 imm) hr rfl rfl (shiftRight_eq_ofNat _ _)
  case ssar => exact scalar2_runs (fun x y => x.sshiftRight (amount6 y)) hr rfl rfl (sshiftRight_eq_ofInt _ _)
  case ssarImm imm => exact scalar1_runs (·.sshiftRight (amount6 imm)) hr rfl rfl (sshiftRight_eq_ofInt _ _)
  case smin => exact scalar2_runs minS hr rfl rfl (minS_eq_ofInt _ _)
  case smax => exact scalar2_runs maxS hr rfl rfl (maxS_eq_ofInt _ _)
  case scmp cc => exact scalar2_runs (fun x y => boolWord (intCompare cc x y)) hr rfl rfl (by rw [intCompare_eq_ccHolds]; rfl)
  case ssel a b sc =>
    exact sset_runs (g := fun w => if w.sget sc ≠ 0 then w.sget a else w.sget b) hr rfl rfl (ite_not ..)
  case sbfx pos wid =>
    exact scalar1_runs (bitField · pos.val wid.val) hr rfl rfl (bitField_eq_ofNat _ _ (Nat.le_of_lt_succ wid.isLt))
  case sbfi pos wid =>
    simp only [Instr.wf, fieldFits, Bool.and_eq_true, decide_eq_true_eq] at hwf
    exact scalar2_runs (fun x old => bitInsert old x pos.val wid.val) hr rfl rfl (bitInsert_eq_ofFnLE _ _ hwf.2)
  case spopc => exact scalar1_runs (fun x => BitVec.ofNat 64 (popCount x)) hr rfl rfl (congrArg _ (popUpTo_eq_countP _ 64))
  case sclz => exact scalar1_runs (fun x => BitVec.ofNat 64 (leadingZeros x 64)) hr rfl rfl (congrArg _ (leadingZeros_eq_find _ 64))
  case sctz =>
    exact scalar1_runs (fun x => BitVec.ofNat 64 (trailingZeros x 0 64)) hr rfl rfl
      (by rw [trailingZeros_eq_find]; simp only [Nat.zero_add])

/-- Settles O1: each instruction's request and value (`scalar_runs`), from what the word operations come to on integers. -/
theorem scalarResults : Obligations.ScalarResults := fun _ _ _ _ _ _ hwf hf hr => scalar_runs hwf hf hr

end Sys2Proof.Machine
end

section
/-! PROOF. Results outstanding for 24 cycles (O4), and the shapes of results (O3). -/

namespace Sys2Proof.Machine

/-! ## Uniform values (R133, R134) -/

theorem isUni_of_tag {v : VReg} (h : v.tag = 0) : v.isUni = true := by cases v <;> simp_all [VReg.isUni, VReg.tag]

theorem uni_cases {v : VReg} (h : v.isUni = true) : v = .none ∨ ∃ u, v = .uni u := by cases v <;> simp_all [VReg.isUni]

theorem norm_uni {v : VReg} (h : v.isUni = true) : v.norm = .uni (v.lane 0) := by
  obtain rfl | ⟨u, rfl⟩ := uni_cases h <;> rfl

theorem lift1_uni (f : W32 → W32) {a : VReg} (ha : a.isUni = true) : lift1 f a = .uni (f (a.lane 0)) := by
  obtain rfl | ⟨u, rfl⟩ := uni_cases ha <;> rfl

theorem lift2_uni (f : W32 → W32 → W32) {a b : VReg} (ha : a.isUni = true) (hb : b.isUni = true) :
    lift2 f a b = .uni (f (a.lane 0) (b.lane 0)) := by rw [lift2, ha, hb]; rfl

theorem lift3_uni (f : W32 → W32 → W32 → W32) {a b c : VReg} (ha : a.isUni = true) (hb : b.isUni = true) (hc : c.isUni = true) :
    lift3 f a b c = .uni (f (a.lane 0) (b.lane 0) (c.lane 0)) := by rw [lift3, ha, hb, hc]; rfl

/-- A shape rule gives a uniform result wherever its sources are uniform (R134). -/
def Keeps1 (g : VReg → VReg) : Prop := ∀ a, a.isUni = true → (g a).isUni = true
def Keeps2 (g : VReg → VReg → VReg) : Prop := ∀ a b, a.isUni = true → b.isUni = true → (g a b).isUni = true
def Keeps3 (g : VReg → VReg → VReg → VReg) : Prop :=
  ∀ a b c, a.isUni = true → b.isUni = true → c.isUni = true → (g a b c).isUni = true

theorem lift1_keeps (f : W32 → W32) : Keeps1 (lift1 f) := fun _ ha => by rw [lift1_uni f ha]; rfl

theorem lift2_keeps (f : W32 → W32 → W32) : Keeps2 (lift2 f) := fun _ _ ha hb => by rw [lift2_uni f ha hb]; rfl

theorem lift3_keeps (f : W32 → W32 → W32 → W32) : Keeps3 (lift3 f) := fun _ _ _ ha hb hc => by rw [lift3_uni f ha hb hc]; rfl

theorem vMov_keeps : Keeps1 vMov := fun _ ha => by rw [vMov, norm_uni ha]; rfl

theorem vNeg_keeps : Keeps1 vNeg := fun a ha => by obtain rfl | ⟨x, rfl⟩ := uni_cases ha <;> rfl

theorem vAdd_keeps : Keeps2 vAdd := fun a b ha hb => by
  obtain rfl | ⟨x, rfl⟩ := uni_cases ha <;> obtain rfl | ⟨y, rfl⟩ := uni_cases hb <;> rfl

theorem vSub_keeps : Keeps2 vSub := fun a b ha hb => by
  obtain rfl | ⟨x, rfl⟩ := uni_cases ha <;> obtain rfl | ⟨y, rfl⟩ := uni_cases hb <;> rfl

theorem vMul_keeps : Keeps2 vMul := fun a b ha hb => by
  obtain rfl | ⟨x, rfl⟩ := uni_cases ha <;> obtain rfl | ⟨y, rfl⟩ := uni_cases hb <;> rfl

theorem vShl_keeps : Keeps2 vShl := fun a b ha hb => by
  obtain rfl | ⟨x, rfl⟩ := uni_cases ha <;> obtain rfl | ⟨y, rfl⟩ := uni_cases hb <;> rfl

theorem vMad_keeps : Keeps3 vMad := fun a b c ha hb hc => by
  obtain rfl | ⟨x, rfl⟩ := uni_cases ha <;> obtain rfl | ⟨y, rfl⟩ := uni_cases hb <;>
    obtain rfl | ⟨z, rfl⟩ := uni_cases hc <;> rfl

/-! ## What a write under the mask leaves (R135) -/

theorem mergeMask_none (old new : VReg) : mergeMask 0 old new = old := rfl

theorem mergeMask_full (old new : VReg) : mergeMask 0xFFFFFFFF old new = new := rfl

theorem mergeMask_partial {em : Mask} (h : em ≠ 0) (hf : em ≠ 0xFFFFFFFF) (old new : VReg) : (mergeMask em old new).tag = 2 := by
  rw [mergeMask, if_neg h, if_neg hf]; rfl

theorem merged_full {w : Wave} (h : w.em = 0xFFFFFFFF) (l : List VNum) (d : VNum) (f : Fin 32 → W32) (k : Fin 32) :
    w.merged l d f k = f k := by
  have hall : ∀ k : Fin 32, (0xFFFFFFFF#32).getLsbD k.val = true := by decide
  rw [Wave.merged, h]
  exact if_pos (hall k)

/-- Under an em of 0 a write that leaves the destination as it stands leaves the frees alone. -/
theorem wrote_none {w : Wave} (h : w.em = 0) (l : List VNum) (d : VNum) :
    w.wrote l d ((w.freeV l).vreg d) = { w.freeV l with pc := w.pc + 16 } := by
  rw [Wave.wrote, if_pos h, killDefs_nil, vput_vreg]

theorem wrote_vreg (w : Wave) (l : List VNum) (d : VNum) (r : VReg) : (w.wrote l d r).vreg d = r := by
  simp [Wave.wrote, Wave.vreg, Wave.vput, Wave.killDefs]

theorem same_vreg {x y : Wave} (h : x.same y) (d : VNum) : x.vreg d = y.vreg d := by
  rw [Wave.same] at h
  rw [h]
  rfl

/-- What an instruction leaves in its destination is determined. -/
theorem runs_wrote_unique {i : Instr} {s : State} {w : Wave} {l : List VNum} {d : VNum} {r q : VReg}
    (h : Runs i s w (w.wrote l d r)) (h' : Runs i s w (w.wrote l d q)) : r = q := by
  obtain ⟨t, x, he, hx, hs, -⟩ := h
  obtain ⟨t', x', he', hx', hs', -⟩ := h'
  obtain rfl : t = t' := by simpa [he] using he'
  obtain rfl : x = x' := by simpa [hx] using hx'
  rw [← wrote_vreg w l d r, ← wrote_vreg w l d q, ← same_vreg hs, same_vreg hs']

/-! ## Instructions with one vector destination -/

/-- Instruction `i` completes with `x` written to vD under the mask, and changes nothing else (R135, R79). -/
def WritesValue (i : Instr) (s : State) (w : Wave) (l : List VNum) (d : VNum) (x : VReg) : Prop :=
  Runs i s w (w.wrote l d (mergeMask w.em ((w.freeV l).vreg d) x.norm))

/-- A request that differs from the V-form's in what it reads and frees alone, and a body that writes `x` under the mask. -/
theorem writesValue_of {i : Instr} {q : Req} {body : Body} {s : State} {w : Wave} {d : VNum} {x : VReg} {sp : Bool}
    (hr : Open q.h s w) (he : exec i s = issue q body s)
    (hq : q = { vreq q.h q.opc d [] with rs := q.rs, rv := q.rv, fv := q.fv, uses := q.uses }) (hp : plainOpc q.opc = true)
    (hb : body s w (w.freeV q.fv) = .ok s ((w.freeV q.fv).vwrite d x) sp) : WritesValue i s w q.fv d x := by
  have hem : (w.freeV q.fv).em = w.em := by rw [freeV_fields]
  obtain ⟨t, w', h1, h2, h3, h4⟩ := issue_vput (d := d) hr hp (congrArg Req.len hq) (congrArg Req.sideWait hq)
    (congrArg Req.drains hq) (congrArg Req.denied hq) (congrArg Req.wv hq) ⟨congrArg Req.wq hq, congrArg Req.fq hq⟩
    (congrArg Req.ignoreEm hq) hb rfl rfl
  exact ⟨t, w', he.trans h1, h2, hem ▸ h3, h4⟩

/-- The same, with a uniform value where every source is uniform. -/
def ShapesValue (i : Instr) (s : State) (w : Wave) (l : List VNum) (d : VNum) : Prop :=
  ∃ x, WritesValue i s w l d x ∧ (uniformSources w i → x.isUni = true)

section
variable {i : Instr} {s : State} {w : Wave} {h : Head} {opc : Nat} {d : VNum} {a b c : VSrc}

theorem vec1_value {g : VReg → VReg} (hr : Open h s w) (he : exec i s = vec1 h opc d a g s) (hp : plainOpc opc = true) :
    WritesValue i s w (frees [a]) d (g (w.src a)) := writesValue_of (q := vreq h opc d [a]) hr he rfl hp rfl

theorem vec2_value {g : VReg → VReg → VReg} (hr : Open h s w) (he : exec i s = vec2 h opc d a b g s) (hp : plainOpc opc = true) :
    WritesValue i s w (frees [a, b]) d (g (w.src a) (w.src b)) := writesValue_of (q := vreq h opc d [a, b]) hr he rfl hp rfl

theorem vec3_value {g : VReg → VReg → VReg → VReg} (hr : Open h s w) (he : exec i s = vec3 h opc d a b c g s)
    (hp : plainOpc opc = true) : WritesValue i s w (frees [a, b, c]) d (g (w.src a) (w.src b) (w.src c)) :=
  writesValue_of (q := vreq h opc d [a, b, c]) hr he rfl hp rfl

theorem vec1_shapes {g : VReg → VReg} (hr : Open h s w) (he : exec i s = vec1 h opc d a g s) (hp : plainOpc opc = true)
    (hu : uniformSources w i → (w.src a).tag = 0) (hg : Keeps1 g) : ShapesValue i s w (frees [a]) d :=
  ⟨_, vec1_value hr he hp, fun h => hg _ (isUni_of_tag (hu h))⟩

theorem vec2_shapes {g : VReg → VReg → VReg} (hr : Open h s w) (he : exec i s = vec2 h opc d a b g s) (hp : plainOpc opc = true)
    (hu : uniformSources w i → (w.src a).tag = 0 ∧ (w.src b).tag = 0) (hg : Keeps2 g) : ShapesValue i s w (frees [a, b]) d :=
  ⟨_, vec2_value hr he hp, fun h => hg _ _ (isUni_of_tag (hu h).1) (isUni_of_tag (hu h).2)⟩

theorem vec3_shapes {g : VReg → VReg → VReg → VReg} (hr : Open h s w) (he : exec i s = vec3 h opc d a b c g s)
    (hp : plainOpc opc = true) (hu : uniformSources w i → (w.src a).tag = 0 ∧ (w.src b).tag = 0 ∧ (w.src c).tag = 0)
    (hg : Keeps3 g) : ShapesValue i s w (frees [a, b, c]) d :=
  ⟨_, vec3_value hr he hp, fun h => hg _ _ _ (isUni_of_tag (hu h).1) (isUni_of_tag (hu h).2.1) (isUni_of_tag (hu h).2.2)⟩

end

/-- What VPERM reads of its first source by an index (R168). -/
def Wave.picks (w : Wave) (a : VSrc) (u : W32) : W32 := if k : u.toNat < 32 then (w.src a).lane ⟨u.toNat, k⟩ else 0

section
variable {s : State} {w : Wave} {h : Head} (hr : Open h s w)
include hr

theorem vlane_value (d : VNum) : WritesValue (.vlane h d) s w [] d vLane :=
  writesValue_of (q := vreq h 0x09B d []) hr rfl rfl rfl rfl

theorem redu_value (d : VNum) (a : VSrc) (op : Aop) :
    WritesValue (.redu h d a op) s w (frees [a]) d (.uni (reduValue op w.em (w.src a))) :=
  writesValue_of (q := vreq h 0x189 d [a]) hr rfl rfl rfl rfl

theorem scan_value (d : VNum) (a : VSrc) (op : Aop) : WritesValue (.scan h d a op) s w (frees [a]) d
    (if w.em = 0xFFFFFFFF then scanValue op w.em (w.src a) else scanLanes op w.em (w.src a)) :=
  writesValue_of (q := vreq h 0x18A d [a]) hr rfl rfl rfl rfl

theorem vperm_value (d : VNum) (a b : VSrc) : WritesValue (.vperm h d a b) s w (frees [a, b]) d
    (match w.src b with
      | .uni u => .uni (w.picks a u)
      | y => .gen (lanesBy (fun l => w.picks a (y.lane l)))) :=
  writesValue_of (q := { vreq h 0x188 d [a, b] with uses := [.picked a b, .through b] }) hr rfl rfl rfl rfl

theorem vbfi_shapes (d : VNum) (a : VSrc) (pos : Fin 32) (wid : Fin 33) : ShapesValue (.vbfi h d a pos wid) s w (frees [a]) d := by
  refine ⟨_, writesValue_of (q := { vreq h 0x098 d [a] with rv := (vreq h 0x098 d [a]).rv ++ [d] }) hr rfl rfl rfl rfl, ?_⟩
  rintro ⟨ha, hd⟩
  exact lift2_keeps _ _ _ (isUni_of_tag ha) (vMov_keeps _ (isUni_of_tag hd))

theorem pack_shapes (d : VNum) (a : VGrp) (f : Fmt) : ShapesValue (.pack h d a f) s w (grpFrees a f.perWord) d := by
  refine ⟨_, writesValue_of (q := { h := h, opc := 0x181, len := 16, rv := groupRegs a.reg f.perWord, wv := [d],
                                    fv := grpFrees a f.perWord }) hr rfl rfl rfl rfl, fun hu => ?_⟩
  rw [if_pos (List.all_eq_true.mpr fun r hm => isUni_of_tag (hu r hm))]
  rfl

end

theorem vec_shapes {i : Instr} {s : State} {w : Wave} {h : Head} {l : List VNum} {d : VNum} {f : Fin 32 → W32}
    (hf : laneResult w i = some (h, l, d, f)) (hr : Open h s w) : ShapesValue i s w l d := by
  cases i <;> cases hf
  case vmov => exact vec1_shapes hr rfl rfl id vMov_keeps
  case vneg => exact vec1_shapes hr rfl rfl id vNeg_keeps
  case vadd => exact vec2_shapes hr rfl rfl id vAdd_keeps
  case vsub => exact vec2_shapes hr rfl rfl id vSub_keeps
  case vmul => exact vec2_shapes hr rfl rfl id vMul_keeps
  case vshl => exact vec2_shapes hr rfl rfl id vShl_keeps
  case vmad => exact vec3_shapes hr rfl rfl id vMad_keeps
  case vnot | vabs | vpopc | vclz | vbfx | fabs | fneg | fclass | ftrunc | ffloor | fceil | cvt | unpk =>
    exact vec1_shapes hr rfl rfl id (lift1_keeps _)
  case fexp2 | flog2 | frcp | frsq | fsin | fcos | ftanh | fsigm | ferf => exact vec1_shapes hr rfl rfl id (lift1_keeps _)
  case vadds | vmulh | vand | vor | vxor | vshr | vsar | vmin | vmax | fadd | fsub | fmul | fmin | fmax =>
    exact vec2_shapes hr rfl rfl id (lift2_keeps _)
  case vsel | vdot4 | vdot8 | ffma | fdot2 | fdot4 => exact vec3_shapes hr rfl rfl id (lift3_keeps _)
  case vmovi imm => exact ⟨.uni imm, writesValue_of (q := vreq h 0x081 d []) hr rfl rfl rfl rfl, fun _ => rfl⟩
  case vlane => exact ⟨_, vlane_value hr d, False.elim⟩
  case vbfi => exact vbfi_shapes hr _ _ _ _
  case pack => exact pack_shapes hr _ _ _
  case vperm => exact ⟨_, vperm_value hr _ _ _, False.elim⟩
  case redu => exact ⟨_, redu_value hr _ _ _, False.elim⟩
  case scan => exact ⟨_, scan_value hr _ _ _, False.elim⟩

/-! ## Affine rows (R134, R168, R169) -/

section
variable {w : Wave} {i : Instr} {h : Head} {l : List VNum} {d : VNum} {r : VReg} {s : State}

theorem affine_value (hem : w.em = 0xFFFFFFFF) (hf : affineResult w i = some (h, l, d, r)) (hr : Open h s w) :
    ∃ x, WritesValue i s w l d x ∧ x.norm = r := by
  cases i <;> simp only [affineResult, reduceCtorEq] at hf
  case vlane => cases hf; exact ⟨_, vlane_value hr d, rfl⟩
  case vmov =>
    split at hf <;> cases hf
    next ha => exact ⟨_, vec1_value hr rfl rfl, by rw [ha]; rfl⟩
  case vneg =>
    split at hf <;> cases hf
    next ha => exact ⟨_, vec1_value hr rfl rfl, by rw [ha]; rfl⟩
  case vadd =>
    split at hf <;> cases hf <;> next ha hb => exact ⟨_, vec2_value hr rfl rfl, by rw [ha, hb]; rfl⟩
  case vsub =>
    split at hf <;> cases hf <;> next ha hb => exact ⟨_, vec2_value hr rfl rfl, by rw [ha, hb]; rfl⟩
  case vmul =>
    split at hf <;> cases hf <;> next ha hb => exact ⟨_, vec2_value hr rfl rfl, by rw [ha, hb]; rfl⟩
  case vshl =>
    split at hf <;> cases hf
    next ha hb => exact ⟨_, vec2_value hr rfl rfl, by rw [ha, hb]; rfl⟩
  case vmad =>
    split at hf <;> cases hf <;> next ha hb hc => exact ⟨_, vec3_value hr rfl rfl, by rw [ha, hb, hc]; rfl⟩
  case redu => cases hf; exact ⟨_, redu_value hr _ _ _, rfl⟩
  case vperm a b =>
    split at hf <;> cases hf
    next u hb =>
      refine ⟨_, vperm_value hr _ _ _, ?_⟩
      rw [hb]
      simp only [Wave.picks, src_lane]
      rfl
  case scan =>
    split at hf <;> cases hf <;> next ha => exact ⟨_, scan_value hr _ _ _, by rw [hem, if_pos rfl, ha]; rfl⟩

end

theorem affineForms : AffineForms := by
  intro i s w h l d r _ hem hf hr
  obtain ⟨x, hx, rfl⟩ := affine_value hem hf hr
  rwa [WritesValue, hem, mergeMask_full] at hx

/-! ## Results that are outstanding (R144, R145) -/

/-- The wave of state `s` after an instruction whose result `r` for vD is outstanding. -/
def outstanding (s : State) (w : Wave) (l : List VNum) (d : VNum) (r : VReg) : Wave :=
  { (w.wrote l d ((w.freeV l).vreg d)) with
    sb := [{ id := s.nextUid, kind := .long, vw := [(d, r)], due := s.clkOf w.core + 24, em := w.em }] }

/-- Instruction `i` completes with `x`, under the mask, outstanding for vD, and with nothing outstanding under an em of 0. -/
def LeavesValue (i : Instr) (s : State) (w : Wave) (l : List VNum) (d : VNum) (x : VReg) : Prop :=
  (w.em = 0 → RunsIn i s { s with nextUid := s.nextUid + 1 } w { w.freeV l with pc := w.pc + 16 }) ∧
  (w.em ≠ 0 → RunsIn i s { s with nextUid := s.nextUid + 1 } w
    (outstanding s w l d (mergeMask w.em ((w.freeV l).vreg d) x)))

section
variable {i : Instr} {s : State} {w : Wave} {h : Head} {opc : Nat} {d : VNum} {a b : VSrc} {src : List VSrc}

theorem leavesValue_of {body : Body} {x : VReg} {sp : Bool} (hr : Open h s w) (he : exec i s = issue (vreq h opc d src) body s)
    (hp : plainOpc opc = true)
    (hb : body s w (w.freeV (frees src)) = .ok { s with nextUid := s.nextUid + 1 } (if w.em = 0 then w.freeV (frees src) else
      (w.freeV (frees src)).addSb s.nextUid (s.clkOf w.core) [(d, mergeMask w.em ((w.freeV (frees src)).vreg d) x)]) sp) :
    LeavesValue i s w (frees src) d x := by
  have hw := freeV_fields (frees src) w
  have hf := fits_open hr (vreq h opc d src) hp rfl rfl rfl
  constructor <;> intro hem
  · rw [if_pos hem] at hb
    refine runs_ok hr.toReady hf he hb rfl rfl (by rw [hw]) (by rw [hw]) (by rw [hw]) ?_
    rw [ended_plain _ _ _ _ hp hr.begins (by rw [hw])]
    simp [Req.writesV, Req.writesQ, hem, vreq, killDefs_nil]
  · rw [if_neg hem] at hb
    refine runs_ok hr.toReady hf he hb rfl rfl (by rw [hw]; rfl) (by rw [hw]; rfl) (by rw [hw]; rfl) ?_
    rw [ended_plain _ _ _ _ hp hr.begins (by rw [hw]; rfl), outstanding, Wave.wrote, vput_vreg]
    rw [hw]
    simp [Req.writesV, Req.writesQ, vreq, Wave.killDefs, Wave.addSb, hr.board]

theorem vecLong2_leaves {f : W32 → W32 → W32} (hr : Open h s w) (he : exec i s = vecLong2 h opc d a b f s)
    (hp : plainOpc opc = true) : LeavesValue i s w (frees [a, b]) d (lift2 f (w.src a) (w.src b)) :=
  leavesValue_of (src := [a, b]) hr he hp rfl

theorem vecLong1_leaves {f : W32 → W32} (hr : Open h s w) (he : exec i s = vecLong1 h opc d a f s)
    (hp : plainOpc opc = true) : LeavesValue i s w (frees [a]) d (lift1 f (w.src a)) :=
  leavesValue_of (src := [a]) hr he hp rfl

end

/-- A remainder by zero leaves the dividend (R154, R159). -/
theorem remTrunc_eq_ite (x y : W32) : remTrunc x y = if y = 0 then x else BitVec.ofInt 32 (Int.tmod x.toInt y.toInt) := by
  split
  · next h => rw [remTrunc_eq_ofInt, h]; simp
  · exact remTrunc_eq_ofInt x y

/-- The value each scoreboarded instruction leaves outstanding, lane by lane, uniform where every source is. -/
theorem long_leaves {i : Instr} {s : State} {w : Wave} {h : Head} {l : List VNum} {d : VNum} {f : Fin 32 → W32}
    (hf : longResult w i = some (h, l, d, f)) (hr : Open h s w) :
    ∃ x, LeavesValue i s w l d x ∧ (∀ k, x.lane k = f k) ∧ (uniformSources w i → x = .uni (f 0)) := by
  have two (g : W32 → W32 → W32) (a b : VSrc) (hu : uniformSources w i → (w.src a).tag = 0 ∧ (w.src b).tag = 0)
      (hg : ∀ k, g (w.laneOf a k) (w.laneOf b k) = f k) :
      (∀ k, (lift2 g (w.src a) (w.src b)).lane k = f k) ∧ (uniformSources w i → lift2 g (w.src a) (w.src b) = .uni (f 0)) := by
    refine ⟨fun k => by rw [lane_lift2, src_lane, src_lane, hg], fun h => ?_⟩
    rw [lift2_uni g (isUni_of_tag (hu h).1) (isUni_of_tag (hu h).2), src_lane, src_lane, hg]
  cases i <;> cases hf
  case vdiv a b => exact ⟨_, vecLong2_leaves hr rfl rfl, two divTrunc a b id fun _ => divTrunc_eq_ofInt _ _⟩
  case vrem a b => exact ⟨_, vecLong2_leaves hr rfl rfl, two remTrunc a b id fun _ => remTrunc_eq_ite _ _⟩
  case fdiv a b => exact ⟨_, vecLong2_leaves hr rfl rfl, two fDiv a b id fun _ => rfl⟩
  case fsqrt a =>
    refine ⟨_, vecLong1_leaves hr rfl rfl, fun k => by rw [lane_lift1, src_lane], fun h => ?_⟩
    rw [lift1_uni fSqrt (isUni_of_tag h), src_lane]

/-- Settles O4: the value outstanding under the mask (`long_leaves`), lane by lane. -/
theorem longResults : Obligations.LongResults := by
  intro i s w h l d f _ hf hr hem
  obtain ⟨x, hx, hl, -⟩ := long_leaves hf hr
  exact ⟨_, hx.2 hem, fun k => by rw [lane_mergeMask, hl, Wave.merged]⟩

theorem uniformShapes : UniformShapes := by
  constructor
  · intro i s w h l d f hwf hem hf hu hr
    obtain ⟨r, hrun, hlane⟩ := vec_writes hwf hf hr
    obtain ⟨x, hx, hux⟩ := vec_shapes hf hr
    have hxr : r = x.norm := by
      rw [runs_wrote_unique hrun hx, hem, mergeMask_full]
    have hlane0 := hlane 0
    rw [hxr, lane_norm, merged_full hem] at hlane0
    rwa [hxr, norm_uni (hux hu), hlane0] at hrun
  · intro i s w h l d f _ hem hf hu hr
    obtain ⟨x, hx, -, hux⟩ := long_leaves hf hr
    have hrun := hx.2 (by rw [hem]; decide)
    rwa [hux hu, hem, mergeMask_full, outstanding] at hrun

theorem maskedShapes : MaskedShapes := by
  constructor
  · intro i s w h l d f _ hf hr
    obtain ⟨x, hx, -⟩ := vec_shapes hf hr
    refine ⟨fun hem => ?_, fun hem hfull => ⟨_, mergeMask_partial hem hfull _ _, hx⟩⟩
    rwa [WritesValue, hem, mergeMask_none, wrote_none hem] at hx
  · intro i s w h l d f _ hf hr
    obtain ⟨x, hx, -⟩ := long_leaves hf hr
    exact ⟨hx.1, fun hem hfull => ⟨_, mergeMask_partial hem hfull _ _, hx.2 hem⟩⟩

/-- Settles O3: the value each instruction writes under the mask (`affine_value`, `vec_shapes`) or leaves outstanding (`long_leaves`),
and what the mask makes of its shape. -/
theorem affineShapes : Obligations.AffineShapes := ⟨affineForms, uniformShapes, maskedShapes⟩

end Sys2Proof.Machine
end

section
/-! PROOF. XPUSH, XPOP, XTOP, XCLR and XDEPTH act on the stacks of active lanes (O7). -/

namespace Sys2Proof.Machine

/-! ## Masks by a test of lanes -/

theorem foldl_laneBit (f : Fin 32 → Bool) (k : Fin 32) : ∀ (ls : List (Fin 32)) (m : Mask),
    (ls.foldl (fun m l => if f l then m ||| (1#32 <<< l.val) else m) m).getLsbD k.val = (m.getLsbD k.val || ls.any (fun l => l == k && f l))
  | [], m => by simp
  | l :: ls, m => by
    rw [List.foldl_cons, foldl_laneBit f k ls, List.any_cons, ← Bool.or_assoc]
    congr 1
    cases hf : f l with
    | false => simp
    | true =>
      have hl := k.isLt
      by_cases h : l = k
      · subst h; simp
      · have hn : l.val ≠ k.val := fun e => h (Fin.ext e)
        have hb : (1#32 <<< l.val).getLsbD k.val = false := by
          rw [BitVec.getLsbD_shiftLeft, BitVec.getLsbD_one]
          simp
          omega
        simp only [if_true, BitVec.getLsbD_or, hb, beq_false_of_ne h, Bool.or_false, Bool.false_and]

/-- Bit k of a mask by a test is the test's answer for lane k. -/
theorem maskOf_getLsbD (f : Fin 32 → Bool) (k : Fin 32) : (maskOf f).getLsbD k.val = f k := by
  rw [maskOf, foldl_laneBit]
  cases h : f k with
  | true => simpa using h
  | false => simpa using h

/-! ## Stacks lane by lane (R149, R181) -/

/-- The stacks after `g` in each active lane, and xst with its bits gathered. -/
def Wave.stacksBy (w : Wave) (g : Fin 32 → List W32 → List W32 × Bool) : Stacks :=
  Vector.ofFn (fun l => if w.em.getLsbD l.val then (g l w.stacksOf[l.val]).1 else w.stacksOf[l.val])

def Wave.xstBy (w : Wave) (g : Fin 32 → List W32 → List W32 × Bool) : Mask :=
  w.xst ||| maskOf (fun l => w.em.getLsbD l.val && (g l w.stacksOf[l.val]).2)

theorem mapStacks_freeV (w : Wave) (l : List VNum) (g : Fin 32 → List W32 → List W32 × Bool) :
    (w.freeV l).mapStacks g = { w.freeV l with stk := some (w.stacksBy g), xst := w.xstBy g } := by
  rw [freeV_fields]
  rfl

section
variable {w : Wave} {g : Fin 32 → List W32 → List W32 × Bool} (k : Fin 32)

theorem stacksBy_get : (w.stacksBy g)[k.val] = if w.em.getLsbD k.val then (g k w.stacksOf[k.val]).1 else w.stacksOf[k.val] := by
  simp [Wave.stacksBy]

theorem xstBy_get : (w.xstBy g).getLsbD k.val =
    if w.em.getLsbD k.val then w.xst.getLsbD k.val || (g k w.stacksOf[k.val]).2 else w.xst.getLsbD k.val := by
  rw [Wave.xstBy, BitVec.getLsbD_or, maskOf_getLsbD]
  cases w.em.getLsbD k.val <;> simp

end

/-! ## Instructions on the stacks -/

section
variable {i : Instr} {q : Req} {body : Body} {s : State} {w : Wave} {d : VNum} {x : VReg} {st : Stacks} {m : Mask} {sp : Bool}

/-- A member of the family that writes stacks and xst alone. -/
theorem stacks_runs {src : List VSrc} {h : Head} {opc : Nat} (hr : Open h s w) (he : exec i s = issue (xreq h opc src) body s)
    (hp : plainOpc opc = true)
    (hb : body s w (w.freeV (frees src)) = .ok s { w.freeV (frees src) with stk := some st, xst := m } sp) :
    Runs i s w { w.freeV (frees src) with pc := w.pc + 16, stk := some st, xst := m } := by
  have hw := freeV_fields (frees src) w
  refine runs_ok hr.toReady (fits_open hr (xreq h opc src) hp rfl rfl rfl) he hb rfl rfl (by rw [hw]) (by rw [hw]) (by rw [hw]) ?_
  exact ended_nowrite (xreq h opc src) w _ _ hp hr.begins (by rw [hw]) rfl rfl

/-- One that writes a vector register beside them. -/
theorem stacks_write (hr : Open q.h s w) (he : exec i s = issue q body s)
    (hq : q = { xreq q.h q.opc [] with wv := [d], su := q.su }) (hp : plainOpc q.opc = true)
    (hb : body s w w = .ok s { w.vwrite d x with stk := some st, xst := m } sp) :
    Runs i s w { w.wrote [] d (mergeMask w.em (w.vreg d) x.norm) with stk := some st, xst := m } := by
  have hfv : q.fv = [] := by rw [hq]; rfl
  have hfq : q.fq = [] := by rw [hq]; rfl
  have hq' : body s w ((w.freeV q.fv).freeQ q.fq) = .ok s { w.vwrite d x with stk := some st, xst := m } sp := by
    rw [hfv, hfq]
    exact hb
  refine runs_ok hr.toReady (fits_open hr q hp (by rw [hq]; rfl) (by rw [hq]; rfl) (by rw [hq]; rfl)) he hq' rfl rfl rfl rfl rfl ?_
  refine (ended_plain q w _ _ hp hr.begins (by rfl)).trans ?_
  have hv : q.writesV w.em = if w.em = 0 then [] else [d] := by rw [hq]; simp [Req.writesV, xreq]
  have hw : q.writesQ w.em = [] := by rw [hq]; simp [Req.writesQ, xreq]
  have hl : q.len = 16 := by rw [hq]; rfl
  rw [hv, hw, hl]
  rfl

end

/-- The stacks, xst and the register written, lane by lane (R181). -/
def StacksAct (i : Instr) (s : State) (w : Wave) (l : List VNum) (f : Fin 32 → List W32) (b : Fin 32 → Bool)
    (o : Option (VNum × (Fin 32 → W32))) : Prop :=
  ∃ (st : Stacks) (xst : Mask) (x : Wave), Runs i s w { x with stk := some st, xst := xst } ∧
    (∀ k : Fin 32, st[k.val] = if w.em.getLsbD k.val then f k else w.stacksOf[k.val]) ∧
    (∀ k : Fin 32, xst.getLsbD k.val = if w.em.getLsbD k.val then b k else w.xst.getLsbD k.val) ∧
    match o with
    | none => x = { w.freeV l with pc := w.pc + 16 }
    | some (d, v) => ∃ r, x = w.wrote l d r ∧ ∀ k, r.lane k = w.merged l d v k

section
variable {i : Instr} {s : State} {w : Wave} {g : Fin 32 → List W32 → List W32 × Bool} {f : Fin 32 → List W32} {b : Fin 32 → Bool}

/-- What XPUSH makes of a stack (R181). -/
def Wave.pushOn (w : Wave) (a : VSrc) (l : Fin 32) (st : List W32) : List W32 × Bool :=
  if st.length = 8 then (st, true) else ((w.src a).lane l :: st, false)

/-- An instruction that does `g` in each active lane and writes `x` under the mask. -/
theorem act_write {q : Req} {body : Body} {d : VNum} {v : Fin 32 → W32} {sp : Bool} (hr : Open q.h s w)
    (he : exec i s = issue q body s) (hq : q = { xreq q.h q.opc [] with wv := [d], su := q.su }) (hp : plainOpc q.opc = true)
    (hb : body s w w = .ok s ((w.mapStacks g).vwrite d (.gen (lanesBy v))) sp) (hf : ∀ k, (g k w.stacksOf[k.val]).1 = f k)
    (hx : ∀ k, (w.xst.getLsbD k.val || (g k w.stacksOf[k.val]).2) = b k) : StacksAct i s w [] f b (some (d, v)) := by
  refine ⟨w.stacksBy g, w.xstBy g, _, stacks_write hr he hq hp hb, fun k => by rw [stacksBy_get, hf],
    fun k => by rw [xstBy_get, hx], _, rfl, fun k => ?_⟩
  rw [lane_mergeMask, lane_norm, lane_gen]
  rfl

end

section
variable {s : State} {w : Wave} {h : Head} (hr : Open h s w)
include hr

theorem xpush_acts (a : VSrc) : StacksAct (.xpush h a) s w (frees [a])
    (fun l => if (w.stacksOf[l.val]).length = 8 then w.stacksOf[l.val] else w.laneOf a l :: w.stacksOf[l.val])
    (fun l => w.xst.getLsbD l.val || decide ((w.stacksOf[l.val]).length = 8)) none := by
  have hpoison : s.poison.filter (fun u => !(match u with
      | .stack x l k => x == w.uid && w.em.getLsbD l.val && decide (k = w.depth l)
      | _ => false)) = s.poison := by
    rw [List.filter_eq_self]
    intro u hu
    cases u with
    | stack x l k =>
      have hx : x ≠ w.uid := fun e => hr.clean _ hu (congrArg some e)
      simp [hx]
    | _ => rfl
  refine ⟨w.stacksBy (w.pushOn a), w.xstBy (w.pushOn a), _,
    stacks_runs (src := [a]) (sp := (w.src a).isUA) hr rfl rfl ?_, fun k => ?_, fun k => ?_, rfl⟩
  · exact congrArg₂ (fun (p : List PoisonUnit) v => Res.ok { s with poison := p } v (w.src a).isUA) hpoison (mapStacks_freeV w _ _)
  · rw [stacksBy_get, Wave.pushOn, src_lane, apply_ite Prod.fst]
  · rw [xstBy_get, Wave.pushOn, apply_ite Prod.snd]
    congr 2

theorem xclr_acts : StacksAct (.xclr h) s w [] (fun _ => []) (fun _ => false) none := by
  refine ⟨w.stacksBy (fun _ _ => ([], false)), w.xst &&& ~~~w.em, _, stacks_runs (src := []) hr rfl rfl rfl, fun k => ?_,
    fun k => ?_, rfl⟩
  · rw [stacksBy_get]
  · rw [BitVec.getLsbD_and, BitVec.getLsbD_not, decide_eq_true k.isLt]
    cases w.em.getLsbD k.val <;> simp

end

theorem stack_acts {i : Instr} {s : State} {w : Wave} {h : Head} {l : List VNum} {f : Fin 32 → List W32} {b : Fin 32 → Bool}
    {o : Option (VNum × (Fin 32 → W32))} (hf : stackResult w i = some (h, l, f, b, o)) (hr : Open h s w) : StacksAct i s w l f b o := by
  cases i <;> cases hf
  case xpush => exact xpush_acts hr _
  case xpop d =>
    refine act_write (q := { xreq h 0x19A [] with wv := [d], su := .top }) hr rfl rfl rfl rfl (fun k => ?_) (fun k => ?_) <;>
      cases w.stacksOf[k.val] <;> rfl
  case xtop d =>
    exact act_write (q := { xreq h 0x19B [] with wv := [d], su := .top }) hr rfl rfl rfl rfl (fun _ => rfl) (fun _ => rfl)
  case xclr => exact xclr_acts hr
  case xdepth d =>
    exact act_write (q := { xreq h 0x19D [] with wv := [d] }) hr rfl rfl rfl rfl (fun _ => rfl) (fun _ => Bool.or_false _)

/-- Settles O7: what each instruction's body makes of a lane's stack, its bit of xst and its value (`stack_acts`). -/
theorem stackInstructions : Obligations.StackInstructions := fun _ _ _ _ _ _ _ _ _ hf hr => stack_acts hf hr

end Sys2Proof.Machine
end

section
/-! PROOF. Scoreboarded results complete (O28). -/

namespace Sys2Proof.Machine

/-! ## Registers written one after another -/

section
variable {α ι β : Type} {put : α → ι → β → α} {get : α → ι → β}

theorem foldl_put_other (hother : ∀ a r x q, q ≠ r → get (put a r x) q = get a q) {q : ι} : ∀ (l : List (ι × β)) (a : α),
    q ∉ l.map (fun x => x.1) → get (l.foldl (fun a x => put a x.1 x.2) a) q = get a q
  | [], _, _ => rfl
  | x :: l, a, h => by
    rw [List.map_cons, List.mem_cons, not_or] at h
    rw [List.foldl_cons, foldl_put_other hother l _ h.2, hother _ _ _ _ h.1]

/-- Where no register is written twice, each holds what was written to it. -/
theorem foldl_put_self (hself : ∀ a r x, get (put a r x) r = x) (hother : ∀ a r x q, q ≠ r → get (put a r x) q = get a q) :
    ∀ (l : List (ι × β)) (a : α), (l.map (fun x => x.1)).Nodup → ∀ x ∈ l, get (l.foldl (fun a x => put a x.1 x.2) a) x.1 = x.2
  | y :: l, a, hn, x, hx => by
    rw [List.map_cons, List.nodup_cons] at hn
    rw [List.foldl_cons]
    rcases List.mem_cons.mp hx with rfl | hx
    · rw [foldl_put_other hother l _ hn.1, hself]
    · exact foldl_put_self hself hother l _ hn.2 x hx

end

/-- The wave with a list of vector registers written, and with one of q registers. -/
def Wave.vputs (w : Wave) (l : List (VNum × VReg)) : Wave := l.foldl (fun w x => w.vput x.1 x.2) w
def Wave.qputs (w : Wave) (l : List (QNum × QReg)) : Wave := l.foldl (fun w x => w.qput x.1 x.2) w

theorem vputs_fields (l : List (VNum × VReg)) : ∀ w : Wave, w.vputs l = { w with v := (w.vputs l).v } := by
  induction l with
  | nil => exact fun _ => rfl
  | cons x l ih => exact fun w => (ih (w.vput x.1 x.2)).trans rfl

theorem qputs_fields (l : List (QNum × QReg)) : ∀ w : Wave, w.qputs l = { w with q := (w.qputs l).q } := by
  induction l with
  | nil => exact fun _ => rfl
  | cons x l ih => exact fun w => (ih (w.qput x.1 x.2)).trans rfl

/-- The wave with the registers of a result written. -/
def Wave.registered (w : Wave) (b : Sb) : Wave := (w.vputs b.vw).qputs b.qw

theorem registered_fields (w : Wave) (b : Sb) : w.registered b = { w with v := (w.registered b).v, q := (w.registered b).q } :=
  (qputs_fields b.qw (w.vputs b.vw)).trans (congrArg (fun x : Wave => { x with q := (w.registered b).q })
    ((vputs_fields b.vw w).trans (congrArg (fun l => { w with v := l }) (congrArg Wave.v (qputs_fields b.qw (w.vputs b.vw))).symm)))

theorem registered_vreg (w : Wave) (b : Sb) (r : VNum) : (w.registered b).vreg r = (w.vputs b.vw).vreg r := by
  rw [Wave.registered, qputs_fields]
  rfl

theorem registered_vreg_other {w : Wave} {b : Sb} {r : VNum} (h : r ∉ b.vw.map (fun x => x.1)) :
    (w.registered b).vreg r = w.vreg r :=
  (registered_vreg w b r).trans (foldl_put_other (fun a r x q => vreg_vput_other a r q x) b.vw w h)

theorem registered_vreg_self {w : Wave} {b : Sb} (hn : (b.vw.map (fun x => x.1)).Nodup) :
    ∀ x ∈ b.vw, (w.registered b).vreg x.1 = x.2 := fun x hx =>
  (registered_vreg w b x.1).trans (foldl_put_self vreg_vput_self (fun a r x q => vreg_vput_other a r q x) b.vw w hn x hx)

theorem registered_qreg_other {w : Wave} {b : Sb} {r : QNum} (h : r ∉ b.qw.map (fun x => x.1)) :
    (w.registered b).qreg r = w.qreg r := by
  have hq : (w.vputs b.vw).qreg r = w.qreg r := by
    rw [vputs_fields]
    rfl
  exact (foldl_put_other (fun a r x q => qreg_qput_other a r q x) b.qw (w.vputs b.vw) h).trans hq

theorem registered_qreg_self {w : Wave} {b : Sb} (hn : (b.qw.map (fun x => x.1)).Nodup) :
    ∀ x ∈ b.qw, (w.registered b).qreg x.1 = x.2 :=
  foldl_put_self qreg_qput_self (fun a r x q => qreg_qput_other a r q x) b.qw (w.vputs b.vw) hn

/-! ## A result that completes -/

/-- The wave with a result written: its registers, stacks and bits, and the result no longer outstanding (R144, R178). -/
def Wave.received (w : Wave) (b : Sb) : Wave :=
  { w.registered b with
    stk := if b.stk.isSome then b.stk else (w.registered b).stk, xst := (w.registered b).xst ||| b.xst,
    vst := (w.registered b).vst ||| b.vst, sb := (w.registered b).sb.filter (fun x => x.id != b.id),
    spilled := (w.registered b).spilled.filter (fun r => !(b.vw.map (fun x => x.1)).contains r) }

theorem received_fields (w : Wave) (b : Sb) : w.received b = { w with
    v := (w.registered b).v, q := (w.registered b).q, stk := if b.stk.isSome then b.stk else w.stk, xst := w.xst ||| b.xst,
    vst := w.vst ||| b.vst, sb := w.sb.filter (fun x => x.id != b.id),
    spilled := w.spilled.filter (fun r => !(b.vw.map (fun x => x.1)).contains r) } := by
  rw [Wave.received, registered_fields]

theorem poisonedStacks_clean {marks : List PoisonUnit} {u : Nat} (h : ∀ p ∈ marks, unitWave p ≠ some u) (st : Stacks) :
    poisonedStacks marks u st = st := by
  have hm : ∀ l k, PoisonUnit.stack u l k ∉ marks := fun l k hc => h _ hc rfl
  apply Vector.ext
  intro i hi
  apply List.ext_getElem (by simp [poisonedStacks, poisonedStack])
  intro j h1 h2
  simp [poisonedStacks, poisonedStack, hm, List.getElem?_eq_getElem h2]

section
variable {s : State} {w : Wave} (hc : ∀ u ∈ s.poison, unitWave u ≠ some w.uid)
include hc

theorem filter_clean {p : PoisonUnit → Bool} (hp : ∀ u, unitWave u ≠ some w.uid → p u = true) : s.poison.filter p = s.poison :=
  List.filter_eq_self.mpr fun u hu => hp u (hc u hu)

theorem writeSb_eq (b : Sb) : s.writeSb w b =
    (let p := spillFit 256 (s.unlatch (w.received b) (b.vw.map (fun x => x.1))) ((w.received b).touch (b.vw.map (fun x => x.1)))
     p.1.putWave p.2) := by
  have huid : (w.registered b).uid = w.uid := by rw [registered_fields]
  have hregs : b.qw.foldl (fun w x => w.qput x.1 x.2) (b.vw.foldl (fun w x => w.vput x.1 x.2) w) = w.registered b := rfl
  simp only [State.writeSb, cleanWords_clean hc, hregs]
  rw [filter_clean hc]
  · cases hstk : b.stk with
    | none =>
      simp only [Wave.received, hstk]
      rfl
    | some t =>
      simp only [Wave.received, hstk, huid, poisonedStacks_clean hc]
      rfl
  · intro u hu
    cases u with
    | stack x l k =>
      have hx : x ≠ w.uid := fun e => hu (congrArg some e)
      cases b.stk <;> simp [huid, hx]
    | _ => rfl

/-- A result's writing leaves its wave as received, but for spills and the order of use, and touches nothing else. -/
theorem writeSb_only (hw : s.wave? w.uid = some w) (b : Sb) :
    ∃ l o, (s.writeSb w b).wave? w.uid = some { w.received b with lru := o, spilled := l } ∧ Only s (s.writeSb w b) w := by
  have huid : (w.received b).uid = w.uid := by rw [received_fields]
  have hcore : (w.received b).core = w.core := by rw [received_fields]
  have hpa : (w.received b).spillPa = w.spillPa := by rw [received_fields]
  have hin := inSpill_congr hpa
  obtain ⟨u1, u2, u3⟩ := unlatch_only s (w.received b) (b.vw.map (fun x => x.1))
  obtain ⟨m, l, ps, e, hm, hp⟩ := spillFit_spec 256 (s.unlatch (w.received b) (b.vw.map (fun x => x.1)))
    ((w.received b).touch (b.vw.map (fun x => x.1)))
  rw [writeSb_eq hc, e]
  rw [hcore] at u2 u3
  generalize s.unlatch (w.received b) (b.vw.map (fun x => x.1)) = t at u1 u2 u3 hm hp ⊢
  refine ⟨l, ((w.received b).touch (b.vw.map (fun x => x.1))).lru, ?_, ⟨by rw [u1]; rfl,
    fun u hu => ?_, fun u hu => ?_, fun a ha => ?_, u2, near_of_ports u3⟩⟩
  · rw [← huid]
    refine wave_putWave_self _ { w.received b with lru := _, spilled := l } ?_
    show (State.wave? _ (w.received b).uid).isSome = true
    rw [huid, u1]
    exact Option.isSome_of_eq_some hw
  · exact (hp u fun b hb => (hin _).not.mpr (hu b hb)).trans (by rw [u1])
  · refine (wave_putWave_other _ _ u (by rw [← huid] at hu; exact hu)).trans (by rw [u1]; rfl)
  · exact (hm a ((hin a).not.mpr ha)).trans (by rw [u1])

end

/-! ## Completion events -/

theorem exec_completion (k : SbKind) (wave id : Nat) (s : State) : exec (completion k wave id) s = .next (s.completeSb k wave id) := by
  cases k <;> rfl

section
variable {w : Wave} {b : Sb} {f g : List Sb} (hsb : w.sb = f ++ b :: g) (hf : ∀ x ∈ f, x.id ≠ b.id)
include hsb hf

theorem find_result : w.sb.find? (fun x => x.id == b.id) = some b := by
  rw [hsb, List.find?_append, List.find?_eq_none.mpr (by simpa using hf)]
  simp

theorem results_before : w.sb.takeWhile (fun x => x.id != b.id) = f := by
  rw [hsb, List.takeWhile_append_of_pos (by simpa using hf)]
  simp

theorem results_left (hg : ∀ x ∈ g, x.id ≠ b.id) : w.sb.filter (fun x => x.id != b.id) = f ++ g := by
  rw [hsb, List.filter_append, List.filter_cons, List.filter_eq_self.mpr (by simpa using hf),
    List.filter_eq_self.mpr (by simpa using hg)]
  simp

/-- An outstanding result whose time has come, of MMAs the oldest, is written by its event (R145, R289). -/
theorem completeSb_eq {s : State} (hw : s.wave? w.uid = some w) (hdue : b.due ≤ s.clkOf w.core)
    (hmma : b.kind = .mma → ∀ x ∈ f, x.kind ≠ .mma) : s.completeSb b.kind w.uid b.id = s.writeSb w b := by
  have hold : ¬(b.kind ≠ b.kind ∨ s.clkOf w.core < b.due ∨
      (b.kind = .mma ∧ (w.sb.takeWhile (fun x => x.id != b.id)).any (fun x => x.kind == .mma) = true)) := by
    rintro (h | h | ⟨hk, h⟩)
    · exact h rfl
    · omega
    · rw [results_before hsb hf, List.any_eq_true] at h
      obtain ⟨x, hx, hm⟩ := h
      exact hmma hk x hx (by simpa using hm)
  simp only [State.completeSb, hw, find_result hsb hf]
  exact if_neg hold

end

/-- Settles O28: the event writes the result (`completeSb_eq`), which leaves its wave as received (`writeSb_only`). -/
theorem resultsComplete : Obligations.ResultsComplete := by
  intro s w b f g hw hsb hf hg hdue hmma hvn hqn hc
  obtain ⟨l, o, h1, h2⟩ := writeSb_only hc hw b
  have he := (exec_completion b.kind w.uid b.id s).trans (congrArg Host.Outcome.next (completeSb_eq hsb hf hw hdue hmma))
  refine ⟨_, _, he, h1, h2, ?_, ?_, registered_vreg_self hvn, registered_qreg_self hqn, fun r hr => registered_vreg_other hr,
    fun r hr => registered_qreg_other hr⟩
  · rw [received_fields, results_left hsb hf hg]
  · rw [received_fields]

end Sys2Proof.Machine
end

section
/-! PROOF. Ramps, core cycles, granted issues and samples (O45). -/

namespace Sys2Proof.Machine

/-! ## Ramps (R277, R318) -/

theorem rampsComplete : RampsComplete := by
  intro s r p n hr
  have he : exec (.rampComplete r) s = .next { s with mod := { s.mod with
      rails := s.mod.rails.set (railIdx r).val { point := p, ramp := none },
      life := { s.mod.life with ramps := s.mod.life.ramps + 1 } } } := by
    show execRampComplete r s = _
    rw [execRampComplete, hr]
  refine ⟨_, he, rfl, by simp, fun k hk => ?_, rfl, rfl, rfl, rfl⟩
  exact Vector.getElem_set_ne (railIdx r).isLt k.isLt fun h => hk (Fin.ext h.symm)

/-! ## Core cycles (R147, R347) -/

/-- A space that no host command waits in has none that can go on (R322, R327, R344). -/
theorem settle_idle {s : State} (h : ∀ a ∈ s.spaces, Idle a) (asid : Nat) : s.settle asid = s := by
  cases hs : s.space? asid with
  | none => simp only [State.settle, State.tryHaltCmd, State.trySave, State.tryTlbi, State.pump, hs]
  | some a =>
    obtain ⟨hh, hv, ht, hc⟩ := h a (List.mem_of_find?_eq_some hs)
    simp only [State.settle, State.tryHaltCmd, State.trySave, State.tryTlbi, State.pump, hs, hh, hv, ht, hc, List.isEmpty_nil,
      if_true]

theorem hostWork_idle {s : State} (h : ∀ a ∈ s.spaces, Idle a) : s.hostWork = s :=
  List.foldlRecOn s.spaces (motive := fun t => t = s) _ rfl fun t ht a _ => by rw [ht]; exact settle_idle h a.asid

/-- A core's record after a cycle (R347). -/
def State.cycled (s : State) (c : CoreId) : CoreSt :=
  let k := s.coreOf c
  let leaves := (List.finRange 4).map (s.slotLeaf c)
  { k with clk := k.clk + 1, ports := s.nextPorts c, window := (0 :: k.window).take 64,
           leaves := Vector.ofFn (fun i => k.leaves[i.val] +
             BitVec.ofNat 64 (if i.val = 13 then 4 else (leaves.filter (fun l => l == i.val)).length)),
           vetchPri := k.vetchPri + 1, arrayWas := k.arrayFree, sampled := false,
           idle := if k.ports.toList.any (fun p => p.issued.isSome) || (s.dieOf c.die).queue.isEmpty then 0 else k.idle + 1 }

theorem exec_coreCycle {s : State} {c : CoreId} (hm : s.mustResume c = false) (hw : s.sampleWaits c = false)
    (hp : ∀ p ∈ (s.coreOf c).ports.toList, p.stall < 16 ∨ p.grant = true) (hi : ∀ a ∈ s.spaces, Idle a) :
    exec (.coreCycle c) s =
      .next (State.putCore { s with waves := modWhere (fun w => w.core == c) (s.nextReady c) s.waves } (s.cycled c)) := by
  have hgo : ¬(s.mustResume c = true ∨ s.sampleWaits c = true ∨
      (s.coreOf c).ports.toList.any (fun p => decide (16 ≤ p.stall) && !p.grant) = true) := by
    rw [hm, hw, List.any_eq_true]
    rintro (h | h | ⟨p, hmem, h⟩)
    · cases h
    · cases h
    · rw [Bool.and_eq_true, decide_eq_true_eq, Bool.not_eq_true'] at h
      rcases hp p hmem with hlt | hg
      · omega
      · rw [hg] at h
        cases h.2
  have hcycle : execCoreCycle c s = .next
      (State.putCore { s with waves := modWhere (fun w => w.core == c) (s.nextReady c) s.waves } (s.cycled c)).hostWork :=
    if_neg hgo
  show execCoreCycle c s = _
  rw [hcycle, hostWork_idle (by rw [putCore_spaces]; exact hi)]

theorem coreCycles {s : State} {c : CoreId} (hm : s.mustResume c = false) (hw : s.sampleWaits c = false)
    (hp : ∀ p ∈ (s.coreOf c).ports.toList, p.stall < 16 ∨ p.grant = true) (hi : ∀ a ∈ s.spaces, Idle a) :
    ∃ u, exec (.coreCycle c) s = .next u ∧ u.clkOf c = s.clkOf c + 1 ∧
      (∀ i : Fin 13, (u.coreOf c).leaves[i.val] = (s.coreOf c).leaves[i.val] +
        BitVec.ofNat 64 (((List.finRange 4).filter (fun p => s.slotLeaf c p == i.val)).length)) ∧
      (u.coreOf c).leaves[13] = (s.coreOf c).leaves[13] + 4 ∧ (u.coreOf c).shadow = (s.coreOf c).shadow ∧ u.mem = s.mem ∧
      ∀ d, d ≠ c → u.coreOf d = s.coreOf d := by
  have hid : (s.cycled c).id = c := coreOf_id s c
  obtain ⟨-, hfar, hnear⟩ := putCore_only { s with waves := modWhere (fun w => w.core == c) (s.nextReady c) s.waves } c
    (s.cycled c) hid
  refine ⟨_, exec_coreCycle hm hw hp hi, ?_, fun i => ?_, ?_, ?_, by rw [putCore_mem], hfar⟩
  · rw [State.clkOf, hnear]
    rfl
  · have hne : i.val ≠ 13 := by omega
    rw [hnear]
    simp [State.cycled, hne, List.filter_map, Function.comp_def]
  · rw [hnear]
    simp [State.cycled]
  · rw [hnear]
    rfl

/-! ## Samples (R349, R350) -/

theorem field_eq (x : Word) (lo n : Nat) : field x lo n = x.toNat / 2 ^ lo % 2 ^ n := by
  rw [field, BitVec.toNat_ushiftRight, Nat.shiftRight_eq_div_pow]

theorem pageBase_toNat (x : Word) : (x &&& ~~~(0xFFF : Word)).toNat = x.toNat / 4096 * 4096 := by
  have h : x &&& ~~~(0xFFF : Word) = (x >>> 12) <<< 12 := by
    have hm : ~~~(0xFFF : Word) = BitVec.allOnes 64 <<< 12 := by decide
    rw [hm]
    apply BitVec.eq_of_getLsbD_eq
    intro i hi
    simp only [BitVec.getLsbD_and, BitVec.getLsbD_shiftLeft, BitVec.getLsbD_allOnes, BitVec.getLsbD_ushiftRight]
    by_cases h12 : i < 12
    · simp [h12]
    · have hlt : i - 12 < 64 := by omega
      simp [h12, hi, hlt, Nat.add_sub_cancel' (Nat.not_lt.mp h12)]
  rw [h]
  have := x.isLt
  simp only [BitVec.toNat_shiftLeft, BitVec.toNat_ushiftRight, Nat.shiftLeft_eq, Nat.shiftRight_eq_div_pow, Nat.reducePow]
  omega

theorem waveName_length (w : Option Wave) (pc : Wave → Word) : (waveName w pc).length = 16 := by
  cases w <;> rfl

/-- The machine with a sample's record written to the space's ring, its count up by one, and the core's next sample due (R349). -/
def State.afterSample (s : State) (c : CoreId) (a : Space) (bytes : List Byte) : State :=
  let base := (a.eb[0x32] &&& ~~~0xFFF).toNat
  let ofs := 64 * (a.smpCount % 2 ^ field a.eb[0x32] 0 4)
  let x := s.samplerOf c a
  let t := (s.storeM [.root] (areaKey a.smpKeys base ofs) (areaPa a.smpPa base ofs) bytes).putSpace
    { a with smpCount := a.smpCount + 1 }
  t.putCore { t.coreOf c with
    sampled := true, samplers := { x with lfsr := lfsrNext x.lfsr, next := s.clkOf c + field a.eb[0x31] 0 32 } ::
      (t.coreOf c).samplers.filter (fun y => y.asid != a.asid) }

theorem exec_sample {s : State} {c : CoreId} {a : Space} (hdue : s.sampleDue c = some a) (hjit : field a.eb[0x31] 48 4 = 0) :
    ∃ bytes, bytes.length = 64 ∧ bytes.take 4 = leOf 4 (a.smpCount + 1) ∧
      exec (.sample c) s = .next (s.afterSample c a bytes) := by
  refine ⟨?bytes, ?length, ?count, ?step⟩
  case step =>
    show execSample c s = _
    unfold execSample
    rw [hdue]
    dsimp only
    rw [hjit, if_pos rfl]
    rfl
  case length => simp [leOf, waveName_length]
  case count => rfl

theorem samplerOf_asid (s : State) (c : CoreId) (a : Space) : (s.samplerOf c a).asid = a.asid := by
  unfold State.samplerOf
  split
  · next h => simpa using List.find?_some h
  · rfl

theorem samplerOf_putCore {s : State} {k : CoreSt} {c : CoreId} {a : Space} {x : Sampler} {l : List Sampler} (hk : k.id = c)
    (hs : k.samplers = x :: l) (hx : x.asid = a.asid) : (s.putCore k).samplerOf c a = x := by
  obtain ⟨-, -, hcore⟩ := putCore_only s c k hk
  have hfind : (x :: l).find? (fun y => y.asid == a.asid) = some x := List.find?_cons_of_pos (beq_iff_eq.mpr hx)
  rw [State.samplerOf, hcore, hs, hfind]

/-- A sample whose record lies in M, under the ring's key (R349, R367). -/
theorem sampled_inM {s : State} {c : CoreId} {a : Space} {bytes : List Byte} (ha : s.space? a.asid = some a)
    (hin : InM s (areaKey a.smpKeys (a.eb[0x32].toNat / 4096 * 4096) (64 * (a.smpCount % 2 ^ (a.eb[0x32].toNat % 16))))
      (areaPa a.smpPa (a.eb[0x32].toNat / 4096 * 4096) (64 * (a.smpCount % 2 ^ (a.eb[0x32].toNat % 16)))) bytes.length) :
    let u := s.afterSample c a bytes
    u.mem = s.mem.writeAll (bytesAt (areaPa a.smpPa (a.eb[0x32].toNat / 4096 * 4096)
      (64 * (a.smpCount % 2 ^ (a.eb[0x32].toNat % 16)))) bytes) ∧
    u.space? a.asid = some { a with smpCount := a.smpCount + 1 } ∧
    u.samplerOf c a = { s.samplerOf c a with lfsr := lfsrNext (s.samplerOf c a).lfsr,
                                             next := s.clkOf c + a.eb[0x31].toNat % 2 ^ 32 } := by
  obtain ⟨cs, tags, ps, seen, f, -, hstore⟩ := storeM_inM hin [.root]
  have hlog : field a.eb[0x32] 0 4 = a.eb[0x32].toNat % 16 := by simp [field_eq]
  have hper : field a.eb[0x31] 0 32 = a.eb[0x31].toNat % 2 ^ 32 := by rw [field_eq, Nat.pow_zero, Nat.div_one]
  simp only [State.afterSample, hlog, hper, pageBase_toNat, hstore]
  refine ⟨by rw [putCore_mem]; rfl, ?_, ?_⟩
  · rw [State.space?, putCore_spaces]
    exact space_putSpace_self _ { a with smpCount := a.smpCount + 1 } (Option.isSome_of_eq_some ha)
  · exact samplerOf_putCore (coreOf_id _ c) rfl (samplerOf_asid s c a)

/-- Settles O45: what each event leaves (`rampsComplete`, `coreCycles`, `exec_sample`). -/
theorem clocksAndRamps : Obligations.ClocksAndRamps := by
  refine ⟨rampsComplete, fun s c hm hw hp hi => coreCycles hm hw hp hi, fun s c p h => ?_, fun s c a hdue ha hjit hin => ?_⟩
  · exact congrArg Host.Outcome.next (if_pos h)
  · obtain ⟨bytes, hlen, hcount, he⟩ := exec_sample hdue ((field_eq _ _ _).trans hjit)
    obtain ⟨hmem, hspace, hsampler⟩ := sampled_inM (c := c) (bytes := bytes) ha (hlen.symm ▸ hin)
    exact ⟨_, bytes, he, hlen, hcount, hmem, hspace, congrArg Sampler.next hsampler, congrArg Sampler.lfsr hsampler⟩

end Sys2Proof.Machine
end

section
/-! PROOF. A load of a wave that has a store in the side log (R62, R189, R190): the lookup that comes before its accesses takes an
identity for the translation it adds, so that the load's own identities are later ones than the statement of O9 names. -/

namespace Sys2Proof.Machine

/-! ## Where a load's pending result gets its identity -/

/-- The result a load adds is named by the count of identities it starts from. -/
theorem loadIssue_named (s : State) (w v : Wave) (h : Shared) (o : Nat) (r : Reach) (xs : List Want) (dest : DefDest) :
    ∃ d : Def, (loadIssue s w v h o r xs dest).2 = { v with defs := v.defs ++ [d] } ∧ d.id = s.nextUid := by
  unfold loadIssue
  refine ⟨_, rfl, ?_⟩
  split <;> rfl

theorem placeAll_keeps (w : Wave) (h : Shared) (r : Reach) (pg : List (Nat × PageRes)) (hold : Bool) : ∀ (xs : List Want) (s : State),
    (placeAll w h r pg hold xs s).1.poison = s.poison ∧ (placeAll w h r pg hold xs s).1.waves = s.waves
  | [], _ => ⟨rfl, rfl⟩
  | x :: xs, s => by
    have ih := placeAll_keeps w h r pg hold xs
    simp only [placeAll]
    split
    · exact ih _
    · split
      · exact ih _
      · split <;> exact ih _
      · exact ih _

theorem same_defs {w x : Wave} (h : w.same x) : w.defs = x.defs := by
  unfold Wave.same at h
  rw [h]

/-- Where faults are logged, the waves and the poison of the state stand as it found them. -/
theorem loadIssue_keeps {s : State} {w : Wave} (v : Wave) (h : Shared) (o : Nat) (r : Reach) (xs : List Want) (dest : DefDest)
    (hl : ∃ a, s.spaceOf w = some a ∧ field a.fltCfg 0 4 ≠ 0) :
    (loadIssue s w v h o r xs dest).1.poison = s.poison ∧ (loadIssue s w v h o r xs dest).1.waves = s.waves := by
  have looked := (pages_spec w h.need o (s.fresh.2.pagesOf w r xs) s.fresh.2 hl).1.same
  obtain ⟨hp, hw⟩ := placeAll_keeps w { h with defId := some s.fresh.1 } r
    (s.fresh.2.pages w h.need true o (s.fresh.2.pagesOf w r xs)).2 true xs
    (s.fresh.2.pages w h.need true o (s.fresh.2.pagesOf w r xs)).1
  have poison := congrArg State.poison looked
  have waves := congrArg State.waves looked
  exact ⟨hp.trans poison, hw.trans waves⟩

/-- Beside a standing entry a load goes on from the state that its lookups leave. -/
theorem sideGate_looked {s : State} {w : Wave} {r : Reach} {n : Need} {xs : List Want} (k : State → Res) (hp : w.pends = [])
    (hx : xs ≠ []) (hs : s.sideOf w.uid ≠ []) (ho : (s.sideOf w.uid).any (fun e => e.ord == .sc) = false)
    (hm : ∀ p ∈ (s.pages w n false 0 (s.pagesOf w r xs)).2, ∀ x, p.2 = .ok x → x.leaf.mt ≠ 3) :
    sideGate s w r n xs k = k (s.pages w n false 0 (s.pagesOf w r xs)).1 := by
  have e1 : (s.sideOf w.uid).isEmpty = false := by simpa using hs
  have e2 : xs.isEmpty = false := by simpa using hx
  simp only [sideGate, hp, List.filterMap_nil, List.isEmpty_nil, List.any_nil, Bool.true_and, e1, e2, Bool.or_false, ho,
    Bool.false_eq_true, if_false]
  rw [if_neg]
  rw [Bool.not_eq_true, List.any_eq_false]
  intro p hp
  split
  · next x hx => simpa using hm p hp x hx
  · simp

theorem memGate_passes {s t : State} {w : Wave} {o align : Nat} {r : Reach} {n : Need} {rd wr : Bool} {xs : List Want}
    (hg : ∀ k, sideGate s w r n xs k = k t) (ha : t.addrTrap w o r xs align = none) (hw : t.watch w o r rd wr false xs = none)
    (k : State → Res) : memGate s w o r n rd wr xs align k = k t := by
  simp only [memGate, hg, ha, hw]

/-! ## A wave with a store in the side log, over a page table of one page -/

/-- A plain store of the wave that waits for a page of its own. -/
def waitingStore : SideEntry :=
  { id := 0, wave := 3, core := ⟨0, 0, 0⟩, loc := 0, grid := 0, pc := placedPc, seq := 0, instr := 0, asid := 0, page := 1,
    user := true, ord := .plain, level := 5, evp := 0, rmw := none, lanes := [], fault := 0 }

/-- The wave of the placed program. -/
abbrev storeWave : Wave := placedWave 3 1

/-- The space of the placed program, its faults logged. -/
def loggedSpace : Space := { asid := 0, ptb := BitVec.ofNat 64 placedRoot, fltCfg := 4 }

/-- The machine of a placed program, whose wave has a store in the side log and whose core has no translation yet. -/
def storeWaits : State :=
  { State.placeProgram { nextUid := 0, mod := { ready := true } } [] with cur := 3, spaces := [loggedSpace], side := [waitingStore] }

/-- LD v1 from address 0 in every lane. -/
def oneLoad : Instr := .ld ⟨.always, false⟩ 1 ⟨0, .sca 0, 0⟩ .w ⟨.plain, 5, 0⟩

def oneCall : Call := loadCall storeWave ⟨.always, false⟩ 1 ⟨0, .sca 0, 0⟩ .w ⟨.plain, 5, 0⟩ (.virtual true) 1

def placedLeaf : Leaf := leafOfEntry (placedFrame + 0x3F) true

theorem storeWaits_ready : Open ⟨.always, false⟩ storeWaits storeWave where
  current := rfl
  guard := rfl
  clean u hu := by cases hu
  unhit := by decide +kernel
  unhitPc := by decide +kernel
  begins := rfl
  marked h := by cases h
  pipe := by decide +kernel
  sfu := by decide +kernel
  board := rfl
  whole := rfl

/-- A table entry reads as M has it, whatever free values are drawn. -/
theorem storeWaits_entry (n : Nat) (path : List NodeId) {a : Nat} (ha : a < 0x5000000000) :
    ({ storeWaits with drawn := n } : State).readEntry path a = (leVal (storeWaits.mem.readN a 8), { storeWaits with drawn := n }) :=
  readEntry_plain path rfl rfl rfl (fun i hi => by
    constructor
    · simp [State.reachable, storeWaits, State.placeProgram]; omega
    · simp [deviceWindow]; omega)

theorem storeWaits_tables : rootEntry (leVal (storeWaits.mem.readN placedRoot 8)) = .table placedTable ∧
    storeWaits.midEntry (leVal (storeWaits.mem.readN placedTable 8)) = .leaf placedLeaf := by decide +kernel

/-- The table leads from address 0 to the one page. -/
theorem storeWaits_walk (n : Nat) (path : List NodeId) :
    ({ storeWaits with drawn := n } : State).walk path placedRoot 0 = ({ storeWaits with drawn := n }, .ok placedLeaf) := by
  obtain ⟨e2, e1⟩ := storeWaits_tables
  have e1 : ({ storeWaits with drawn := n } : State).midEntry (leVal (storeWaits.mem.readN placedTable 8)) = .leaf placedLeaf := e1
  simp only [State.walk, Nat.zero_div, Nat.zero_mod, Nat.mul_zero, Nat.add_zero]
  rw [if_neg (by decide), storeWaits_entry n path (by decide)]
  simp only [e2]
  rw [storeWaits_entry n path (by decide)]
  simp only [e1]

/-- So every translation of it is that page's, which is a normal one. -/
theorem storeWaits_leads {l : Leaf} (h : Leads storeWaits storeWave 0 l) : l.mt = 0 := by
  rcases h with ⟨e, he, _⟩ | ⟨a, n, ha, hl⟩
  · cases he
  · cases (show some loggedSpace = some a from ha)
    have hw := congrArg Prod.snd (storeWaits_walk n (corePath storeWave.core))
    cases hw.symm.trans hl
    decide

theorem oneCall_wants : ∀ x ∈ oneCall.wants, x.va = 0 := by decide +kernel

theorem oneCall_pages : ∀ x ∈ oneCall.parts,
    storeWaits.region storeWave oneCall.reach (BitVec.ofNat 64 x.va) = .page := by decide +kernel

theorem oneCall_unwatched (x : Want) : ¬wantWatched storeWaits storeWave oneCall x := by
  rintro ⟨a, ha, _, n, hn⟩
  cases (show some loggedSpace = some a from ha)
  have h : ∀ n : Fin 8, loggedSpace.eb[32 + n.val].getLsbD 63 = false := by decide
  simp only [State.wpHit, h n, Bool.false_and, Bool.false_eq_true] at hn

/-- The store in the side log lets the load go on. -/
theorem oneCall_clear : Clear storeWaits storeWave oneCall where
  addrs := by decide +kernel
  halves x hx d h := by
    rw [oneCall_pages x hx] at h
    cases h
  free x _ := oneCall_unwatched x
  logged := ⟨loggedSpace, rfl, by decide⟩
  pends := rfl
  defs := by decide
  room := by decide +kernel
  side e he _ := by
    cases List.mem_singleton.mp he
    exact ⟨by decide, by decide, by decide, fun x hx _ l hl h3 => by
      rw [oneCall_wants x hx] at hl
      simp [storeWaits_leads hl] at h3⟩

/-! ## What the load comes to -/

/-- What LD does once it issues. -/
def ldBody (d : VNum) (m : MemOp) (sz : Szt) (o : MMod) : Body := fun s w v =>
  memGate s w 0x200 (.virtual true) .read true false (wantsOf w m 1 (sztBytes sz) (fun _ => [])) (sztBytes sz) (fun s =>
    let q := loadIssue s.position.2 w v
      { kind := .load, need := .read, ord := o.ord, level := o.scope.val, evp := o.evp.val, instr := s.position.1 } 0x200 (.virtual true)
      (splitWants (wantsOf w m 1 (sztBytes sz) (fun _ => []))) (.vload d sz (w.sameAddr m.index))
    .ok q.1 q.2 (w.sameAddr m.index && (w.em == 0xFFFFFFFF || w.em == 0)))

theorem exec_ld (h : Head) (d : VNum) (m : MemOp) (sz : Szt) (o : MMod) :
    exec (.ld h d m sz o) = issue (mreq h 0x200 m.base m.index o.ord) (ldBody d m sz o) := rfl

/-- The state that the gate's lookups leave. -/
def storeWaitsLooked : State := (storeWaits.pages storeWave .read false 0 [0]).1

/-- The lookup of the page takes an identity. -/
theorem storeWaitsLooked_uid : storeWaitsLooked.nextUid = storeWaits.nextUid + 1 := by decide +kernel

theorem storeWaitsLooked_logged :
    ∃ a, storeWaitsLooked.position.2.spaceOf storeWave = some a ∧ field a.fltCfg 0 4 ≠ 0 := by
  have h : (storeWaitsLooked.position.2.spaceOf storeWave).any (fun a => decide (field a.fltCfg 0 4 ≠ 0)) = true := by
    decide +kernel
  obtain ⟨a, ha, hf⟩ := (Option.any_eq_true _ _).mp h
  exact ⟨a, ha, of_decide_eq_true hf⟩

def oneLoadShared : Shared :=
  { kind := .load, need := .read, ord := .plain, level := 5, evp := 0, instr := storeWaitsLooked.nextUid }

/-- The load as it issues from there. -/
def oneLoadIssued : State × Wave :=
  loadIssue storeWaitsLooked.position.2 storeWave storeWave oneLoadShared 0x200 (.virtual true) oneCall.parts
    (.vload 1 .w true)

/-- The gate lets the load through, in the state of its lookups. -/
theorem oneLoad_gate (k : State → Res) :
    memGate storeWaits storeWave 0x200 (.virtual true) .read true false oneCall.wants 4 k = k storeWaitsLooked := by
  have pages : storeWaits.pagesOf storeWave (.virtual true) oneCall.wants = [0] := by decide +kernel
  have found : (storeWaits.pages storeWave .read false 0 [0]).2 =
      [(0, .ok ⟨placedFrame, placedLeaf, ⟨0, 0, 0, some 50000⟩⟩)] := by decide +kernel
  have addr : storeWaitsLooked.addrTrap storeWave 0x200 (.virtual true) oneCall.wants 4 = none := by decide +kernel
  have watch : storeWaitsLooked.watch storeWave 0x200 (.virtual true) true false false oneCall.wants = none := by
    decide +kernel
  have strong : ∀ p ∈ (storeWaits.pages storeWave .read false 0 [0]).2, ∀ x, p.2 = .ok x → x.leaf.mt ≠ 3 := by
    rw [found]
    rintro p hp x hx
    cases List.mem_singleton.mp hp
    cases hx
    decide
  refine memGate_passes (fun k => ?_) addr watch k
  rw [sideGate_looked k rfl (by decide +kernel) (by decide) (by decide) (by rw [pages]; exact strong), pages]
  rfl

theorem oneLoad_body :
    ldBody 1 ⟨0, .sca 0, 0⟩ .w ⟨.plain, 5, 0⟩ storeWaits storeWave storeWave =
      .ok oneLoadIssued.1 oneLoadIssued.2 true := oneLoad_gate _

theorem oneLoad_fits : Req.Fits (mreq ⟨.always, false⟩ 0x200 0 (.sca 0) .plain) storeWaits storeWave where
  priv h := by cases h
  switch h := by cases h
  side := rfl
  entries := by decide
  board := rfl
  drains h := by cases h
  whole _ _ h := by cases h
  allowed := rfl

/-- So the result it leaves is named two identities later than the instruction began. -/
theorem oneLoad_named : ∃ t w' d, exec oneLoad storeWaits = .next t ∧ t.wave? storeWaits.cur = some w' ∧ w'.defs = [d] ∧
    d.id = storeWaits.nextUid + 2 := by
  obtain ⟨d, hv, hid⟩ := loadIssue_named storeWaitsLooked.position.2 storeWave storeWave oneLoadShared 0x200
    (.virtual true) oneCall.parts (.vload 1 .w true)
  have hv : oneLoadIssued.2 = { storeWave with defs := [d] } := hv
  obtain ⟨hp, hw⟩ := loadIssue_keeps storeWave oneLoadShared 0x200 (.virtual true) oneCall.parts (.vload 1 .w true)
    storeWaitsLooked_logged
  have clean : oneLoadIssued.1.poison = [] := hp.trans (by decide +kernel)
  have stands : (oneLoadIssued.1.wave? 3).isSome = true := by
    have waves : oneLoadIssued.1.waves = storeWaitsLooked.position.2.waves := hw
    rw [State.wave?, waves]
    decide +kernel
  obtain ⟨t, w', he, hw, hs, _⟩ := issue_ok storeWaits_ready.toReady oneLoad_fits oneLoad_body (by simp [clean])
    (by rw [hv]) (by rw [hv]) (by rw [hv]) stands
  refine ⟨t, w', d, (congrFun (exec_ld _ _ _ _ _) _).trans he, hw, ?_, hid.trans ?_⟩
  · calc w'.defs = (ended (mreq ⟨.always, false⟩ 0x200 0 (.sca 0) .plain) _ oneLoadIssued.2 _).defs := same_defs hs
      _ = oneLoadIssued.2.defs := rfl
      _ = [d] := congrArg Wave.defs hv
  · show storeWaitsLooked.nextUid + 1 = _
    rw [storeWaitsLooked_uid]

/-- Refutes O9: a load of a wave with a store in the side log, on a page its die holds no translation of, leaves a result named
`nextUid + 2` (`oneLoad_named`), since the lookup before its accesses (R190) takes an identity first, and not `nextUid + 1`. -/
theorem not_deferredIssue : ¬ Obligations.DeferredIssue := by
  unfold Obligations.DeferredIssue
  intro h
  obtain ⟨n, k, l, tl, fl, cl, ⟨t, w', he, hw, hs, _⟩, _⟩ :=
    h oneLoad storeWaits storeWave oneCall _ rfl rfl rfl storeWaits_ready oneCall_clear
  obtain ⟨u, w'', d, ge, gw, gd, gid⟩ := oneLoad_named
  cases he.symm.trans ge
  cases hw.symm.trans gw
  have named : [_] = [d] := (same_defs hs).symm.trans gd
  rw [← List.singleton_inj.mp named] at gid
  exact absurd gid (by simp)

end Sys2Proof.Machine
end
